-- ==== Sys2Proof/Word.lean ====
section
/-! DEFINITION. The words of GAP-SEE: what a bus access moves, what a byte-packed RAM holds, and the f32 pattern. -/

namespace Sys2Proof

/-- A 32-bit word: the unit of every legal bus access (20_memory.md R102) and of a command (30_encoding.md R130). -/
abbrev Word := BitVec 32

/-- One byte of a byte-packed RAM (20_memory.md R107). -/
abbrev Byte := BitVec 8

/-- An IEEE 754 binary32 bit pattern: bit 31 sign, bits 30:23 biased exponent, bits 22:0 fraction (00_scope.md R8). -/
abbrev F32 := BitVec 32

end Sys2Proof
end

