-- ==== Sys2Proof/Syntax.lean ====
section
/-! DEFINITION. The commands of GAP-SEE, one constructor per row of spec/opcode_table.json (30_encoding.md R131). -/

namespace Sys2Proof

/-- A command. RC_ENC's symbol is the only operand a command word carries (30_encoding.md R132); every other operand is
an implicit register or RAM (20_memory.md R116). -/
inductive Instr where
  | nop
  | grad
  | fftFwd
  | fftInv
  | pltmFwd
  | pltmInv
  | thresh
  | rcInitEnc
  | rcEnc (sym : Byte)
  | rcFinish
  | rcInitDec
  | rcDec
  | quant
  | dequant
  deriving DecidableEq, Repr

end Sys2Proof
end

