-- ==== Sys2Proof/WellFormed.lean ====
section
/-! DEFINITION. Which command words are legal (30_encoding.md R133, R134), and which commands are well formed. -/

namespace Sys2Proof

/-- The opcodes that carry no argument: every defined OPC but RC_ENC's (30_encoding.md R131). -/
def plainOpcodes : List Word :=
  [0x00, 0x10, 0x20, 0x21, 0x22, 0x23, 0x24, 0x30, 0x32, 0x38, 0x39, 0x40, 0x41]

/-- RSVD is zero (30_encoding.md R133). -/
def rsvdZero (w : Word) : Bool := w.extractLsb' 16 16 == 0#16

/-- OPC is not reserved (30_encoding.md R131). -/
def opcDefined (w : Word) : Bool := (w &&& 0xFF#32) == 0x31#32 || plainOpcodes.contains (w &&& 0xFF#32)

/-- ARG is zero, or the command is RC_ENC (30_encoding.md R132). -/
def argAllowed (w : Word) : Bool := (w &&& 0xFF#32) == 0x31#32 || w.extractLsb' 8 8 == 0#8

/-- The formal definition of a legal word that closes 30_encoding.md R134. -/
def legalWord (w : Word) : Bool :=
  (plainOpcodes.contains (w &&& 0xFFFF00FF#32) && w.extractLsb' 8 8 == 0#8) || (w &&& 0xFFFF00FF#32) == 0x31#32

/-- A command is well formed. The only operand is RC_ENC's symbol, whose type already holds it to 0..255
(30_encoding.md R132), so no constructor needs a further check. -/
def Instr.wellFormed : Instr → Bool
  | .nop => true
  | .grad => true
  | .fftFwd => true
  | .fftInv => true
  | .pltmFwd => true
  | .pltmInv => true
  | .thresh => true
  | .rcInitEnc => true
  | .rcEnc _ => true
  | .rcFinish => true
  | .rcInitDec => true
  | .rcDec => true
  | .quant => true
  | .dequant => true

end Sys2Proof
end

