-- ==== Sys2Proof/Decode.lean ====
section
/-! DEFINITION. Decoding a command word (30_encoding.md R130 to R135), total, rejecting by name; and its encoder. -/

namespace Sys2Proof

/-- Why a word is no command (30_encoding.md R134). All three are one error to the host, ILLEGAL. -/
inductive DecodeError where
  /-- RSVD is not zero (R133). -/
  | rsvdNonzero
  /-- OPC is one of the 242 reserved values (R131). -/
  | reservedOpc
  /-- ARG is not zero on a command without an argument (R132). -/
  | argNonzero
  deriving DecidableEq, Repr

/-- OPC, bits 7:0 (R130). -/
def opcField (w : Word) : Byte := w.extractLsb' 0 8

/-- ARG, bits 15:8 (R130). -/
def argField (w : Word) : Byte := w.extractLsb' 8 8

/-- RSVD, bits 31:16 (R130). -/
def rsvdField (w : Word) : BitVec 16 := w.extractLsb' 16 16

/-- The opcode map of R131: the command of an OPC value, given ARG; `none` for a reserved OPC. -/
def ofOpcode (opc arg : Byte) : Option Instr :=
  match opc.toNat with
  | 0x00 => some .nop
  | 0x10 => some .grad
  | 0x20 => some .fftFwd
  | 0x21 => some .fftInv
  | 0x22 => some .pltmFwd
  | 0x23 => some .pltmInv
  | 0x24 => some .thresh
  | 0x30 => some .rcInitEnc
  | 0x31 => some (.rcEnc arg)
  | 0x32 => some .rcFinish
  | 0x38 => some .rcInitDec
  | 0x39 => some .rcDec
  | 0x40 => some .quant
  | 0x41 => some .dequant
  | _ => none

/-- ARG is used only by RC_ENC (R132). -/
def Instr.usesArg : Instr → Bool
  | .rcEnc _ => true
  | _ => false

/-- Decode a command word: the command, or the first reason of R134 that makes it illegal. -/
def decode (w : Word) : Except DecodeError Instr :=
  if rsvdField w ≠ 0#16 then .error .rsvdNonzero
  else
    match ofOpcode (opcField w) (argField w) with
    | none => .error .reservedOpc
    | some i => if argField w = 0#8 ∨ i.usesArg = true then .ok i else .error .argNonzero

/-- The OPC value of a command (R131). -/
def Instr.opcode : Instr → Byte
  | .nop => 0x00
  | .grad => 0x10
  | .fftFwd => 0x20
  | .fftInv => 0x21
  | .pltmFwd => 0x22
  | .pltmInv => 0x23
  | .thresh => 0x24
  | .rcInitEnc => 0x30
  | .rcEnc _ => 0x31
  | .rcFinish => 0x32
  | .rcInitDec => 0x38
  | .rcDec => 0x39
  | .quant => 0x40
  | .dequant => 0x41

/-- The ARG value of a command: RC_ENC's symbol, else 0 (R132). -/
def Instr.arg : Instr → Byte
  | .rcEnc sym => sym
  | _ => 0

/-- The command word: RSVD, ARG and OPC from the high bits down (R130). -/
def encode (i : Instr) : Word := 0#16 ++ i.arg ++ i.opcode

/-- The word of the opcode table's numbering: the low `nbits` bits of `w`, every bit above them 0. -/
def tableWord (nbits w : Nat) : Word := BitVec.ofNat 32 (w % 2 ^ nbits)

/-- The instruction the decoder reads from an instruction whose bits are `w`, as spec/opcode_table.json numbers them.
A command is one 32-bit word, which the host writes to CMD whole (R130). -/
def decodeTableWord (nbits w : Nat) : Option Instr :=
  match decode (tableWord nbits w) with
  | .ok i => some i
  | .error _ => none

end Sys2Proof
end

