-- ==== Sys2Proof/Machine/Float.lean ====
section
/-! DEFINITION. Binary32 arithmetic (00_scope.md R8 to R13). Every finite f32 is a whole number of units of 2^-149.
Each primitive computes on such integers exactly and narrows once at the end, through the one rounding function. -/

namespace Sys2Proof.Machine

/-- Bit 31. -/
def signBit (a : F32) : Bool := a.getLsbD 31

/-- Bits 30:0 as a number: it grows with the magnitude of the value. -/
def magBits (a : F32) : Nat := a.toNat % 2 ^ 31

/-- All exponent bits set and a fraction that is not zero. -/
def isNaN (a : F32) : Bool := decide (0x7F800000 < magBits a)

/-- Plus or minus infinity. -/
def isInf (a : F32) : Bool := magBits a == 0x7F800000

/-- Plus or minus zero. -/
def isZero (a : F32) : Bool := magBits a == 0

/-- Neither NaN nor infinite. -/
def isFinite (a : F32) : Bool := decide (magBits a < 0x7F800000)

/-- The canonical quiet NaN of R10. -/
def qNaN : F32 := 0x7FC00000#32

/-- The magnitude bits of infinity. -/
def infMag : Nat := 0x7F800000

/-- A pattern from its sign and its magnitude bits. -/
def packF (neg : Bool) (mag : Nat) : F32 := BitVec.ofNat 32 ((if neg then 2 ^ 31 else 0) + mag)

/-- The absolute value of a finite f32, in units of 2^-149 (R8). -/
def scaled (a : F32) : Nat :=
  if magBits a / 2 ^ 23 = 0 then magBits a
  else (2 ^ 23 + magBits a % 2 ^ 23) * 2 ^ (magBits a / 2 ^ 23 - 1)

/-- The value of a finite f32, in units of 2^-149. -/
def exactVal (a : F32) : Int := if signBit a then -(scaled a : Int) else (scaled a : Int)

/-- roundTiesToEven (R9): the magnitude bits of the f32 nearest to `num / den` units of 2^-149, the even one of two
equally near; infinity's bits when that is past the largest finite f32. `k` is the exponent of the spacing of the
f32 numbers around the value, in units. -/
def roundMag (num den : Nat) : Nat :=
  let k := Nat.log2 (num / den) - 23
  let unit := den * 2 ^ k
  let m := num / unit
  let r := num % unit
  let up := unit < 2 * r ∨ (2 * r = unit ∧ m % 2 = 1)
  min (k * 2 ^ 23 + m + (if up then 1 else 0)) infMag

/-- The f32 nearest to an integer number of units of 2^-149 that is not zero. -/
def roundInt (n : Int) : F32 := packF (decide (n < 0)) (roundMag n.natAbs 1)

/-- `fadd` (R9): an exact zero sum is +0 unless both operands are negative (roundTiesToEven of IEEE 754, log
entry 15). -/
def fadd (a b : F32) : F32 :=
  if isNaN a || isNaN b then qNaN
  else if isInf a then (if isInf b && (signBit a != signBit b) then qNaN else a)
  else if isInf b then b
  else if exactVal a + exactVal b = 0 then packF (signBit a && signBit b) 0
  else roundInt (exactVal a + exactVal b)

/-- `fsub` (R9): the sum with the second operand's sign turned. -/
def fsub (a b : F32) : F32 := fadd a (b ^^^ 0x80000000#32)

/-- `fmul` (R9). -/
def fmul (a b : F32) : F32 :=
  if isNaN a || isNaN b then qNaN
  else if isInf a || isInf b then
    (if isZero a || isZero b then qNaN else packF (signBit a != signBit b) infMag)
  else packF (signBit a != signBit b) (roundMag (scaled a * scaled b) (2 ^ 149))

/-- `fdiv` (R9). -/
def fdiv (a b : F32) : F32 :=
  if isNaN a || isNaN b then qNaN
  else if isInf a then (if isInf b then qNaN else packF (signBit a != signBit b) infMag)
  else if isInf b then packF (signBit a != signBit b) 0
  else if isZero b then (if isZero a then qNaN else packF (signBit a != signBit b) infMag)
  else packF (signBit a != signBit b) (roundMag (scaled a * 2 ^ 149) (scaled b))

/-- Bit by bit from bit `k - 1` down: the largest `x ≥ r` with `x² ≤ n` that differs from `r` in those bits. -/
def isqrtFrom (n : Nat) : Nat → Nat → Nat
  | 0, r => r
  | k + 1, r => if (r + 2 ^ k) * (r + 2 ^ k) ≤ n then isqrtFrom n k (r + 2 ^ k) else isqrtFrom n k r

/-- The integer square root. -/
def isqrt (n : Nat) : Nat := isqrtFrom n (Nat.log2 n / 2 + 1) 0

/-- `fsqrt` (R9). The root of `v` units of 2^-149 is the root of `v * 2^149` units. Twice that root lies at, or
strictly above, the integer `x`; where it lies strictly above, `x + 1/2` stands for it: no f32 and no midpoint
of two lies strictly between two consecutive halves of a unit. The root of -0 is -0 (IEEE 754, log entry 15). -/
def fsqrt (a : F32) : F32 :=
  if isNaN a then qNaN
  else if isZero a then a
  else if signBit a then qNaN
  else if isInf a then a
  else
    let n := scaled a * 2 ^ 151
    let x := isqrt n
    packF false (roundMag (if x * x = n then 2 * x else 2 * x + 1) 4)

/-- The order of the patterns that are no NaN: both zeros at 0, the infinities at the ends. -/
def orderKey (a : F32) : Int := if signBit a then -(magBits a : Int) else (magBits a : Int)

/-- `a < b` (R11). -/
def flt (a b : F32) : Bool := !isNaN a && !isNaN b && decide (orderKey a < orderKey b)

/-- `a <= b` (R11). -/
def fle (a b : F32) : Bool := !isNaN a && !isNaN b && decide (orderKey a ≤ orderKey b)

/-- `a > b` (R11). -/
def fgt (a b : F32) : Bool := flt b a

/-- `a >= b` (R11). -/
def fge (a b : F32) : Bool := fle b a

/-- `fabs` (R12): clears bit 31. -/
def fabs (a : F32) : F32 := a &&& 0x7FFFFFFF#32

/-- `fmax` (R12): selects, so bit patterns are kept. -/
def fmax (a b : F32) : F32 := if fgt b a then b else a

/-- `i2f` (R13): exact for magnitudes up to 2^24; `i2f 0` is +0. -/
def i2f (n : Int) : F32 := packF (decide (n < 0)) (roundMag (n.natAbs * 2 ^ 149) 1)

/-- `ffloor` (R13) of a finite f32: the floor of its value. -/
def ffloor (a : F32) : Int := exactVal a / 2 ^ 149

/-- `f2i8` (R13): toward zero, saturated to [-128, 127]; NaN gives 0. An infinity's pattern stands for a magnitude
of 2^128 here, which saturates as an infinity does. -/
def f2i8 (a : F32) : Byte :=
  if isNaN a then 0#8
  else if signBit a then BitVec.ofInt 8 (-(min (scaled a / 2 ^ 149) 128 : Nat))
  else BitVec.ofNat 8 (min (scaled a / 2 ^ 149) 127)

end Sys2Proof.Machine
end

