-- ==== Sys2Proof/Config.lean ====
section
/-! DEFINITION. What the platform or the implementation fixes (00_scope.md R6), and the values that the spec leaves
open. A constant without a body is a FREE VALUE: no proof can see what it is, so a claim holds whatever it is. -/

namespace Sys2Proof

/-- `RESET_RAM` (00_scope.md R6, 70_reset_and_hazards.md R452): the byte at a block offset that nothing has written
since the given number of reset events. It is stable until the byte is written or the block is reset.
Free value, log entry 3. -/
opaque Config.resetRam (resets offset : Nat) : Byte

/-- The latency of the command that is accepted after the given number of earlier acceptances, in steps of the
model between acceptance and the step that completes it (70_reset_and_hazards.md R461: finite, not bounded).
Free value, log entry 2. -/
opaque Config.latency (accepted : Nat) : Nat

/-- `BASE` is a multiple of 2^21 that the platform chooses (00_scope.md R6): this is the multiple.
Free value, log entry 14. -/
opaque Config.baseIndex : Nat

/-- `BASE`, the host byte address of block offset 0 (20_memory.md R100). -/
def Config.base : Nat := Config.baseIndex * 2 ^ 21

/-- The sign of the angle of a negative `y` whose magnitude rounds to zero: 40_gradient.md R203 says the f32 nearest
to the real angle, and both zeros are that. Free value, log entry 8. -/
opaque Config.atan2UnderflowSign (y x : F32) : Bool

/-- ID (10_state.md R41): the ASCII characters "GAP1" in little-endian order. -/
def Config.idWord : Word := 0x31504147#32

/-- VERSION (10_state.md R42): MAJOR 1, MINOR 0. -/
def Config.versionWord : Word := 0x00010000#32

/-- The default of `RC_BUF_BYTES` (00_scope.md R6), the size of STREAM RAM in bytes and the reset value of CAPS. -/
def Config.rcBufBytes : Word := 0x00100000#32

end Sys2Proof
end

