-- ==== Sys2Proof/Machine/State.lean ====
section
/-! DEFINITION. The state of GAP-SEE as plain data (10_state.md), the reasons a step can stop, and the state right after
reset (70_reset_and_hazards.md R450). -/

namespace Sys2Proof.Machine

/-- The error codes of 60_exceptions.md R401; codes 8 to 255 are never recorded. -/
inductive ErrCode where
  /-- 0: no error since ERR was last cleared. -/
  | none
  /-- 1: a CMD write whose word is illegal. -/
  | illegal
  /-- 2: a CMD write while BUSY. -/
  | busy
  /-- 3: a parameter out of range. -/
  | param
  /-- 4: a DEQUANT record with a bad index. -/
  | badidx
  /-- 5: a range coder command in the wrong mode. -/
  | mode
  /-- 6: the encoder's output does not fit in STREAM RAM. -/
  | ovf
  /-- 7: an illegal host access, or one refused while BUSY. -/
  | access
  deriving DecidableEq, Repr

/-- The fields of STATUS (10_state.md R44). Bits 7:5 and 31:16 are reserved: they read 0 and hold nothing (R74). -/
structure Status where
  /-- Bit 0: from the acceptance of a command until its completion. -/
  busy : Bool
  /-- Bit 1: set by every completion. -/
  done : Bool
  /-- Bit 2: set by every signalled error. -/
  err : Bool
  /-- Bit 3: FFT_INV wrote a non-finite sample. -/
  nf : Bool
  /-- Bit 4: the range decoder read past RC_INLEN. -/
  inexh : Bool
  /-- Bits 15:8: the first error since ERR was last 0. -/
  ecode : ErrCode
  deriving DecidableEq, Repr

/-- The gradient result registers (10_state.md R50). -/
structure Gradient where
  dx : F32
  dy : F32
  mag : F32
  angle : F32
  aidx : Byte
  theta : F32
  deriving DecidableEq, Repr

/-- RC_STATE.MODE (10_state.md R54). -/
inductive RcMode where
  | idle
  | enc
  | dec
  | fin
  deriving DecidableEq, Repr

/-- The range coder: the registers RC_* that only the RC_* commands write (10_state.md R54 to R61, R63 to R65), and the
frequency model COUNTS (R70). RC_LOW_LO and RC_LOW_HI are the two views of the 33-bit `low` (R56). -/
structure Coder where
  mode : RcMode
  started : Bool
  range : Word
  low : BitVec 33
  code : Word
  cache : Byte
  ffrun : Word
  total : Word
  pos : Word
  sym : Byte
  nsym : Word
  len : Word
  /-- COUNTS[0..255]; its length is 256 in every state a run from reset reaches. -/
  counts : List Word
  deriving DecidableEq, Repr

/-- What happens at the block's inputs, one event at a time (20_memory.md R111, 70_reset_and_hazards.md R450). An offset
is a byte offset in the window of 2^21 bytes (20_memory.md R100); a size is in bytes (R102). -/
inductive HostEvent where
  /-- A read of `size` bytes at `offset`. -/
  | read (size : Nat) (offset : BitVec 21)
  /-- A write of `size` bytes at `offset`; `value` is the word that a legal (4-byte) write carries. -/
  | write (size : Nat) (offset : BitVec 21) (value : Word)
  /-- The reset input. -/
  | reset
  deriving DecidableEq, Repr

/-- The RAMs PATCH, COEF, IDX, QVAL and STREAM (20_memory.md R101) as one list of cells, keyed by block offset. An
offset that is not listed holds NO VALUE yet: nothing has written it since the last reset event (log entry 3). -/
abbrev Memory := List Host.Cell

/-- The canonical form: addresses strictly rising. A listed cell holds a value and an unlisted one none, so no entry
says what its absence would say, and equal memories are equal lists. -/
abbrev Memory.wf (m : Memory) : Prop := m.Pairwise fun c d => c.1 < d.1

/-- A pair of arguments at which a given ATAN2_F32 differs from the default, and its result there (00_scope.md R6,
40_gradient.md R203). -/
structure AngleEntry where
  y : F32
  x : F32
  angle : F32
  deriving DecidableEq, Repr

/-- The whole machine. -/
structure State where
  /-- STATUS (R44). -/
  status : Status
  /-- IRQ_EN.DONE_IE (R45). -/
  doneIe : Bool
  /-- IRQ_EN.ERR_IE (R45). -/
  errIe : Bool
  /-- LAST_CMD, CMD's read value (R43). -/
  lastCmd : Word
  /-- PCMD, the pending-command latch (R73). -/
  pcmd : Option Word
  /-- CAPS.BUFBYTES (R46): the parameter RC_BUF_BYTES (00_scope.md R6). Nothing changes it. -/
  caps : Word
  /-- The parameter ATAN2_F32 (00_scope.md R6), as its differences from the default; an f32 pair has finitely many
  values, so every admissible function is one list. This spec's hardware has none. Nothing changes it (log entry 5). -/
  angles : List AngleEntry
  /-- S_PARAM (R47). -/
  sParam : F32
  /-- T_PARAM (R49). -/
  tParam : F32
  /-- GR_* (R50). -/
  gr : Gradient
  /-- KCOUNT.K (R51). -/
  kcount : BitVec 7
  /-- KEEP_LO (R52). -/
  keepLo : Word
  /-- KEEP_HI (R52). -/
  keepHi : Word
  /-- MAXVAL (R53). -/
  maxval : F32
  /-- The RC_* registers and COUNTS. -/
  rc : Coder
  /-- RC_INLEN (R62), the one range coder register that the host writes. -/
  inlen : Word
  /-- The RAMs (R66 to R69, R71). -/
  mem : Memory
  /-- MODEL'S OWN (log entry 1): the host's accesses and reset events not yet performed, oldest first. -/
  host : List HostEvent
  /-- MODEL'S OWN (log entry 12): what the last host read returned. -/
  readData : Word
  /-- MODEL'S OWN (log entry 2): how many more steps the engine takes before the one that completes the command. -/
  delay : Nat
  /-- MODEL'S OWN (log entry 2): how many commands were accepted; draws `Config.latency`. -/
  accepted : Nat
  /-- MODEL'S OWN (log entry 3): how many reset events happened; draws `Config.resetRam`. -/
  resets : Nat
  deriving DecidableEq, Repr

/-- Why the machine stops. -/
inductive Fault where
  /-- Raised by RC_ENC and RC_DEC when the new range is zero, so that the renormalisation loop of 43_range_coder.md
  R310 and R314 has no end that the spec gives. R317 (a) excludes it: no run from reset reaches it. Safe: the model
  only stops. Log entry 10. -/
  | zeroRange
  deriving DecidableEq, Repr

/-- Why a step has no meaning. -/
inductive Refusal where
  /-- Raised by an arm of `exec` whose instruction has no meaning yet; no arm of this model is left so. Safe. -/
  | notModelled (mnemonic : String)
  /-- Raised by `step` when PCMD holds a word that is no command. Acceptance latches legal words only
  (60_exceptions.md R403), so no run from reset reaches it. Safe. Log entry 11. -/
  | illegalLatch
  deriving DecidableEq, Repr

/-- STATUS after reset (R44). -/
def Status.reset : Status :=
  { busy := false, done := false, err := false, nf := false, inexh := false, ecode := .none }

/-- GR_* after reset (R50). -/
def Gradient.reset : Gradient :=
  { dx := 0#32, dy := 0#32, mag := 0#32, angle := 0#32, aidx := 0#8, theta := 0#32 }

/-- The coder after reset (R54 to R65, R70). -/
def Coder.reset : Coder :=
  { mode := .idle, started := false, range := 0xFFFFFFFF#32, low := 0#33, code := 0#32, cache := 0#8,
    ffrun := 0#32, total := 256#32, pos := 0#32, sym := 0#8, nsym := 0#32, len := 0#32,
    counts := List.replicate 256 1#32 }

/-- The machine right after reset (70_reset_and_hazards.md R450, R451; the table of 10_state.md section 2): no command
pending, no RAM byte written, nothing queued, the parameters at their defaults (00_scope.md R6). The model's own fields
start empty or at 0 (log entries 1, 2, 3, 12). -/
def State.reset : State :=
  { status := .reset, doneIe := false, errIe := false, lastCmd := 0#32, pcmd := none,
    caps := Config.rcBufBytes, angles := [], sParam := 0#32, tParam := 0#32, gr := .reset, kcount := 0#7,
    keepLo := 0#32, keepHi := 0#32, maxval := 0x3F800000#32, rc := .reset, inlen := 0#32, mem := [],
    host := [], readData := 0#32, delay := 0, accepted := 0, resets := 0 }

end Sys2Proof.Machine
end

