-- ==== Sys2Proof/Machine/Flags.lean ====
section
/-! DEFINITION. STATUS as a word, its write-1-to-clear bits, the recording of an error, and the interrupt output
(10_state.md R44, R76; 60_exceptions.md R401, R402, R407, R412). -/

namespace Sys2Proof.Machine

/-- The value of ECODE (60_exceptions.md R401). -/
def ErrCode.value : ErrCode → Byte
  | .none => 0
  | .illegal => 1
  | .busy => 2
  | .param => 3
  | .badidx => 4
  | .mode => 5
  | .ovf => 6
  | .access => 7

/-- One bit of a word, as a number to be added. -/
def bitAt (pos : Nat) (b : Bool) : Nat := if b then 2 ^ pos else 0

/-- STATUS as the host reads it (R44); reserved bits are 0 (R74). -/
def Status.word (t : Status) : Word :=
  BitVec.ofNat 32 (bitAt 0 t.busy + bitAt 1 t.done + bitAt 2 t.err + bitAt 3 t.nf + bitAt 4 t.inexh
    + t.ecode.value.toNat * 2 ^ 8)

/-- `signal(code)` on STATUS (60_exceptions.md R402): the first error since ERR was last 0 is the one kept. -/
def Status.record (code : ErrCode) (t : Status) : Status :=
  if t.err then t else { t with err := true, ecode := code }

/-- A host write of `v` to STATUS (60_exceptions.md R407). -/
def Status.clear (v : Word) (t : Status) : Status :=
  { t with
    done := t.done && !v.getLsbD 1
    err := t.err && !v.getLsbD 2
    ecode := if v.getLsbD 2 then .none else t.ecode
    nf := t.nf && !v.getLsbD 3
    inexh := t.inexh && !v.getLsbD 4 }

/-- STATUS at the completion of a command (60_exceptions.md R405). -/
def Status.finished (t : Status) : Status := { t with busy := false, done := true }

/-- The interrupt output (10_state.md R76): a level, a function of the state. -/
def State.irq (s : State) : Bool := (s.status.done && s.doneIe) || (s.status.err && s.errIe)

end Sys2Proof.Machine
end

