-- ==== Sys2Proof/Machine/Ops.lean ====
section
/-! DEFINITION. The named operations over memory and over the running command: reading and storing bytes and words,
signalling an error, failing, and completing (20_memory.md, 60_exceptions.md R402 to R405). -/

namespace Sys2Proof.Machine

/-! ### Memory -/

/-- The offsets of the RAM windows (20_memory.md R101). -/
def patchBase : Nat := 0x100
/-- COEF RAM (R67). -/
def coefBase : Nat := 0x200
/-- IDX RAM (R68). -/
def idxBase : Nat := 0x400
/-- QVAL RAM (R69). -/
def qvalBase : Nat := 0x480
/-- The COUNTS window (R70). -/
def countsBase : Nat := 0x800
/-- STREAM RAM (R71). -/
def streamBase : Nat := 0x100000

/-- The bytes of the RAMs (20_memory.md R101), given RC_BUF_BYTES. -/
def isRam (caps : Word) (a : Nat) : Bool :=
  (decide (patchBase ≤ a) && decide (a < idxBase + 64)) || (decide (qvalBase ≤ a) && decide (a < qvalBase + 128))
    || (decide (streamBase ≤ a) && decide (a < streamBase + caps.toNat))

/-- Bytes as cells at rising addresses. -/
def cellsAt : Nat → List Byte → Memory
  | _, [] => []
  | a, b :: bs => (a, b) :: cellsAt (a + 1) bs

/-- Store bytes from address `a` on. Cells outside the stored block stay; the form stays canonical. -/
def Memory.store (m : Memory) (a : Nat) (bs : List Byte) : Memory :=
  m.filter (fun c => decide (c.1 < a)) ++ cellsAt a bs ++ m.filter (fun c => decide (a + bs.length ≤ c.1))

/-- The one read of a byte: what was last stored there since reset, else the free value RESET_RAM
(70_reset_and_hazards.md R452; log entry 3). -/
def State.byteAt (s : State) (a : Nat) : Byte := (s.mem.lookup a).getD (Config.resetRam s.resets a)

/-- Four bytes as a word, the byte at the lowest offset in bits 7:0 (20_memory.md R107; log entry 6). -/
def ofBytes (b0 b1 b2 b3 : Byte) : Word := b3 ++ b2 ++ b1 ++ b0

/-- A word as four bytes, bits 7:0 first (20_memory.md R107). -/
def wordBytes (w : Word) : List Byte :=
  [w.extractLsb' 0 8, w.extractLsb' 8 8, w.extractLsb' 16 8, w.extractLsb' 24 8]

/-- The word at offset `a`. -/
def State.wordAt (s : State) (a : Nat) : Word :=
  ofBytes (s.byteAt a) (s.byteAt (a + 1)) (s.byteAt (a + 2)) (s.byteAt (a + 3))

/-- `n` words from offset `a` on. -/
def State.wordsAt (s : State) (a n : Nat) : List Word := (List.range n).map fun i => s.wordAt (a + 4 * i)

/-- Store bytes from offset `a` on. -/
def State.storeBytes (s : State) (a : Nat) (bs : List Byte) : State := { s with mem := s.mem.store a bs }

/-- Store words from offset `a` on. -/
def State.storeWords (s : State) (a : Nat) (ws : List Word) : State := s.storeBytes a (ws.flatMap wordBytes)

/-! ### Errors and completion -/

/-- `signal(code)` (60_exceptions.md R402). -/
def signal (code : ErrCode) (s : State) : State := { s with status := s.status.record code }

/-- How a command's pseudocode ends (00_scope.md R14): at its end, or at `fail(code)` with every assignment made
before it. -/
inductive CmdResult where
  | ok (s : State)
  | failed (code : ErrCode) (s : State)
  deriving DecidableEq, Repr

/-- Go on with the pseudocode, unless it has failed. -/
def CmdResult.andThen (r : CmdResult) (f : State → CmdResult) : CmdResult :=
  match r with
  | .ok s => f s
  | .failed code s => .failed code s

/-- Completion (60_exceptions.md R405): BUSY is cleared, DONE is set, PCMD is emptied. -/
def complete (s : State) : State := { s with status := s.status.finished, pcmd := none }

/-- The end of the engine's step: a failing command signals its error and completes like any other (60_exceptions.md
R402, R405). -/
def CmdResult.finish : CmdResult → Host.Outcome State Fault Refusal
  | .ok s => .next (complete s)
  | .failed code s => .next (complete (signal code s))

/-- Acceptance of a legal word (60_exceptions.md R404): one event with the CMD write. The latency of the command is drawn
here (70_reset_and_hazards.md R461; log entry 2). -/
def accept (w : Word) (s : State) : State :=
  { s with
    pcmd := some w
    lastCmd := w
    status := { s.status with busy := true }
    delay := Config.latency s.accepted
    accepted := s.accepted + 1 }

/-- The word of the command that the engine completes in this step: PCMD, once its latency has passed. -/
def fetch (s : State) : Option Word := if s.delay = 0 then s.pcmd else none

/-- A step in which the engine completes nothing brings a pending command's completion one step nearer. -/
def tick (s : State) : State := { s with delay := s.delay - 1 }

/-- PCMD holding a command that completes in the next step: acceptance (R404) with the latency passed. -/
def latch (w : Word) (s : State) : State :=
  { s with pcmd := some w, lastCmd := w, status := { s.status with busy := true }, delay := 0 }

end Sys2Proof.Machine
end

