-- ==== Sys2Proof/Machine/Operands.lean ====
section
/-! DEFINITION. The implicit operands of the commands (20_memory.md R116): samples, coefficients, the sparse record, the
stream, and the parameters with their validity (41_spectral.md R236, R237, R241; 10_state.md R48). -/

namespace Sys2Proof.Machine

/-- PATCH[0..63] (10_state.md R66). -/
def State.patch (s : State) : List F32 := s.wordsAt patchBase 64

/-- CRE[k] (10_state.md R67). -/
def State.cre (s : State) (k : Nat) : F32 := s.wordAt (coefBase + 8 * k)

/-- CIM[k] (10_state.md R67). -/
def State.cim (s : State) (k : Nat) : F32 := s.wordAt (coefBase + 4 + 8 * k)

/-- CRE[0..63]. -/
def State.creAll (s : State) : List F32 := (List.range 64).map s.cre

/-- CIM[0..63]. -/
def State.cimAll (s : State) : List F32 := (List.range 64).map s.cim

/-- IDX[j] (10_state.md R68). -/
def State.idx (s : State) (j : Nat) : Byte := s.byteAt (idxBase + j)

/-- QRE[j] (10_state.md R69). -/
def State.qre (s : State) (j : Nat) : Byte := s.byteAt (qvalBase + 2 * j)

/-- QIM[j] (10_state.md R69). -/
def State.qim (s : State) (j : Nat) : Byte := s.byteAt (qvalBase + 1 + 2 * j)

/-- STREAM[a] (10_state.md R71). -/
def State.stream (s : State) (a : Nat) : Byte := s.byteAt (streamBase + a)

/-- KEEP = KEEP_HI and KEEP_LO, bit k for bin k (10_state.md R52). -/
def State.keep (s : State) : BitVec 64 := s.keepHi ++ s.keepLo

/-- COUNTS[i] (10_state.md R70). -/
def Coder.count (c : Coder) (i : Nat) : Word := c.counts.getD i 0#32

/-- The two parts of bins as the words of COEF RAM: re, im interleaved (10_state.md R67). -/
def interleave : List F32 → List F32 → List Word
  | re :: res, im :: ims => re :: im :: interleave res ims
  | _, _ => []

/-- `re² + im²` in f32, three roundings (41_spectral.md R240, R242; 44_quantizer.md R360). -/
def mag2 (re im : F32) : F32 := fadd (fmul re re) (fmul im im)

/-- `sidx(s)` (41_spectral.md R236): the row of the weighting tables. -/
def sidx (v : F32) : Nat :=
  if isNaN v then 0
  else
    let p := fmul v 0x41200000#32
    if p = 0x7F800000#32 then 63
    else if p = 0xFF800000#32 then 0
    else min 63 (ffloor p).toNat

/-- `svalid(s)` (41_spectral.md R237). -/
def svalid (v : F32) : Bool := !isNaN v && fge v 0#32 && flt v 0x40CCCCCD#32

/-- `tvalid(t)` (41_spectral.md R241). -/
def tvalid (v : F32) : Bool := !isNaN v && fge v 0#32

/-- PSTAT (10_state.md R48): SIDX 5:0, TVALID 30, SVALID 31. -/
def State.pstat (s : State) : Word :=
  BitVec.ofNat 32 (sidx s.sParam + bitAt 30 (tvalid s.tParam) + bitAt 31 (svalid s.sParam))

end Sys2Proof.Machine
end

