-- ==== Sys2Proof/Machine/Bus.lean ====
section
/-! DEFINITION. The slave port (10_state.md section 2; 20_memory.md; 60_exceptions.md R403 to R407) and the reset input
(70_reset_and_hazards.md R450): what one event at the block's inputs does. -/

namespace Sys2Proof.Machine

/-- The registers of the map (10_state.md section 2). -/
inductive Reg where
  | id
  | version
  | cmd
  | status
  | irqEn
  | caps
  | sParam
  | pstat
  | tParam
  | grDx
  | grDy
  | grMag
  | grAngle
  | grAidx
  | grTheta
  | kcount
  | keepLo
  | keepHi
  | maxval
  | rcState
  | rcRange
  | rcLowLo
  | rcLowHi
  | rcCode
  | rcCache
  | rcFfrun
  | rcTotal
  | rcPos
  | rcInlen
  | rcSym
  | rcNsym
  | rcLen
  deriving DecidableEq, Repr

/-- The register at an offset below 0x100 (10_state.md section 2); the gaps are unmapped. -/
def regAt (offset : Nat) : Option Reg :=
  match offset with
  | 0x000 => some .id
  | 0x004 => some .version
  | 0x008 => some .cmd
  | 0x00C => some .status
  | 0x010 => some .irqEn
  | 0x014 => some .caps
  | 0x020 => some .sParam
  | 0x024 => some .pstat
  | 0x028 => some .tParam
  | 0x030 => some .grDx
  | 0x034 => some .grDy
  | 0x038 => some .grMag
  | 0x03C => some .grAngle
  | 0x040 => some .grAidx
  | 0x044 => some .grTheta
  | 0x050 => some .kcount
  | 0x054 => some .keepLo
  | 0x058 => some .keepHi
  | 0x05C => some .maxval
  | 0x080 => some .rcState
  | 0x084 => some .rcRange
  | 0x088 => some .rcLowLo
  | 0x08C => some .rcLowHi
  | 0x090 => some .rcCode
  | 0x094 => some .rcCache
  | 0x098 => some .rcFfrun
  | 0x09C => some .rcTotal
  | 0x0A0 => some .rcPos
  | 0x0A4 => some .rcInlen
  | 0x0A8 => some .rcSym
  | 0x0AC => some .rcNsym
  | 0x0B0 => some .rcLen
  | _ => none

/-- What a mapped word is (20_memory.md R101). -/
inductive Target where
  | reg (r : Reg)
  /-- The RAM word at an offset. -/
  | ram (offset : Nat)
  /-- The word of COUNTS[i]. -/
  | count (i : Nat)
  deriving DecidableEq, Repr

/-- The address map (20_memory.md R101) for an offset that is a multiple of 4; `none` is unmapped. -/
def target (caps : Word) (offset : Nat) : Option Target :=
  if offset < patchBase then (regAt offset).map .reg
  else if isRam caps offset then some (.ram offset)
  else if countsBase ≤ offset ∧ offset < countsBase + 1024 then some (.count ((offset - countsBase) / 4))
  else none

/-- The word a legal access moves (20_memory.md R102): 4 bytes, a multiple of 4, mapped; `none` for an illegal access. -/
def legalTarget (caps : Word) (size : Nat) (offset : BitVec 21) : Option Target :=
  if size = 4 ∧ offset.toNat % 4 = 0 then target caps offset.toNat else none

/-- BASE + offset (20_memory.md R100). -/
def hostAddress (offset : BitVec 21) : Nat := Config.base + offset.toNat

/-- The block offset of a host byte address; `none` outside the window (20_memory.md R100). -/
def blockOffset? (addr : Nat) : Option (BitVec 21) :=
  if Config.base ≤ addr ∧ addr < Config.base + 2 ^ 21 then some (BitVec.ofNat 21 (addr - Config.base)) else none

/-- RC_STATE.MODE as a number (10_state.md R54). -/
def RcMode.value : RcMode → Nat
  | .idle => 0
  | .enc => 1
  | .dec => 2
  | .fin => 3

/-- The one read of a register; reserved bits read 0 (10_state.md R41 to R65, R74). -/
def readReg (r : Reg) (s : State) : Word :=
  match r with
  | .id => Config.idWord
  | .version => Config.versionWord
  | .cmd => s.lastCmd
  | .status => s.status.word
  | .irqEn => BitVec.ofNat 32 (bitAt 0 s.doneIe + bitAt 1 s.errIe)
  | .caps => s.caps
  | .sParam => s.sParam
  | .pstat => s.pstat
  | .tParam => s.tParam
  | .grDx => s.gr.dx
  | .grDy => s.gr.dy
  | .grMag => s.gr.mag
  | .grAngle => s.gr.angle
  | .grAidx => s.gr.aidx.setWidth 32
  | .grTheta => s.gr.theta
  | .kcount => s.kcount.setWidth 32
  | .keepLo => s.keepLo
  | .keepHi => s.keepHi
  | .maxval => s.maxval
  | .rcState => BitVec.ofNat 32 (s.rc.mode.value + bitAt 2 s.rc.started)
  | .rcRange => s.rc.range
  | .rcLowLo => s.rc.low.setWidth 32
  | .rcLowHi => BitVec.ofNat 32 (bitAt 0 (s.rc.low.getLsbD 32))
  | .rcCode => s.rc.code
  | .rcCache => s.rc.cache.setWidth 32
  | .rcFfrun => s.rc.ffrun
  | .rcTotal => s.rc.total
  | .rcPos => s.rc.pos
  | .rcInlen => s.inlen
  | .rcSym => s.rc.sym.setWidth 32
  | .rcNsym => s.rc.nsym
  | .rcLen => s.rc.len

/-- The issue of a command (60_exceptions.md R403): BUSY, then ILLEGAL, then acceptance. -/
def issue (w : Word) (s : State) : State :=
  if s.status.busy then signal .busy s
  else
    match decode w with
    | .error _ => signal .illegal s
    | .ok _ => accept w s

/-- The one host write of a register. A read-only register ignores it (20_memory.md R105); reserved bits too
(10_state.md R74). -/
def writeReg (r : Reg) (v : Word) (s : State) : State :=
  match r with
  | .cmd => issue v s
  | .status => { s with status := s.status.clear v }
  | .irqEn => { s with doneIe := v.getLsbD 0, errIe := v.getLsbD 1 }
  | .sParam => { s with sParam := v }
  | .tParam => { s with tParam := v }
  | .kcount => { s with kcount := v.setWidth 7 }
  | .keepLo => { s with keepLo := v }
  | .keepHi => { s with keepHi := v }
  | .maxval => { s with maxval := v }
  | .rcInlen => { s with inlen := v }
  | .id => s
  | .version => s
  | .caps => s
  | .pstat => s
  | .grDx => s
  | .grDy => s
  | .grMag => s
  | .grAngle => s
  | .grAidx => s
  | .grTheta => s
  | .rcState => s
  | .rcRange => s
  | .rcLowLo => s
  | .rcLowHi => s
  | .rcCode => s
  | .rcCache => s
  | .rcFfrun => s
  | .rcTotal => s
  | .rcPos => s
  | .rcSym => s
  | .rcNsym => s
  | .rcLen => s

/-- The word a legal read returns. -/
def readTarget (t : Target) (s : State) : Word :=
  match t with
  | .reg r => readReg r s
  | .ram offset => s.wordAt offset
  | .count i => s.rc.count i

/-- What a legal write does; the COUNTS window ignores it (20_memory.md R105). -/
def writeTarget (t : Target) (v : Word) (s : State) : State :=
  match t with
  | .reg r => writeReg r v s
  | .ram offset => s.storeWords offset [v]
  | .count _ => s

/-- The reads admitted while BUSY (20_memory.md R104). -/
def readWhileBusy : Target → Bool
  | .reg .id => true
  | .reg .version => true
  | .reg .caps => true
  | .reg .status => true
  | .reg .irqEn => true
  | .reg .cmd => true
  | _ => false

/-- The writes admitted while BUSY (20_memory.md R104). -/
def writeWhileBusy : Target → Bool
  | .reg .status => true
  | .reg .irqEn => true
  | .reg .cmd => true
  | _ => false

/-- A host read (20_memory.md R102 to R104, R110): no side effect but an ACCESS signal. -/
def hostRead (size : Nat) (offset : BitVec 21) (s : State) : State :=
  match legalTarget s.caps size offset with
  | none => { signal .access s with readData := 0#32 }
  | some t =>
    if s.status.busy && !readWhileBusy t then { signal .access s with readData := 0#32 }
    else { s with readData := readTarget t s }

/-- A host write (20_memory.md R102 to R105, R110). -/
def hostWrite (size : Nat) (offset : BitVec 21) (v : Word) (s : State) : State :=
  match legalTarget s.caps size offset with
  | none => signal .access s
  | some t => if s.status.busy && !writeWhileBusy t then signal .access s else writeTarget t v s

/-- The reset input (70_reset_and_hazards.md R450, R452): a pending command is abandoned, every register takes its reset
value, no RAM byte keeps its value. CAPS and `angles` hold parameters, which no reset changes (10_state.md R46). The events
still to come, what the host has already read and the model's counters are not the block's (log entry 17). -/
def resetBlock (s : State) : State :=
  { State.reset with
    caps := s.caps
    angles := s.angles
    host := s.host
    readData := s.readData
    accepted := s.accepted
    resets := s.resets + 1 }

/-- One event at the inputs. -/
def perform (e : HostEvent) (s : State) : State :=
  match e with
  | .read size offset => hostRead size offset s
  | .write size offset v => hostWrite size offset v s
  | .reset => resetBlock s

/-- The next event at the inputs, in the host's order (20_memory.md R111); nothing happens when none is queued (log
entry 1). -/
def hostStep (s : State) : State :=
  match s.host with
  | [] => s
  | e :: es => perform e { s with host := es }

end Sys2Proof.Machine
end

