-- ==== Sys2Proof/Machine/Atan2.lean ====
section
/-! DEFINITION. ATAN2_F32 (40_gradient.md R203): the default that this hardware implements, the f32 nearest to the real
angle, decided exactly; and the parameter ATAN2_F32 of 00_scope.md R6. Log entries 5, 7, 8, 9.

With S₀(m) = sin m, S₁(m) = sin m / m - cos m and Sₙ₊₂ = (2n + 3) / m · Sₙ₊₁ - Sₙ, every Sₙ is positive between 0 and π,
and Sₙ₊₁ is below m / 2n · Sₙ from n = 1 on. For m = p / q the sign of y · cos m - x · sin m, which says whether the angle
of (x, y) lies above m, is that of A₀ · S₀ - p · y · S₁ with A₀ = q · y - p · x, and then that of Aₙ · Sₙ - p · Aₙ₋₁ · Sₙ₊₁
for every n. The bounds of Sₙ₊₁ / Sₙ decide it in the end (Laws/Atan2.lean). -/

namespace Sys2Proof.Machine

/-- What the bounds decide from `prev` = Aₙ₋₁, which is positive, and `cur` = Aₙ, if they decide. -/
def sideOf (p q n : Nat) (prev cur : Int) : Option Bool :=
  if cur ≤ 0 then some false
  else if (p : Int) ^ 2 * prev ≤ 2 * n * q * cur then some true
  else none

/-- Aₙ₊₁. -/
def nextSide (p q n : Nat) (prev cur : Int) : Int := (2 * n + 3) * q * cur - (p : Int) ^ 2 * prev

/-- The side once p² ≤ 2nq: while it is undecided, Aₙ is positive and below Aₙ₋₁, so that Aₙ₋₁ turns are enough and the
loop never runs out of them. -/
def sideTail (p q : Nat) : Nat → Nat → Int → Int → Bool
  | 0, _, _, _ => false
  | fuel + 1, n, prev, cur =>
    match sideOf p q n prev cur with
    | some b => b
    | none => sideTail p q fuel (n + 1) cur (nextSide p q n prev cur)

/-- The side from index `n` on, with as many turns as p² ≤ 2nq takes. -/
def sideFrom (p q : Nat) : Nat → Nat → Int → Int → Bool
  | 0, n, prev, cur => sideTail p q prev.toNat n prev cur
  | fuel + 1, n, prev, cur =>
    match sideOf p q n prev cur with
    | some b => b
    | none => sideFrom p q fuel (n + 1) cur (nextSide p q n prev cur)

/-- The angle of (x, y), with y positive, lies above p / q, which lies between 0 and π. -/
def angleAbove (p q y : Nat) (x : Int) : Bool := sideFrom p q (p ^ 2 / (2 * q) + 1) 0 y (q * y - p * x)

/-- The exponent of the step from the f32 magnitude `k` to `k + 1` (00_scope.md R8): its field, 1 for a subnormal. -/
def stepExp (k : Nat) : Nat := max 1 (k / 2 ^ 23)

/-- The point halfway from the f32 magnitude `k` to `k + 1` is `midNum k / midDen k`. -/
def midNum (k : Nat) : Nat := 2 * (k - (stepExp k - 1) * 2 ^ 23) + 1

/-- The denominator of that point, for `k` below the magnitude of 2^24. -/
def midDen (k : Nat) : Nat := 2 ^ (151 - stepExp k)

/-- PI32 (R203 (c)), also the f32 nearest to π. -/
def pi32 : F32 := 0x40490FDB#32

/-- Bit by bit from bit `i - 1` down: the largest magnitude from `r` up to PI32's that differs from `r` in those bits and
whose lower halfway point lies below the angle of (x, y). -/
def angleMagFrom (y : Nat) (x : Int) : Nat → Nat → Nat
  | 0, r => r
  | i + 1, r =>
    if r + 2 ^ i ≤ magBits pi32 ∧ angleAbove (midNum (r + 2 ^ i - 1)) (midDen (r + 2 ^ i - 1)) y x = true then
      angleMagFrom y x i (r + 2 ^ i)
    else angleMagFrom y x i r

/-- The magnitude of the f32 nearest to the angle of (x, y), with y positive. -/
def angleMag (y : Nat) (x : Int) : Nat := angleMagFrom y x 31 0

/-- The angle of two finite values, neither of them zero. Where it rounds to zero from below, the sign is free (log
entry 8). -/
def atan2Finite (y x : F32) : F32 :=
  let mag := angleMag (scaled y) (exactVal x)
  packF (signBit y && (mag != 0 || Config.atan2UnderflowSign y x)) mag

/-- The default ATAN2_F32 (R203): (a) zeros, (b) NaNs, then (c) with infinite arguments at their real limits: 0x3F490FDB
is π/4, 0x3FC90FDB is π/2, 0x4016CBE4 is 3π/4. A zero `y` is the real 0 whatever its sign, and a real angle of 0 is +0
(log entry 9). -/
def atan2F32 (y x : F32) : F32 :=
  if isNaN y || isNaN x then qNaN
  else if isZero y && isZero x then 0#32
  else if isZero y then (if signBit x then pi32 else 0#32)
  else if isInf y then
    packF (signBit y)
      (if isInf x then (if signBit x then 0x4016CBE4 else 0x3F490FDB) else 0x3FC90FDB)
  else if isInf x then (if signBit x then packF (signBit y) (magBits pi32) else 0#32)
  else if isZero x then packF (signBit y) 0x3FC90FDB
  else atan2Finite y x

/-- A result that R203 (c) admits: from -PI32 to PI32. -/
def angleAdmitted (a : F32) : Bool := fle 0xC0490FDB#32 a && fle a pi32

/-- The parameter ATAN2_F32 (00_scope.md R6): R203 (a) and (b) as they are for every admissible function, then the first
entry for the arguments whose angle (c) admits, else the default. -/
def atan2At (entries : List AngleEntry) (y x : F32) : F32 :=
  if isNaN y || isNaN x || (isZero y && isZero x) then atan2F32 y x
  else
    match entries.find? fun e => e.y == y && e.x == x && angleAdmitted e.angle with
    | some e => e.angle
    | none => atan2F32 y x

end Sys2Proof.Machine
end

