-- ==== Sys2Proof/Machine/Gradient.lean ====
section
/-! DEFINITION. The gradient unit (40_gradient.md). -/

namespace Sys2Proof.Machine

/-- The pairs of indices subtracted along x, in the order of 40_gradient.md R201: 8 rows, 7 column pairs. -/
def pairsX : List (Nat × Nat) :=
  (List.range 8).flatMap fun y => (List.range 7).map fun x => (8 * y + x + 1, 8 * y + x)

/-- The pairs of indices subtracted along y, in the order of R201: 7 row pairs, 8 columns. -/
def pairsY : List (Nat × Nat) :=
  (List.range 7).flatMap fun y => (List.range 8).map fun x => (8 * (y + 1) + x, 8 * y + x)

/-- The f32 sum of the differences of the pairs, from +0 on (R201). -/
def diffSum (p : List F32) (pairs : List (Nat × Nat)) : F32 :=
  pairs.foldl (fun acc ij => fadd acc (fsub (p.getD ij.1 0#32) (p.getD ij.2 0#32))) 0#32

/-- 2π in f32 (R204). -/
def twoPi : F32 := 0x40C90FDB#32

/-- The loop of R204 that adds. By R203 (c) it runs at most once; the bound leaves one more turn (log entry 16). -/
def raiseAngle : Nat → F32 → F32
  | 0, th => th
  | n + 1, th => if flt th 0#32 then raiseAngle n (fadd th twoPi) else th

/-- The loop of R204 that subtracts, bounded as the first. -/
def lowerAngle : Nat → F32 → F32
  | 0, th => th
  | n + 1, th => if fge th twoPi then lowerAngle n (fsub th twoPi) else th

/-- The normalised angle (R204); a NaN stays as it is. -/
def normAngle (ang : F32) : F32 := if isNaN ang then ang else lowerAngle 2 (raiseAngle 2 ang)

/-- The AngleIndex (R205); 0x437F0000 is 255.0. -/
def angleIndex (th : F32) : Byte :=
  if isNaN th then 0#8
  else BitVec.ofNat 8 (min 255 (ffloor (fdiv (fmul th 0x437F0000#32) twoPi)).toNat)

/-- The results of GRAD on a patch (R202 to R205), given ATAN2_F32; 0x42600000 is 56.0. -/
def gradient (atan2 : F32 → F32 → F32) (p : List F32) : Gradient :=
  let dx := fdiv (diffSum p pairsX) 0x42600000#32
  let dy := fdiv (diffSum p pairsY) 0x42600000#32
  let ang := atan2 dy dx
  { dx := dx
    dy := dy
    mag := fsqrt (fadd (fmul dx dx) (fmul dy dy))
    angle := ang
    aidx := angleIndex (normAngle ang)
    theta := normAngle ang }

/-- GRAD (40_gradient.md R206). -/
def execGrad (s : State) : Host.Outcome State Fault Refusal :=
  (CmdResult.ok { s with gr := gradient (atan2At s.angles) s.patch }).finish

end Sys2Proof.Machine
end

