-- ==== Sys2Proof/Machine/Quantizer.lean ====
section
/-! DEFINITION. The quantiser (44_quantizer.md). -/

namespace Sys2Proof.Machine

/-- One bin of the MaxVal scan (R360): only a bin with a squared magnitude above 0 takes part. -/
def maxStep (mx re im : F32) : F32 :=
  if fgt (mag2 re im) 0#32 then fmax mx (fmax (fabs re) (fabs im)) else mx

/-- `maxval()` (R360) over all 64 bins; 0x3F800000 is 1.0. -/
def maxVal (s : State) : F32 :=
  let mx := (List.range 64).foldl (fun mx k => maxStep mx (s.cre k) (s.cim k)) 0#32
  if mx = 0#32 then 0x3F800000#32 else mx

/-- `quant8` (R361); 0x42FE0000 is 127.0. -/
def quant8 (x m : F32) : Byte := f2i8 (fdiv (fmul x 0x42FE0000#32) m)

/-- `dequant8` (R363). -/
def dequant8 (q : Byte) (m : F32) : F32 := fdiv (fmul (i2f q.toInt) m) 0x42FE0000#32

/-- The bins of the KEEP mask, ascending (R362). -/
def keptBins (s : State) : List Nat := (List.range 64).filter fun k => s.keep.getLsbD k

/-- The effect of QUANT (R362): IDX and QVAL wholly written, zero from entry K on, then KCOUNT and MAXVAL. -/
def quantize (s : State) : State :=
  let m := maxVal s
  let bins := keptBins s
  let fill := 64 - bins.length
  let idx := bins.map (BitVec.ofNat 8) ++ List.replicate fill 0#8
  let qval := bins.flatMap (fun k => [quant8 (s.cre k) m, quant8 (s.cim k) m]) ++ List.replicate (2 * fill) 0#8
  let s1 := (s.storeBytes idxBase idx).storeBytes qvalBase qval
  { s1 with kcount := BitVec.ofNat 7 bins.length, maxval := m }

/-- QUANT (R362). -/
def execQuant (s : State) : Host.Outcome State Fault Refusal := (CmdResult.ok (quantize s)).finish

/-- An index of the record is out of range, or not above the one before it (R364 (b)). -/
def badIndex (s : State) (j : Nat) : Bool :=
  decide (64 ≤ (s.idx j).toNat) || (decide (1 ≤ j) && decide ((s.idx j).toNat ≤ (s.idx (j - 1)).toNat))

/-- Some index below K is bad (R364 (b)). -/
def badRecord (s : State) : Bool := (List.range s.kcount.toNat).any (badIndex s)

/-- The bins of DEQUANT's result (R365): all +0, then the record scattered by bin index. -/
def scattered (s : State) : List (F32 × F32) :=
  (List.range s.kcount.toNat).foldl
    (fun bins j => bins.set (s.idx j).toNat (dequant8 (s.qre j) s.maxval, dequant8 (s.qim j) s.maxval))
    (List.replicate 64 (0#32, 0#32))

/-- DEQUANT (R365), with the checks of R364 in their order. Contents of IDX that nothing has written since reset are
checked as any others: DESIGN CHOICE, R364 (b) is followed, not the sentence of 70_reset_and_hazards.md R454 that such a
command completes without error (log entry 22). -/
def execDequant (s : State) : Host.Outcome State Fault Refusal :=
  if 64 < s.kcount.toNat then (CmdResult.failed .param s).finish
  else if badRecord s then (CmdResult.failed .badidx s).finish
  else (CmdResult.ok (s.storeWords coefBase ((scattered s).flatMap fun b => [b.1, b.2]))).finish

end Sys2Proof.Machine
end

