-- ==== Sys2Proof/Machine/RangeCoder.lean ====
section
/-! DEFINITION. The range coder (43_range_coder.md): the frequency model, the encoder and the decoder. -/

namespace Sys2Proof.Machine

/-! ### The frequency model -/

/-- TOP (R300). -/
def top : Nat := 2 ^ 24

/-- The halving limit (R300). -/
def halvingLimit : Nat := 2 ^ 14

/-- `cum(i)` (R302): the counts below symbol `i`, added. -/
def cum (counts : List Word) (i : Nat) : Nat := ((counts.take i).map BitVec.toNat).sum

/-- The lowest set bit of `i` (10_state.md R72). -/
def lowbit (i : Nat) : Nat := i - (i &&& (i - 1))

/-- FEN[i] (10_state.md R72): the counts of the symbols `i - lowbit i` to `i - 1`, added. Computed, not stored (log
entry 13). -/
def fen (counts : List Word) (i : Nat) : Nat :=
  (((counts.drop (i - lowbit i)).take (lowbit i)).map BitVec.toNat).sum

/-- The binary descent of R303 from position `pos`, with `rem` left. -/
def descend (counts : List Word) : List Nat → Nat → Nat → Nat
  | [], pos, _ => pos
  | step :: steps, pos, rem =>
    if fen counts (pos + step) ≤ rem then descend counts steps (pos + step) (rem - fen counts (pos + step))
    else descend counts steps pos rem

/-- `get_symbol(v)` (R303). -/
def getSymbol (counts : List Word) (v : Nat) : Nat := min (descend counts [128, 64, 32, 16, 8, 4, 2, 1] 0 v) 255

/-- The halving of every count (R304). -/
def halve (counts : List Word) : List Word := counts.map fun (x : Word) => (x >>> 1) + 1#32

/-- `update(sym)` (R304). -/
def Coder.update (sym : Nat) (c : Coder) : Coder :=
  let counts := c.counts.set sym (c.count sym + 1#32)
  let total := c.total + 1#32
  if halvingLimit ≤ total.toNat then
    { c with counts := halve counts, total := BitVec.ofNat 32 (cum (halve counts) 256) }
  else { c with counts := counts, total := total }

/-- `model_reset()` (R301). -/
def Coder.modelReset (c : Coder) : Coder := { c with counts := List.replicate 256 1#32, total := 256#32 }

/-- `enc_reset()` (R306). -/
def Coder.encReset (c : Coder) : Coder :=
  { c with range := 0xFFFFFFFF#32, low := 0#33, cache := 0#8, ffrun := 0#32, started := false, code := 0#32, pos := 0#32 }

/-- The state with another coder. -/
def State.withRc (s : State) (c : Coder) : State := { s with rc := c }

/-- `rdiv` (R310, R314): the range over the total, rounded down. -/
def Coder.rdiv (c : Coder) : Nat := c.range.toNat / c.total.toNat

/-- The range after the interval of `sym` is taken (R310, R314). -/
def Coder.narrowed (sym : Nat) (c : Coder) : Word := BitVec.ofNat 32 ((c.count sym).toNat * c.rdiv)

/-! ### The encoder -/

/-- `emit(byte)` (R307). -/
def emit (b : Byte) (s : State) : CmdResult :=
  if s.caps.toNat ≤ s.rc.pos.toNat then
    .failed .ovf (s.withRc { s.rc with mode := .idle, pos := 0#32, len := 0#32 })
  else .ok ((s.storeBytes (streamBase + s.rc.pos.toNat) [b]).withRc { s.rc with pos := s.rc.pos + 1#32 })

/-- `emit` repeated. -/
def emitMany (b : Byte) : Nat → State → CmdResult
  | 0, s => .ok s
  | n + 1, s => (emit b s).andThen (emitMany b n)

/-- `(low << 8) mod 2^32` (R308). -/
def shiftedLow (low : BitVec 33) : BitVec 33 := BitVec.ofNat 33 (low.toNat * 2 ^ 8 % 2 ^ 32)

/-- `shift_low()` (R308): every assignment stands after the emissions. -/
def shiftLow (s : State) : CmdResult :=
  let nb := s.rc.low.toNat / 2 ^ 24
  if nb = 0xFF then .ok (s.withRc { s.rc with ffrun := s.rc.ffrun + 1#32, low := shiftedLow s.rc.low })
  else
    let carry := BitVec.ofNat 8 (nb / 2 ^ 8)
    let flushed := if s.rc.started then emit (s.rc.cache + carry) s else .ok s
    (flushed.andThen (emitMany (0xFF#8 + carry) s.rc.ffrun.toNat)).andThen fun t =>
      .ok (t.withRc
        { t.rc with ffrun := 0#32, cache := BitVec.ofNat 8 nb, started := true, low := shiftedLow t.rc.low })

/-- The renormalisation loop of R310, at most `n` turns. A range that is not zero needs at most three: each multiplies
it by 2^8. -/
def renormEnc : Nat → State → CmdResult
  | 0, s => .ok s
  | n + 1, s =>
    if s.rc.range.toNat < top then
      (shiftLow s).andThen fun t => renormEnc n (t.withRc { t.rc with range := t.rc.range <<< 8 })
    else .ok s

/-- `update(sym)` and the symbol counter (R310, R314). -/
def Coder.counted (sym : Nat) (c : Coder) : Coder := { c.update sym with nsym := c.nsym + 1#32 }

/-- The interval of `sym` taken by the encoder (R310): `low` moves up, the range narrows. -/
def Coder.encInterval (sym : Nat) (c : Coder) : Coder :=
  { c with low := BitVec.ofNat 33 (c.low.toNat + cum c.counts sym * c.rdiv), range := c.narrowed sym }

/-- RC_ENC in mode ENC (R310). -/
def encodeSymbol (sym : Nat) (s : State) : CmdResult :=
  (renormEnc 4 (s.withRc (s.rc.encInterval sym))).andThen fun t => .ok (t.withRc (t.rc.counted sym))

/-- RC_INIT_ENC (R309). -/
def execRcInitEnc (s : State) : Host.Outcome State Fault Refusal :=
  (CmdResult.ok
    (s.withRc { s.rc.modelReset.encReset with sym := 0#8, nsym := 0#32, len := 0#32, mode := .enc })).finish

/-- RC_ENC (R310). A range of zero has no renormalisation (log entry 10). -/
def execRcEnc (sym : Byte) (s : State) : Host.Outcome State Fault Refusal :=
  if s.rc.mode ≠ .enc then (CmdResult.failed .mode s).finish
  else if s.rc.narrowed sym.toNat = 0#32 then .fault .zeroRange
  else (encodeSymbol sym.toNat s).finish

/-- `shift_low` repeated (R311). -/
def shiftLowTimes : Nat → State → CmdResult
  | 0, s => .ok s
  | n + 1, s => (shiftLow s).andThen (shiftLowTimes n)

/-- RC_FINISH (R311). -/
def execRcFinish (s : State) : Host.Outcome State Fault Refusal :=
  if s.rc.mode ≠ .enc then (CmdResult.failed .mode s).finish
  else
    ((shiftLowTimes 5 s).andThen fun t => .ok (t.withRc { t.rc with len := t.rc.pos, mode := .fin })).finish

/-! ### The decoder -/

/-- The byte that `inbyte()` takes (R312): 0 past the end of the input. -/
def nextByte (s : State) : Byte :=
  if s.rc.pos.toNat < min s.inlen.toNat s.caps.toNat then s.stream s.rc.pos.toNat else 0#8

/-- `code <- (code << 8) | inbyte()` with the effects of `inbyte()` (R312): INEXH past the end of the input, and the
position saturates. -/
def shiftIn (s : State) : State :=
  { s with
    rc := { s.rc with
      code := (s.rc.code <<< 8) ||| (nextByte s).setWidth 32
      pos := BitVec.ofNat 32 (min (s.rc.pos.toNat + 1) 0xFFFFFFFF) }
    status := { s.status with
      inexh := s.status.inexh || decide (min s.inlen.toNat s.caps.toNat ≤ s.rc.pos.toNat) } }

/-- `shiftIn` repeated (R313). -/
def shiftInTimes : Nat → State → State
  | 0, s => s
  | n + 1, s => shiftInTimes n (shiftIn s)

/-- RC_INIT_DEC (R313). -/
def execRcInitDec (s : State) : Host.Outcome State Fault Refusal :=
  if s.caps.toNat < s.inlen.toNat then (CmdResult.failed .param s).finish
  else
    let s1 := shiftInTimes 4 (s.withRc { s.rc.modelReset.encReset with sym := 0#8, nsym := 0#32 })
    (CmdResult.ok (s1.withRc { s1.rc with mode := .dec })).finish

/-- The renormalisation loop of R314, bounded as the encoder's. -/
def renormDec : Nat → State → State
  | 0, s => s
  | n + 1, s =>
    if s.rc.range.toNat < top then
      let t := shiftIn s
      renormDec n (t.withRc { t.rc with range := t.rc.range <<< 8 })
    else s

/-- The symbol that RC_DEC finds (R314). -/
def Coder.decoded (c : Coder) : Nat := getSymbol c.counts (c.code.toNat / c.rdiv)

/-- The interval of `sym` taken by the decoder (R314): the code moves down modulo 2^32, the range narrows. -/
def Coder.decInterval (sym : Nat) (c : Coder) : Coder :=
  { c with code := c.code - BitVec.ofNat 32 (cum c.counts sym * c.rdiv), range := c.narrowed sym }

/-- RC_DEC in mode DEC (R314). -/
def decodeSymbol (s : State) : State :=
  let sym := s.rc.decoded
  let t := renormDec 4 (s.withRc (s.rc.decInterval sym))
  t.withRc { t.rc.counted sym with sym := BitVec.ofNat 8 sym }

/-- RC_DEC (R314). A range of zero has no renormalisation (log entry 10). -/
def execRcDec (s : State) : Host.Outcome State Fault Refusal :=
  if s.rc.mode ≠ .dec then (CmdResult.failed .mode s).finish
  else if s.rc.narrowed s.rc.decoded = 0#32 then .fault .zeroRange
  else (CmdResult.ok (decodeSymbol s)).finish

end Sys2Proof.Machine
end

