-- ==== Sys2Proof/Machine/SpectralTables.lean ====
section
/-! DEFINITION. The polylogarithmic weighting tables (42_spectral_tables.md R280 to R282), as that file prints them: one
number a line, its sixteen entries from the high digits down, four lines a row of the table. -/

namespace Sys2Proof.Machine

/-- Rows 0 to 3 of section 1. -/
def plwFwdLines00 : List Nat := [
  0x3F800000_3F800000_3F800000_3F800000_3F800000_3F800000_3F800000_3F800000_3F800000_3F800000_3F800000_3F800000_3F800000_3F800000_3F800000_3F800000,
  0x3F800000_3F800000_3F800000_3F800000_3F800000_3F800000_3F800000_3F800000_3F800000_3F800000_3F800000_3F800000_3F800000_3F800000_3F800000_3F800000,
  0x3F800000_3F800000_3F800000_3F800000_3F800000_3F800000_3F800000_3F800000_3F800000_3F800000_3F800000_3F800000_3F800000_3F800000_3F800000_3F800000,
  0x3F800000_3F800000_3F800000_3F800000_3F800000_3F800000_3F800000_3F800000_3F800000_3F800000_3F800000_3F800000_3F800000_3F800000_3F800000_3F800000,
  0x3F800000_3F800000_3F6EDB40_3F655D89_3F5EDC67_3F59F16A_3F560165_3F52BB5A_3F4FEFC6_3F4D8079_3F4B5918_3F496B4C_3F47AC95_3F461510_3F449EA9_3F434495,
  0x3F420300_3F40D6CF_3F3FBD70_3F3EB4C4_3F3DBAFD_3F3CCE96_3F3BEE41_3F3B18DF_3F3A4D75_3F398B29_3F38D13B_3F381F01_3F3773E6_3F36CF62_3F3630FF_3F35984F,
  0x3F3504F3_3F347692_3F33ECDC_3F336789_3F32E656_3F326906_3F31EF62_3F317937_3F310655_3F309692_3F3029C3_3F2FBFC5_3F2F5875_3F2EF3B1_3F2E915C_3F2E315B,
  0x3F2DD392_3F2D77E9_3F2D1E49_3F2CC69C_3F2C70CE_3F2C1CCC_3F2BCA84_3F2B79E4_3F2B2ADE_3F2ADD60_3F2A915E_3F2A46CA_3F29FD96_3F29B5B7_3F296F21_3F2929C8,
  0x3F800000_3F800000_3F5EDC67_3F4D8079_3F420300_3F398B29_3F32E656_3F2D77E9_3F28E5A3_3F24F702_3F21866C_3F1E79AA_3F1BBDC4_3F194497_3F170354_3F14F18D,
  0x3F13088C_3F1142EA_3F0F9C3A_3F0E10D2_3F0C9DA2_3F0B4013_3F09F5F1_3F08BD58_3F0794A6_3F067A6D_3F056D70_3F046C95_3F0376E7_3F028B88_3F01A9B3_3F00D0BB,
  0x3F000000_3EFE6DE9_3EFCEA2E_3EFB73E6_3EFA0A3C_3EF8AC6F_3EF759CB_3EF611AF_3EF4D384_3EF39EC2_3EF272E7_3EF14F7F_3EF0341C_3EEF2059_3EEE13D9_3EED0E42,
  0x3EEC0F44_3EEB1691_3EEA23E3_3EE936F7_3EE84F8D_3EE76D6A_3EE69058_3EE5B822_3EE4E496_3EE41587_3EE34AC8_3EE28430_3EE1C197_3EE102D9_3EE047D2_3EDF9062,
  0x3F800000_3F800000_3F4FEFC6_3F381F01_3F28E5A3_3F1DF5EE_3F158D85_3F0ECB50_3F092FDF_3F046C95_3F004DCE_3EF95FE3_3EF2F303_3EED2F53_3EE7F848_3EE337CA,
  0x3EDEDC67_3EDAD826_3ED71FA9_3ED3A998_3ED06E2C_3ECD66DA_3ECA8E1A_3EC7DF31_3EC5560C_3EC2EF25_3EC0A76A_3EBE7C2A_3EBC6B07_3EBA71E6_3EB88EED_3EB6C070,
  0x3EB504F3_3EB35B1F_3EB1C1BF_3EB037BC_3EAEBC17_3EAD4DE9_3EABEC61_3EAA96BD_3EA94C4D_3EA80C6F_3EA6D68C_3EA5AA1C_3EA4869E_3EA36B9E_3EA258AC_3EA14D65,
  0x3EA04968_3E9F4C5D_3E9E55F3_3E9D65DC_3E9C7BD0_3E9B978C_3E9AB8CF_3E99DF60_3E990B04_3E983B88_3E9770BA_3E96AA6A_3E95E86E_3E952A99_3E9470C6_3E93BACD]

/-- Rows 4 to 7 of section 1. -/
def plwFwdLines01 : List Nat := [
  0x3F800000_3F800000_3F420300_3F24F702_3F13088C_3F067A6D_3EFA0A3C_3EEB1691_3EDEDC67_3ED49AD1_3ECBD4B4_3EC434CE_3EBD7EB0_3EB7861E_3EB229DB_3EAD505D,
  0x3EA8E5A3_3EA4D9BD_3EA11FD0_3E9DAD54_3E9A7994_3E977D49_3E94B251_3E921374_3E8F9C3A_3E8D48C9_3E8B15C9_3E890050_3E8705CF_3E852403_3E8358EF_3E81A2CA,
  0x3E800000_3E7CDE49_3E79DDE0_3E76FC79_3E7437FE_3E718E8A_3E6EFE65_3E6C85FE_3E6A23E3_3E67D6C6_3E659D70_3E6376C5_3E6161BF_3E5F5D6B_3E5D68E8_3E5B8367,
  0x3E59AC26_3E57E271_3E5625A1_3E547519_3E52D048_3E5136A5_3E4FA7B0_3E4E22F1_3E4CA7F8_3E4B365A_3E49CDB4_3E486DA8_3E4715DE_3E45C602_3E447DC4_3E433CDB,
  0x3F800000_3F800000_3F3504F3_3F13CD3A_3F000000_3EE4F92E_3ED105EC_3EC1848F_3EB504F3_3EAAAAAB_3EA1E89B_3E9A5FB2_3E93CD3A_3E8E00D5_3E88D677_3E8432A5,
  0x3E800000_3E785B42_3E715BEF_3E6AEBF5_3E64F92E_3E5F7483_3E5A514A_3E5584CD_3E5105EC_3E4CCCCD_3E48D2AB_3E4511A3_3E41848F_3E3E26EB_3E3AF4BA_3E37EA74,
  0x3E3504F3_3E32416A_3E2F9D53_3E2D166C_3E2AAAAB_3E285835_3E261D5F_3E23F8A2_3E21E89B_3E1FEC04_3E1E01B3_3E1C2896_3E1A5FB2_3E18A61F_3E16FB06_3E155DA2,
  0x3E13CD3A_3E124925_3E10D0C3_3E0F6381_3E0E00D5_3E0CA83F_3E0B5948_3E0A137D_3E08D677_3E07A1D2_3E067532_3E05503E_3E0432A5_3E031C1A_3E020C52_3E01030A,
  0x3F800000_3F800000_3F28E5A3_3F046C95_3EDEDC67_3EC2EF25_3EAEBC17_3E9F4C5D_3E93088C_3E890050_3E809BCC_3E72EBAC_3E669058_3E5BC0A8_3E523203_3E49ABFC,
  0x3E420300_3E3B14D6_3E34C632_3E2F0101_3E29B336_3E24CDE3_3E204490_3E1C0CC1_3E181D8B_3E146F54_3E10FB8D_3E0DBC8B_3E0AAD5F_3E07C9B6_3E050DC4_3E027630,
  0x3E000000_3DFB511C_3DF6DAFA_3DF2995C_3DEE8872_3DEAA4CA_3DE6EB48_3DE35918_3DDFEBA9_3DDCA0A4_3DD975E3_3DD66972_3DD37984_3DD0A470_3DCDE8B2_3DCB44E0,
  0x3DC8B7AD_3DC63FE5_3DC3DC6A_3DC18C31_3DBF4E43_3DBD21BA_3DBB05BE_3DB8F986_3DB6FC56_3DB50D7F_3DB32C5A_3DB1584C_3DAF90C5_3DADD53B_3DAC252C_3DAA8020,
  0x3F800000_3F800000_3F1D9624_3EED4B08_3EC20300_3EA5F48A_3E92122F_3E832139_3E6EDB40_3E5BF402_3E4C509B_3E3F20DB_3E33D5A4_3E2A0917_3E217090_3E19D408,
  0x3E13088C_3E0CEC9B_3E0765A5_3E025E51_3DFB8A86_3DF31861_3DEB4E7C_3DE418F4_3DDD66FC_3DD72A48_3DD15698_3DCBE15D_3DC6C16E_3DC1EECE_3DBD6281_3DB9165D,
  0x3DB504F3_3DB1296F_3DAD7F83_3DAA0359_3DA6B17E_3DA386D8_3DA0809B_3D9D9C40_3D9AD77A_3D983034_3D95A486_3D9332B3_3D90D923_3D8E9661_3D8C6914_3D8A5000,
  0x3D884A02_3D86560A_3D84731F_3D82A059_3D80DCE1_3D7E4FDF_3D7B0191_3D77CD7F_3D74B263_3D71AF0E_3D6EC263_3D6BEB5A_3D6928F7_3D667A50_3D63DE89_3D6154D1]

/-- Rows 8 to 11 of section 1. -/
def plwFwdLines02 : List Nat := [
  0x3F800000_3F800000_3F13088C_3ED49AD1_3EA8E5A3_3E8D48C9_3E7437FE_3E57E271_3E420300_3E3090C7_3E224B06_3E1660E7_3E0C444E_3E039105_3DF7FC78_3DEAAB6F,
  0x3DDEDC67_3DD44F68_3DCAD20F_3DC23C1D_3DBA6D00_3DB34A13_3DACBD54_3DA6B463_3DA11FD0_3D9BF284_3D972155_3D92A2AC_3D8E6E41_3D8A7CE1_3D86C847_3D834AEF,
  0x3D800000_3D79C660_3D73E15F_3D6E4A32_3D68FAC9_3D63EDB0_3D5F1E01_3D5A8752_3D5625A1_3D51F54D_3D4DF30B_3D4A1BD9_3D466CF7_3D42E3E2_3D3F7E4C_3D3C3A15,
  0x3D39154B_3D360E21_3D3322EE_3D305227_3D2D9A5F_3D2AFA45_3D28709C_3D25FC41_3D239C21_3D214F3E_3D1F14AA_3D1CEB86_3D1AD301_3D18CA58_3D16D0D3_3D14E5C5,
  0x3F800000_3F800000_3F092FDF_3EBE7C2A_3E93088C_3E708FDD_3E4C2823_3E31B5BF_3E1D9624_3E0DBC8B_3E00E9F9_3DECA238_3DDACF51_3DCB99FB_3DBE76FD_3DB2FF73,
  0x3DA8E5A3_3D9FEDB4_3D97E8D0_3D90B1C4_3D8A2AA4_3D843B15_3D7D9E21_3D73ABED_3D6A83BB_3D620E0E_3D5A36F4_3D52ED5C_3D4C2297_3D45C9F0_3D3FD85C_3D3A4430,
  0x3D3504F3_3D30132B_3D2B683B_3D26FE40_3D22CFFF_3D1ED8C6_3D1B1462_3D177F08_3D141550_3D10D422_3D0DB8B1_3D0AC070_3D07E90D_3D053069_3D029493_3D0013C4,
  0x3CFB58B4_3CF6B9A5_3CF24797_3CEDFFFA_3CE9E06F_3CE5E6C4_3CE210F0_3CDE5D0F_3CDAC95F_3CD7543B_3CD3FC1D_3CD0BF96_3CCD9D52_3CCA9411_3CC7A2A6_3CC4C7F8,
  0x3F800000_3F800000_3F000000_3EAAAAAB_3E800000_3E4CCCCD_3E2AAAAB_3E124925_3E000000_3DE38E39_3DCCCCCD_3DBA2E8C_3DAAAAAB_3D9D89D9_3D924925_3D888889,
  0x3D800000_3D70F0F1_3D638E39_3D579436_3D4CCCCD_3D430C31_3D3A2E8C_3D321643_3D2AAAAB_3D23D70A_3D1D89D9_3D17B426_3D124925_3D0D3DCB_3D088889_3D042108,
  0x3D000000_3CF83E10_3CF0F0F1_3CEA0EA1_3CE38E39_3CDD67C9_3CD79436_3CD20D21_3CCCCCCD_3CC7CE0C_3CC30C31_3CBE82FA_3CBA2E8C_3CB60B61_3CB21643_3CAE4C41,
  0x3CAAAAAB_3CA72F05_3CA3D70A_3CA0A0A1_3C9D89D9_3C9A90E8_3C97B426_3C94F209_3C924925_3C8FB824_3C8D3DCB_3C8AD8F3_3C888889_3C864B8A_3C842108_3C820821,
  0x3F800000_3F800000_3EEEDB40_3E98E906_3E5EDC67_3E2E5ABB_3E0EAB99_3DF0D61E_3DCFEFC6_3DB6AB16_3DA2ADAD_3D927C94_3D851DB9_3D73CB28_3D60B553_3D504927,
  0x3D420300_3D357EE1_3D2A6F80_3D209839_3D17C8CA_3D0FDA5A_3D08AD47_3D022790_3CF86747_3CED7EED_3CE377AB_3CDA37B6_3CD1A906_3CC9B8B3_3CC25665_3CBB73EF,
  0x3CB504F3_3CAEFE9D_3CA95766_3CA406E3_3C9F05A1_3C9A4CFE_3C95D70F_3C919E89_3C8D9EAB_3C89D32D_3C863833_3C82CA3F_3C7F0C4D_3C78D20D_3C72E081_3C6D32DE,
  0x3C67C4C2_3C62922B_3C5D9767_3C58D114_3C543C11_3C4FD57D_3C4B9AAF_3C47892F_3C439EB4_3C3FD920_3C3C367A_3C38B4EC_3C3552C2_3C320E64_3C2EE653_3C2BD92D]

/-- Rows 12 to 15 of section 1. -/
def plwFwdLines03 : List Nat := [
  0x3F800000_3F800000_3EDEDC67_3E890050_3E420300_3E146F54_3DEE8872_3DC63FE5_3DA8E5A3_3D92A2AC_3D813856_3D66826B_3D4FA7B0_3D3CA330_3D2C9617_3D1EDF85,
  0x3D13088C_3D08B773_3CFF4EA0_3CEF44C0_3CE0FC36_3CD430E0_3CC8AB8D_3CBE3F17_3CB4C632_3CAC21D3_3CA437EC_3C9CF278_3C963EBF_3C900CB9_3C8A4E9D_3C84F87F,
  0x3C800000_3C76B827_3C6E0995_3C65E64F_3C5E41FD_3C5711AC_3C504B9E_3C49E720_3C43DC6A_3C3E247E_3C38B911_3C339476_3C2EB189_3C2A0BA0_3C259E80_3C21664E,
  0x3C1D5F82_3C1986E7_3C15D987_3C1254AF_3C0EF5E0_3C0BBAD1_3C08A164_3C05A7A4_3C02CBC4_3C000C16_3BFACE1A_3BF5B670_3BF0CE7F_3BEC13C6_3BE783F2_3BE31CD5,
  0x3F800000_3F800000_3ECFEFC6_3E757EAC_3E28E5A3_3DFCBCB1_3DC7675C_3DA33180_3D892FDF_3D6B6BB4_3D4D494A_3D355D03_3D21F757_3D11F5BD_3D048DE0_3CF25DA4,
  0x3CDEDC67_3CCDF89C_3CBF3896_3CB23DFA_3CA6BE89_3C9C7F20_3C935013_3C8B0A91_3C838EB3_3C798407_3C6D1CD2_3C61C291_3C5755BE_3C4DBB7A_3C44DCB8_3C3CA59D,
  0x3C3504F3_3C2DEBC1_3C274CF0_3C211D03_3C1B51DB_3C15E285_3C10C70E_3C0BF867_3C07703E_3C0328EC_3BFE3ABD_3BF69206_3BEF4F72_3BE86B8B_3BE1DF8C_3BDBA54D,
  0x3BD5B735_3BD01026_3BCAAB75_3BC584D8_3BC09863_3BBBE279_3BB75FC6_3BB30D3C_3BAEE805_3BAAED82_3BA71B49_3BA36F18_3B9FE6DB_3B9C80A1_3B993A9A_3B96131A,
  0x3F800000_3F800000_3EC20300_3E5BF402_3E13088C_3DD72A48_3DA6B17E_3D86560A_3D5EDC67_3D3CFB64_3D231090_3D0EB20A_3CFCA8EB_3CE1E025_3CCB9D8D_3CB8DE41,
  0x3CA8E5A3_3C9B2749_3C8F38B9_3C84C7DB_3C7728ED_3C66D74B_3C584930_3C4B3C75_3C3F7AF8_3C34D80C_3C2B2E82_3C225F30_3C1A4FC8_3C12E9F2_3C0C1A98_3C05D155,
  0x3C000000_3BF534A3_3BEB2B2E_3BE1D0E4_3BD91554_3BD0E9FB_3BC94205_3BC2120B_3BBB4FE9_3BB4F28E_3BAEF1DC_3BA94687_3BA3E9FF_3B9ED657_3B9A0632_3B9574B3,
  0x3B911D6E_3B8CFC5E_3B890DD7_3B854E7E_3B81BB40_3B7CA297_3B761C13_3B6FDE30_3B69E489_3B642B10_3B5EAE05_3B5969EF_3B545B98_3B4F8002_3B4AD468_3B465634,
  0x3F800000_3F800000_3EB504F3_3E4511A3_3E000000_3DB72DBF_3D8B5948_3D5D29C8_3D3504F3_3D17B426_3D0186E2_3CE08B31_3CC511A3_3CAEC5F2_3C9C62D1_3C8D02D2,
  0x3C800000_3C69BF4D_3C568A9B_3C45D42D_3C372DBF_3C2A4064_3C1EC6C1_3C1488E8_3C0B5948_3C03126F_3BF72AAB_3BE99029_3BDD29C8_3BD1D2AB_3BC76B71_3BBDD93E,
  0x3BB504F3_3BACDA95_3BA548C7_3B9E4063_3B97B426_3B919865_3B8BE2D7_3B868A5E_3B8186E2_3B79A25D_3B70C5A2_3B686C09_3B608B31_3B5919C5_3B520F57_3B4B6444,
  0x3B4511A3_3B3F112B_3B395D22_3B33F051_3B2EC5F2_3B29D9A8_3B252771_3B20ABA0_3B1C62D1_3B1849E8_3B145E02_3B109C77_3B0D02D2_3B098ECB_3B063E44_3B030F47]

/-- Rows 16 to 19 of section 1. -/
def plwFwdLines04 : List Nat := [
  0x3F800000_3F800000_3EA8E5A3_3E3090C7_3DDEDC67_3D9BF284_3D68FAC9_3D360E21_3D13088C_3CF38EC8_3CCDC614_3CB0AB66_3C99B590_3C873B7B_3C703929_3C571DD9,
  0x3C420300_3C30139D_3C20B02D_3C135F2A_3C07C292_3BFB2159_3BE91DE9_3BD91CDF_3BCAD20F_3BBDFF24_3BB270AE_3BA7FBE7_3B9E7CFE_3B95D5C0_3B8DEC8D_3B86AB8D,
  0x3B800000_3B73B380_3B6855A0_3B5DCE0B_3B540782_3B4AEF63_3B42754A_3B3A8ABF_3B3322EE_3B2C3273_3B25AF27_3B1F8FF6_3B19CCBD_3B145E2E_3B0F3DB3_3B0A655C,
  0x3B05CFC9_3B017818_3AFAB3BB_3AF2E220_3AEB7404_3AE462B0_3ADDA7FE_3AD73E48_3AD12063_3ACB498A_3AC5B55A_3AC05FC8_3ABB4517_3AB661D1_3AB1B2C2_3AAD34F4,
  0x3F800000_3F800000_3E9D9624_3E1E3205_3DC20300_3D84C3A2_3D42C2E9_3D15DCD4_3CEEDB40_3CC38390_3CA373AF_3C8B009F_3C6FC785_3C514643_3C3880A4_3C24155D,
  0x3C13088C_3C04A274_3BF0B4B4_3BDB9161_3BC93B9E_3BB93726_3BAB21CF_3B9EAD2F_3B9399FD_3B89B4A9_3B80D2D4_3B71A2CD_3B632634_3B55FEAF_3B4A02AC_3B3F0ED4,
  0x3B3504F3_3B2BCB16_3B234AD6_3B1B70C6_3B142BFE_3B0D6DB4_3B0728EE_3B015241_3AF7BF2A_3AED8FED_3AE406E5_3ADB15E1_3AD2B033_3ACACA7E_3AC35A8B_3ABC5727,
  0x3AB5B802_3AAF759A_3AA9891D_3AA3EC5C_3A9E99B3_3A998BFF_3A94BE8F_3A902D17_3A8BD3A6_3A87AEA0_3A83BAB2_3A7FE99A_3A78B43A_3A71D011_3A6B384B_3A64E873,
  0x3F800000_3F800000_3E93088C_3E0DBC8B_3DA8E5A3_3D620E0E_3D22CFFF_3CF6B9A5_3CC20300_3C9CF278_3C81D59F_3C5ABB7E_3C3B05BE_3C21ED90_3C0DB4D7_3BFA5076,
  0x3BDEDC67_3BC7D244_3BB448F1_3BA390F0_3B952400_3B8899F6_3B7B41EE_3B67EFD8_3B56D515_3B479CD2_3B3A01A4_3B2DCA47_3B22C725_3B18D06B_3B0FC490_3B078728,
  0x3B000000_3AF234BA_3AE588D2_3AD9DD70_3ACF17CF_3AC52098_3ABBE360_3AB34E36_3AAB514D_3AA3DEAD_3A9CE9F0_3A966813_3A904F3F_3A8A96AC_3A853677_3A80278C,
  0x3A76C70F_3A6DC950_3A654B6E_3A5D43F5_3A55AA4E_3A4E76AA_3A47A1E9_3A412588_3A3AFB94_3A351E97_3A2F8990_3A2A37E4_3A252557_3A204E00_3A1BAE45_3A1742D0,
  0x3F800000_3F800000_3E892FDF_3DFDFAE3_3D93088C_3D407317_3D081AC2_3CCB18DA_3C9D9624_3C7BF9DB_3C4E4329_3C2C18E3_3C11DF8B_3BFA9621_3BD9AC8F_3BBEEE59,
  0x3BA8E5A3_3B96855E_3B8707D5_3B73B222_3B5D1106_3B497E9A_3B387300_3B2982BB_3B1C57D2_3B10ACD6_3B064934_3AF9FCDF_3AE94C1A_3ADA3FEF_3ACCA284_3AC04663,
  0x3AB504F3_3AAABD41_3AA1530A_3A98ADF2_3A90B8E3_3A896189_3A8297E6_3A789BF4_3A6CEEE7_3A6212F1_3A57F4DD_3A4E83A1_3A45B013_3A3D6CAC_3A35AD52_3A2E672C,
  0x3A279078_3A21206C_3A1B0F19_3A155551_3A0FEC93_3A0ACEF4_3A05F713_3A016009_39FA0AB5_39F1C5DF_39E9EA0E_39E2705E_39DB527A_39D48A8F_39CE1340_39C7E796]

/-- Rows 20 to 23 of section 1. -/
def plwFwdLines05 : List Nat := [
  0x3F800000_3F800000_3E800000_3DE38E39_3D800000_3D23D70A_3CE38E39_3CA72F05_3C800000_3C4A4588_3C23D70A_3C0767AB_3BE38E39_3BC1E4BC_3BA72F05_3B91A2B4,
  0x3B800000_3B62C4A7_3B4A4588_3B358A48_3B23D70A_3B149B93_3B0767AB_3AF7C5EE_3AE38E39_3AD1B717_3AC1E4BC_3AB3CC07_3AA72F05_3A9BDA41_3A91A2B4_3A88642A,
  0x3A800000_3A70B84D_3A62C4A7_3A55FEBF_3A4A4588_3A3F7C5B_3A358A48_3A2C598B_3A23D70A_3A1BF1FD_3A149B93_3A0DC6AE_3A0767AB_3A01742E_39F7C5EE_39ED577F,
  0x39E38E39_39DA5CC3_39D1B717_39C9925B_39C1E4BC_39BAA552_39B3CC07_39AD517F_39A72F05_39A15E79_399BDA41_39969D3C_3991A2B4_398CE657_3988642A_39841883,
  0x3F800000_3F800000_3E6EDB40_3DCBE15D_3D5EDC67_3D0B7BC9_3CBE3A21_3C899EEC_3C4FEFC6_3C225F30_3C02248A_3BD5124C_3BB17CF6_3B9606DD_3B80679D_3B5E2BE5,
  0x3B420300_3B2AD1C4_3B177F8F_3B073CD2_3AF2DADD_3ADB3458_3AC6CD7E_3AB515A7_3AA59A2F_3A97FF50_3A8BFADF_3A81506C_3A6F9C9A_3A5E96D7_3A4F4B16_3A417FEE,
  0x3A3504F3_3A29B114_3A1F6151_3A15F7AB_3A0D5A57_3A057305_39FC5CBB_39EEF708_39E29778_39D7242D_39CC8667_39C2AA0B_39B97D4F_39B0F064_39A8F538_39A17F3A,
  0x399A832C_3993F6F7_398DD18A_39880AB7_39829B1E_397AF824_39714F08_39682FEC_395F90CE_39576890_394FAEDF_39485C1F_39416958_393AD025_39348AA8_392E937B,
  0x3F800000_3F800000_3E5EDC67_3DB6AB16_3D420300_3CED7EED_3C9F05A1_3C62922B_3C28E5A3_3C0257B5_3BCEC08A_3BA7A4AB_3B8A6FCB_3B682B4F_3B453DD2_3B2976F4,
  0x3B13088C_3B00ACA8_3AE2F08E_3AC97D43_3AB3FCF8_3AA1AB55_3A91F121_3A845869_3A710843_3A5C5441_3A4A1D71_3A3A02ED_3A2BB56C_3A1EF38E_3A13870E_3A094294,
  0x3A000000_39EF3E36_39E00904_39D231A7_39C58FFD_39BA0172_39AF6819_39A5A9F3_399CB055_39946769_398CBDC4_3985A410_397E1981_3971D7A5_39666D38_395BC739,
  0x3951D4AE_39488667_393FCEC2_3937A17C_392FF38A_3928BAF3_3921EEAF_391B8690_39157B29_390FC5B6_390A600E_39054494_39006E22_38F7B007_38EEFBD1_38E6B7B4,
  0x3F800000_3F800000_3E4FEFC6_3DA3A9C8_3D28E5A3_3CCA308D_3C84EF93_3C3A81B7_3C092FDF_3BD1434B_3BA43AA2_3B83E68D_3B57F474_3B33A49A_3B177D93_3B014302,
  0x3ADEDC67_3AC1DAED_3AA9F969_3A96193E_3A85653B_3A6E7892_3A5645ED_3A4172E0_3A2F68EE_3A1FB0A8_3A11EA5A_3A05C8A2_39F618DA_39E303D6_39D1FC80_39C2BB79,
  0x39B504F3_39A8A68D_399D7597_39934DBA_398A0FDF_3981A150_3973D5FD_3965B1E4_3958B396_394CBCC2_3941B2D9_39377E87_392E0B3C_392546C9_391D2113_39158BC8,
  0x390E7A23_3907E0C0_3901B569_38F7DDEC_38ED0A52_38E2E12C_38D95511_38D059DF_38C7E497_38BFEB3D_38B864BA_38B148C8_38AA8FD9_38A43305_389E2BFA_389874ED]

/-- Rows 24 to 27 of section 1. -/
def plwFwdLines06 : List Nat := [
  0x3F800000_3F800000_3E420300_3D92A2AC_3D13088C_3CAC21D3_3C5E41FD_3C1986E7_3BDEDC67_3BA7FBE7_3B8273A6_3B4F8E9B_3B28709C_3B0B0017_3AE8B40F_3AC53157,
  0x3AA8E5A3_3A9206DB_3A7E9DBB_3A5FA171_3A45BA57_3A2FE0FC_3A1D4C80_3A0D61B5_39FF4EA0_39E77AF0_39D2AF65_39C070D0_39B05B2E_39A21CA1_399571B4_398A2268,
  0x39800000_396DC670_395D55D1_394E75D8_3940F683_3934AEB0_39297AF6_391F3CC1_3915D987_390D3A30_39054A8F_38FBF1E7_38EE6BA2_38E1E6E3_38D64B67_38CB83AD,
  0x38C17C93_38B8250E_38AF6DE0_38A74967_389FAB62_389888CF_3891D7BF_388B8F3C_3885A72A_3880182D_3875B731_386BD6B5_386283D5_3859B477_38515F63_38497C25,
  0x3F800000_3F800000_3E3504F3_3D836117_3D000000_3C928AFF_3C39CC60_3BFCC209_3BB504F3_3B86D905_3B4F3E37_3B234DF5_3B036117_3AD71B03_3AB2BA14_3A966969,
  0x3A800000_3A5BFF58_3A3EB418_3A2697BA_3A128AFF_3A01B727_39E6F28E_39CEA838_39B9CC60_39A7C5AC_39981A42_398A6864_397CC209_3967875C_3954B6DF_3943F906,
  0x393504F3_39279DA8_391B8FCA_3910AFE6_3906D905_38FBD72C_38EB98FE_38DCC8CF_38CF3E37_38C2D623_38B77202_38ACF718_38A34DF5_389A61F8_389220EE_388A7ABC,
  0x38836117_38798E96_386D4403_3861CE33_38571B03_384D1A27_3843BCF8_383AF641_3832BA14_382AFDA6_3823B72E_381CDDCB_38166969_381052AB_380A92DB_380523D7,
  0x3F800000_3F800000_3E28E5A3_3D6B6BB4_3CDEDC67_3C798407_3C1B51DB_3BD01026_3B93088C_3B587EEA_3B249E76_3B007CA7_3ACCF216_3AA67097_3A89453C_3A65752C,
  0x3A420300_3A25B81B_3A0ED57D_39F8347C_39D93750_39BF565C_39A98A1E_399708F4_398736B5_39733219_395B9E60_39471797_39352123_392555CB_391762B9_390B03AA,
  0x39000000_38EC50F9_38DAAAF1_38CACB03_38BC7873_38AF82EE_38A3C116_38990F61_388F4F25_388665D1_387C789D_386D7CF7_385FB570_38530319_38474AB7_383C743D,
  0x38326A61_38291A3F_38207307_381865B9_3810E4EF_3809E4A4_38035A12_37FA7705_37EF0071_37E4409B_37DA2937_37D0AD53_37C7C129_37BF5A09_37B76E34_37AFF4C7,
  0x3F800000_3F800000_3E1D9624_3D52ED5C_3CC20300_3C546C36_3C01D746_3BAB4584_3B6EDB40_3B2DCA47_3B02C2F2_3ACA2F73_3A9FDA59_3A80C8C7_3A52DC2A_3A2F05B9,
  0x3A13088C_39F9AA44_39D5F5F5_39B8E637_39A0FC7E_398D1DD3_3978EB5B_395CC46E_3944CD51_39304367_391E8D53_390F3111_3901CCB0_38EC21DB_38D77A51_38C53899,
  0x38B504F3_38A69663_3899AFD8_388E1DF7_3883B553_3874A214_3863A340_38543837_38463288_38396A17_382DBC1C_38230A54_38193A54_381034F9_3807E5F2_38003B56,
  0x37F24AAE_37E52BE3_37D9016D_37CDB528_37C33352_37B96A43_37B04A25_37A7C4C2_379FCD50_37985848_37915B41_378ACCCD_3784A463_377DB487_3772CEC1_37688A9E]

/-- Rows 28 to 31 of section 1. -/
def plwFwdLines07 : List Nat := [
  0x3F800000_3F800000_3E13088C_3D3CFB64_3CA8E5A3_3C34D80C_3BD91554_3B8CFC5E_3B420300_3B0B8232_3ACFBC31_3A9F13FF_3A795CFD_3A474BC5_3A21F33F_3A05803F,
  0x39DEDC67_39BC1131_39A040D6_3989BD6C_396E9FFF_39502790_3936BB96_392158EF_390F38B9_38FF810D_38E4EE54_38CDF938_38BA082B_38A89F5C_38995A33_388BE65B,
  0x38800000_386ADDCC_3858084D_384730DB_3838152A_382A7D0E_381E38BC_38131F5A_38090DD7_37FFCBFB_37EF1B56_37DFDC63_37D1E7A2_37C51A8F_37B956E9_37AE821B,
  0x37A484B5_379B4A00_3792BFA3_378AD54E_37837C7F_37795080_376C99F7_3760C09E_3755B1CD_374B5CBB_3741B246_3738A4C3_373027D4_37283043_3720B3E4_3719A976,
  0x3F800000_3F800000_3E092FDF_3D2951ED_3C93088C_3C19F5AC_3BB57903_3B681C67_3B1D9624_3ADFFA8A_3AA50287_3A7A52BE_3A427F65_3A1A3501_39F8C536_39CBA8E7,
  0x39A8E5A3_398DAAB3_39700DEC_394D37B0_3930DA6B_39198507_39062518_38EBD747_38D07518_38B92F26_38A54667_38942412_3885500F_3870D3CA_385A46F3_38467A35,
  0x383504F3_382590BB_3817D5AF_380B97B8_3800A458_37EDA1CA_37DBF25C_37CBFCAE_37BD8BEC_37B072AF_37A489CD_3799AF5A_378FC5DF_3786B3AD_377CC49F_376D7C26,
  0x375F6B4A_3752737D_374679BA_373B660C_3731232B_37279E22_371EC603_37168BAD_370EE18C_3707BB70_37010E60_36F5A0F1_36E9F193_36DEFE7D_36D4B908_36CB13E6,
  0x3F800000_3F800000_3E000000_3D17B426_3C800000_3C03126F_3B97B426_3B3F112B_3B000000_3AB3CC07_3A83126F_3A44F3E2_3A17B426_39EEA35D_39BF112B_399B5837,
  0x39800000_39556DCA_3933CC07_3918E03D_3903126F_38E27329_38C4F3E2_38AC5D2B_3897B426_388637BD_386EA35D_385517BC_383F112B_382BF9A9_381B5837_380CCA7D,
  0x38000000_37E96CE6_37D56DCA_37C3A715_37B3CC07_37A59BFB_3798E03D_378D6A4A_3783126F_37736D40_37627329_375303FD_3744F3E2_37381CB3_372C5D2B_3721982B,
  0x3717B426_370E9A9F_370637BD_36FCF3E6_36EEA35D_36E16233_36D517BC_36C9ADF6_36BF112B_36B52FB0_36ABF9A9_36A360CC_369B5837_3693D44A_368CCA7D_36863148,
  0x3F800000_3F800000_3DEEDB40_3D07EB93_3C5EDC67_3BDF2C75_3B7DA2D7_3B1D47EA_3ACFEFC6_3A90549C_3A503A77_3A1AF608_39ECA69E_39B8A5FD_3992BF8F_396CFB9F,
  0x39420300_3920C56D_3906AA46_38E3C4BF_38C248B1_38A7034F_38909573_387BF19B_385CCD94_38428E7B_382C4875_381942DE_3808EBC6_37F59D9E_37DD1CE5_37C7BDDD,
  0x37B504F3_37A48CAF_3796013D_37891CF4_377B4B45_3766D4CB_375483FC_374412E6_373545F9_3727EA49_371BD41D_3710DDCD_3706E6C5_36FBA589_36EB1264_36DBE929,
  0x36CE043B_36C14291_36B58717_36AAB81D_36A0BEEA_36978754_368EFF6D_3687173A_367F80EB_3671DCB3_36652AE4_365956E9_364E4E3C_36440027_363A5D95_363158DE]

/-- Rows 32 to 35 of section 1. -/
def plwFwdLines08 : List Nat := [
  0x3F800000_3F800000_3DDEDC67_3CF38EC8_3C420300_3BBDFF24_3B540782_3B017818_3AA8E5A3_3A67B85F_3A2566D5_39F3D83E_39B8950E_398EDF93_39616B39_3934C327,
  0x3913088C_38F235F2_38C9B962_38A9ACDA_388FFD93_38765A6A_38544776_383821F6_3820B02D_380D02B9_37F8C1C6_37DC753F_37C43D0E_37AF6507_379D5CDC_378DB014,
  0x37800000_3767FE44_3752DB4F_37402D65_372F9C6F_3720DEA8_3713B5FA_3707EDE8_36FAB3BB_36E7A7AA_36D67680_36C6E848_36B8CCBB_36ABFA0F_36A04BFB_3695A2E0,
  0x368BE31F_3682F482_36758387_3666704B_36588E34_364BBFF0_363FEB7A_3634F9AD_362AD5E5_36216DB6_3618B09D_36108FD0_3608FE02_3601EF3A_35F6B15B_35EA6139,
  0x3F800000_3F800000_3DCFEFC6_3CDA37B6_3C28E5A3_3BA1C071_3B313F6F_3AD52688_3A892FDF_3A3A02ED_3A03621B_39BFDAFC_398FF84E_395D195A_392D21CC_3909E113,
  0x38DEDC67_38B673B2_38971696_387CCC32_38556EC4_3835B133_381BD5C4_380692B2_37E9E13E_37CC673E_37B39696_379E8EF9_378CA07C_377A7FD2_375FFC45_37490396,
  0x373504F3_37238A3B_37143270_3706AD77_36F5718D_36E0399F_36CD55E3_36BC77B4_36AD5C78_369FCB85_36939475_36888DCA_367D279D_366B0F57_365A9D52_364BA31B,
  0x363DF82F_36317925_362606ED_361B863A_3611DEF8_3608FBE1_3600CA1D_35F271E3_35E472F6_35D77CE6_35CB77F9_35C04EF3_35B5EEC5_35AC4651_35A3462C_359AE06F,
  0x3F800000_3F800000_3DC20300_3CC38390_3C13088C_3B89B4A9_3B142BFE_3AAF759A_3A5EDC67_3A1551B1_39D0B90A_3996F359_39609626_392B13CD_3904F92D_38D256C3,
  0x38A8E5A3_38896FDD_38625351_383C520E_381E2EAC_380600C0_37E4CC5D_37C4B477_37AA346B_379425B8_3781A703_376413EE_37498CC6_3732E1CC_371F6837_370E9721,
  0x37000000_36E691E1_36D050C4_36BCC384_36AB85CA_369C440E_368EB864_3682A801_366FC272_365C73CF_364B1C47_363B7E70_362D658D_3620A42F_36151310_360A901F,
  0x3600FDB7_35F083FD_35E08CA4_35D1EDAE_35C4842A_35B83147_35ACD9C6_35A26583_3598BF0B_358FD349_35879136_357FD335_35719DB0_35646968_35582066_354CAEE0,
  0x3F800000_3F800000_3DB504F3_3CAF2C1F_3C000000_3B6A77FE_3AF7BB2A_3A906EE1_3A3504F3_39EFBAB4_39A5CB5F_396D88AB_392F2C1F_39045F64_38CC4260_38A07070,
  0x38800000_384F0E71_382983A4_380C49E0_37EA77FE_37C5A960_37A7F638_378FC2EF_3777BB2A_3756BF95_373B3402_372409F2_37106EE1_36FF7AE1_36E2E532_36CA4B61,
  0x36B504F3_36A2895D_36926937_3684490C_366FBAB4_3659CEDA_364665E4_3635280C_3625CB5F_36181147_360BC494_3600B7E2_35ED88AB_35DB9106_35CB4F35_35BC9157,
  0x35AF2C1F_35A2F9DA_3597D99B_358DAE8F_35845F64_3577ABA8_3567FC68_35598E42_354C4260_353FFD5C_3534A6D2_352A28FF_35207070_35176BB8_350F0B35_350740DA]

/-- Rows 36 to 39 of section 1. -/
def plwFwdLines09 : List Nat := [
  0x3F800000_3F800000_3DA8E5A3_3C9CF278_3BDEDC67_3B479CD2_3ACF17CF_3A6DC950_3A13088C_39C070D0_3983B1F8_393AE3DC_3908A164_38CCD958_389CE169_3874C140,
  0x38420300_381BF892_37FDED50_37D103C7_37ADC5D9_3791C7E5_37769A5A_375222B8_373448F1_371BA52F_37072662_36EBF608_36CF014C_36B67052_36A17A5F_368F7FA7,
  0x36800000_366527BB_364DCE10_36396927_36278783_3617CB2E_3609E5F8_35FB2CEE_35E54B6E_35D1CAA3_35C05BE5_35B0BC40_35A2B280_35960D95_358AA348_35804F24,
  0x356DE32C_355CDE5D_354D6009_353F3E66_353254D7_35268331_351BAD1E_3511B99D_3508928A_35002445_34F0BAB9_34E25C8E_34D5124E_34C8C32F_34BD58FC_34B2BFC6,
  0x3F800000_3F800000_3D9D9624_3C8C9E3D_3BC20300_3B29F02B_3AAD1F08_3A43BD29_39EEDB40_399A7AEA_395137EA_39130B3C_38D52321_389E80F5_3870FB9D_383AB0C5,
  0x3813088C_37EAFA9A_37BE2FF6_379BB464_3780C9FF_375708E1_37350842_371993C7_3703338C_36E19DF5_36C32418_36A9B56A_369457A5_368247A5_3665D7CE_364B9543,
  0x363504F3_36218A12_3610A580_3601EF83_35EA25EA_35D39318_35BFB1E5_35AE20FF_359E8ED3_3590B6B4_35845E8F_3572AA29_355EE07A_354D1824_353D1366_352E9D0E,
  0x3521871E_3515A9B9_350AE231_3501124B_34F03F2A_34DFE5C0_34D0EF94_34C338BC_34B6A180_34AB0DCB_34A064B1_3496900E_348D7C26_3485175C_347AA3E0_346C3B8C,
  0x3F800000_3F800000_3D93088C_3C7BF9DB_3BA8E5A3_3B10ACD6_3A90B8E3_3A21206C_39C20300_397803E7_39263027_38E762E7_38A63DFE_38754990_383915FE_380E66AA,
  0x37DEDC67_37B1011F_378E7286_3767FBA8_373EE666_371E980C_3704E584_36E07BBC_36BEF64C_36A385CB_368CE16F_36741DE3_36549B9E_363A10F3_36239369_361069A8,
  0x36000000_35E3BFCD_35CB531B_35B61E0A_35A3A109_35937313_35853D40_35716E87_355B4959_3547A573_35362D35_3526981A_3518A876_350C29A4_3500EE8C_34EDA0D3,
  0x34DB5B9C_34CAD398_34BBD693_34AE38DB_34A1D44D_3496878C_348C3550_3482C3DA_347438EB_34645628_3455BBE4_34484A97_343BE637_343075C8_3425E2FC_341C19DD,
  0x3F800000_3F800000_3D892FDF_3C61C291_3B93088C_3AF655E0_3A71F6AF_3A04A284_399D9624_39471797_39040206_38B60DA2_3881AA43_383DCB14_380E278C_37D93CB2,
  0x37A8E5A3_3785555D_375561B6_372CD095_370D7B89_36E9EF48_36C31EAE_36A41032_368AF8BB_366D0927_364B6A58_362F930C_36185B7F_3604DEC8_35E8D436_35CCE13F,
  0x35B504F3_35A08C59_358EE73B_357F4151_3564B263_354D8502_353937E1_35275FBC_3517A323_3509B72B_34FAB99A_34E4BD8C_34D11FD0_34BF9374_34AFD6B1_34A1B11F,
  0x3494F232_34896FFE_347E0C73_346B2ABA_345A03E6_344A6802_343C2D0E_342F2E2B_34234AE9_341866AB_340E6823_340538EB_33F98A37_33E9F606_33DB95B6_33CE4D1A]

/-- Rows 40 to 43 of section 1. -/
def plwFwdLines10 : List Nat := [
  0x3F800000_3F800000_3D800000_3C4A4588_3B800000_3AD1B717_3A4A4588_39DA5CC3_39800000_391FD1CD_38D1B717_388F3D01_384A4588_3812DAB0_37DA5CC3_37A5B36E,
  0x37800000_3748DFCD_371FD1CD_3700BCD5_36D1B717_36AC8881_368F3D01_366FCF8A_364A4588_362BCC77_3612DAB0_35FC8DE9_35DA5CC3_35BDC40A_35A5B36E_35915527,
  0x35800000_35625A15_3548DFCD_3532E1E7_351FD1CD_350F3ACB_3500BCD5_34E810E3_34D1B717_34BDFDDB_34AC8881_349D08EC_348F3D01_3482EC96_346FCF8A_345C0B1F,
  0x344A4588_343A421E_342BCC77_341EB727_3412DAB0_340814A6_33FC8DE9_33EAAE80_33DA5CC3_33CB6FEF_33BDC40A_33B13945_33A5B36E_339B197C_33915527_33885292,
  0x3F800000_3F800000_3D6EDB40_3C353A1A_3B5EDC67_3AB289F7_3A29173A_39B3BFE6_394FEFC6_39004B36_38A6952C_386165DE_381DC469_37E34272_37A7B65A_377CC821,
  0x37420300_37175067_36EF6799_36BFCE1A_369B6D5A_367E7EF3_36524DBF_362F43E6_361333B8_35F9084B_35D40A69_35B5A496_359C7B2B_35878319_356BDA8E_354E2F58,
  0x353504F3_351F902E_350D2E57_34FAB89A_34DF5F59_34C7A348_34B2F5E2_34A0E18F_349104C7_34830E45_346D73FC_34579D78_34443864_3432F2DE_3423873B_3415B9FB,
  0x34095827_33FC6BD8_33E85AFE_33D63C61_33C5D748_33B6FA5C_33A97A94_339D324D_33920086_3387C841_337CDFE1_336BC213_335C0F2F_334DA3D5_3340609A_33342984,
  0x3F800000_3F800000_3D5EDC67_3C225F30_3B420300_3A97FF50_3A0D5A57_3993F6F7_3928E5A3_38CDF938_38845244_38315773_37F61C13_37AFD817_3780CF8E_3740D029,
  0x3713088C_36E3F689_36B34F73_368EE267_36666285_363BB29A_361A6284_360017A0_35D6403B_35B47E5E_359914C9_3582A44B_356045C7_354189F6_3527DA84_35124225,
  0x35000000_34E0F68F_34C6740E_34AFB47A_349C1946_348B216E_3478C6B3_345F1042_34488FC9_3434CDC9_3423667A_3414062A_34066659_33F496D7_33DF0589_33CBC28D,
  0x33BA8429_33AB0B1C_339D20FA_339096C6_338543D1_33760996_336375E6_335296E5_33433D98_333540CC_33287C44_331CD011_33122002_33085320_32FEA690_32EE199F,
  0x3F800000_3F800000_3D4FEFC6_3C117A79_3B28E5A3_3A8166C1_39EC5493_397399C0_39092FDF_38A557EF_38523692_380B87FD_37BFF5BD_37880F9A_3745DD7B_37131237,
  0x36DEDC67_36ABB82F_36864CF8_3654E1DA_362ABF03_360A6EA0_35E2AB4B_35BB3B68_359BEB7E_3582D16F_355D081B_353BEBD1_3520B76A_350A34DE_34EEEAF4_34CF7F92,
  0x34B504F3_349E958F_348B7AC4_34764481_345A2C0C_3441ECA5_342CEA02_341AA3DC_340AB060_33F96FA3_33E0E238_33CB3E32_33B81CCF_33A7275A_33981466_338AA584,
  0x337D4AE9_3367CD40_335483BF_33432AF3_33338893_33256A1E_3318A3B1_330D0F10_33028AD6_32F1F389_32E08463_32D09B10_32C20FC1_32B4BF48_32A88A80_329D55C6]

/-- Rows 44 to 47 of section 1. -/
def plwFwdLines11 : List Nat := [
  0x3F800000_3F800000_3D420300_3C0257B5_3B13088C_3A5C5441_39C58FFD_39488667_38DEDC67_3884BA65_3826FA6F_37DB9082_3795B96F_37528E86_3717F834_36E05C8C,
  0x36A8E5A3_36815A3A_36492D9D_361E95F1_35FD177A_35CC31E8_35A66615_3588D695_3562F08E_353DA0EC_351F927A_35072841_34E657BE_34C56317_34AA08C3_349330A6,
  0x34800000_345F9537_34440FC8_342C9580_341876ED_3407261A_33F05EF9_33D66908_33BFCEC2_33AC0F76_339AC036_338B87C5_337C369F_336477BB_334F6870_333CAE76,
  0x332BFCF5_331D1247_330FB62C_3303B845_32F1DDBE_32DE6BCF_32CCDC2D_32BCF873_32AE9131_32A17CF3_32959767_328AC0A8_3280DCA2_326FA526_325F1930_324FEE9B,
  0x3F800000_3F800000_3D3504F3_3BE99029_3B000000_3A3B9332_39A52771_39251101_38B504F3_385517BC_3804A2B3_37ACC07C_37699029_3722EB8F_36E9706D_36AB2299,
  0x36800000_3642E06A_3616ADE7_35EC4687_35BB9332_3596996E_35744EDE_35480415_35252771_3509705F_34E66765_34C26A9A_34A51101_348CF459_3472058B_3450D1F0,
  0x343504F3_341D9C79_3409CC70_33F1E4A9_33D517BC_33BC5FDF_33A7126F_3394A424_3384A2B3_336D5FA7_3354FAC9_333F94AA_332CC07C_331C22DD_330D6EC1_330062F4,
  0x32E99029_32D4DDD9_32C25E37_32B1CBFE_32A2EB8F_32958974_32897921_327D27DD_3269706D_3257913E_324756F9_3238949B_322B2299_321EDE21_3213A879_32096674,
  0x3F800000_3F800000_3D28E5A3_3BD1434B_3ADEDC67_3A1FB0A8_398A0FDF_3907E0C0_3893088C_382B0EF2_37D2B65A_3787EB89_37362C85_36FC1F31_36B34AC1_36828933,
  0x36420300_3612CBD5_35E1B680_35B0032E_358B04AE_355E2469_353358FC_35122E6A_34F06142_34C739D6_34A656A0_348BD42B_346C93C5_34494FCD_342C3E43_341420AC,
  0x34000000_33DE360A_33C1B2E2_33A984B6_3394EA3C_338347F1_33683FF2_334E17BD_33376F8B_3323BD60_33128F29_33038624_32ECA68B_32D568A6_32C0E32C_32AEB805,
  0x329E9773_32903DA0_328370AA_326FFDFE_325B7C1D_32491258_32388153_3229922A_321C1530_320FE0DD_3204D0F3_31F58B73_31E346BA_31D2A2D1_31C374A1_31B5961E,
  0x3F800000_3F800000_3D1D9624_3BBB7DA7_3AC20300_3A07F356_3966D40B_38DFB39D_386EDB40_380950D0_37A75FEF_3755E1CC_370E176B_36C314DF_3689B45A_364722F5,
  0x3613088C_35DD2819_35A90E30_35831EA5_354E0FFE_3523D601_3503A8EA_34D5AC36_34AEEF65_34906518_34702C6C_344922DC_342988BC_340FC1D1_33F52A75_33D22677,
  0x33B504F3_339CA4EB_3388234C_336D98B5_335021B3_3336FBC2_33216D63_330EDFFF_32FDB152_32E1E500_32C9B4A9_32B49672_32A2179E_3291D847_328387EE_326DC585,
  0x32575ED3_32437A6A_3231C55E_3221F8D7_3213D81A_32072EF1_31F7A0AF_31E32ABF_31D0B893_31C00F7C_31B0FC5A_31A35280_3196EAD3_318BA300_31815CD7_316FFB7A]

/-- Rows 48 to 51 of section 1. -/
def plwFwdLines12 : List Nat := [
  0x3F800000_3F800000_3D13088C_3BA7FBE7_3AA8E5A3_39E77AF0_3940F683_38B8250E_38420300_37DC753F_3784F352_372847EE_36DDA7FE_3696F231_365386DA_3617E4F9,
  0x35DEDC67_35A697A4_357D3D5F_35435AA8_3518B852_34F1AABD_34C14DD8_349C298E_347E9DBB_34514F18_342D6439_3410A96A_33F2FAFE_33CD507F_33AE7B1B_3395123A,
  0x33800000_335CD905_333F5D47_332681DE_331172B2_32FF0C3D_32E06729_32C6190C_32AF6DE0_329BD24D_328ACD1C_3277F43F_325E0C4E_324757AB_32336227_3221CA18,
  0x32123D13_32047549_31F06ED0_31DAA1B3_31C72CAE_31B5C57E_31A62C39_319829B8_318B8E3D_3180305E_316BD827_315943E5_31486D08_31392372_312B3CE3_311E942E,
  0x3F800000_3F800000_3D092FDF_3B9681B6_3A93088C_39C51180_39214F1F_38979529_381D9624_37B0F886_3753366F_37046701_36ACE304_3669977C_36227657_35E7B836,
  0x35A8E5A3_357AFB09_353DAC30_3511873A_34E25F42_34B23C68_348DE7C4_3464430D_34394BA3_3417B3F0_33FA5B80_33D01693_33AE1F6C_33929D8D_337859D4_33537D28,
  0x333504F3_331BAEE2_33067F47_32E9604A_32CB493B_32B1BF24_329BF92A_3289551E_32729E9F_3256F876_323F0751_322A39B5_32181723_32083B58_31F4A523_31DC2D1B,
  0x31C69842_31B3829A_31A29754_31938E42_318629C9_31746A46_315F05FD_314BD8A2_313A9EC2_312B1DF1_311D2376_3110832A_31051684_30F577A1_30E2AB0E_30D19368,
  0x3F800000_3F800000_3D000000_3B86D905_3A800000_39A7C5AC_3906D905_38798E96_38000000_378E0FD3_3727C5AC_36D058BC_3686D905_3634BE62_35F98E96_35B0BF64,
  0x35800000_353D0EDF_350E0FD3_34D8D23E_34A7C5AC_34837431_345058BC_3426D328_3406D905_33DBE6FF_33B4BE62_3395A96E_33798E96_3351658F_3330BF64_33160551,
  0x33000000_32DB7E24_32BD0EDF_32A38CB6_328E0FD3_3277BFA5_3258D23E_323E69C1_3227C5AC_32144941_32037431_31E9B9EE_31D058BC_31BA3409_31A6D328_3195D11B,
  0x3186D905_317346AE_315BE6FF_31472C1D_3134BE62_312452E5_3115A96E_31088AC3_30F98E96_30E46BB7_30D1658F_30C03E1F_30B0BF64_30A2BA36_30960551_308A7C84,
  0x3F800000_3F800000_3CEEDB40_3B71A2CD_3A5EDC67_398ED4C5_38E1744D_384D6D9A_37CFEFC6_376413EE_37054423_36A3ECFE_36525B37_360BDA1F_35BFABD5_3586D123,
  0x35420300_350E69CA_34D4CDDD_34A18524_3478AEF7_3441E6D1_3418F2B9_33F3D8E7_33C444F6_339F6178_33827C8F_335747CE_3332D5E8_331587D5_32FB93CA_32D4D608,
  0x32B504F3_329ABA5B_3284E052_32653B11_32468DA5_322CA8E4_3216B41C_32040147_31E807A5_31CC9327_31B4EAA8_31A07530_318EB4A6_317E813C_3163847E_314BE205,
  0x31372034_3124D8B7_3114B51E_31066C29_30F37F1D_30DCF45C_30C8DD22_30B6EB68_30A6DC07_3098750E_308B8459_307FBCD3_306ABADC_3057C0E0_30469544_3037059B]

/-- Rows 52 to 55 of section 1. -/
def plwFwdLines13 : List Nat := [
  0x3F800000_3F800000_3CDEDC67_3B587EEA_3A420300_39733219_38BC7873_38291A3F_37A8E5A3_3737166B_36D3B6D3_3680F9C8_362412B7_35D86C6C_35933659_354DAAD7,
  0x3513088C_34D68DAE_349F6311_3470A5BB_34384ED1_340F01FB_33E08F4C_33B23721_338ED57D_33670826_333C6859_331AD5AF_330027DF_32D58F68_32B30B38_3296F9F5,
  0x32800000_325A2564_323AC795_3220A502_320AC122_31F0A888_31D17EE7_31B706C6_31A07307_318D1D7E_3178FDAE_315C509D_31437D99_312DEE1C_311B253E_310ABAEE,
  0x30F8B036_30DF6754_30C91FF9_30B571E9_30A404B3_30948D08_3086CA9B_30750CAD_305F21D3_304B8324_3039EA39_302A1A1C_301BDDE0_300F0779_30036EBE_2FF1E124,
  0x3F800000_3F800000_3CCFEFC6_3B41F8A1_3A28E5A3_394F0ACE_389D8DB8_380B3349_37892FDF_3712F8D5_36A82BA8_364AF459_35FFF251_35A775AA_356221B2_351CE03A,
  0x34DEDC67_34A19E4A_346EC1B8_343344ED_340898CF_33D2F1B8_33A4D9AB_33823F96_334FE4A9_3327727A_330804FD_32DEB8AC_32B7AD0B_329880F4_327ED87C_3256311B,
  0x323504F3_3219C754_3203465E_31E128B1_31C1EE43_31A7B7E9_31919CA4_317DC4B1_315DE700_3142AE8C_312B5706_31174026_3105E668_30EDBAD0_30D396D1_30BCCB99,
  0x30A8DC9C_30976178_30880266_3074EA9A_305CF6DC_3047BEEF_3034E7EE_30242425_301530F4_3007D513_2FF7BE38_2FE248BF_2FCEFFBD_2FBDA2EB_2FADFA52_2F9FD51B,
  0x3F800000_3F800000_3CC20300_3B2DCA47_3A13088C_39304367_3883B553_37E52BE3_375EDC67_36EBF608_36859525_361FAEEA_35C7A1E9_358192C9_352DADF2_34EF51A6,
  0x34A8E5A3_34737CA9_3432D336_34058BBD_33CA792E_339B93BD_337208D9_333E6234_33174B09_32F2B980_32C46582_32A02FB5_32839FDA_3259CE71_32355EAE_3217F028,
  0x32000000_31D8CEC1_31B88753_319DCA83_31878628_3169C55D_314A6AEC_312FED27_31197234_31064A81_30EBCF90_30CFAC4E_30B76D8B_30A27746_309048A7_308076C8,
  0x30655146_304D278C_3037F36B_30254BA2_3014D73A_30064AC0_2FF2CC10_2FDBE498_2FC7815D_2FB551E9_2FA510FF_2F9682E1_2F8973E0_2F7B6E52_2F664B8C_2F533B89,
  0x3F800000_3F800000_3CB504F3_3B1BB571_3A000000_39160F5B_385C3497_37BCA5B8_373504F3_36BD6A6F_36543784_35FB4686_359BB571_35488461_350564D1_34B68B4E,
  0x34800000_343769CD_3405EFEA_33C6F806_33960F5B_33657C15_3331ADB9_330B243B_32DC3497_32AFEBFF_328DC979_32666B62_323CA5B8_321B8936_32011406_31D78E64,
  0x31B504F3_3198D5CB_3181B15A_315D28D5_313D6A6F_3122EB22_310CB135_30F3EC8A_30D43784_30B9446A_30A2452B_308E925B_307B4686_305E0F73_3044C69D_302ED301,
  0x301BB571_300B03D1_2FF8CA84_2FDF1E1C_2FC88461_2FB492A9_2FA2EE61_2F934A65_2F8564D1_2F720A61_2F5BF60A_2F483910_2F368B4E_2F26AE4D_2F186BD7_2F0B94C7]

/-- Rows 56 to 59 of section 1. -/
def plwFwdLines14 : List Nat := [
  0x3F800000_3F800000_3CA8E5A3_3B0B8232_39DEDC67_38FF810D_3838152A_379B4A00_3713088C_36980D49_362891E1_35C5B3B0_3572E607_351B26E3_34CCE7B8_348B3D04,
  0x34420300_340A2941_33C8A239_33943893_335E6DE3_33294050_33026F43_32CB61F8_32A040D6_327F0259_324CB963_3225B916_32072FDE_31DE2318_31B7B9E1_3198E7EC,
  0x31800000_31577A39_31364E02_311AFCFE_31045E6E_30E314A7_30C3942A_30A91A0B_3092BFA3_307F9800_305F540D_3043C1B3_302C1C08_3017C1E2_30062EBA_2FEDEA3E,
  0x2FD37499_2FBC6563_2FA83E4A_2F969554_2F87114D_2F72CDB3_2F5AAC3D_2F4551A6_2F32615B_2F218C33_2F128E4A_2F052D42_2EF26D93_2EDCFEC2_2EC9C2B7_2EB877FE,
  0x3F800000_3F800000_3C9D9624_3AF9FCDF_39C20300_38D98556_3819E2B2_377FA8B4_36EEDB40_36741DE3_3605E658_359B8CF1_353D748F_34F019B0_349D6067_3454698E,
  0x3413088C_33D025BD_33964580_335CD54C_3324D998_32F9A79F_32BF8155_3294A452_32693F31_3238D352_3213CC91_31EE6234_31C1C0D7_319EA0E6_3182C14F_3158EDE6,
  0x313504F3_3117E5BD_31002138_30D93B29_30B90183_309E4185_3087F053_306A7626_304AF442_30304ED5_3019AE38_3006640D_2FEBC543_2FCF6C7C_2FB6FFE7_2FA1E314,
  0x2F8F948D_2F7F5185_2F638BFD_2F4B424F_2F35F647_2F233D84_2F12BE09_2F042B7D_2EEE89CC_2ED7A599_2EC34B6C_2EB129C3_2EA0FA7B_2E92810C_2E858920_2E73CAA4,
  0x3F800000_3F800000_3C93088C_3ADFFA8A_39A8E5A3_38B92F26_3800A458_3752737D_36C20300_3643F671_35D4B884_3574C5B7_3513C554_34B9C79F_3471BEB0_3422054E,
  0x33DEDC67_339CCAF5_33611A1C_3324823D_32F45A1C_32B82090_328C95B4_325944F2_3229BE7C_3205F52E_31D567A9_31AB7375_318AD891_31628DC9_313A1CEA_3119E144,
  0x31000000_30D627C7_30B41B8E_30983C38_30814982_305C94F6_303CF88E_30228AB5_300C57E7_2FF33BC9_2FD381B1_2FB88623_2FA17D50_2F8DC12F_2F7993B0_2F5C4F1B,
  0x2F42FC19_2F2D01AE_2F19E085_2F092E3E_2EF5234C_2EDB7F63_2EC4F20B_2EB10FF6_2E9F7DFC_2E8FEE73_2E821EFB_2E6BAD72_2E55C9A2_2E423E5E_2E30C2FB_2E211890,
  0x3F800000_3F800000_3C892FDF_3AC8ACF3_3993088C_389DA799_37D7142A_372D3CC1_369D9624_361D4EB0_35A8F859_354095D3_34E68405_348FBFAE_3439ABD1_33F72AE4,
  0x33A8E5A3_336C3790_3328990E_32F519A5_32B51901_3287CC80_324E6863_321ECA79_31F70F85_31C22E00_319A10EC_31769F7F_3146FF57_3121C855_3104742D_30DA4FA5,
  0x30B504F3_3096F728_307D2BD1_30555F5A_3034B2DF_3019BA11_3003588F_2FE15DBB_2FC2187F_2FA7C82A_2F918BAB_2F7D5BD8_2F5D38ED_2F41C07D_2F2A3019_2F15E83E,
  0x2F046581_2EEA7657_2ED01DDC_2EB92AFE_2EA51FBC_2E939247_2E84297A_2E6D33F0_2E5547B9_2E40219E_2E2D64ED_2E1CC259_2E0DF5E2_2E00C50D_2DE9FAE5_2DD4E704]

/-- Rows 60 to 63 of section 1. -/
def plwFwdLines15 : List Nat := [
  0x3F800000_3F800000_3C800000_3AB3CC07_39800000_388637BD_37B3CC07_370E9A9F_36800000_35FC8DE9_358637BD_3517865A_34B3CC07_345E742A_340E9A9F_33BC87E3,
  0x33800000_3331EFE1_32FC8DE9_32B69619_328637BD_32484F88_3217865A_31E81AA7_31B3CC07_318CBCCC_315E742A_31316082_310E9A9F_30E70EF6_30BC87E3_309ADC33,
  0x30800000_3054D769_3031EFE1_301587F7_2FFC8DE9_2FD644E2_2FB69619_2F9C3C84_2F8637BD_2F677897_2F484F88_2F2DEF94_2F17865A_2F046945_2EE81AA7_2ECC0181,
  0x2EB3CC07_2E9EDFCB_2E8CBCCC_2E79F115_2E5E742A_2E466DC3_2E316082_2E1EE2A2_2E0E9A9F_2E003C78_2DE70EF6_2DD088D0_2DBC87E3_2DAABAFA_2D9ADC33_2D8CAF41,
  0x3F800000_3F800000_3C6EDB40_3AA11733_395EDC67_386487A2_37964D89_36EAC666_364FEFC6_35CABC61_355539D2_34EE6FFE_348C3CCF_342C2026_33DB0D86_338FCE03,
  0x33420300_33060937_32BD28C4_32880454_3246F25F_3213BC0D_31DE7853_31A9A205_3182D8A4_314C01E1_3120994E_30FF25B2_30CC622E_30A4FFD1_30862CB0_305BB3A5,
  0x303504F3_30160A0A_2FFA1EB9_2FD19517_2FB07DE8_2F9553CC_2F7DD108_2F589FA3_2F399FB8_2F1FAB0C_2F09D75B_2EEED223_2ECF9266_2EB4FB31_2E9E45E8_2E8AD05A,
  0x2E742AF1_2E574F4D_2E3E5878_2E28AFE3_2E15D812_2E056811_2DEE0F90_2DD4DA12_2DBEB251_2DAB2E19_2D99F324_2D8AB484_2D7A60EB_2D625D3F_2D4CFD2D_2D39ED50,
  0x3F800000_3F800000_3C5EDC67_3A90549C_39420300_38428E7B_377B4B45_36C14291_3628E5A3_35A2BE98_35295F0F_34BB99DD_345AC39F_34052F07_33A83E1D_335B60E5,
  0x3313088C_32C9EEC2_328DAD65_324AA682_32137241_31D9EAA3_31A350F2_3177F3A9_313E71FC_3113DC41_30E7E2E4_30B781FE_309276B6_306BA711_303EFAE6_301BD8BB,
  0x30000000_2FD3891B_2FAFCAE7_2F92E002_2F76ACAE_2F50230E_2F306ADE_2F162CF2_2F005C06_2EDC4703_2EBDB517_2EA3F48D_2E8E2CCD_2E775E05_2E57DAC6_2E3CE8C1,
  0x2E25CACF_2E11E570_2E00B84D_2DE3B216_2DC9DE66_2DB361DA_2D9FC0B8_2D8E9303_2D7F0215_2D648148_2D4D25C3_2D388475_2D264200_2D16103C_2D07AC1F_2CF5B804,
  0x3F800000_3F800000_3C4FEFC6_3A81506C_3928E5A3_3825A23F_3752124A_369F160B_36092FDF_3582A44B_35068953_34939A6F_342AA18B_33CE1AAA_338137D3_33275594,
  0x32DEDC67_32981C82_32543A6B_3216F6AD_31DA8E19_31A0B82A_316FC83F_31353713_310A9870_30D65517_30A7689A_3083FBA8_3051EA56_302847AD_3007EAED_2FDD19EA,
  0x2FB504F3_2F951E61_2F771B0B_2F4DDC0F_2F2C6203_2F110DC3_2EF53DB5_2ED0385D_2EB1859A_2E97F261_2E828B72_2E611DFC_2E42C380_2E290D61_2E133143_2E008A9F,
  0x2DE12625_2DC5B8C7_2DAE178D_2D99AC4D_2D87FA60_2D7133D8_2D566836_2D3F002B_2D2A8117_2D188373_2D08AF92_2CF575F6_2CDCCC85_2CC6F679_2CB3970B_2CA25E95]

/-- The 256 lines of PLW_FWD. -/
def plwFwdLines : List Nat :=
  plwFwdLines00 ++ plwFwdLines01 ++ plwFwdLines02 ++ plwFwdLines03 ++ plwFwdLines04
    ++ plwFwdLines05 ++ plwFwdLines06 ++ plwFwdLines07 ++ plwFwdLines08 ++ plwFwdLines09
    ++ plwFwdLines10 ++ plwFwdLines11 ++ plwFwdLines12 ++ plwFwdLines13 ++ plwFwdLines14
    ++ plwFwdLines15

/-- Rows 0 to 3 of section 2. -/
def plwInvLines00 : List Nat := [
  0x3F800000_3F800000_3F800000_3F800000_3F800000_3F800000_3F800000_3F800000_3F800000_3F800000_3F800000_3F800000_3F800000_3F800000_3F800000_3F800000,
  0x3F800000_3F800000_3F800000_3F800000_3F800000_3F800000_3F800000_3F800000_3F800000_3F800000_3F800000_3F800000_3F800000_3F800000_3F800000_3F800000,
  0x3F800000_3F800000_3F800000_3F800000_3F800000_3F800000_3F800000_3F800000_3F800000_3F800000_3F800000_3F800000_3F800000_3F800000_3F800000_3F800000,
  0x3F800000_3F800000_3F800000_3F800000_3F800000_3F800000_3F800000_3F800000_3F800000_3F800000_3F800000_3F800000_3F800000_3F800000_3F800000_3F800000,
  0x3F800000_3F800000_3F892FDF_3F8EDD20_3F93088C_3F9659EA_3F991E1B_3F9B7F07_3F9D9624_3F9F741D_3FA12478_3FA2AF87_3FA41B7D_3FA56D1C_3FA6A81D_3FA7CF7C,
  0x3FA8E5A3_3FA9EC8F_3FAAE5EA_3FABD319_3FACB54D_3FAD8D8B_3FAE5CB6_3FAF2393_3FAFE2CC_3FB09AFB_3FB14CA7_3FB1F846_3FB29E44_3FB33F02_3FB3DAD6_3FB4720F,
  0x3FB504F3_3FB593C5_3FB61EBE_3FB6A616_3FB729FF_3FB7AAA5_3FB82834_3FB8A2D2_3FB91AA4_3FB98FCC_3FBA0268_3FBA7296_3FBAE072_3FBB4C13_3FBBB594_3FBC1D08,
  0x3FBC8287_3FBCE623_3FBD47EE_3FBDA7FB_3FBE065A_3FBE631A_3FBEBE4A_3FBF17F9_3FBF7033_3FBFC705_3FC01C7A_3FC0709F_3FC0C37D_3FC11520_3FC16590_3FC1B4D8,
  0x3F800000_3F800000_3F93088C_3F9F741D_3FA8E5A3_3FB09AFB_3FB729FF_3FBCE623_3FC20300_3FC6A2E0_3FCADDC8_3FCEC53D_3FD26676_3FD5CBA8_3FD8FCE9_3FDC00B8,
  0x3FDEDC67_3FE1945E_3FE42C51_3FE6A762_3FE9083F_3FEB513A_3FED8453_3FEFA34F_3FF1AFB8_3FF3AAEF_3FF5962A_3FF77282_3FF940F1_3FFB0258_3FFCB784_3FFE612F,
  0x40000000_4000CA49_40018FBA_40025094_40030D11_4003C56A_400479D1_40052A76_4005D784_40068126_4007277F_4007CAB6_40086AEA_4009083B_4009A2C6_400A3AA8,
  0x400ACFF9_400B62D2_400BF34A_400C8177_400D0D6E_400D9741_400E1F04_400EA4C8_400F289D_400FAA93_40102ABA_4010A920_401125D1_4011A0DC_40121A4C_4012922E,
  0x3F800000_3F800000_3F9D9624_3FB1F846_3FC20300_3FCF71AD_3FDB1B46_3FE57A24_3FEEDB40_3FF77282_3FFF64C1_40036696_4006E03B_400A2762_400D427E_401036C7,
  0x4013088C_4015BB65_4018525A_401AD001_401D3693_401F8800_4021C5F5_4023F1EF_40260D3D_40281908_402A165C_402C0626_402DE940_402FC06B_40318C59_40334DAA,
  0x403504F3_4036B2BA_4038577B_4039F3A9_403B87AD_403D13E9_403E98B8_4040166E_40418D59_4042FDC3_404467F0_4045CC20_40472A90_40488378_4049D70D_404B2581,
  0x404C6F03_404DB3BF_404EF3E0_40502F8E_405166EE_40529A24_4053C953_4054F499_40561C17_40573FE8_4058602A_40597CF7_405A9667_405BAC94_405CBF94_405DCF7E]

/-- Rows 4 to 7 of section 2. -/
def plwInvLines01 : List Nat := [
  0x3F800000_3F800000_3FA8E5A3_3FC6A2E0_3FDEDC67_3FF3AAEF_40030D11_400B62D2_4013088C_401A205A_4020C2BF_40270207_402CEC42_40328C88_4037EBC3_403D113C,
  0x40420300_4046C624_404B5EF8_404FD132_40542004_40584E39_405C5E46_40605255_40642C51_4067EDF3_406B98C5_406F2E2B_4072AF65_40761D99_407979D0_407CC4FD,
  0x40800000_408195D3_40832455_4084ABDF_40862CC0_4087A745_40891BB3_408A8A4B_408BF34A_408D56E9_408EB55D_40900ED9_4091638B_4092B39F_4093FF40_40954694,
  0x409689C2_4097C8EC_40990433_409A3BB7_409B6F97_409C9FEE_409DCCD8_409EF66F_40A01CCC_40A14005_40A26031_40A37D67_40A497B9_40A5AF3C_40A6C403_40A7D61F,
  0x3F800000_3F800000_3FB504F3_3FDDB3D7_40000000_400F1BBD_401CC471_402953FD_403504F3_40400000_404A62C2_40544395_405DB3D7_4066C15A_406F7751_4077DEF6,
  0x40800000_4083F07B_4087C3B6_408B7C1A_408F1BBD_4092A476_409617E3_40997774_409CC471_40A00000_40A32B2B_40A646E1_40A953FD_40AC5345_40AF456F_40B22B20,
  0x40B504F3_40B7D375_40BA9728_40BD5087_40C00000_40C2A5FE_40C542E1_40C7D706_40CA62C2_40CCE665_40CF623A_40D1D689_40D44395_40D6A99B_40D908D9_40DB6186,
  0x40DDB3D7_40E00000_40E24630_40E48695_40E6C15A_40E8F6A9_40EB26A9_40ED517F_40EF7751_40F1983E_40F3B46A_40F5CBF2_40F7DEF6_40F9ED91_40FBF7DF_40FDFDFC,
  0x3F800000_3F800000_3FC20300_3FF77282_4013088C_40281908_403B87AD_404DB3BF_405EDC67_406F2E2B_407EC9E1_4086E44E_408E1F04_40951CF8_409BE4A0_40A27B58,
  0x40A8E5A3_40AF2759_40B543CA_40BB3DD4_40C117F9_40C6D470_40CC752F_40D1FBF6_40D76A57_40DCC1BA_40E20367_40E73088_40EC4A2A_40F15146_40F646C0_40FB2B68,
  0x41000000_4102629D_4104BDDF_41071212_41095F7F_410BA668_410DE70C_411021A7_4112566E_41148597_4116AF52_4118D3CD_411AF333_411D0DAF_411F2367_4121347F,
  0x4123411C_4125495E_41274D65_41294D50_412B493A_412D4141_412F357C_41312607_413312F9_4134FC68_4136E26B_4138C517_413AA480_413C80BA_413E59D6_41402FE8,
  0x3F800000_3F800000_3FCFEFC6_400A1741_4028E5A3_4045736A_40605448_4079E3CD_40892FDF_4094FA28_40A06142_40AB71EC_40B63642_40C0B673_40CAF93F_40D5044D,
  0x40DEDC67_40E885A8_40F2039E_40FB5965_410244DB_4106CB7F_410B41B2_410FA86B_41140089_41184AD5_411C8806_4120B8C4_4124DDA6_4128F739_412D05FE_41310A6D,
  0x413504F3_4138F5F8_413CDDDB_4140BCF5_4144939A_41486216_414C28B3_414FE7B7_41539F61_41574FEE_415AF998_415E9C96_4162391A_4165CF56_41695F78_416CE9AC,
  0x41706E1B_4173ECEF_4177664C_417ADA57_417E4932_4180D980_41828BEF_41843BF6_4185E9A3_41879505_41893E28_418AE51A_418C89E7_418E2C9A_418FCD3F_41916BE2]

/-- Rows 8 to 11 of section 2. -/
def plwInvLines02 : List Nat := [
  0x3F800000_3F800000_3FDEDC67_401A205A_40420300_4067EDF3_40862CC0_4097C8EC_40A8E5A3_40B995E2_40C9E807_40D9E749_40E99CA6_40F90F76_410422EA_410BA274,
  0x4113088C_411A5719_41218FC1_4128B3F9_412FC50A_4136C419_413DB22C_4144902F_414B5EF8_41521F4A_4158D1D5_415F773C_41661014_416C9CE6_41731E31_4179946A,
  0x41800000_418330AC_41865C68_41898362_418CA5C2_418FC3B0_4192DD51_4195F2C7_41990433_419C11B4_419F1B68_41A22169_41A523D3_41A822BF_41AB1E44_41AE1678,
  0x41B10B73_41B3FD47_41B6EC0A_41B9D7CD_41BCC0A2_41BFA69C_41C289CA_41C56A3D_41C84803_41CB232C_41CDFBC5_41D0D1DC_41D3A57E_41D676B7_41D94594_41DC1220,
  0x3F800000_3F800000_3FEEDB40_402C0626_405EDC67_408836E2_40A0810C_40B863EF_40CFEFC6_40E73088_40FE2F5E_410A79C4_4115C170_4120F11D_412C0AD4_4137104B,
  0x41420300_414CE43C_4157B51E_416276A8_416D29BC_4177CF25_418133CD_418679E0_418BBA18_4190F4B8_41962A00_419B5A29_41A08569_41A5ABF1_41AACDEF_41AFEB8D,
  0x41B504F3_41BA1A47_41BF2BAA_41C4393D_41C94320_41CE496F_41D34C45_41D84BBB_41DD47EB_41E240EB_41E736D0_41EC29B1_41F119A0_41F606B1_41FAF0F5_41FFD87D,
  0x42025EAD_4204CFCE_42073FA9_4209AE44_420C1BA7_420E87D9_4210F2DF_42135CC0_4215C582_42182D2A_421A93BE_421CF942_421F5DBD_4221C132_422423A8_42268521,
  0x3F800000_3F800000_40000000_40400000_40800000_40A00000_40C00000_40E00000_41000000_41100000_41200000_41300000_41400000_41500000_41600000_41700000,
  0x41800000_41880000_41900000_41980000_41A00000_41A80000_41B00000_41B80000_41C00000_41C80000_41D00000_41D80000_41E00000_41E80000_41F00000_41F80000,
  0x42000000_42040000_42080000_420C0000_42100000_42140000_42180000_421C0000_42200000_42240000_42280000_422C0000_42300000_42340000_42380000_423C0000,
  0x42400000_42440000_42480000_424C0000_42500000_42540000_42580000_425C0000_42600000_42640000_42680000_426C0000_42700000_42740000_42780000_427C0000,
  0x3F800000_3F800000_40092FDF_40564BB0_4093088C_40BBF064_40E5AD28_41080F26_411D9624_413362A0_41496D96_415FB159_4176293B_418668A7_4191D31A_419D5284,
  0x41A8E5A3_41B48B58_41C042A7_41CC0AAD_41D7E2A0_41E3C9C7_41EFBF7B_41FBC323_4203EA19_4209F914_42100E47_4216297B_421C4A7C_4222711A_42289D28_422ECE7E,
  0x423504F3_423B4063_424180AA_4247C5A9_424E0F3F_42545D4F_425AAFBE_42610670_4267614D_426DC03D_42742329_427A89FA_42807A4E_4283B17E_4286EA82_428A2552,
  0x428D61E5_4290A032_4293E032_429721DC_429A6529_429DAA12_42A0F08F_42A4389A_42A7822C_42AACD40_42AE19CF_42B167D2_42B4B745_42B80822_42BB5A64_42BEAE05]

/-- Rows 12 to 15 of section 2. -/
def plwInvLines03 : List Nat := [
  0x3F800000_3F800000_4013088C_406F2E2B_40A8E5A3_40DCC1BA_41095F7F_4125495E_41420300_415F773C_417D953A_418E279A_419DCCD8_41ADB579_41BDDD4C_41CE40AC,
  0x41DEDC67_41EFADA4_420058EE_4208F362_4211A528_421A6D4E_42234AF9_422C3D60_423543CA_423E5D8A_42478A02_4250C89E_425A18D3_42637A20_426CEC0C_42766E25,
  0x42800000_4284D09C_4289A8B6_428E8821_42936EB3_42985C42_429D50A8_42A24BC0_42A74D65_42AC5578_42B163D7_42B67864_42BB9302_42C0B393_42C5D9FD_42CB0626,
  0x42D037F5_42D56F51_42DAAC23_42DFEE56_42E535D2_42EA8284_42EFD457_42F52B37_42FA8713_42FFE7D7_4302A6B9_43055BE9_43081374_430ACD52_430D897A_431047E5,
  0x3F800000_3F800000_401D9624_40857A34_40C20300_4101A70C_41245475_4148CAE0_416EDB40_418B3069_419F9EF9_41B4AD0F_41CA5058_41E08000_41F7345C_4207335B,
  0x4213088C_421F171B_422B5CA5_4237D701_42448438_42516280_425E7031_426BABC8_427913DB_4283538E_428A322A_42912530_42982C18_429F4661_42A67393_42ADB33D,
  0x42B504F3_42BC6850_42C3DCF3_42CB6281_42D2F8A3_42DA9F06_42E2555B_42EA1B56_42F1F0AF_42F9D522_4300E435_4304E526_4308ED43_430CFC70_43111291_43152F8A,
  0x43195342_431D7D9E_4321AE87_4325E5E5_432A23A2_432E67A6_4332B1DE_43370234_433B5894_433FB4EB_43441726_43487F33_434CED01_4351607D_4355D998_435A5840,
  0x3F800000_3F800000_4028E5A3_4094FA28_40DEDC67_41184AD5_4144939A_4173ECEF_4193088C_41AD6466_41C8F36F_41E5A2C9_4201B132_4211122F_4220EE4B_42314028,
  0x42420300_42533286_4264CAD7_4276C86B_42849402_428DF356_429780D0_42A13B2D_42AB213D_42B531E6_42BF6C20_42C9CEF4_42D45979_42DF0AD3_42E9E233_42F4DED5,
  0x43000000_4305A281_430B569A_43111BFB_4316F258_431CD968_4322D0E4_4328D88B_432EF01C_4335175A_433B4E0A_434193F3_4347E8DE_434E4C98_4354BEEC_435B3FAA,
  0x4361CEA3_43686BA9_436F168F_4375CF2C_437C9555_4381B471_438524D7_43889BC8_438C1932_438F9D04_4393272D_4396B79A_439A4E3D_439DEB05_43A18DE3_43A536C7,
  0x3F800000_3F800000_403504F3_40A646E1_41000000_4132E2AC_416B26A9_4194297E_41B504F3_41D80000_41FCFB72_4211EE76_422646E1_423B7D19_42518866_42686106,
  0x42800000_428C2F83_4298BC2D_42A5A35E_42B2E2AC_42C077DB_42CE60D8_42DC9BB6_42EB26A9_42FA0000_43049313_430C4BCE_4314297E_431C2B77_43245118_432C99C7,
  0x433504F3_433D9211_4346409B_434F1013_43580000_43610FED_436A3F6B_43738E0F_437CFB72_43834399_43881876_438CFC24_4391EE76_4396EF41_439BFE5C_43A11B9E,
  0x43A646E1_43AB8000_43B0C6D6_43B61B3F_43BB7D19_43C0EC44_43C6689F_43CBF20A_43D18866_43D72B98_43DCDB80_43E29803_43E86106_43EE366E_43F41820_43FA0604]

/-- Rows 16 to 19 of section 2. -/
def plwInvLines04 : List Nat := [
  0x3F800000_3F800000_40420300_40B995E2_4113088C_41521F4A_418CA5C2_41B3FD47_41DEDC67_420689F8_421F3E2D_423979EB_42552E86_42724F14_4288680C_429853A2,
  0x42A8E5A3_42BA19CF_42CBEC43_42DE596B_42F15DF7_43027B6A_430C9091_4316ED19_43218FC1_432C7759_4337A2C4_434310F2_434EC0E5_435AB1A8_4366E254_4373520D,
  0x43800000_438675B2_438D09BD_4393BBC4_439A8B6F_43A17868_43A8825F_43AFA903_43B6EC0A_43BE4B29_43C5C61B_43CD5C9B_43D50E67_43DCDB3E_43E4C2E4_43ECC51B,
  0x43F4E1AA_43FD1858_4402B477_4406E99C_440B2B7F_440F7A09_4413D521_44183CAE_441CB09A_442130CD_4425BD31_442A55B1_442EFA38_4433AAB1_44386708_443D2F28,
  0x3F800000_3F800000_404FEFC6_40CF22E1_4128E5A3_4176D044_41A83F36_41DAA753_42092FDF_4227996D_42487993_426BBCA5_4288A8B2_429C943E_42B19A17_42C7B408,
  0x42DEDC67_42F70E02_43082209_43153D14_4322D612_4330EB17_433F7A55_434E821A_435E00CE_436DF4ED_437E5D0A_43879BE5_439041F1_4399200C_43A2359E_43AB8219,
  0x43B504F3_43BEBDA8_43C8ABB9_43D2CEAC_43DD260D_43E7B169_43F27055_43FD6267_4404439C_4409EF34_440FB3CC_44159134_441B8742_442195C8_4427BC9E_442DFB9A,
  0x44345295_443AC167_444147EB_4447E5FD_444E9B79_4455683C_445C4C23_4463470F_446A58DE_44718171_4478C0A9_44800B34_4483C148_44878283_448B4ED5_448F2632,
  0x3F800000_3F800000_405EDC67_40E73088_41420300_4190F4B8_41C94320_4204CFCE_4228E5A3_4250C89E_427C6208_4295CF02_42AF357C_42CA5C90_42E73D19_4302E84D,
  0x4313088C_4323FC8A_4335C1B9_434855B8_435BB64D_436FE161_43826A7E_438D47A2_4398873A_43A42872_43B02A7D_43BC8C9B_43C94E11_43D66E30_43E3EC4E_43F1C7C7,
  0x44000000_44074A31_440EC22F_441667B3_441E3A7A_44263A43_442E66D0_4436BFE2_443F453F_4447F6AF_4450D3F8_4459DCE5_44631142_446C70DC_4475FB81_447FB101,
  0x4484C896_4489CDEB_448EE867_449417F7_44995C84_449EB5F9_44A42443_44A9A74D_44AF3F03_44B4EB53_44BAAC2B_44C08177_44C66B26_44CC6926_44D27B67_44D8A1D8,
  0x3F800000_3F800000_406EDB40_4101049D_415EDC67_41AA449B_41F0C192_42215771_424FEFC6_42820B4C_429EDD9B_42BE676D_42E0A228_4302C3E8_43168979_432B9F47,
  0x43420300_4359B27F_4372ABC2_43867674_43943A15_43A29FF0_43B1A73A_43C14F33_43D19724_43E27E60_43F40440_44031413_440C74BC_441623D2_44202110_442A6C31,
  0x443504F3_443FEB19_444B1E64_44569E9B_44626B84_446E84E8_447AEA91_4483CE26_448A4CF3_4490F196_4497BBF9_449EAC03_44A5C19E_44ACFCB4_44B45D30_44BBE2FC,
  0x44C38E04_44CB5E34_44D35378_44DB6DBD_44E3ACF0_44EC10FF_44F499D8_44FD476A_45030CD2_45078839_450C15E4_4510B5C9_451567E1_451A2C24_451F028A_4523EB0C]

/-- Rows 20 to 23 of section 2. -/
def plwInvLines05 : List Nat := [
  0x3F800000_3F800000_40800000_41100000_41800000_41C80000_42100000_42440000_42800000_42A20000_42C80000_42F20000_43100000_43290000_43440000_43610000,
  0x43800000_43908000_43A20000_43B48000_43C80000_43DC8000_43F20000_44044000_44100000_441C4000_44290000_44364000_44440000_44524000_44610000_44704000,
  0x44800000_44882000_44908000_44992000_44A20000_44AB2000_44B48000_44BE2000_44C80000_44D22000_44DC8000_44E72000_44F20000_44FD2000_45044000_450A1000,
  0x45100000_45161000_451C4000_45229000_45290000_452F9000_45364000_453D1000_45440000_454B1000_45524000_45599000_45610000_45689000_45704000_45781000,
  0x3F800000_3F800000_40892FDF_4120B8C4_4193088C_41EAEC7D_422C41DE_426E1A82_429D9624_42C9CEF4_42FBC8FB_4319C9ED_43389EEC_435A6A0F_437F316D_43937D5C,
  0x43A8E5A3_43BFD40D_43D84AFC_43F24CAE_4406EDA4_44157C6B_4424D3A4_4434F441_4445DF26_44579530_446A1734_447D65FF_4488C12C_4493367F_449E1356_44A9580A,
  0x44B504F3_44C11A66_44CD98B5_44DA8030_44E7D126_44F58BE3_4501D859_45091FEC_45109CD0_45184F27_45203713_452854B4_4530A82B_45393199_4541F11B_454AE6D1,
  0x455412D8_455D754D_45670E4E_4570DDF7_457AE463_458290D7_4587CAF9_458D20A4_459291E7_45981ECD_459DC763_45A38BB6_45A96BD1_45AF67C1_45B57F91_45BBB34D,
  0x3F800000_3F800000_4093088C_413362A0_41A8E5A3_4209F914_424E0F3F_4290A032_42C20300_42FB6624_431E7D44_43437674_436CB344_438D2372_43A621A2_43C15CA2,
  0x43DEDC67_43FEA87F_4410640B_4422A105_44360E72_444AAF76_44608717_4477983B_4487F2D8_4494B914_44A22022_44B02945_44BED5B9_44CE26AD_44DE1D4B_44EEBAB4,
  0x45000000_4508F721_45124341_451BE4E5_4525DC8A_45302AAD_453ACFC8_4545CC51_455120BF_455CCD82_4568D30B_457531C7_4580F511_45877E43_458E34AE_45951884,
  0x459C29F8_45A3693A_45AAD67C_45B271EC_45BA3BBB_45C23415_45CA5B29_45D2B124_45DB3630_45E3EA7B_45ECCE2F_45F5E176_45FF247A_46044BB2_46091D2E_460E06C5,
  0x3F800000_3F800000_409D9624_4148374E_41C20300_422210CF_42767EAF_42AFB184_42EEDB40_431C9676_434786B7_43786DF4_4397BC42_43B66800_43D84DD1_43FD804A,
  0x4413088C_4429088D_4440C83A_445A4F51_4475A546_448968A4_4498ED22_44A96378_44BACEE4_44CD328E_44E09185_44F4EEC2_45052695_451057C8_451C0C5A_452845A3,
  0x453504F3_45424B92_45501AC2_455E73BD_456D57B7_457CC7DF_458662AE_458EA8A8_4597366D_45A00C8A_45A92B86_45B293EB_45BC463C_45C642FE_45D08AB1_45DB1DD3,
  0x45E5FCE3_45F1285A_45FCA0B3_46043333_460A3CF3_46106DD6_4616C613_461D45E4_4623ED81_462ABD21_4631B4FB_4638D543_46401E31_46478FF7_464F2ACB_4656EEDF]

/-- Rows 24 to 27 of section 2. -/
def plwInvLines06 : List Nat := [
  0x3F800000_3F800000_40A8E5A3_415F773C_41DEDC67_423E5D8A_42936EB3_42D56F51_4313088C_434310F2_437B304B_439DDFEA_43C289CA_43EBBD8C_440CD081_44262C26,
  0x44420300_446065AE_4480B219_44928700_44A5B903_44BA4F61_44D0511F_44E7C511_450058EE_450D8EFC_451B87DA_452A469E_4539CE4A_454A21CF_455B4410_456D37DF,
  0x45800000_4589CF95_45940C04_459EB69B_45A9D0A3_45B55B60_45C1580F_45CDC7EA_45DAAC23_45E805EC_45F5D66D_46020F67_46097019_46110DDB_4618E939_462102C1,
  0x46295AFA_4631F26D_463AC9A0_4643E117_464D3955_4656D2DB_4660AE2A_466ACBBF_46752C18_467FCFB0_46855B80_468AF142_4690A95A_46968401_469C8174_46A2A1EC,
  0x3F800000_3F800000_40B504F3_41796A52_42000000_425F9B57_42B05CFF_4301A44E_433504F3_43730000_439E1D27_43C8A7E2_43F96A52_441855A5_4437575A_4459DAF6,
  0x44800000_4494F27B_44ABD3B3_44C4B200_44DF9B57_44FC9D4F_450DE294_451E8FEB_45305CFF_45435000_45576EFF_456CBFEC_4581A44E_458D8764_459A0C06_45A734F9,
  0x45B504F3_45C37EA1_45D2A4A5_45E27995_45F30000_46021D35_460B15A8_46146A91_461E1D27_46282E9B_4632A01B_463D72D1_4648A7E2_46544074_46603DA4_466CA090,
  0x46796A52_46834E00_468A1B57_46911DB6_469855A5_469FC3A8_46A76846_46AF4400_46B7575A_46BFA2D3_46C826EC_46D0E423_46D9DAF6_46E30BE1_46EC775F_46F61DEC,
  0x3F800000_3F800000_40C20300_418B3069_4213088C_4283538E_42D2F8A3_431D7D9E_435EDC67_43975B37_43C70DB8_43FF07A3_441FE2E4_4444E040_446EB615_448ECE68,
  0x44A8E5A3_44C5BB6C_44E569CC_45040518_4516DABB_452B41FB_454146C7_4558F4D4_457257A2_4586BD3E_4595343F_45A4964D_45B4E8C8_45C63100_45D8742F_45EBB77C,
  0x46000000_460AA960_4615DA59_4621955F_462DDCDD_463AB339_46481AD0_465615FC_4664A70C_4673D04D_4681CA02_4689FA38_469279E7_469B4A28_46A46C14_46ADE0C0,
  0x46B7A940_46C1C6A4_46CC39FA_46D70450_46E226AF_46EDA220_46F977A8_4702D426_47091A86_470F8F76_47163375_471D0700_47240A95_472B3EB1_4732A3CF_473A3A6C,
  0x3F800000_3F800000_40CFEFC6_419B5A29_4228E5A3_429A422B_42FC5ED1_433F5269_43892FDF_43BC8C9B_43FA97F7_442211B1_444CFD0A_447E70E4_449B66D4_44BB38C8,
  0x44DEDC67_45033F71_4519264A_45313888_454B8B97_4568348E_4583A41A_45946D83_45A6809A_45B9E759_45CEAB99_45E4D713_45FC7366_460AC50A_46181244_46262608,
  0x463504F3_4644B395_46553675_4666920C_4678CACE_4685F291_468FF2B2_469A67F7_46A55483_46B0BA7B_46BC9BFB_46C8FB1E_46D5D9FA_46E33AA2_46F11F23_46FF898A,
  0x47073DEF_470EFC13_47170030_471F4B46_4727DE52_4730BA51_4739E03E_47435111_474D0DC2_47571749_47616E99_476C14A8_47770A68_47812865_4786F45F_478CE99A]

/-- Rows 28 to 31 of section 2. -/
def plwInvLines07 : List Nat := [
  0x3F800000_3F800000_40DEDC67_41AD6466_42420300_42B531E6_4316F258_43686BA9_43A8E5A3_43EAE1B2_441DBD45_444DFCA3_4483681D_44A46B35_44CA5576_44F57390,
  0x4513088C_452E3C53_454C79F0_456DE5CB_458951F0_459D6BE7_45B3526D_45CB16F9_45E4CAD7_46003F99_460F2286_461F16A3_4630244F_464253DC_4655AD89_466A3989,
  0x46800000_468B8483_4697AE52_46A4816C_46B201C9_46C0335E_46CF1A17_46DEB9DC_46EF168F_47001A08_47090B1B_4712606A_471C1BDE_47263F5B_4730CCC5_473BC5FD,
  0x47472CE1_4753034F_475F4B22_476C0632_47793656_47836EB2_478A7E98_4791CBC6_47995723_47A12196_47A92C07_47B17759_47BA0473_47C2D439_47CBE78C_47D53F50,
  0x3F800000_3F800000_40EEDB40_41C186EB_425EDC67_42D4D5C1_4334912E_438D2C83_43CFEFC6_44124CB6_44469502_4482E71B_44A8799E_44D47E59_4503B84A_4520E552,
  0x45420300_45674DA7_4588809D_459FACAA_45B9489B_45D571EB_45F445EF_460AF0EC_461D315B_4630F2BB_46464374_465D31DF_4675CC49_46881077_46961EFF_46A518CF,
  0x46B504F3_46C5EA72_46D7D04B_46EABD7A_46FEB8F5_4709E4D6_4714FB46_4720A33E_472CE02F_4739B589_474726B7_47553724_4763EA3A_4773435E_4781A2FB_4789FAB1,
  0x4792AA83_479BB420_47A51935_47AEDB72_47B8FC83_47C37E13_47CE61CF_47D9A95F_47E5566F_47F16AA6_47FDE7AD_48056795_480C1163_4812F212_481A0A76_48215B60,
  0x3F800000_3F800000_41000000_41D80000_42800000_42FA0000_43580000_43AB8000_44000000_44364000_447A0000_44A66000_44D80000_45095000_452B8000_4552F000,
  0x45800000_45998800_45B64000_45D65800_45FA0000_4610B400_46266000_463E1C00_46580000_46742400_46895000_4699C600_46AB8000_46BE8A00_46D2F000_46E8BE00,
  0x47000000_470C6100_47198800_47277B00_47364000_4745DD00_47565800_4767B700_477A0000_47869C80_4790B400_479B4980_47A66000_47B1FA80_47BE1C00_47CAC780,
  0x47D80000_47E5C880_47F42400_48018AC0_48095000_48116340_4819C600_482279C0_482B8000_4834DA40_483E8A00_484890C0_4852F000_485DA940_4868BE00_48742FC0,
  0x3F800000_3F800000_41092FDF_41F11526_4293088C_4312D3CE_43813166_43D05732_441D9624_446308D3_449D5D9D_44D375A6_450A7731_4531762C_455F4B3F_458A4586,
  0x45A8E5A3_45CBD14E_45F3545B_460FDD87_4628A90D_4644334C_4662A302_46820F8F_4694675C_46A86C8D_46BE32DA_46D5CE0F_46EF520D_47056963_47143221_47240D4A,
  0x473504F3_47472339_475A7240_476EFC35_478265A6_478DF4DF_479A30E9_47A71EE8_47B4C405_47C3256A_47D24849_47E231D2_47F2E73C_480236DF_480B654B_48150181,
  0x481F0E22_48298DCF_4834832D_483FF0E1_484BD990_48583FE3_48652683_4872901A_48803FAA_48877B6F_488EFCB2_4896C4CC_489ED514_48A72EE4_48AFD394_48B8C480]

/-- Rows 32 to 35 of section 2. -/
def plwInvLines08 : List Nat := [
  0x3F800000_3F800000_4113088C_420689F8_42A8E5A3_432C7759_439A8B6F_43FD1858_44420300_448D6974_44C61C95_45066170_45318673_4565599A_45915D6E_45B546D8,
  0x45DEDC67_46074983_4622708D_46411F36_4663920E_46850325_469A5CE0_46B1F56A_46CBEC43_46E86130_4703BA1C_4714A2D2_4726FB01_473AD30D_47503B77_476744DE,
  0x47800000_478D3EDA_479B6775_47AA825A_47BA981B_47CBB158_47DDD6BD_47F11103_4802B477_480D73A7_4818CA7F_4824BD72_483150F8_483E898F_484C6BBA_485AFC02,
  0x486A3EF3_487A3921_48857791_488E32C8_48975088_48A0D321_48AABCEB_48B5103B_48BFCF6A_48CAFCD6_48D69ADB_48E2ABD9_48EF3232_48FC304B_4904D444_490BCEAA,
  0x3F800000_3F800000_411D9624_4216297B_42C20300_434A9503_43B8DF03_4419BB53_446EDB40_44B02945_44F96865_452ACB98_45639A63_45943480_45BD4417_45EDA845,
  0x4613088C_46339916_4658E141_46819F18_4699874C_46B45957_46D2460F_46F37EFC_470C1B2B_47204F7F_4736763C_474EA973_47690385_4782CF8D_47924B94_47A30376,
  0x47B504F3_47C85DEF_47DD1C6E_47F34E97_48058157_4812238D_481F952E_482DDD8D_483D0409_484D1010_485E0920_486FF6C3_4881704A_488B671B_4895E3AF_48A0E9E7,
  0x48AC7DAA_48B8A2E5_48C55D8C_48D2B199_48E0A30B_48EF35EA_48FE6E40_49072810_490F6FD1_49181072_49210C03_492A649A_49341C4E_493E3538_4948B175_49539324,
  0x3F800000_3F800000_4128E5A3_4227996D_42DEDC67_436DF4ED_43DD260D_443AC167_4493088C_44DB7311_451CFE2F_455913E2_4591E758_45BF8A02_45F66CE2_461BC964,
  0x46420300_466E6C09_4690C85C_46AE004F_46CF2744_46F4882F_470F37C5_472695A4_47408565_475D2F69_477CBCC3_478FAB95_47A29480_47B72EA4_47CD8FCF_47E5CE20,
  0x48000000_480E1E12_481D4CC4_482D97BA_483F0AB8_4851B1A7_48659892_487ACBA5_4888AB96_4894A3CB_48A154B8_48AEC4B3_48BCFA22_48CBFB7B_48DBCF43_48EC7C0B,
  0x48FE0877_49083D9C_4911ED85_491C175E_4926BE95_4931E69E_493D92F3_4949C718_49568695_4963D4F8_4971B5D9_49801669_49879EC4_498F75D1_49979D68_49A01764,
  0x3F800000_3F800000_413504F3_423B0FBE_43000000_438BC116_440445BF_4462DF88_44B504F3_4508B000_4545A471_4589F36C_45BB0FBE_45F78B2B_46206C6E_464C3D46,
  0x46800000_469E41A3_46C14E29_46E99360_470BC116_4725C73C_4743178C_4763EEE2_478445BF_47989680_47AF0A2F_47C7C1EF_47E2DF88_480042B2_48106B46_4821FB51,
  0x483504F3_48499A96_485FCEEF_4877B4FB_4888B000_489671C5_48A529B7_48B4E1E1_48C5A471_48D77BB7_48EA7224_48FE9248_4909F36C_49153D51_49212C4E_492DC5EA,
  0x493B0FBE_49490F70_4957CAB8_4967475A_49778B2B_49844E07_498D3FFB_49969E70_49A06C6E_49AAAD04_49B56346_49C09250_49CC3D46_49D86752_49E513A4_49F24574]

/-- Rows 36 to 39 of section 2. -/
def plwInvLines09 : List Nat := [
  0x3F800000_3F800000_41420300_4250C89E_4313088C_43A42872_441E3A7A_4489CDEB_44DEDC67_452A469E_4578D126_45AF5540_45EFD457_461FF634_4650DF52_4685E181,
  0x46A8E5A3_46D21723_47010B83_471CC60C_473C9169_4760C699_4784E0A9_479BEFF9_47B5C1B9_47D287B1_47F274E7_480ADED1_481E4BAF_48339C68_484AECEC_486459C0,
  0x48800000_488EFEAB_489F37FF_48B0BB5F_48C39878_48D7DF39_48ED9FD7_49027565_490EE867_491C3171_492A5922_4939683B_4949679D_495A6048_496C5B5C_497F621A,
  0x4989BEF0_49945C15_499F8D4C_49AB5770_49B7BF6E_49C4CA42_49D27CF6_49E0DCA1_49EFEE6B_49FFB78B_4A081EA2_4A10C274_4A19C9EB_4A2337C0_4A2D0EB1_4A375182,
  0x3F800000_3F800000_414FEFC6_4269073E_4328E5A3_43C0D2B6_443D471D_44A7681C_45092FDF_45541E2E_459C9EFB_45DED854_4619BDC8_464EBBB9_4687F9FA_46AF853B,
  0x46DEDC67_470B7368_472C4B13_47527321_477E6E7C_4798627D_47B501A4_47D55D6C_47F9C0E7_48113CBE_4827EB6C_48411578_485CE4F9_487B8523_488E9120_48A0F4D8,
  0x48B504F3_48CAD932_48E289DC_48FC2FBE_490BF214_491AE077_492AF034_493C2EB4_494EA9A4_49626EEE_49778CBA_498708B8_499305DC_499FC53A_49AD4E61_49BBA902,
  0x49CADCE7_49DAF1FD_49EBF04B_49FDDFF7_4A0864A3_4A125A4B_4A1CD534_4A27D9AA_4A336C0A_4A3F90BD_4A4C4C3B_4A59A30B_4A6799C1_4A763500_4A82BCBC_4A8AB5F3,
  0x3F800000_3F800000_415EDC67_42820B4C_43420300_43E27E60_44626B84_44CB5E34_4528E5A3_45841EF4_45C52C96_460D9DB0_46451C2C_4685971B_46B10AC7_46E61C57,
  0x4713088C_47392018_4766092F_478D4070_47ABA66C_47CE9DA0_47F69156_4811F883_482B9822_4848635F_48689819_48863B19_489A1FC5_48B01BFF_48C852B0_48E2E7BC,
  0x49000000_490FE0A7_49212937_4933ED8E_49484203_495E3B65_4975EEFB_4987B942_49956E1A_49A4215A_49B3DE93_49C4B18F_49D6A651_49E9C918_49FE265B_4A09E566,
  0x4A1561A9_4A218E89_4A2E72B2_4A3C14F0_4A4A7C26_4A59AF58_4A69B5A1_4A7A963C_4A862C3E_4A8F81EA_4A994FE6_4AA39A06_4AAE642C_4AB9B246_4AC58850_4AD1EA53,
  0x3F800000_3F800000_416EDB40_42912530_435EDC67_44050599_44876CE2_44F70DE5_454FEFC6_45A4964D_45F83A42_4633FDC5_467CB66D_46ACA6A8_46E68281_4716D6FD,
  0x47420300_4775C282_479990B1_47BD9D09_47E79AC2_480C12C2_4827F015_4847BA54_486BCA08_488A3DA2_48A116CE_48BAA214_48D712C0_48F69DD7_490CBD0F_491FF009,
  0x493504F3_494C19C5_49654D4F_49805F9F_498F480A_499F7098_49B0EA64_49C3C6F4_49D8183B_49EDF097_4A02B168_4A0F410C_4A1CB108_4A2B0B5E_4A3A5A48_4A4AA834,
  0x4A5BFFC4_4A6E6BD0_4A80FBB2_4A8B56DF_4A964D2A_4AA1E468_4AAE2286_4ABB0D8E_4AC8ABA1_4AD702FC_4AE619F5_4AF5F6FB_4B03504D_4B0C0EBA_4B153A22_4B1ED5F3]

/-- Rows 40 to 43 of section 2. -/
def plwInvLines10 : List Nat := [
  0x3F800000_3F800000_41800000_42A20000_43800000_441C4000_44A20000_45161000_45800000_45CD0800_461C4000_4664C400_46A20000_46DF2200_47161000_4745C100,
  0x47800000_47A32080_47CD0800_47FE8880_481C4000_483DEC40_4864C400_4888A420_48A20000_48BEBC20_48DF2200_4901BF10_49161000_492CAD10_4945C100_49617810,
  0x49800000_4990C408_49A32080_49B72E88_49CD0800_49E4C788_49FE8880_4A0D3384_4A1C4000_4A2C7884_4A3DEC40_4A50AAC4_4A64C400_4A7A4844_4A88A420_4A94EA82,
  0x4AA20000_4AAFED82_4ABEBC20_4ACE7522_4ADF2200_4AF0CC62_4B01BF10_4B0BA0A1_4B161000_4B211261_4B2CAD10_4B38E571_4B45C100_4B534551_4B617810_4B705F01,
  0x3F800000_3F800000_41892FDF_42B4CFDC_4393088C_443788C2_44C1CA1A_45364C4C_459D9624_45FF69ED_4644B504_469160E2_46CFB2CA_47103004_474361D7_4781A12E,
  0x47A8E5A3_47D88E63_4808DF73_482AD711_4852D350_4880C1AA_489BD011_48BAF65D_48DE9B0A_490394CE_491A8951_493465DD_495167CC_4971CF04_498AEEFF_499EECE0,
  0x49B504F3_49CD5C53_49E81964_4A02B1ED_4A12B25A_4A242322_4A371A15_4A4BADAB_4A61F506_4A7A07F0_4A89FF70_4A97F979_4AA6FEF9_4AB71D2A_4AC8619C_4ADADA36,
  0x4AEE9533_4B01D093_4B0D067B_4B18F3F3_4B25A0C5_4B3314E8_4B41587F_4B5073D7_4B606F6A_4B7153DD_4B819501_4B8AFD6C_4B94E7C3_4B9F58B1_4BAA54F8_4BB5E16E,
  0x3F800000_3F800000_4193088C_42C9CEF4_43A8E5A3_44579530_44E7D126_455D754D_45C20300_461F16A3_4677A3BA_46B8C5FA_470524D7_473A58CD_477E6381_47A9F26A,
  0x47DEDC67_480FBE1B_4836BE9E_48655510_488E3B49_48AE9421_48D43FB3_48FFD0C9_4918F133_49358BED_49560E6D_497AD2C3_49921BA1_49A94F44_49C337BF_49E00AB7,
  0x4A000000_4A11A8D0_4A251DED_4A3A7E92_4A51EB1E_4A6B850D_4A83B780_4A92E65E_4AA36195_4AB53C2E_4AC889C7_4ADD5E91_4AF3CF55_4B05F8B8_4B12ED6E_4B20D111,
  0x4B2FAF37_4B3F93BD_4B508AD2_4B62A0EF_4B75E2DC_4B852ED8_4B900F66_4B9B99F2_4BA7D57D_4BB4C92E_4BC27C56_4BD0F66C_4BE03F0F_4BF05E07_4C00ADA2_4C099F70,
  0x3F800000_3F800000_419D9624_42E13E38_43C20300_447D3A44_450AA743_458683E9_45EEDB40_46462E6E_469BE13F_46EAD7F1_472AB3CA_4770D550_47A59B94_47DECDC1,
  0x4813088C_483ED2A7_4873FD69_4899ECED_48BFE91F_48ECB542_4910902A_492F0345_495228C1_497A7C37_49944011_49AE5EF9_49CBE314_49ED1830_4A0926DB_4A1DEB5A,
  0x4A3504F3_4A4EA0DE_4A6AEE35_4A850EFB_4A963182_4AA8F91B_4ABD8127_4AD3E604_4AEC450B_4B035E4A_4B11B5FD_4B2139CB_4B31FA65_4B4408FD_4B57774C_4B6C578C,
  0x4B815E40_4B8D5CB7_4B9A3115_4BA7E586_4BB68479_4BC618A6_4BD6AD06_4BE84CDC_4BFB03AE_4C076EA5_4C11F2E3_4C1D14BE_4C28DA89_4C354AB9_4C426BE9_4C5044D7]

/-- Rows 44 to 47 of section 2. -/
def plwInvLines11 : List Nat := [
  0x3F800000_3F800000_41A8E5A3_42FB6624_43DEDC67_4494B914_4525DC8A_45A3693A_4613088C_4676E173_46C43DBB_47153DAB_475ADB04_479BA021_47D79F46_48120CCD,
  0x48420300_487D52CA_48A2E168_48CEA05E_4901788A_4920795F_4944ECAF_496F771C_4990640B_49ACCD0A_49CD595E_49F2718C_4A0E41F0_4A260244_4A40B6D2_4A5E9FAF,
  0x4A800000_4A928F02_4AA72190_4ABDDDF3_4AD6EC0F_4AF27569_4B085297_4B18D418_4B2AD67C_4B3E71DC_4B53BF31_4B6AD850_4B81EBF8_4B8F6CD3_4B9DFCF8_4BADAB18,
  0x4BBE8659_4BD09E56_4BE40320_4BF8C53E_4C077AD9_4C1352FB_4C1FF3FD_4C2D6719_4C3BB5C2_4C4AE9AD_4C5B0CCD_4C6C2952_4C7E49AF_4C88BC4B_4C92E07D_4C9D9707,
  0x3F800000_3F800000_41B504F3_430C4BCE_44000000_44AEB15C_4546689F_45C68397_463504F3_4699C600_46F70D8E_473DAEB4_478C4BCE_47C92113_480C5EE1_483F7972,
  0x48800000_48A825BD_48D977EE_490AAF81_492EB15C_4959957E_49862030_49A3D3B2_49C6689F_49EE6B28_4A0E3846_4A288BA2_4A468397_4A6878E3_4A876491_4A9CEB77,
  0x4AB504F3_4ACFE76B_4AEDCBDE_4B0776F9_4B19C600_4B2DF38C_4B44218A_4B5C734A_4B770D8E_4B8A0B41_4B99DAE7_4BAB0A49_4BBDAEB4_4BD1DE3A_4BE7AFB0_4BFF3AB0,
  0x4C0C4BCE_4C19EFD2_4C28965F_4C384CDC_4C492113_4C5B213C_4C6E5BF7_4C817028_4C8C5EE1_4C980217_4CA461F7_4CB186E2_4CBF7972_4CCE427A_4CDDEB07_4CEE7C5E,
  0x3F800000_3F800000_41C20300_431C9676_4413088C_44CD328E_456D57B7_45F1285A_465EDC67_46BF8F72_471B82B8_47711538_47B3DF41_4801F80A_4836C368_487B06D3,
  0x48A8E5A3_48DF3895_49112CF3_493A2B2F_496BB5C3_49938254_49B6B4E8_49E028F5_4A08514B_4A247A02_4A44FEFB_4A6A5800_4A8A8239_4AA2C5BE_4ABE3E1D_4ADD36F2,
  0x4B000000_4B1376A0_4B292B7E_4B414CF0_4B5C0B87_4B799A1A_4B8D16E8_4B9EFF13_4BB2A281_4BC81F59_4BDF94FD_4BF92410_4C0A773C_4C198BB3_4C29E1AA_4C3B8C0B,
  0x4C4E9E68_4C632D01_4C794CC6_4C8889AD_4C954B8A_4CA2F77F_4CB1996F_4CC13D9A_4CD1F09E_4CE3BF78_4CF6B785_4D057343_4D102D4D_4D1B9123_4D27A63B_4D34743C,
  0x3F800000_3F800000_41CFEFC6_432EC56E_4428E5A3_44F10763_458DF555_46127B18_46892FDF_46EEA1F4_4743C6B9_479934BA_47E69CAC_4827F887_486DF575_48A48CE8,
  0x48DEDC67_49142A9F_4941D476_4979E8B7_499F050E_49C80144_49F8E242_4A195B26_4A3B50AD_4A62EEE8_4A886F48_4AA2EA1D_4AC1485A_4AE3F0A8_4B05A80E_4B1BED31,
  0x4B3504F3_4B512FFB_4B70B27A_4B89EA1C_4B9D7057_4BB3138A_4BCAFD3E_4BE558EC_4C012A07_4C110F10_4C22745A_4C3573B8_4C4A280F_4C60AD59_4C7920AC_4C89D01D,
  0x4C9825AD_4CA7A145_4CB853BA_4CCA4E79_4CDDA389_4CF2658D_4D0453E4_4D103F0F_4D1CFE89_4D2A9CE8_4D392515_4D48A24E_4D592025_4D6AAA84_4D7D4DAC_4D888B1B]

/-- Rows 48 to 51 of section 2. -/
def plwInvLines12 : List Nat := [
  0x3F800000_3F800000_41DEDC67_434310F2_44420300_450D8EFC_45A9D0A3_4631F26D_46A8E5A3_4714A2D2_477677BC_47C2B8D2_4813D521_4859158B_489AE96E_48D7BA91,
  0x4913088C_4944B21A_4981652A_49A7BC85_49D69007_4A079771_4A2983EB_4A51D53C_4A80B219_4A9C8DA2_4ABCFB95_4AE283BB_4B06DBCD_4B1F995F_4B3BCD85_4B5BD07F,
  0x4B800000_4B945FAC_4BAB3BCA_4BC4CBD3_4BE14A43_4C007A56_4C1205E5_4C2569C8_4C3AC9A0_4C524ABB_4C6C1421_4C84274C_4C939258_4CA46165_4CB6AB91_4CCA88ED,
  0x4CE0127D_4CF76241_4D08499B_4D15E0AF_4D2484DF_4D344535_4D453140_4D57591C_4D6ACD6D_4D7F9F68_4D8AF068_4D96D1FE_4DA37DEA_4DB0FDEB_4DBF5C0D_4DCEA2AA,
  0x3F800000_3F800000_41EEDB40_4359B7C9_445EDC67_452646FF_45CB2353_46582C28_46CFEFC6_47392916_479B2469_47F77CEF_483D88D1_488C4769_48C9B231_490D698D,
  0x49420300_49828F55_49ACC2C7_49E12A7B_4A10C0B9_4A37D89F_4A66EA1C_4A8F8DEC_4AB0D786_4AD8004D_4B02E287_4B1D78C1_4B3C3068_4B5F7F0B_4B83F13E_4B9AF088,
  0x4BB504F3_4BD27A93_4BF3A224_4C0C6895_4C21310B_4C385A2F_4C521656_4C6E9A79_4C870F25_4C986E21_4CAB88D8_4CC07F68_4CD7736A_4CF087FC_4D05F0E4_4D14D386,
  0x4D24FFD3_4D368A8B_4D498946_4D5E1273_4D743D65_4D861126_4D92ED21_4DA0BFA6_4DAF962D_4DBF7EA8_4DD08786_4DE2BFB0_4DF63690_4E057E09_4E109051_4E1C5A9B,
  0x3F800000_3F800000_42000000_43730000_44800000_45435000_45F30000_46834E00_47000000_4766A900_47C35000_481D46C0_48730000_48B54BA0_49034E00_493964F0,
  0x49800000_49AD5288_49E6A900_4A17210C_4A435000_4A794614_4A9D46C0_4AC46BEE_4AF30000_4B1502F9_4B354BA0_4B5AF26B_4B834E00_4B9C7CD6_4BB964F0_4BDA6C50,
  0x4C000000_4C154A28_4C2D5288_4C485AE5_4C66A900_4C84435B_4C97210C_4CAC16C9_4CC35000_4CDCFA69_4CF94614_4D0C32BC_4D1D46C0_4D2FFAD0_4D446BEE_4D5AB86F,
  0x4D730000_4D86B1D8_4D9502F9_4DA48557_4DB54BA0_4DC76941_4DDAF26B_4DEFFC15_4E034E00_4E0F745E_4E1C7CD6_4E2A7384_4E3964F0_4E495E11_4E5A6C50_4E6C9D85,
  0x3F800000_3F800000_42092FDF_43879BE5_4493088C_45656AF2_46115793_469F82C2_471D9624_478FAB95_47F5E245_4847E537_489BC617_48EA4E06_492AF59D_49730E36,
  0x49A8E5A3_49E61749_4A19FB62_4A4ADF64_4A83C412_4AA8FE2F_4AD63E18_4B066113_4B26F448_4B4D9882_4B7B1F24_4B9835F2_4BB73AD2_4BDB239C_4C02400F_4C19F579,
  0x4C3504F3_4C53C736_4C769AFA_4C8EF29B_4CA508A6_4CBDC8A0_4CD96EF9_4CF83BA8_4D0D3924_4D202D16_4D351F43_4D4C373B_4D659E97_4D80C082_4D900628_4DA0B840,
  0x4DB2EFE6_4DC6C760_4DDC5A21_4DF3C4CB_4E0692A0_4E144D50_4E2322AB_4E33238C_4E44617C_4E56EEB1_4E6ADE12_4E80219F_4E8B9947_4E97E089_4EA50250_4EB309E8]

/-- Rows 52 to 55 of section 2. -/
def plwInvLines13 : List Nat := [
  0x3F800000_3F800000_4213088C_43975B37_44A8E5A3_4586BD3E_462DDCDD_46C1C6A4_47420300_47B2F977_481AC654_487E1037_48C7B742_49176826_495E9711_499F5343,
  0x49DEDC67_4A18B9FD_4A4D9672_4A882A81_4AB1CA1B_4AE5226C_4B11EBCB_4B37DE10_4B6569CC_4B8DD551_4BADEBB8_4BD3A1D5_4BFFB05A_4C196FD5_4C370443_4C590A62,
  0x4C800000_4C963617_4CAF6FCC_4CCBFA70_4CEC2882_4D0828EC_4D1C69E8_4D3308C3_4D4C39FA_4D68351B_4D839A6A_4D94BB89_4DA79E8A_4DBC65C3_4DD3354E_4DEC3312,
  0x4E03C369_4E12AD1D_4E22EC74_4E34983F_4E47C853_4E5C9595_4E7319FC_4E85B84C_4E92DACD_4EA1032D_4EB040AE_4EC0A32B_4ED23B1E_4EE5199F_4EF9506B_4F0778F2,
  0x3F800000_3F800000_421D9624_43A8EEAA_44C20300_459E446A_464FFAE4_46EB66D8_476EDB40_47DEF43C_4842D98F_48A17476_490006D8_4943AD51_4990E821_49D0E0E5,
  0x4A13088C_4A4ABFD2_4A893E8B_4AB6C959_4AEFE367_4B1B56F4_4B46C63A_4B7B94B3_4B9D9E91_4BC3B10B_4BF0E81B_4C132022_4C3266B2_4C56DDEB_4C80946E_4C98FC00,
  0x4CB504F3_4CD515E5_4CF99D19_4D118862_4D28F7B2_4D436007_4D61095E_4D81202A_4D93AB27_4DA850CF_4DBF3EDC_4DD8A5A9_4DF4B84B_4E09D652_4E1ADDBE_4E2D904B,
  0x4E420D5F_4E5875F9_4E70ECB2_4E85CAE7_4E944BA2_4EA40C69_4EB521FD_4EC7A20D_4EDBA338_4EF13D16_4F04441E_4F10CF1F_4F1E4CE0_4F2CCB38_4F3C588A_4F4D03C4,
  0x3F800000_3F800000_4228E5A3_43BC8C9B_44DEDC67_45B9E759_4678CACE_470EFC13_4793088C_480ADED1_48754D29_48CD34CC_49242443_497CE436_49BCAB5D_4A08EC00,
  0x4A420300_4A8693FB_4AB73D95_4AF55E70_4B21D6AD_4B529F4C_4B8762B8_4BAC1D9C_4BD89611_4C070030_4C26D89C_4C4C8FCE_4C78F365_4C96720E_4CB4AB65_4CD7AAB1,
  0x4D000000_4D17237B_4D3193AA_4D4FAAC2_4D71C990_4D8C2BE1_4DA1E213_4DBA427E_4DD58C1B_4DF401E2_4E0AF578_4E1DC956_4E32A474_4E49B108_4E631BA4_4E7F134C,
  0x4E8EE4C3_4E9FB93A_4EB22271_4EC63D2E_4EDC27A1_4EF4016F_4F06F5DE_4F150499_4F243F0A_4F34B81E_4F468399_4F59B618_4F6E6514_4F825378_4F8E4979_4F9B20AA,
  0x3F800000_3F800000_423504F3_43D271B5_45000000_45DA5DB3_4694CE77_472DB324_47B504F3_482CFEC0_489A6879_4902681C_495271B5_49A36AE0_49F5A609_4A3381DB,
  0x4A800000_4AB2A819_4AF4A6EC_4B24B069_4B5A5DB3_4B8ECA1B_4BB86C42_4BEB8050_4C14CE77_4C3A43B7_4C671B72_4C8E35D0_4CADB324_4CD2AD8E_4CFDDC91_4D18041B,
  0x4D3504F3_4D5666A6_4D7CA89C_4D942A21_4DACFEC0_4DC9219A_4DE8E7D3_4E065641_4E1A6879_4E30DE6C_4E49EF50_4E65D5D2_4E82681C_4E939041_4EA68647_4EBB6F19,
  0x4ED271B5_4EEBB739_4F03B57B_4F12DD3F_4F236AE0_4F357786_4F491D99_4F5E78C5_4F75A609_4F8761DD_4F94F8C8_4FA3A858_4FB381DB_4FC4975D_4FD6FBAF_4FEAC26D]

/-- Rows 56 to 59 of section 2. -/
def plwInvLines14 : List Nat := [
  0x3F800000_3F800000_42420300_43EAE1B2_4513088C_46003F99_46B201C9_4753034F_47DEDC67_48578160_48C26365_4925BE97_4986E771_49D33311_4A1FEAFB_4A6B5666,
  0x4AA8E5A3_4AED2C1E_4B235291_4B5D1347_4B93519A_4BC19B0F_4BFB38BF_4C211D70_4C4C79F0_4C807F52_4CA00F2C_4CC5BA40_4CF263E4_4D138334_4D325A3B_4D564D3B,
  0x4D800000_4D981255_4DB3BE36_4DD36C27_4DF78CF8_4E104D17_4E278B33_4E41C6E0_4E5F4B22_4E803415_4E92B9C6_4EA7643B_4EBE63F2_4ED7EC73_4EF43465_4F09BAD8,
  0x4F1AF6CE_4F2DEE74_4F42C3FB_4F599B6C_4F729AC0_4F86F4F5_4F95D976_4FA610F1_4FB7B28A_4FCAD687_4FDF9651_4FF60C83_50072A78_50144656_5022690A_5031A26B,
  0x3F800000_3F800000_424FEFC6_44031413_4528E5A3_4616A49E_46D4F000_47802BB5_48092FDF_48863B19_48F4B867_4952A87F_49ACF581_4A0879ED_4A5036C7_4A9A4419,
  0x4ADEDC67_4B1D6D49_4B5A0F05_4B94622D_4BC6C651_4C0340D5_4C2B1B8D_4C5C7306_4C8C7C82_4CB14AA6_4CDDB4D4_4D097589_4D291F4F_4D4E9218_4D7A9B1A_4D970DC8,
  0x4DB504F3_4DD7B97B_4DFFBDA1_4E16D80E_4E311E61_4E4F0E98_4E710CB9_4E8BC230_4EA17488_4EB9DB4D_4ED538B6_4EF3D37F_4F0AFB8A_4F1DF9E3_4F330F7C_4F4A69AB,
  0x4F643884_4F805779_4F90016A_4FA13688_4FB414DF_4FC8BC19_4FDF4D91_4FF7EC61_50095EB8_5017F3BF_5027C99B_5038F5A0_504B8E23_505FAA86_5075633F_508668EF,
  0x3F800000_3F800000_425EDC67_44124CB6_45420300_4630F2BB_46FEB8F5_479BB420_4828E5A3_48A7372D_491A0AD6_4985DF11_49DDBFB2_4A306181_4A878C41_4ACA3EE8,
  0x4B13088C_4B50FD3B_4B9191CF_4BC72FDE_4C061A04_4C31F6C4_4C691564_4C96D143_4CC10B26_4CF49D4D_4D198C69_4D3F1F25_4D6C00A6_4D90A2FE_4DB010AD_4DD4F1FB,
  0x4E000000_4E1902A9_4E35EF87_4E573EEF_4E7D738B_4E948D74_4EAD6700_4EC998EC_4EE97C08_4F06B7E0_4F1AED36_4F3194CE_4F4AE938_4F6728F6_4F834B51_4F94BC8E,
  0x4FA80DDE_4FBD673A_4FD4F303_4FEEDE17_5005ABF5_50154950_5026618E_50391094_504D73BF_5063A9F9_507BD3BD_508B0996_5099460B_50A8B204_50B9612D_50CB681F,
  0x3F800000_3F800000_426EDB40_442349D7_455EDC67_464FD8BF_47185A7E_47BD26A3_484FEFC6_48D04E39_4941ED84_49AA25E5_4A0E269D_4A63F40A_4AB07BEB_4B0492F4,
  0x4B420300_4B8AB84A_4BC25B20_4C05B139_4C34F0E7_4C714C51_4C9EC0F4_4CCE5C03_4D04A1A5_4D28C03C_4D54B01C_4D84DDE3_4DA4AA5B_4DCA8B22_4DF76454_4E161904,
  0x4E3504F3_4E590E68_4E816E23_4E999263_4EB5572C_4ED52847_4EF97A86_4F116622_4F28D2EE_4F434D1A_4F61239C_4F81559A_4F941F59_4FA91F9D_4FC08A48_4FDA96AD,
  0x4FF77FBD_500BC213_501D733E_5030F6B4_504671E2_505E0C67_5077F028_508A24B3_5099A367_50AA8CCE_50BCFAD1_50D108B6_50E6D327_50FE7841_510C0BCF_5119E930]

/-- Rows 60 to 63 of section 2. -/
def plwInvLines15 : List Nat := [
  0x3F800000_3F800000_42800000_44364000_45800000_46742400_47364000_47E5C880_48800000_4901BF10_49742400_49D84148_4A364000_4A934D72_4AE5C880_4B2DCEA1,
  0x4B800000_4BB827B0_4C01BF10_4C33773E_4C742400_4CA395FD_4CD84148_4D0D2D93_4D364000_4D68D4A5_4D934D72_4DB8BC8A_4DE5C880_4E0DD122_4E2DCEA1_4E5398ED,
  0x4E800000_4E99F47A_4EB827B0_4EDB236A_4F01BF10_4F18EDE1_4F33773E_4F51BBC5_4F742400_4F8D906B_4FA395FD_4FBC642C_4FD84148_4FF778B4_500D2D93_50209F71,
  0x50364000_504E4052_5068D4A5_50831A41_50934D72_50A5232A_50B8BC8A_50CE3CA2_50E5C880_50FF8748_510DD122_511D227E_512DCEA1_513FEDA8_515398ED_5168EB0F,
  0x3F800000_3F800000_42892FDF_444B69D8_4593088C_468F62D8_475A035D_480B926A_489D9624_4921A108_4999AD6B_4A096D96_4A69A923_4ABE5F65_4B1596E9_4B63DD53,
  0x4BA8E5A3_4BF478BE_4C2D3ACE_4C70E946_4CA4B517_4CDDCD9E_4D134AB1_4D412B8B_4D7A6E6C_4DA09F26_4DCC094D_4E006D85_4E205378_4E469845_4E74381B_4E9525CD,
  0x4EB504F3_4EDA656F_4F030255_4F1C595A_4F39A9BA_4F5B6FF9_4F8119E4_4F97445B_4FB0876C_4FCD39C4_4FEDB907_5009351B_501DDD07_50350EB6_504F08DA_506C0E9D,
  0x508633EC_509830A6_50AC2669_50C240D2_50DAAE44_50F5A00D_5109A540_5119F28D_512BD54D_513F6C95_5154D941_516C3DFE_5182DFB2_5190C202_519FDA3D_51B03DC0,
  0x3F800000_3F800000_4293088C_446308D3_45A8E5A3_46A86C8D_478265A6_48298DCF_48C20300_494958A6_49C177EA_4A2EAB26_4A95C971_4AF6093E_4B42C42E_4B955E0F,
  0x4BDEDC67_4C22459D_4C674941_4CA1B279_4CDE3CA2_4D165E97_4D48A438_4D84279C_4DAC0F59_4DDD9D4F_4E0D4F86_4E32908B_4E5FBA4F_4E8B0D59_4EAB93FF_4ED2420F,
  0x4F000000_4F1AE7C8_4F3A66C8_4F5F19EB_4F84D6C9_4F9D6F50_4FB9BDC4_4FDA32AD_4FFF4879_5014C205_502CBAAC_5047DC00_506679FE_5084778D_5097CE50_50AD7581,
  0x50C5A51D_50E09914_50FE9175_510FE952_512252C4_5136ABE0_514D1DED_5165D4C3_51807F74_518F66D4_519FBA9E_51B1966C_51C5176C_51DA5C6B_51F185E7_52055B0E,
  0x3F800000_3F800000_429D9624_447D65FF_45C20300_46C5D585_479BFC2B_484DF9FD_48EEDB40_497AD2C3_49F38FF3_4A5E0022_4AC00A44_4B1EFCD2_4B7D963A_4BC3D2D7,
  0x4C13088C_4C576BCF_4C9A665C_4CD90F1A_4D15EE20_4D4BE220_4D88A848_4DB4D2E1_4DEC6DD9_4E18E250_4E43BC96_4E78463A_4E9C19DB_4EC2B91D_4EF1164D_4F143420,
  0x4F3504F3_4F5BBE95_4F849B75_4F9F2D2B_4FBE16A8_4FE1E708_50059D90_501D5F34_503895F1_5057A78A_507B0281_50918F4E_50A83EB4_50C1D564_50DE9EC2_50FEEBED,
  0x51118A08_5125BA53_513C38EB_51553B60_5170FAE8_5187DA47_5198D4AE_51AB8F43_51C02ED1_51D6DA68_51EFBB76_52057EF1_52146812_5224B1B2_523675C5_5249CFB5]

/-- The 256 lines of PLW_INV. -/
def plwInvLines : List Nat :=
  plwInvLines00 ++ plwInvLines01 ++ plwInvLines02 ++ plwInvLines03 ++ plwInvLines04
    ++ plwInvLines05 ++ plwInvLines06 ++ plwInvLines07 ++ plwInvLines08 ++ plwInvLines09
    ++ plwInvLines10 ++ plwInvLines11 ++ plwInvLines12 ++ plwInvLines13 ++ plwInvLines14
    ++ plwInvLines15

/-- Entry `k` of row `si` of a table of lines: line `4 * si + k / 16`, entry `k % 16` from its high end. -/
def tableEntry (lines : List Nat) (si k : Nat) : F32 :=
  BitVec.ofNat 32 (lines.getD (4 * si + k / 16) 0 / 2 ^ (32 * (15 - k % 16)))

/-- `PLW_FWD[si][k]` (R280). -/
def plwFwd (si k : Nat) : F32 := tableEntry plwFwdLines si k

/-- `PLW_INV[si][k]` (R281). -/
def plwInv (si k : Nat) : F32 := tableEntry plwInvLines si k

end Sys2Proof.Machine
end

