-- ==== Sys2Proof/Machine/Spectral.lean ====
section
/-! DEFINITION. The spectral unit (41_spectral.md): the 64-point transform, the polylogarithmic filters and the
threshold. -/

namespace Sys2Proof.Machine

/-! ### The transform -/

/-- `bitrev6` (R230): reverses the six bits of an index. -/
def bitrev6 (i : Nat) : Nat :=
  i % 2 * 32 + i / 2 % 2 * 16 + i / 4 % 2 * 8 + i / 8 % 2 * 4 + i / 16 % 2 * 2 + i / 32 % 2

/-- TW_COS (R231). -/
def twCos : List F32 :=
  [0x3F800000#32, 0x3F7EC46D#32, 0x3F7B14BE#32, 0x3F74FA0B#32, 0x3F6C835E#32, 0x3F61C598#32, 0x3F54DB31#32, 0x3F45E403#32,
   0x3F3504F3#32, 0x3F226799#32, 0x3F0E39DA#32, 0x3EF15AEA#32, 0x3EC3EF15#32, 0x3E94A031#32, 0x3E47C5C2#32, 0x3DC8BD36#32,
   0x00000000#32, 0xBDC8BD36#32, 0xBE47C5C2#32, 0xBE94A031#32, 0xBEC3EF15#32, 0xBEF15AEA#32, 0xBF0E39DA#32, 0xBF226799#32,
   0xBF3504F3#32, 0xBF45E403#32, 0xBF54DB31#32, 0xBF61C598#32, 0xBF6C835E#32, 0xBF74FA0B#32, 0xBF7B14BE#32, 0xBF7EC46D#32]

/-- TW_SINF (R231), the forward sines. -/
def twSinF : List F32 :=
  [0x00000000#32, 0xBDC8BD36#32, 0xBE47C5C2#32, 0xBE94A031#32, 0xBEC3EF15#32, 0xBEF15AEA#32, 0xBF0E39DA#32, 0xBF226799#32,
   0xBF3504F3#32, 0xBF45E403#32, 0xBF54DB31#32, 0xBF61C598#32, 0xBF6C835E#32, 0xBF74FA0B#32, 0xBF7B14BE#32, 0xBF7EC46D#32,
   0xBF800000#32, 0xBF7EC46D#32, 0xBF7B14BE#32, 0xBF74FA0B#32, 0xBF6C835E#32, 0xBF61C598#32, 0xBF54DB31#32, 0xBF45E403#32,
   0xBF3504F3#32, 0xBF226799#32, 0xBF0E39DA#32, 0xBEF15AEA#32, 0xBEC3EF15#32, 0xBE94A031#32, 0xBE47C5C2#32, 0xBDC8BD36#32]

/-- TW_SINI (R231), the inverse sines. -/
def twSinI : List F32 :=
  [0x00000000#32, 0x3DC8BD36#32, 0x3E47C5C2#32, 0x3E94A031#32, 0x3EC3EF15#32, 0x3EF15AEA#32, 0x3F0E39DA#32, 0x3F226799#32,
   0x3F3504F3#32, 0x3F45E403#32, 0x3F54DB31#32, 0x3F61C598#32, 0x3F6C835E#32, 0x3F74FA0B#32, 0x3F7B14BE#32, 0x3F7EC46D#32,
   0x3F800000#32, 0x3F7EC46D#32, 0x3F7B14BE#32, 0x3F74FA0B#32, 0x3F6C835E#32, 0x3F61C598#32, 0x3F54DB31#32, 0x3F45E403#32,
   0x3F3504F3#32, 0x3F226799#32, 0x3F0E39DA#32, 0x3EF15AEA#32, 0x3EC3EF15#32, 0x3E94A031#32, 0x3E47C5C2#32, 0x3DC8BD36#32]

/-- The direction of a transform (R232). -/
inductive Dir where
  | fwd
  | inv
  deriving DecidableEq, Repr

/-- The parallel arrays of a transform (R232). -/
structure Arrays where
  re : List F32
  im : List F32
  deriving DecidableEq, Repr

/-- Entry `i` of an array. -/
def entry (v : List F32) (i : Nat) : F32 := v.getD i 0#32

/-- Two entries exchanged; a move, so patterns are kept (00_scope.md R10). -/
def swapEntries (v : List F32) (i j : Nat) : List F32 := (v.set i (entry v j)).set j (entry v i)

/-- Part 1 of R232: the bit-reversal permutation. -/
def bitReverse (v : Arrays) : Arrays :=
  (List.range 64).foldl
    (fun v i =>
      if i < bitrev6 i then { re := swapEntries v.re i (bitrev6 i), im := swapEntries v.im i (bitrev6 i) }
      else v)
    v

/-- The sine of the direction (R232). -/
def twSin : Dir → List F32
  | .fwd => twSinF
  | .inv => twSinI

/-- One butterfly of R232: entries `a` and `b`, twiddle `t`. -/
def butterfly (dir : Dir) (t a b : Nat) (v : Arrays) : Arrays :=
  let wr := entry twCos t
  let wi := entry (twSin dir) t
  let tr := fsub (fmul wr (entry v.re b)) (fmul wi (entry v.im b))
  let ti := fadd (fmul wr (entry v.im b)) (fmul wi (entry v.re b))
  let ra := entry v.re a
  let ia := entry v.im a
  { re := (v.re.set b (fsub ra tr)).set a (fadd ra tr)
    im := (v.im.set b (fsub ia ti)).set a (fadd ia ti) }

/-- The butterflies of one stage length of R232: every base, then every `j` below half the length. -/
def stage (dir : Dir) (len : Nat) (v : Arrays) : Arrays :=
  (List.range (64 / len)).foldl
    (fun v block =>
      (List.range (len / 2)).foldl
        (fun v j => butterfly dir (j * (64 / len)) (block * len + j) (block * len + j + len / 2) v) v)
    v

/-- `FFT64` (R232); 0x42800000 is 64.0. -/
def fft64 (v : Arrays) (dir : Dir) : Arrays :=
  let w := [2, 4, 8, 16, 32, 64].foldl (fun v len => stage dir len v) (bitReverse v)
  match dir with
  | .fwd => w
  | .inv => { re := w.re.map (fdiv · 0x42800000#32), im := w.im.map (fdiv · 0x42800000#32) }

/-- FFT_FWD's result: the transform of the patch with imaginary parts +0 (R234). -/
def forward (p : List F32) : Arrays := fft64 { re := p, im := List.replicate 64 0#32 } .fwd

/-- FFT_FWD (R234). -/
def execFftFwd (s : State) : Host.Outcome State Fault Refusal :=
  (CmdResult.ok (s.storeWords coefBase (interleave (forward s.patch).re (forward s.patch).im))).finish

/-- Some sample is NaN or infinite (R235). -/
def anyNonFinite (v : List F32) : Bool := v.any fun a => !isFinite a

/-- FFT_INV (R235): the result in COEF and its real parts in PATCH; NF is sticky. -/
def execFftInv (s : State) : Host.Outcome State Fault Refusal :=
  let w := fft64 { re := s.creAll, im := s.cimAll } .inv
  let s1 := (s.storeWords coefBase (interleave w.re w.im)).storeWords patchBase w.re
  (CmdResult.ok { s1 with status := { s1.status with nf := s1.status.nf || anyNonFinite w.re } }).finish

/-! ### The polylogarithmic filters -/

/-- A bin times a weight (R238). -/
def weighBin (w : F32) (re im : F32) : F32 × F32 := (fmul re w, fmul im w)

/-- Store new values of bins 1..63; bin 0 is not touched (R238, R240). -/
def State.storeBins1 (s : State) (f : Nat → F32 × F32) : State :=
  s.storeWords (coefBase + 8) ((List.range 63).flatMap fun i => [(f (i + 1)).1, (f (i + 1)).2])

/-- PLTM_FWD's new bin `k` (R238). -/
def pltmFwdBin (s : State) (k : Nat) : F32 × F32 := weighBin (plwFwd (sidx s.sParam) k) (s.cre k) (s.cim k)

/-- PLTM_FWD (R238). -/
def execPltmFwd (s : State) : Host.Outcome State Fault Refusal :=
  if svalid s.sParam then (CmdResult.ok (s.storeBins1 (pltmFwdBin s))).finish
  else (CmdResult.failed .param s).finish

/-- `nf(k)` (R239): the noise floor; 0x38D1B717 is 0.0001. -/
def noiseFloor (k : Nat) : F32 := fmul 0x38D1B717#32 (fsqrt (i2f k))

/-- The impulse cap (R239), 4.0. -/
def impulseCap : F32 := 0x40800000#32

/-- The cap of R240 on a weighted bin. A finite bin whose squares overflow has an infinite magnitude and the factor +0, so
its parts become zeros with their signs: DESIGN CHOICE, the pseudocode is followed, not the corner case that says NaN
(log entry 21). -/
def capBin (re im : F32) : F32 × F32 :=
  let m := fsqrt (mag2 re im)
  if fgt m impulseCap then weighBin (fdiv impulseCap m) re im else (re, im)

/-- FWSM on one bin (R240): the noise gate, the inverse weight, the cap. -/
def fwsmBin (si k : Nat) (re im : F32) : F32 × F32 :=
  if fle (mag2 re im) (fmul (noiseFloor k) (noiseFloor k)) then (0#32, 0#32)
  else
    let w := weighBin (plwInv si k) re im
    capBin w.1 w.2

/-- PLTM_INV's new bin `k` (R240). -/
def pltmInvBin (s : State) (k : Nat) : F32 × F32 := fwsmBin (sidx s.sParam) k (s.cre k) (s.cim k)

/-- PLTM_INV (R240). -/
def execPltmInv (s : State) : Host.Outcome State Fault Refusal :=
  if svalid s.sParam then (CmdResult.ok (s.storeBins1 (pltmInvBin s))).finish
  else (CmdResult.failed .param s).finish

/-! ### The threshold -/

/-- Bin `k` is below the threshold (R242): such a bin is zeroed, every other one is kept. With T_PARAM = +inf a finite bin
whose squares overflow is not below: DESIGN CHOICE, the pseudocode is followed, not the corner case that zeroes every
finite bin (log entry 20). -/
def belowThreshold (s : State) (k : Nat) : Bool :=
  flt (mag2 (s.cre k) (s.cim k)) (fmul s.tParam s.tParam)

/-- The mask with bit `k` of 0..63 as `p k` says. -/
def maskOf (p : Nat → Bool) : BitVec 64 :=
  (List.range 64).foldl (fun m k => if p k then m ||| BitVec.twoPow 64 k else m) 0#64

/-- Both parts of the listed bins set to +0, and nothing else. -/
def zeroBins (s : State) (ks : List Nat) : State :=
  ks.foldl (fun s k => s.storeWords (coefBase + 8 * k) [0#32, 0#32]) s

/-- The effect of THRESH (R242) with a valid threshold. -/
def threshold (s : State) : State :=
  let kept := maskOf fun k => !belowThreshold s k
  let s1 := zeroBins s ((List.range 64).filter (belowThreshold s))
  { s1 with
    keepLo := kept.extractLsb' 0 32
    keepHi := kept.extractLsb' 32 32
    kcount := BitVec.ofNat 7 ((List.range 64).countP fun k => !belowThreshold s k) }

/-- THRESH (R242). -/
def execThresh (s : State) : Host.Outcome State Fault Refusal :=
  if tvalid s.tParam then (CmdResult.ok (threshold s)).finish
  else (CmdResult.failed .param s).finish

end Sys2Proof.Machine
end

