-- ==== Sys2Proof/Machine/System.lean ====
section
/-! DEFINITION. The system command (45_system.md). -/

namespace Sys2Proof.Machine

/-- NOP (45_system.md R390): no effect besides completion. -/
def execNop (s : State) : Host.Outcome State Fault Refusal := (CmdResult.ok s).finish

end Sys2Proof.Machine
end

