-- ==== Sys2Proof/Machine/Dispatch.lean ====
section
/-! DEFINITION. The meaning of every command: the engine's one indivisible step, its pseudocode and its completion
(60_exceptions.md R405). -/

namespace Sys2Proof.Machine

def exec (i : Instr) (s : State) : Host.Outcome State Fault Refusal :=
  match i with
  | .nop => Sys2Proof.Machine.execNop s
  | .grad => Sys2Proof.Machine.execGrad s
  | .fftFwd => Sys2Proof.Machine.execFftFwd s
  | .fftInv => Sys2Proof.Machine.execFftInv s
  | .pltmFwd => Sys2Proof.Machine.execPltmFwd s
  | .pltmInv => Sys2Proof.Machine.execPltmInv s
  | .thresh => Sys2Proof.Machine.execThresh s
  | .rcInitEnc => Sys2Proof.Machine.execRcInitEnc s
  | .rcEnc sym => Sys2Proof.Machine.execRcEnc sym s
  | .rcFinish => Sys2Proof.Machine.execRcFinish s
  | .rcInitDec => Sys2Proof.Machine.execRcInitDec s
  | .rcDec => Sys2Proof.Machine.execRcDec s
  | .quant => Sys2Proof.Machine.execQuant s
  | .dequant => Sys2Proof.Machine.execDequant s

end Sys2Proof.Machine
end

