-- ==== Sys2Proof/Machine/Step.lean ====
section
/-! DEFINITION. One step of the machine: the engine completes the pending command, or the next event at the block's
inputs happens (00_scope.md R15, 20_memory.md R111, 60_exceptions.md R405). -/

namespace Sys2Proof.Machine

/-- One step. While a command is pending and its latency has not passed, events at the inputs come first. -/
def step (s : State) : Host.Outcome State Fault Refusal :=
  match fetch s with
  | none => .next (hostStep (tick s))
  | some w =>
    match decode w with
    | .ok i => exec i s
    | .error _ => .refused .illegalLatch

/-- `s` with an instruction in PCMD, accepted and due, so that the next step completes it (log entry 4). -/
def State.withFetchWord (s : State) (nbits w : Nat) : State := latch (tableWord nbits w) s

end Sys2Proof.Machine
end

