-- ==== Sys2Proof/Safety.lean ====
section
/-! DEFINITION. What a safe state is, in the terms the statements use: facts that the spec says hold between events. -/

namespace Sys2Proof.Machine

/-- RC_BUF_BYTES is legal (00_scope.md R6): a multiple of 4, from 4 to 2^20. -/
def State.CapsLegal (s : State) : Prop := 4 ≤ s.caps.toNat ∧ s.caps.toNat ≤ 2 ^ 20 ∧ s.caps.toNat % 4 = 0

/-- Memory holds cells of the RAM windows only (20_memory.md R101), in canonical form. -/
def State.MemOk (s : State) : Prop := s.mem.wf ∧ ∀ c ∈ s.mem, isRam s.caps c.1 = true

/-- BUSY says whether PCMD holds a command, which is a legal word and LAST_CMD (10_state.md R44, R73; 60_exceptions.md
R403 to R405). -/
def State.LatchOk (s : State) : Prop :=
  s.status.busy = s.pcmd.isSome ∧ ∀ w, s.pcmd = some w → legalWord w = true ∧ s.lastCmd = w

/-- ECODE is 0 exactly while ERR is 0 (60_exceptions.md R401, R402, R407). -/
def State.ErrorOk (s : State) : Prop := s.status.err = false ↔ s.status.ecode = .none

/-- The frequency model between commands (43_range_coder.md R302, R304): 256 counts, none zero, adding up to RC_TOTAL,
which is in 256..16383. -/
def Coder.ModelOk (c : Coder) : Prop :=
  c.counts.length = 256 ∧ (∀ x ∈ c.counts, 1 ≤ x.toNat) ∧ cum c.counts 256 = c.total.toNat ∧ 256 ≤ c.total.toNat
    ∧ c.total.toNat < halvingLimit

/-- The interval of the open encoder (43_range_coder.md R317 (b), (c)): it ends by 2^33, and by 2^32 where no pending byte
can take a carry (none yet, or 0xFF). -/
def Coder.CarryOk (c : Coder) : Prop :=
  c.low.toNat + c.range.toNat ≤ 2 ^ 33
    ∧ (c.started = false ∨ c.cache = 0xFF#8 → c.low.toNat + c.range.toNat ≤ 2 ^ 32)

/-- The coder between commands: the model, and while a stream is open a range of at least TOP (43_range_coder.md R317
(a)) and the encoder's carry bounds. -/
def Coder.Ok (c : Coder) : Prop :=
  c.ModelOk ∧ (c.mode = .enc ∨ c.mode = .dec → top ≤ c.range.toNat) ∧ (c.mode = .enc → c.CarryOk)

/-- A safe state: the invariant under which no step stops. -/
def State.Safe (s : State) : Prop := s.CapsLegal ∧ s.MemOk ∧ s.LatchOk ∧ s.ErrorOk ∧ s.rc.Ok

/-- `n` steps from `s` lead to `t`, none of them a stop. -/
def runsTo : Nat → State → State → Prop
  | 0, s, t => s = t
  | n + 1, s, t => ∃ u, step s = .next u ∧ runsTo n u t

end Sys2Proof.Machine
end

