-- ==== Sys2Proof/Certificates/Slice0/Obligations.lean ====
section
/-! DEFINITION. The statements for the provers. A helper stands in Sys2Proof.Claims, in the spec's own terms. -/

namespace Sys2Proof.Claims

open Sys2Proof Sys2Proof.Machine

/-- The state after a command without other effect has completed (60_exceptions.md R405). -/
def ended (s : State) : State :=
  { s with status := { s.status with busy := false, done := true }, pcmd := none }

/-- STATUS with an error signalled (60_exceptions.md R402): the first error since ERR was last 0 is kept. -/
def flaggedStatus (code : ErrCode) (t : Status) : Status :=
  { t with err := true, ecode := if t.err then t.ecode else code }

/-- The state with an error signalled, nothing else changed. -/
def flagged (code : ErrCode) (s : State) : State := { s with status := flaggedStatus code s.status }

/-- The state after a command that fails before its first write (60_exceptions.md R402, R405). -/
def endedWith (code : ErrCode) (s : State) : State := ended (flagged code s)

/-- The register offsets of 10_state.md section 2. -/
def registerOffsets : List Nat :=
  [0x000, 0x004, 0x008, 0x00C, 0x010, 0x014, 0x020, 0x024, 0x028, 0x030, 0x034, 0x038, 0x03C, 0x040, 0x044, 0x050,
   0x054, 0x058, 0x05C, 0x080, 0x084, 0x088, 0x08C, 0x090, 0x094, 0x098, 0x09C, 0x0A0, 0x0A4, 0x0A8, 0x0AC, 0x0B0]

/-- The offsets of the RAM windows (20_memory.md R101). -/
def inRam (caps : Word) (o : Nat) : Prop :=
  (0x100 ≤ o ∧ o < 0x440) ∨ (0x480 ≤ o ∧ o < 0x500) ∨ (0x100000 ≤ o ∧ o < 0x100000 + caps.toNat)

/-- A legal access (20_memory.md R102): 4 bytes, a multiple of 4, mapped by R101. -/
def legalAccess (caps : Word) (size : Nat) (o : BitVec 21) : Prop :=
  size = 4 ∧ o.toNat % 4 = 0
    ∧ (o.toNat ∈ registerOffsets ∨ inRam caps o.toNat ∨ (0x800 ≤ o.toNat ∧ o.toNat < 0xC00))

/-- The read-only registers of 20_memory.md R105. -/
def readOnlyOffsets : List Nat :=
  [0x000, 0x004, 0x014, 0x024, 0x030, 0x034, 0x038, 0x03C, 0x040, 0x044, 0x080, 0x084, 0x088, 0x08C, 0x090, 0x094,
   0x098, 0x09C, 0x0A0, 0x0A8, 0x0AC, 0x0B0]

/-- The register offsets and reset values of 10_state.md section 2, CAPS at its default. -/
def resetTable : List (BitVec 21 × Word) :=
  [(0x000, 0x31504147), (0x004, 0x00010000), (0x008, 0), (0x00C, 0), (0x010, 0), (0x014, 0x00100000), (0x020, 0),
   (0x024, 0xC0000000), (0x028, 0), (0x030, 0), (0x034, 0), (0x038, 0), (0x03C, 0), (0x040, 0), (0x044, 0), (0x050, 0),
   (0x054, 0), (0x058, 0), (0x05C, 0x3F800000), (0x080, 0), (0x084, 0xFFFFFFFF), (0x088, 0), (0x08C, 0), (0x090, 0),
   (0x094, 0), (0x098, 0), (0x09C, 0x100), (0x0A0, 0), (0x0A4, 0), (0x0A8, 0), (0x0AC, 0), (0x0B0, 0)]

/-- P(x, y) of the patch (40_gradient.md R200). -/
def sample (s : State) (x y : Nat) : F32 := s.wordAt (0x100 + 4 * (8 * y + x))

/-- The nested loops of 40_gradient.md R201 over `rows` and `cols`, from +0. -/
def loopSum (rows cols : Nat) (d : Nat → Nat → F32) : F32 :=
  (List.range rows).foldl (fun acc y => (List.range cols).foldl (fun acc x => fadd acc (d x y)) acc) 0#32

/-- The words of PATCH as the real input of the transform (41_spectral.md R234). -/
def patchInput (s : State) (i : Nat) : F32 × F32 := (s.wordAt (0x100 + 4 * i), 0#32)

/-- The words of COEF as the input of the inverse transform (41_spectral.md R235). -/
def coefInput (s : State) (k : Nat) : F32 × F32 := (s.wordAt (0x200 + 8 * k), s.wordAt (0x204 + 8 * k))

/-- `f32` magnitudes by their bits, in units of 2^-149. -/
def unitsOf (mag : Nat) : Nat := scaled (BitVec.ofNat 32 mag)

/-- The bytes STREAM[0..n-1] as one number, the first byte most significant (20_memory.md R108). -/
def streamNumber (s : State) : Nat → Nat
  | 0 => 0
  | n + 1 => streamNumber s n * 256 + (s.byteAt (0x100000 + n)).toNat

/-- The number the encoder stands at (43_range_coder.md R308): the bytes written, the cache byte if there is one, the
deferred 0xFF bytes and `low`, as one number whose last bit is the last bit of `low`. -/
def codeNumber (s : State) : Nat :=
  let written := streamNumber s s.rc.pos.toNat
  let cached := if s.rc.started then written * 256 + s.rc.cache.toNat else written
  (cached * 256 ^ s.rc.ffrun.toNat + (256 ^ s.rc.ffrun.toNat - 1)) * 2 ^ 32 + s.rc.low.toNat

/-- The bytes the encoder holds or has written: STREAM, the cache byte, the deferred bytes. -/
def heldBytes (c : Coder) : Nat := c.pos.toNat + c.started.toNat + c.ffrun.toNat

/-- The `i`-th byte that the decoder takes next (43_range_coder.md R312). -/
def inputByte (s : State) (i : Nat) : Byte :=
  if s.rc.pos.toNat + i < min s.inlen.toNat s.caps.toNat then s.byteAt (0x100000 + s.rc.pos.toNat + i) else 0#8

/-- `code <- (code << 8) | byte`, for the next `n` bytes (43_range_coder.md R314). -/
def codeAfter (s : State) (start : Word) : Nat → Word
  | 0 => start
  | n + 1 => (codeAfter s start n <<< 8) ||| (inputByte s n).setWidth 32

/-- The carry that a push of the top of `low` finds (43_range_coder.md R308). -/
def pushCarry (c : Coder) : Byte := BitVec.ofNat 8 (c.low.toNat / 2 ^ 32)

/-- The bytes that one push releases to STREAM (43_range_coder.md R308): the cache byte if there is one, then the deferred
ones, or none while the next byte is 0xFF. -/
def pushBytes (c : Coder) : List Byte :=
  if c.low.toNat / 2 ^ 24 = 0xFF then []
  else (if c.started then [c.cache + pushCarry c] else []) ++ List.replicate c.ffrun.toNat (0xFF#8 + pushCarry c)

/-- The coder's registers after a push whose bytes all found room (43_range_coder.md R308); RC_POS is left to `emit`. -/
def pushed (c : Coder) : Coder :=
  if c.low.toNat / 2 ^ 24 = 0xFF then
    { c with ffrun := c.ffrun + 1#32, low := BitVec.ofNat 33 (c.low.toNat * 256 % 2 ^ 32) }
  else
    { c with
      ffrun := 0#32
      cache := BitVec.ofNat 8 (c.low.toNat / 2 ^ 24)
      started := true
      low := BitVec.ofNat 33 (c.low.toNat * 256 % 2 ^ 32) }

/-- A turn of the renormalisation of 43_range_coder.md R310. -/
def renormTurn (c : Coder) : Coder := { pushed c with range := c.range <<< 8 }

/-- The coder after `n` turns. -/
def turns (turn : Coder → Coder) : Nat → Coder → Coder
  | 0, c => c
  | n + 1, c => turns turn n (turn c)

/-- The bytes that `n` turns release. -/
def outBytes (turn : Coder → Coder) : Nat → Coder → List Byte
  | 0, _ => []
  | n + 1, c => pushBytes c ++ outBytes turn n (turn c)

/-- `t` has the bytes from the RC_POS of `s` on, as many as there are and STREAM has room for, and every other byte of
`s`. -/
def Emits (s t : State) (bytes : List Byte) : Prop :=
  (∀ i, i < bytes.length → s.rc.pos.toNat + i < s.caps.toNat →
      t.byteAt (0x100000 + s.rc.pos.toNat + i) = bytes.getD i 0#8)
    ∧ ∀ a, a < 0x100000 + s.rc.pos.toNat ∨ 0x100000 + min s.caps.toNat (s.rc.pos.toNat + bytes.length) ≤ a →
        t.byteAt a = s.byteAt a

/-- A coder stopped by a full STREAM (43_range_coder.md R307). -/
def overrun (c : Coder) : Coder := { c with mode := .idle, pos := 0#32, len := 0#32 }

/-- The butterflies of one stage length of 41_spectral.md R232, seen from entry `i` of the result: entry `a` of the pair,
in the lower half of its block, is the sum and entry `b`, half a block on, the difference. -/
def fftStage (dir : Dir) (len : Nat) (v : Nat → F32 × F32) (i : Nat) : F32 × F32 :=
  let half := len / 2
  let j := i % half
  let a := i / len * len + j
  let b := a + half
  let wr := entry twCos (j * (64 / len))
  let wi := if dir = .fwd then entry twSinF (j * (64 / len)) else entry twSinI (j * (64 / len))
  let tr := fsub (fmul wr (v b).1) (fmul wi (v b).2)
  let ti := fadd (fmul wr (v b).2) (fmul wi (v b).1)
  if i % len < half then (fadd (v a).1 tr, fadd (v a).2 ti) else (fsub (v a).1 tr, fsub (v a).2 ti)

/-- FFT64 of 41_spectral.md R232, entry by entry: the permutation, the six stages, the division by 64.0 of the inverse. -/
def transform (dir : Dir) (x : Nat → F32 × F32) (i : Nat) : F32 × F32 :=
  let w := [2, 4, 8, 16, 32, 64].foldl (fun v len => fftStage dir len v) (fun i => x (bitrev6 i))
  if dir = .inv then (fdiv (w i).1 0x42800000#32, fdiv (w i).2 0x42800000#32) else w i

/-- A finite f32 as near to a real number, in units of 2^-149, as every other (00_scope.md R9). -/
def Nearest (v : ℝ) (a : F32) : Prop :=
  isFinite a = true ∧ ∀ c : F32, isFinite c = true → |v - exactVal a| ≤ |v - exactVal c|

/-- MODE as a number (10_state.md R54). -/
def modeField : RcMode → BitVec 2
  | .idle => 0
  | .enc => 1
  | .dec => 2
  | .fin => 3

/-- Execute commands one after the other. -/
def execAll : List Instr → State → State → Prop
  | [], s, t => s = t
  | i :: is, s, t => ∃ u, exec i s = .next u ∧ execAll is u t

/-- RC_DEC after RC_DEC, the symbols in RC_SYM collected (43_range_coder.md R318). -/
def decodesTo : List Byte → State → State → Prop
  | [], s, t => s = t
  | b :: bs, s, t => ∃ u, exec .rcDec s = .next u ∧ u.rc.sym = b ∧ decodesTo bs u t

end Sys2Proof.Claims

open Sys2Proof Sys2Proof.Machine Sys2Proof.Claims

/-! ### Encoding and the step -/

/-- R130 to R132: every well-formed command decodes from its own word, RC_ENC with each of its 256 symbols. -/
def Obligations.EveryCommandDecodesFromItsWord : Prop :=
  ∀ i : Instr, i.wellFormed = true → decode (encode i) = .ok i

/-- R134: the legal words are exactly the words that decode; an illegal word is rejected at issue with ILLEGAL. -/
def Obligations.LegalWordsAreTheCommandWords : Prop :=
  ∀ w : Word,
    ((∃ i, decode w = .ok i) ↔ legalWord w = true)
    ∧ (legalWord w = true ↔
        (w &&& 0xFFFF00FF#32 ∈ [0x00#32, 0x10#32, 0x20#32, 0x21#32, 0x22#32, 0x23#32, 0x24#32, 0x30#32, 0x32#32, 0x38#32,
            0x39#32, 0x40#32, 0x41#32] ∧ w.extractLsb' 8 8 = 0#8)
          ∨ w &&& 0xFFFF00FF#32 = 0x31#32)
    ∧ legalWord w = (rsvdZero w && opcDefined w && argAllowed w)
    ∧ ∀ s : State, s.status.busy = false → legalWord w = false → hostWrite 4 0x008#21 w s = flagged .illegal s

/-- R135, R132: a word that decodes is the word of what it decodes to, and RC_ENC's symbol is bits 15:8. -/
def Obligations.DecodedWordsEncodeBack : Prop :=
  ∀ (w : Word) (i : Instr), decode w = .ok i →
    encode i = w ∧ (∀ sym, i = .rcEnc sym → sym = w.extractLsb' 8 8)
      ∧ ((∀ sym, i ≠ .rcEnc sym) → w.extractLsb' 8 8 = 0#8)

/-- R131: words written out from the opcode map, one a family, decode to their commands; reserved ones do not. -/
def Obligations.WrittenWordsDecode : Prop :=
  decode 0x00000000#32 = .ok .nop ∧ decode 0x00000010#32 = .ok .grad ∧ decode 0x00000023#32 = .ok .pltmInv
    ∧ decode 0x00004731#32 = .ok (.rcEnc 0x47#8) ∧ decode 0x00000039#32 = .ok .rcDec
    ∧ decode 0x00000041#32 = .ok .dequant ∧ decode 0x00000001#32 = .error .reservedOpc
    ∧ decode 0x00000110#32 = .error .argNonzero ∧ decode 0x00010031#32 = .error .rsvdNonzero

/-- R405, R111: a step runs the decoded command when PCMD holds its word and its latency has passed; otherwise it is one
event at the inputs, or nothing where none is queued (log entries 1, 2 say what of this is the model's). -/
def Obligations.StepCompletesTheCommandOrTakesOneEvent : Prop :=
  (∀ (s : State) (w : Word) (i : Instr), decode w = .ok i → s.pcmd = some w → s.delay = 0 → step s = exec i s)
  ∧ (∀ (s : State) (w : Word) (i : Instr), decode w = .ok i →
      (s.withFetchWord 32 w.toNat).pcmd = some w
        ∧ step (s.withFetchWord 32 w.toNat) = exec i (s.withFetchWord 32 w.toNat))
  ∧ (∀ s : State, s.pcmd = none ∨ s.delay ≠ 0 →
      step s = .next
        (match s.host with
        | [] => { s with delay := s.delay - 1 }
        | e :: es => perform e { s with delay := s.delay - 1, host := es }))

/-! ### The slave port -/

/-- R403, R404: a write of CMD is checked for BUSY, then for ILLEGAL, else accepted. Nothing is said of the model's own two
fields, which acceptance draws a latency with (log entry 2). -/
def Obligations.CommandIssueOrder : Prop :=
  ∀ (s : State) (w : Word),
    (s.status.busy = true → hostWrite 4 0x008#21 w s = flagged .busy s)
    ∧ (s.status.busy = false → legalWord w = false → hostWrite 4 0x008#21 w s = flagged .illegal s)
    ∧ (s.status.busy = false → legalWord w = true →
        ∃ t : State, hostWrite 4 0x008#21 w s = t
          ∧ t = { s with
            pcmd := some w
            lastCmd := w
            status := { s.status with busy := true }
            delay := t.delay
            accepted := t.accepted })

/-- R103: an access that is not legal changes nothing but the error it signals, and a read of it returns 0. -/
def Obligations.IllegalAccessOnlySignals : Prop :=
  ∀ (s : State) (size : Nat) (o : BitVec 21) (v : Word), ¬legalAccess s.caps size o →
    hostRead size o s = { flagged .access s with readData := 0#32 } ∧ hostWrite size o v s = flagged .access s

/-- R104: while BUSY, six registers may be read and three written; any other legal access is refused as an illegal one is.
While not BUSY every legal read is admitted, and no admitted read changes anything but the data returned (R110). -/
def Obligations.BusyBlockAdmitsSixRegisters : Prop :=
  ∀ (s : State) (o : BitVec 21) (v : Word), legalAccess s.caps 4 o →
    (s.status.busy = true → o.toNat ∉ [0x000, 0x004, 0x008, 0x00C, 0x010, 0x014] →
      hostRead 4 o s = { flagged .access s with readData := 0#32 })
    ∧ (s.status.busy = true → o.toNat ∉ [0x008, 0x00C, 0x010] → hostWrite 4 o v s = flagged .access s)
    ∧ (s.status.busy = false ∨ o.toNat ∈ [0x000, 0x004, 0x008, 0x00C, 0x010, 0x014] →
      ∃ d : Word, hostRead 4 o s = { s with readData := d })
    ∧ hostWrite 4 0x010#21 v s = { s with doneIe := v.getLsbD 0, errIe := v.getLsbD 1 }
    ∧ (s.status.busy = true → hostWrite 4 0x008#21 v s = flagged .busy s)

/-- R105: a write to a read-only register or to the COUNTS window, in a block that is not busy, changes nothing and
signals nothing. -/
def Obligations.ReadOnlyWritesAreIgnored : Prop :=
  ∀ (s : State) (o : BitVec 21) (v : Word), s.status.busy = false →
    o.toNat ∈ readOnlyOffsets ∨ (0x800 ≤ o.toNat ∧ o.toNat < 0xC00 ∧ o.toNat % 4 = 0) → hostWrite 4 o v s = s

/-- R45, R47, R49, R51, R52, R53, R62: a host write of a writable register stores its fields, changes nothing else, and
reads back with the reserved bits 0. -/
def Obligations.RegisterWritesStoreTheirFields : Prop :=
  ∀ (s : State) (v : Word), s.status.busy = false →
    hostWrite 4 0x020#21 v s = { s with sParam := v } ∧ hostWrite 4 0x028#21 v s = { s with tParam := v }
    ∧ hostWrite 4 0x050#21 v s = { s with kcount := v.extractLsb' 0 7 }
    ∧ hostWrite 4 0x054#21 v s = { s with keepLo := v } ∧ hostWrite 4 0x058#21 v s = { s with keepHi := v }
    ∧ hostWrite 4 0x05C#21 v s = { s with maxval := v } ∧ hostWrite 4 0x0A4#21 v s = { s with inlen := v }
    ∧ (hostRead 4 0x050#21 (hostWrite 4 0x050#21 v s)).readData = v &&& 0x7F#32
    ∧ (hostRead 4 0x010#21 (hostWrite 4 0x010#21 v s)).readData = v &&& 0x3#32
    ∧ ∀ o ∈ [0x020#21, 0x028#21, 0x054#21, 0x058#21, 0x05C#21, 0x0A4#21],
        (hostRead 4 o (hostWrite 4 o v s)).readData = v

/-- R107, R110: a word written to a RAM window is four bytes there, the low one first, reads back whole, and leaves every
other byte and all other state as it was. -/
def Obligations.RamWordsReadBack : Prop :=
  ∀ (s : State) (o : BitVec 21) (v : Word), s.status.busy = false → s.CapsLegal → o.toNat % 4 = 0 →
    inRam s.caps o.toNat →
    ∃ t : State, hostWrite 4 o v s = t ∧ t = { s with mem := t.mem }
      ∧ (∀ i, i < 4 → t.byteAt (o.toNat + i) = v.extractLsb' (8 * i) 8)
      ∧ (∀ a, a < o.toNat ∨ o.toNat + 4 ≤ a → t.byteAt a = s.byteAt a)
      ∧ (hostRead 4 o t).readData = v

/-- R407: a write of STATUS clears the bits written as 1, ERR together with ECODE, and ignores the other bits. -/
def Obligations.StatusWritesClearByOnes : Prop :=
  ∀ (s : State) (v : Word), ∃ t : State, hostWrite 4 0x00C#21 v s = t ∧ t = { s with status := t.status }
    ∧ t.status.busy = s.status.busy
    ∧ t.status.done = (s.status.done && !v.getLsbD 1)
    ∧ t.status.err = (s.status.err && !v.getLsbD 2)
    ∧ (v.getLsbD 2 = true → t.status.ecode = .none) ∧ (v.getLsbD 2 = false → t.status.ecode = s.status.ecode)
    ∧ t.status.nf = (s.status.nf && !v.getLsbD 3)
    ∧ t.status.inexh = (s.status.inexh && !v.getLsbD 4)

/-- R402: `signal` records a code only while ERR is 0, so the first error is the one kept; `fail` is `signal` and then
completion. -/
def Obligations.FirstErrorIsKept : Prop :=
  ∀ (s : State) (c d : ErrCode),
    (s.status.err = true → signal c s = s)
    ∧ (s.status.err = false → signal c s = { s with status := { s.status with err := true, ecode := c } })
    ∧ signal d (signal c s) = signal c s
    ∧ (CmdResult.failed c s).finish = .next (endedWith c s)

/-- R41 to R65, R70, R107: what the host reads, from the fields of the state: STATUS and the five other registers at any
time, the rest while not BUSY; reserved bits are 0. R107 gives the byte order of the byte-packed RAMs (IDX, QVAL, STREAM)
only; that a PATCH or COEF word has its low byte first too is the model's reading (log entry 6). -/
def Obligations.HostReadsShowTheState : Prop :=
  ∀ s : State,
    (∃ w : Word, (hostRead 4 0x00C#21 s).readData = w
      ∧ w.getLsbD 0 = s.status.busy ∧ w.getLsbD 1 = s.status.done ∧ w.getLsbD 2 = s.status.err
      ∧ w.getLsbD 3 = s.status.nf ∧ w.getLsbD 4 = s.status.inexh ∧ w.extractLsb' 8 8 = s.status.ecode.value
      ∧ w.extractLsb' 5 3 = 0#3 ∧ w.extractLsb' 16 16 = 0#16)
    ∧ (hostRead 4 0x000#21 s).readData = 0x31504147#32 ∧ (hostRead 4 0x004#21 s).readData = 0x00010000#32
    ∧ (hostRead 4 0x008#21 s).readData = s.lastCmd ∧ (hostRead 4 0x014#21 s).readData = s.caps
    ∧ (∃ w : Word, (hostRead 4 0x010#21 s).readData = w
      ∧ w.getLsbD 0 = s.doneIe ∧ w.getLsbD 1 = s.errIe ∧ w.extractLsb' 2 30 = 0#30)
    ∧ (s.status.busy = false →
      (hostRead 4 0x020#21 s).readData = s.sParam ∧ (hostRead 4 0x028#21 s).readData = s.tParam
      ∧ (hostRead 4 0x030#21 s).readData = s.gr.dx ∧ (hostRead 4 0x034#21 s).readData = s.gr.dy
      ∧ (hostRead 4 0x038#21 s).readData = s.gr.mag ∧ (hostRead 4 0x03C#21 s).readData = s.gr.angle
      ∧ (hostRead 4 0x040#21 s).readData = 0#24 ++ s.gr.aidx ∧ (hostRead 4 0x044#21 s).readData = s.gr.theta
      ∧ (hostRead 4 0x050#21 s).readData = 0#25 ++ s.kcount
      ∧ (hostRead 4 0x054#21 s).readData = s.keepLo ∧ (hostRead 4 0x058#21 s).readData = s.keepHi
      ∧ (hostRead 4 0x05C#21 s).readData = s.maxval
      ∧ (∃ w : Word, (hostRead 4 0x080#21 s).readData = w ∧ w.extractLsb' 0 2 = modeField s.rc.mode
        ∧ w.getLsbD 2 = s.rc.started ∧ w.extractLsb' 3 29 = 0#29)
      ∧ (hostRead 4 0x084#21 s).readData = s.rc.range
      ∧ (hostRead 4 0x088#21 s).readData = s.rc.low.extractLsb' 0 32
      ∧ (hostRead 4 0x08C#21 s).readData = 0#31 ++ s.rc.low.extractLsb' 32 1
      ∧ (hostRead 4 0x090#21 s).readData = s.rc.code ∧ (hostRead 4 0x094#21 s).readData = 0#24 ++ s.rc.cache
      ∧ (hostRead 4 0x098#21 s).readData = s.rc.ffrun ∧ (hostRead 4 0x09C#21 s).readData = s.rc.total
      ∧ (hostRead 4 0x0A0#21 s).readData = s.rc.pos ∧ (hostRead 4 0x0A4#21 s).readData = s.inlen
      ∧ (hostRead 4 0x0A8#21 s).readData = 0#24 ++ s.rc.sym ∧ (hostRead 4 0x0AC#21 s).readData = s.rc.nsym
      ∧ (hostRead 4 0x0B0#21 s).readData = s.rc.len
      ∧ (∀ i, i < 256 → (hostRead 4 (BitVec.ofNat 21 (0x800 + 4 * i)) s).readData = s.rc.counts.getD i 0#32)
      ∧ (s.CapsLegal → ∀ o : BitVec 21, o.toNat % 4 = 0 → inRam s.caps o.toNat →
        (hostRead 4 o s).readData
          = s.byteAt (o.toNat + 3) ++ s.byteAt (o.toNat + 2) ++ s.byteAt (o.toNat + 1) ++ s.byteAt o.toNat))

/-- R76: the interrupt output, from the bits the host reads in STATUS and IRQ_EN; low after reset. -/
def Obligations.InterruptIsALevel : Prop :=
  (∀ s : State,
    s.irq =
      (((readReg .status s).getLsbD 1 && (readReg .irqEn s).getLsbD 0)
        || ((readReg .status s).getLsbD 2 && (readReg .irqEn s).getLsbD 1)))
  ∧ State.reset.irq = false

/-- R48: PSTAT is computed from S_PARAM and T_PARAM at every instant, reserved bits 0. -/
def Obligations.PstatShowsValidityAtOnce : Prop :=
  (∀ (s : State) (a b : F32), s.status.busy = false →
    ∃ w : Word, (hostRead 4 0x024#21 { s with sParam := a, tParam := b }).readData = w
      ∧ (w.extractLsb' 0 6).toNat = sidx a ∧ w.extractLsb' 6 24 = 0#24
      ∧ w.getLsbD 30 = tvalid b ∧ w.getLsbD 31 = svalid a)
  ∧ State.reset.pstat = 0xC0000000#32

/-- R451 and the table of 10_state.md section 2: what every register reads after reset, and every word of COUNTS. -/
def Obligations.ResetRegisterTable : Prop :=
  (resetTable.map fun p => (hostRead 4 p.1 State.reset).readData) = resetTable.map Prod.snd
    ∧ (∀ i < 256, (hostRead 4 (BitVec.ofNat 21 (0x800 + 4 * i)) State.reset).readData = 1#32)
    ∧ State.reset.irq = false ∧ State.reset.pcmd = none ∧ State.reset.rc.mode = .idle

/-- R450, R452: a reset event abandons a pending command without any of its effects, gives every register its reset value,
CAPS excepted, and leaves the RAMs unspecified. That the memory is then empty and reads as a new draw is how the model
leaves them so (log entry 3); that the queue goes on is the model's choice (log entry 17). -/
def Obligations.ResetAbandonsThePendingCommand : Prop :=
  ∀ (s : State) (es : List HostEvent), s.host = .reset :: es → s.pcmd = none ∨ s.delay ≠ 0 →
    ∃ t : State, step s = .next t ∧ t.pcmd = none ∧ t.irq = false ∧ t.rc = Coder.reset ∧ t.mem = []
      ∧ t.caps = s.caps ∧ t.angles = s.angles ∧ t.host = es
      ∧ (∀ p ∈ resetTable, p.1 ≠ 0x014#21 → (hostRead 4 p.1 t).readData = p.2)
      ∧ ∀ a, t.byteAt a = Config.resetRam (s.resets + 1) a

/-- R237, R241: S_PARAM is valid exactly for values from 0 below 6.4, T_PARAM exactly for values from 0 on, infinity among
them. R236: the table row is the floor of the f32 product by 10.0, clamped to 0..63. -/
def Obligations.ParameterValidityBounds : Prop :=
  ∀ v : F32,
    (svalid v = true ↔ isFinite v = true ∧ 0 ≤ exactVal v ∧ 10 * exactVal v < 64 * 2 ^ 149)
    ∧ (tvalid v = true ↔ (isFinite v = true ∧ 0 ≤ exactVal v) ∨ (isInf v = true ∧ signBit v = false))
    ∧ (isNaN v = true → sidx v = 0)
    ∧ (isNaN v = false → ∀ p : F32, p = fmul v 0x41200000#32 →
        (p = 0x7F800000#32 → sidx v = 63) ∧ (p = 0xFF800000#32 → sidx v = 0)
        ∧ (isFinite p = true → (sidx v : Int) = max 0 (min 63 (exactVal p / 2 ^ 149))))

/-! ### The commands: what each does, and what it leaves -/

/-- R390: NOP does nothing and completes. -/
def Obligations.NopOnlyCompletes : Prop :=
  decode 0x00000000#32 = .ok .nop ∧ ∀ s : State, exec .nop s = .next (ended s)

/-- R206 with R200 to R205: GRAD completes, writes the six gradient registers and nothing else. -/
def Obligations.GradWritesTheGradient : Prop :=
  decode 0x00000010#32 = .ok .grad ∧
  ∀ s : State, ∃ t : State, exec .grad s = .next t ∧ t = { ended s with gr := t.gr }
    ∧ t.gr.dx = fdiv (loopSum 8 7 fun x y => fsub (sample s (x + 1) y) (sample s x y)) 0x42600000#32
    ∧ t.gr.dy = fdiv (loopSum 7 8 fun x y => fsub (sample s x (y + 1)) (sample s x y)) 0x42600000#32
    ∧ t.gr.mag = fsqrt (fadd (fmul t.gr.dx t.gr.dx) (fmul t.gr.dy t.gr.dy))
    ∧ t.gr.angle = atan2At s.angles t.gr.dy t.gr.dx
    ∧ t.gr.theta = normAngle t.gr.angle
    ∧ (isNaN t.gr.theta = true → t.gr.aidx = 0#8)
    ∧ (isNaN t.gr.theta = false →
        t.gr.aidx.toNat = min 255 (ffloor (fdiv (fmul t.gr.theta 0x437F0000#32) 0x40C90FDB#32)).toNat)

/-- R234 with R232: FFT_FWD completes; COEF holds the transform of PATCH; every other byte and register is as it was. -/
def Obligations.FftFwdWritesTheTransform : Prop :=
  decode 0x00000020#32 = .ok .fftFwd ∧
  ∀ s : State, ∃ t : State, exec .fftFwd s = .next t ∧ t = { ended s with mem := t.mem }
    ∧ (∀ k, k < 64 →
        t.wordAt (0x200 + 8 * k) = (transform .fwd (patchInput s) k).1
          ∧ t.wordAt (0x204 + 8 * k) = (transform .fwd (patchInput s) k).2)
    ∧ ∀ a, a < 0x200 ∨ 0x400 ≤ a → t.byteAt a = s.byteAt a

/-- R235 with R232: FFT_INV completes; COEF holds the inverse transform and PATCH its real parts; NF is set where one of
them is NaN or infinite, and never cleared. -/
def Obligations.FftInvWritesTheSamples : Prop :=
  decode 0x00000021#32 = .ok .fftInv ∧
  ∀ s : State, ∃ t : State, exec .fftInv s = .next t
    ∧ t = { ended s with mem := t.mem, status := { (ended s).status with nf := t.status.nf } }
    ∧ (t.status.nf = true ↔
        s.status.nf = true ∨ ∃ i, i < 64 ∧ isFinite (transform .inv (coefInput s) i).1 = false)
    ∧ (∀ k, k < 64 →
        t.wordAt (0x200 + 8 * k) = (transform .inv (coefInput s) k).1
          ∧ t.wordAt (0x204 + 8 * k) = (transform .inv (coefInput s) k).2
          ∧ t.wordAt (0x100 + 4 * k) = (transform .inv (coefInput s) k).1)
    ∧ ∀ a, a < 0x100 ∨ 0x400 ≤ a → t.byteAt a = s.byteAt a

/-- R238: PLTM_FWD weighs bins 1..63 and leaves bin 0 and every other byte; with an S_PARAM that is not valid it fails with
PARAM and writes nothing. -/
def Obligations.PltmFwdWeighsTheBins : Prop :=
  decode 0x00000022#32 = .ok .pltmFwd ∧
  ∀ s : State,
    (svalid s.sParam = true →
      ∃ t : State, exec .pltmFwd s = .next t ∧ t = { ended s with mem := t.mem }
        ∧ (∀ k, 1 ≤ k → k < 64 →
            t.wordAt (0x200 + 8 * k) = fmul (s.wordAt (0x200 + 8 * k)) (plwFwd (sidx s.sParam) k)
              ∧ t.wordAt (0x204 + 8 * k) = fmul (s.wordAt (0x204 + 8 * k)) (plwFwd (sidx s.sParam) k))
        ∧ ∀ a, a < 0x208 ∨ 0x400 ≤ a → t.byteAt a = s.byteAt a)
    ∧ (svalid s.sParam = false → exec .pltmFwd s = .next (endedWith .param s))

/-- R240 with R239: PLTM_INV gates, weighs and caps bins 1..63 and leaves bin 0 and every other byte; with an S_PARAM that
is not valid it fails with PARAM and writes nothing. That a finite bin whose squares overflow takes the factor 4.0 / +inf
is the model's choice (log entry 21). -/
def Obligations.PltmInvGatesWeighsAndCaps : Prop :=
  decode 0x00000023#32 = .ok .pltmInv ∧
  ∀ s : State,
    (svalid s.sParam = true →
      ∃ t : State, exec .pltmInv s = .next t ∧ t = { ended s with mem := t.mem }
        ∧ (∀ k, 1 ≤ k → k < 64 → ∀ re im nf w re' im' m : F32,
            re = s.wordAt (0x200 + 8 * k) → im = s.wordAt (0x204 + 8 * k) →
            nf = fmul 0x38D1B717#32 (fsqrt (i2f k)) →
            w = plwInv (sidx s.sParam) k → re' = fmul re w → im' = fmul im w →
            m = fsqrt (fadd (fmul re' re') (fmul im' im')) →
            (fle (fadd (fmul re re) (fmul im im)) (fmul nf nf) = true →
              t.wordAt (0x200 + 8 * k) = 0#32 ∧ t.wordAt (0x204 + 8 * k) = 0#32)
            ∧ (fle (fadd (fmul re re) (fmul im im)) (fmul nf nf) = false → fgt m 0x40800000#32 = true →
              t.wordAt (0x200 + 8 * k) = fmul re' (fdiv 0x40800000#32 m)
                ∧ t.wordAt (0x204 + 8 * k) = fmul im' (fdiv 0x40800000#32 m))
            ∧ (fle (fadd (fmul re re) (fmul im im)) (fmul nf nf) = false → fgt m 0x40800000#32 = false →
              t.wordAt (0x200 + 8 * k) = re' ∧ t.wordAt (0x204 + 8 * k) = im'))
        ∧ ∀ a, a < 0x208 ∨ 0x400 ≤ a → t.byteAt a = s.byteAt a)
    ∧ (svalid s.sParam = false → exec .pltmInv s = .next (endedWith .param s))

/-- R242: THRESH zeroes exactly the bins below the threshold, keeps every byte of the others, and writes the mask and the
keep-count; with a T_PARAM that is not valid it fails with PARAM and writes nothing. That T_PARAM = +inf keeps a finite bin
whose squares overflow is the model's choice (log entry 20). -/
def Obligations.ThreshZeroesTheSmallBins : Prop :=
  decode 0x00000024#32 = .ok .thresh ∧
  ∀ s : State,
    (tvalid s.tParam = true →
      ∃ t : State, exec .thresh s = .next t
        ∧ t = { ended s with mem := t.mem, keepLo := t.keepLo, keepHi := t.keepHi, kcount := t.kcount }
        ∧ (∀ k, k < 64 →
            ((t.keepHi ++ t.keepLo).getLsbD k = false ↔
              flt (fadd (fmul (s.wordAt (0x200 + 8 * k)) (s.wordAt (0x200 + 8 * k)))
                    (fmul (s.wordAt (0x204 + 8 * k)) (s.wordAt (0x204 + 8 * k))))
                (fmul s.tParam s.tParam) = true)
            ∧ ((t.keepHi ++ t.keepLo).getLsbD k = false →
                t.wordAt (0x200 + 8 * k) = 0#32 ∧ t.wordAt (0x204 + 8 * k) = 0#32)
            ∧ ((t.keepHi ++ t.keepLo).getLsbD k = true →
                ∀ i, i < 8 → t.byteAt (0x200 + 8 * k + i) = s.byteAt (0x200 + 8 * k + i)))
        ∧ t.kcount.toNat = ((List.range 64).filter fun k => (t.keepHi ++ t.keepLo).getLsbD k).length
        ∧ ∀ a, a < 0x200 ∨ 0x400 ≤ a → t.byteAt a = s.byteAt a)
    ∧ (tvalid s.tParam = false → exec .thresh s = .next (endedWith .param s))

/-- R309 with R301, R306: RC_INIT_ENC starts a stream in every mode; RC_INLEN, STREAM and STATUS.INEXH stay. -/
def Obligations.RcInitEncStartsAStream : Prop :=
  decode 0x00000030#32 = .ok .rcInitEnc ∧
  ∀ s : State, exec .rcInitEnc s = .next
    { ended s with
      rc :=
        { mode := .enc, started := false, range := 0xFFFFFFFF#32, low := 0#33, code := 0#32, cache := 0#8,
          ffrun := 0#32, total := 256#32, pos := 0#32, sym := 0#8, nsym := 0#32, len := 0#32,
          counts := List.replicate 256 1#32 } }

/-- R310 with R307, R308: RC_ENC in mode ENC, with room in STREAM for every byte it may release, completes. The number that
the encoder stands at moves up by the symbol's place in the range and is shifted by the `n` bytes of the renormalisation;
the range is the symbol's share, renormalised; the model is updated. Turn by turn: with room for the bytes of all `n`
turns they are in STREAM and the registers are those after them; where turn `j + 1` finds STREAM full the command fails
with OVF, the bytes that had room stay, MODE is IDLE, RC_POS and RC_LEN are 0, and every other coder register and the
model are as that turn found them. In another mode it fails with MODE and writes nothing. -/
def Obligations.RcEncTakesTheSymbolsInterval : Prop :=
  ∀ (s : State) (sym : Byte),
    decode (0#16 ++ sym ++ 0x31#8) = .ok (.rcEnc sym)
    ∧ (s.rc.mode = .enc → s.rc.Ok → s.rc.pos.toNat + s.rc.ffrun.toNat + 3 ≤ s.caps.toNat →
      ∃ (t : State) (n rdiv share : Nat), exec (.rcEnc sym) s = .next t
        ∧ rdiv = s.rc.range.toNat / s.rc.total.toNat
        ∧ share = (s.rc.counts.getD sym.toNat 0#32).toNat * rdiv
        ∧ t = { ended s with rc := t.rc, mem := t.mem }
        ∧ t.rc.range.toNat = share * 256 ^ n ∧ 2 ^ 24 ≤ share * 256 ^ n ∧ n ≤ 3
        ∧ (n ≠ 0 → share * 256 ^ (n - 1) < 2 ^ 24)
        ∧ codeNumber t = (codeNumber s + cum s.rc.counts sym.toNat * rdiv) * 256 ^ n
        ∧ heldBytes t.rc = heldBytes s.rc + n
        ∧ t.rc.counts = (s.rc.update sym.toNat).counts ∧ t.rc.total = (s.rc.update sym.toNat).total
        ∧ t.rc.nsym = s.rc.nsym + 1#32 ∧ t.rc.mode = .enc ∧ t.rc.code = s.rc.code ∧ t.rc.sym = s.rc.sym
        ∧ t.rc.len = s.rc.len ∧ s.rc.pos.toNat ≤ t.rc.pos.toNat
        ∧ ∀ a, a < 0x100000 + s.rc.pos.toNat ∨ 0x100000 + t.rc.pos.toNat ≤ a → t.byteAt a = s.byteAt a)
    ∧ (s.rc.mode = .enc → s.rc.Ok → ∀ (rdiv share n : Nat) (c : Coder),
        rdiv = s.rc.range.toNat / s.rc.total.toNat → share = (s.rc.counts.getD sym.toNat 0#32).toNat * rdiv →
        c = { s.rc with
          low := BitVec.ofNat 33 (s.rc.low.toNat + cum s.rc.counts sym.toNat * rdiv), range := BitVec.ofNat 32 share } →
        2 ^ 24 ≤ share * 256 ^ n → (n ≠ 0 → share * 256 ^ (n - 1) < 2 ^ 24) →
        (s.rc.pos.toNat + (outBytes renormTurn n c).length ≤ s.caps.toNat →
          ∃ t : State, exec (.rcEnc sym) s = .next t
            ∧ t = { ended s with
              mem := t.mem
              rc := { turns renormTurn n c with
                pos := BitVec.ofNat 32 (s.rc.pos.toNat + (outBytes renormTurn n c).length)
                counts := (s.rc.update sym.toNat).counts
                total := (s.rc.update sym.toNat).total
                nsym := s.rc.nsym + 1#32 } }
            ∧ Emits s t (outBytes renormTurn n c))
        ∧ ∀ j, j < n → s.rc.pos.toNat + (outBytes renormTurn j c).length ≤ s.caps.toNat →
          s.caps.toNat < s.rc.pos.toNat + (outBytes renormTurn (j + 1) c).length →
          ∃ t : State, exec (.rcEnc sym) s = .next t
            ∧ t = { endedWith .ovf s with mem := t.mem, rc := overrun (turns renormTurn j c) }
            ∧ Emits s t (outBytes renormTurn (j + 1) c))
    ∧ (s.rc.mode ≠ .enc → exec (.rcEnc sym) s = .next (endedWith .mode s))

/-- R311 with R307, R308: RC_FINISH with room for what is left writes the encoder's whole number to STREAM and gives its
length; without room it fails with OVF and leaves length and position 0. Push by push: with room for the bytes of all
five they are in STREAM and the registers are those after them; where push `j + 1` finds STREAM full, the bytes that had
room stay, and every coder register but MODE, RC_POS and RC_LEN is as that push found it. In another mode it fails with
MODE and writes nothing. -/
def Obligations.RcFinishWritesTheNumber : Prop :=
  decode 0x00000032#32 = .ok .rcFinish ∧
  ∀ s : State,
    (s.rc.mode = .enc → s.rc.Ok → heldBytes s.rc + 4 ≤ s.caps.toNat →
      ∃ t : State, exec .rcFinish s = .next t ∧ t = { ended s with rc := t.rc, mem := t.mem }
        ∧ t.rc = { s.rc with
            mode := .fin, started := true, low := 0#33, cache := 0#8, ffrun := 0#32, pos := t.rc.pos, len := t.rc.pos }
        ∧ t.rc.pos.toNat = heldBytes s.rc + 4
        ∧ streamNumber t t.rc.pos.toNat = codeNumber s
        ∧ ∀ a, a < 0x100000 + s.rc.pos.toNat ∨ 0x100000 + t.rc.pos.toNat ≤ a → t.byteAt a = s.byteAt a)
    ∧ (s.rc.mode = .enc → s.rc.Ok → s.rc.ffrun.toNat + 4 < 2 ^ 32 → s.caps.toNat < heldBytes s.rc + 4 →
      ∃ t : State, exec .rcFinish s = .next t ∧ t = { endedWith .ovf s with rc := t.rc, mem := t.mem }
        ∧ t.rc.mode = .idle ∧ t.rc.pos = 0#32 ∧ t.rc.len = 0#32 ∧ t.rc.counts = s.rc.counts
        ∧ t.rc.total = s.rc.total ∧ t.rc.range = s.rc.range ∧ t.rc.nsym = s.rc.nsym
        ∧ ∀ a, a < 0x100000 + s.rc.pos.toNat ∨ 0x100000 + s.caps.toNat ≤ a → t.byteAt a = s.byteAt a)
    ∧ (s.rc.mode = .enc → s.rc.pos.toNat + (outBytes pushed 5 s.rc).length ≤ s.caps.toNat →
        ∃ t : State, exec .rcFinish s = .next t
          ∧ t = { ended s with
            mem := t.mem
            rc := { turns pushed 5 s.rc with
              mode := .fin
              pos := BitVec.ofNat 32 (s.rc.pos.toNat + (outBytes pushed 5 s.rc).length)
              len := BitVec.ofNat 32 (s.rc.pos.toNat + (outBytes pushed 5 s.rc).length) } }
          ∧ Emits s t (outBytes pushed 5 s.rc))
    ∧ (s.rc.mode = .enc → ∀ j, j < 5 → s.rc.pos.toNat + (outBytes pushed j s.rc).length ≤ s.caps.toNat →
        s.caps.toNat < s.rc.pos.toNat + (outBytes pushed (j + 1) s.rc).length →
        ∃ t : State, exec .rcFinish s = .next t
          ∧ t = { endedWith .ovf s with mem := t.mem, rc := overrun (turns pushed j s.rc) }
          ∧ Emits s t (outBytes pushed (j + 1) s.rc))
    ∧ (s.rc.mode ≠ .enc → exec .rcFinish s = .next (endedWith .mode s))

/-- R313 with R312: RC_INIT_DEC takes the first four bytes, the first most significant, 0 for each byte past RC_INLEN, and
sets INEXH where there is one; RC_LEN stays; with RC_INLEN above RC_BUF_BYTES it fails with PARAM and writes nothing. -/
def Obligations.RcInitDecTakesFourBytes : Prop :=
  decode 0x00000038#32 = .ok .rcInitDec ∧
  ∀ s : State,
    (s.inlen.toNat ≤ s.caps.toNat → ∀ b0 b1 b2 b3 : Byte,
      b0 = (if 0 < s.inlen.toNat then s.byteAt 0x100000 else 0#8) →
      b1 = (if 1 < s.inlen.toNat then s.byteAt 0x100001 else 0#8) →
      b2 = (if 2 < s.inlen.toNat then s.byteAt 0x100002 else 0#8) →
      b3 = (if 3 < s.inlen.toNat then s.byteAt 0x100003 else 0#8) →
      exec .rcInitDec s = .next
        { ended s with
          rc :=
            { mode := .dec, started := false, range := 0xFFFFFFFF#32, low := 0#33, code := b0 ++ b1 ++ b2 ++ b3,
              cache := 0#8, ffrun := 0#32, total := 256#32, pos := 4#32, sym := 0#8, nsym := 0#32, len := s.rc.len,
              counts := List.replicate 256 1#32 }
          status := { (ended s).status with inexh := s.status.inexh || decide (s.inlen.toNat < 4) } })
    ∧ (s.caps.toNat < s.inlen.toNat → exec .rcInitDec s = .next (endedWith .param s))

/-- R314: RC_DEC in mode DEC completes. It gives the largest symbol whose cumulative count is at most the code over the
range's share, takes its interval, renormalises with the next `n` bytes of the input, and updates the model; no RAM
changes; in another mode it fails with MODE and writes nothing. -/
def Obligations.RcDecFindsTheSymbol : Prop :=
  ∀ s : State,
    (s.rc.mode = .dec → s.rc.Ok →
      ∃ (t : State) (n rdiv share : Nat), exec .rcDec s = .next t
        ∧ rdiv = s.rc.range.toNat / s.rc.total.toNat
        ∧ cum s.rc.counts t.rc.sym.toNat ≤ s.rc.code.toNat / rdiv
        ∧ (∀ x, t.rc.sym.toNat < x → x < 256 → s.rc.code.toNat / rdiv < cum s.rc.counts x)
        ∧ share = (s.rc.counts.getD t.rc.sym.toNat 0#32).toNat * rdiv
        ∧ t = { ended s with rc := t.rc, status := { (ended s).status with inexh := t.status.inexh } }
        ∧ t.rc.range.toNat = share * 256 ^ n ∧ 2 ^ 24 ≤ share * 256 ^ n ∧ n ≤ 3
        ∧ (n ≠ 0 → share * 256 ^ (n - 1) < 2 ^ 24)
        ∧ t.rc.code = codeAfter s (s.rc.code - BitVec.ofNat 32 (cum s.rc.counts t.rc.sym.toNat * rdiv)) n
        ∧ t.rc.pos.toNat = min (s.rc.pos.toNat + n) 0xFFFFFFFF
        ∧ (t.status.inexh = true ↔
            s.status.inexh = true ∨ (n ≠ 0 ∧ min s.inlen.toNat s.caps.toNat < s.rc.pos.toNat + n))
        ∧ t.rc.counts = (s.rc.update t.rc.sym.toNat).counts ∧ t.rc.total = (s.rc.update t.rc.sym.toNat).total
        ∧ t.rc.nsym = s.rc.nsym + 1#32 ∧ t.rc.mode = .dec ∧ t.rc.started = s.rc.started ∧ t.rc.low = s.rc.low
        ∧ t.rc.cache = s.rc.cache ∧ t.rc.ffrun = s.rc.ffrun ∧ t.rc.len = s.rc.len)
    ∧ (s.rc.mode ≠ .dec → exec .rcDec s = .next (endedWith .mode s))

/-- R362 with R361: QUANT completes; IDX holds the kept bins in rising order, QVAL their quantised parts, both 0 from entry
K on; KCOUNT is K and MAXVAL the scale; every other byte and register is as it was. -/
def Obligations.QuantBuildsTheRecord : Prop :=
  decode 0x00000040#32 = .ok .quant ∧
  ∀ s : State, ∃ (t : State) (K : Nat), exec .quant s = .next t
    ∧ t = { ended s with mem := t.mem, kcount := t.kcount, maxval := t.maxval }
    ∧ K = t.kcount.toNat ∧ K = ((List.range 64).filter fun k => (s.keepHi ++ s.keepLo).getLsbD k).length
    ∧ t.maxval = maxVal s
    ∧ (∀ j, j < K → (t.byteAt (0x400 + j)).toNat < 64
        ∧ (s.keepHi ++ s.keepLo).getLsbD (t.byteAt (0x400 + j)).toNat = true
        ∧ t.byteAt (0x480 + 2 * j)
            = f2i8 (fdiv (fmul (s.wordAt (0x200 + 8 * (t.byteAt (0x400 + j)).toNat)) 0x42FE0000#32) t.maxval)
        ∧ t.byteAt (0x481 + 2 * j)
            = f2i8 (fdiv (fmul (s.wordAt (0x204 + 8 * (t.byteAt (0x400 + j)).toNat)) 0x42FE0000#32) t.maxval))
    ∧ (∀ i j, i < j → j < K → (t.byteAt (0x400 + i)).toNat < (t.byteAt (0x400 + j)).toNat)
    ∧ (∀ j, K ≤ j → j < 64 →
        t.byteAt (0x400 + j) = 0#8 ∧ t.byteAt (0x480 + 2 * j) = 0#8 ∧ t.byteAt (0x481 + 2 * j) = 0#8)
    ∧ ∀ a, a < 0x400 ∨ (0x440 ≤ a ∧ a < 0x480) ∨ 0x500 ≤ a → t.byteAt a = s.byteAt a

/-- R365 with R363, R364: DEQUANT of a good record writes all of COEF, the record's bins and +0 elsewhere; a K above 64 fails
with PARAM, a bad index with BADIDX, and neither writes anything. That contents of IDX never written are checked too is the
model's choice (log entry 22). -/
def Obligations.DequantScattersTheRecord : Prop :=
  decode 0x00000041#32 = .ok .dequant ∧
  ∀ s : State,
    (64 < s.kcount.toNat → exec .dequant s = .next (endedWith .param s))
    ∧ (s.kcount.toNat ≤ 64 →
        (∃ j, j < s.kcount.toNat ∧ (64 ≤ (s.byteAt (0x400 + j)).toNat
          ∨ (1 ≤ j ∧ (s.byteAt (0x400 + j)).toNat ≤ (s.byteAt (0x400 + (j - 1))).toNat))) →
        exec .dequant s = .next (endedWith .badidx s))
    ∧ (s.kcount.toNat ≤ 64 → (∀ j, j < s.kcount.toNat → (s.byteAt (0x400 + j)).toNat < 64) →
        (∀ j, j + 1 < s.kcount.toNat → (s.byteAt (0x400 + j)).toNat < (s.byteAt (0x400 + (j + 1))).toNat) →
        ∃ t : State, exec .dequant s = .next t ∧ t = { ended s with mem := t.mem }
          ∧ (∀ j, j < s.kcount.toNat → ∀ k, k = (s.byteAt (0x400 + j)).toNat →
              t.wordAt (0x200 + 8 * k) = fdiv (fmul (i2f (s.byteAt (0x480 + 2 * j)).toInt) s.maxval) 0x42FE0000#32
                ∧ t.wordAt (0x204 + 8 * k)
                    = fdiv (fmul (i2f (s.byteAt (0x481 + 2 * j)).toInt) s.maxval) 0x42FE0000#32)
          ∧ (∀ k, k < 64 → (∀ j, j < s.kcount.toNat → (s.byteAt (0x400 + j)).toNat ≠ k) →
              t.wordAt (0x200 + 8 * k) = 0#32 ∧ t.wordAt (0x204 + 8 * k) = 0#32)
          ∧ ∀ a, a < 0x200 ∨ 0x400 ≤ a → t.byteAt a = s.byteAt a)

/-! ### What holds of every command -/

/-- R405: whatever a command does, when it answers a next state it has completed: BUSY is 0, DONE is 1, PCMD is empty;
an error recorded before it stays recorded (R402). -/
def Obligations.EveryCompletionSetsDone : Prop :=
  ∀ (i : Instr) (s t : State), exec i s = .next t →
    t.status.busy = false ∧ t.status.done = true ∧ t.pcmd = none
      ∧ (s.status.err = true → t.status.err = true ∧ t.status.ecode = s.status.ecode)

/-- R116: no command writes a register that only the host writes, and each result register is written only by the commands
the table names; only FFT_INV may set NF and only the decoder's commands INEXH, and none clears them. -/
def Obligations.CommandsWriteOnlyTheirResults : Prop :=
  ∀ (i : Instr) (s t : State), exec i s = .next t →
    t.sParam = s.sParam ∧ t.tParam = s.tParam ∧ t.inlen = s.inlen ∧ t.doneIe = s.doneIe ∧ t.errIe = s.errIe
      ∧ t.caps = s.caps ∧ t.angles = s.angles ∧ t.lastCmd = s.lastCmd
      ∧ (i ≠ .grad → t.gr = s.gr)
      ∧ (i ≠ .thresh → t.keepLo = s.keepLo ∧ t.keepHi = s.keepHi)
      ∧ (i ≠ .thresh → i ≠ .quant → t.kcount = s.kcount)
      ∧ (i ≠ .quant → t.maxval = s.maxval)
      ∧ (i ≠ .fftInv → t.status.nf = s.status.nf)
      ∧ (i ≠ .rcInitDec → i ≠ .rcDec → t.status.inexh = s.status.inexh)
      ∧ (s.status.nf = true → t.status.nf = true) ∧ (s.status.inexh = true → t.status.inexh = true)

/-! ### Arithmetic -/

/-- R9: the values of the primitives. Of finite operands a sum, a difference, a product and a quotient is the exact one,
rounded once, with its sign; divisions by zero and operations with infinities are as R9 says; R10: every NaN result is the
canonical one. The signs of zero results and the root of a zero are IEEE 754's (log entry 15). -/
def Obligations.ArithmeticRoundsTheExactResult : Prop :=
  ∀ a b : F32,
    (isNaN (fadd a b) = true → fadd a b = 0x7FC00000#32) ∧ (isNaN (fsub a b) = true → fsub a b = 0x7FC00000#32)
    ∧ (isNaN (fmul a b) = true → fmul a b = 0x7FC00000#32) ∧ (isNaN (fdiv a b) = true → fdiv a b = 0x7FC00000#32)
    ∧ (isNaN (fsqrt a) = true → fsqrt a = 0x7FC00000#32)
    ∧ (isNaN a = true ∨ isNaN b = true →
        isNaN (fadd a b) = true ∧ isNaN (fsub a b) = true ∧ isNaN (fmul a b) = true ∧ isNaN (fdiv a b) = true)
    ∧ (isFinite a = true → isFinite b = true →
        (∀ n : Int, n = exactVal a + exactVal b →
          (n ≠ 0 → magBits (fadd a b) = roundMag n.natAbs 1 ∧ signBit (fadd a b) = decide (n < 0))
          ∧ (n = 0 → isZero (fadd a b) = true ∧ signBit (fadd a b) = (signBit a && signBit b)))
        ∧ (∀ n : Int, n = exactVal a - exactVal b →
          (n ≠ 0 → magBits (fsub a b) = roundMag n.natAbs 1 ∧ signBit (fsub a b) = decide (n < 0))
          ∧ (n = 0 → isZero (fsub a b) = true ∧ signBit (fsub a b) = (signBit a && !signBit b)))
        ∧ magBits (fmul a b) = roundMag (scaled a * scaled b) (2 ^ 149)
        ∧ signBit (fmul a b) = (signBit a != signBit b)
        ∧ (isZero b = false →
          magBits (fdiv a b) = roundMag (scaled a * 2 ^ 149) (scaled b) ∧ signBit (fdiv a b) = (signBit a != signBit b))
        ∧ (isZero b = true → isZero a = false →
          isInf (fdiv a b) = true ∧ signBit (fdiv a b) = (signBit a != signBit b))
        ∧ (isZero b = true → isZero a = true → isNaN (fdiv a b) = true))
    ∧ (isInf a = true → isFinite b = true →
        fadd a b = a ∧ fsub a b = a
        ∧ isInf (fdiv a b) = true ∧ signBit (fdiv a b) = (signBit a != signBit b)
        ∧ (isZero b = true → isNaN (fmul a b) = true)
        ∧ (isZero b = false → isInf (fmul a b) = true ∧ signBit (fmul a b) = (signBit a != signBit b)))
    ∧ (isFinite a = true → isInf b = true →
        fadd a b = b ∧ magBits (fsub a b) = magBits b ∧ signBit (fsub a b) = !signBit b
        ∧ isZero (fdiv a b) = true ∧ signBit (fdiv a b) = (signBit a != signBit b)
        ∧ (isZero a = true → isNaN (fmul a b) = true)
        ∧ (isZero a = false → isInf (fmul a b) = true ∧ signBit (fmul a b) = (signBit a != signBit b)))
    ∧ (isInf a = true → isInf b = true →
        (signBit a = signBit b → fadd a b = a ∧ isNaN (fsub a b) = true)
        ∧ (signBit a ≠ signBit b → isNaN (fadd a b) = true ∧ fsub a b = a)
        ∧ isInf (fmul a b) = true ∧ signBit (fmul a b) = (signBit a != signBit b) ∧ isNaN (fdiv a b) = true)
    ∧ (isNaN a = true → isNaN (fsqrt a) = true) ∧ (isZero a = true → fsqrt a = a)
    ∧ (isZero a = false → signBit a = true → isNaN (fsqrt a) = true) ∧ fsqrt 0x7F800000#32 = 0x7F800000#32

/-- R9: the one rounding function gives the nearest f32 magnitude, the even one of two, and infinity's exactly from half a
step past the largest finite one on. -/
def Obligations.RoundingIsToNearestEven : Prop :=
  ∀ num den : Nat, 0 < den →
    roundMag num den ≤ 0x7F800000
    ∧ (roundMag num den = 0x7F800000 ↔ (2 ^ 25 - 1) * 2 ^ 252 * den ≤ num)
    ∧ (roundMag num den < 0x7F800000 → ∀ m, m < 0x7F800000 →
        ((num : Int) - unitsOf (roundMag num den) * den).natAbs ≤ ((num : Int) - unitsOf m * den).natAbs
        ∧ (((num : Int) - unitsOf (roundMag num den) * den).natAbs = ((num : Int) - unitsOf m * den).natAbs →
            m ≠ roundMag num den → roundMag num den % 2 = 0))

/-- R9: the square root of a positive finite f32 is the f32 nearest to the real root: the root of `A` units lies on its side
of the midpoint with every other f32. -/
def Obligations.SquareRootIsNearest : Prop :=
  ∀ a : F32, isFinite a = true → isZero a = false → signBit a = false →
    isFinite (fsqrt a) = true ∧ signBit (fsqrt a) = false
    ∧ ∀ c : F32, isFinite c = true →
        (scaled (fsqrt a) < scaled c → 4 * (scaled a * 2 ^ 149) ≤ (scaled (fsqrt a) + scaled c) ^ 2)
        ∧ (scaled c < scaled (fsqrt a) → (scaled (fsqrt a) + scaled c) ^ 2 ≤ 4 * (scaled a * 2 ^ 149))

/-- R11: the comparisons follow the values; they are false with a NaN; an infinity lies past every finite value. -/
def Obligations.ComparisonsFollowTheValues : Prop :=
  ∀ a b : F32,
    (isNaN a = true ∨ isNaN b = true → flt a b = false ∧ fle a b = false ∧ fgt a b = false ∧ fge a b = false)
    ∧ (isFinite a = true → isFinite b = true →
        (flt a b = true ↔ exactVal a < exactVal b) ∧ (fle a b = true ↔ exactVal a ≤ exactVal b)
        ∧ (fgt a b = true ↔ exactVal b < exactVal a) ∧ (fge a b = true ↔ exactVal b ≤ exactVal a))
    ∧ (isFinite a = true → isInf b = true →
        flt a b = !signBit b ∧ fle a b = !signBit b ∧ fgt a b = signBit b ∧ fge a b = signBit b)
    ∧ (isInf a = true → isFinite b = true →
        flt a b = signBit a ∧ fle a b = signBit a ∧ fgt a b = !signBit a ∧ fge a b = !signBit a)
    ∧ (isInf a = true → isInf b = true →
        flt a b = (signBit a && !signBit b) ∧ fle a b = (signBit a || !signBit b)
          ∧ fgt a b = (!signBit a && signBit b) ∧ fge a b = (!signBit a || signBit b))

/-- R13: `f2i8` truncates toward zero and saturates; NaN gives 0. -/
def Obligations.ConversionToInt8Saturates : Prop :=
  ∀ a : F32,
    (isNaN a = true → f2i8 a = 0#8)
    ∧ (isFinite a = true → (f2i8 a).toInt = max (-128) (min 127 ((exactVal a).tdiv (2 ^ 149))))
    ∧ (isInf a = true → (f2i8 a).toInt = if signBit a then -128 else 127)

/-- R13: integers of magnitude up to 2^24 convert exactly. -/
def Obligations.IntegersConvertExactly : Prop :=
  (∀ n : Int, n.natAbs ≤ 2 ^ 24 → isFinite (i2f n) = true ∧ exactVal (i2f n) = n * 2 ^ 149) ∧ i2f 0 = 0#32

/-- R203: (a), (b), (c), the contract of every ATAN2_F32, whatever the parameter holds (R6, log entry 5); an entry that (c)
admits is the function's value; with none, and that is this hardware, the value is the f32 nearest to the real angle of
(x, y), with infinite arguments at their limits. A zero y is the real 0 whatever its sign, and so is its angle over a
positive or infinite x (log entry 9). -/
def Obligations.Atan2IsTheNearestAngle : Prop :=
  (∀ (entries : List AngleEntry) (y x : F32),
    (isZero y = true → isZero x = true → atan2At entries y x = 0#32)
    ∧ (isNaN y = true ∨ isNaN x = true → atan2At entries y x = 0x7FC00000#32)
    ∧ (isNaN y = false → isNaN x = false →
        isFinite (atan2At entries y x) = true ∧ fle 0xC0490FDB#32 (atan2At entries y x) = true
          ∧ fle (atan2At entries y x) 0x40490FDB#32 = true)
    ∧ (isNaN y = false → isNaN x = false → isZero y = false ∨ isZero x = false → ∀ a : F32,
        fle 0xC0490FDB#32 a = true → fle a 0x40490FDB#32 = true → atan2At (⟨y, x, a⟩ :: entries) y x = a))
  ∧ ∀ y x : F32,
    atan2At [] y x = atan2F32 y x
    ∧ (isFinite y = true → isFinite x = true → isZero y = false ∨ isZero x = false →
        Nearest (Complex.arg ⟨exactVal x, exactVal y⟩ * 2 ^ 149) (atan2F32 y x))
    ∧ (isZero y = true → isNaN x = false → isZero x = false → signBit x = false → atan2F32 y x = 0#32)
    ∧ (isZero y = true → isNaN x = false → isZero x = false → signBit x = true → atan2F32 y x = 0x40490FDB#32)
    ∧ (isFinite y = true → atan2F32 y 0x7F800000#32 = 0#32)
    ∧ (isFinite y = true → isZero y = false →
        atan2F32 y 0xFF800000#32 = if signBit y then 0xC0490FDB#32 else 0x40490FDB#32)
    ∧ (isFinite x = true → atan2F32 0x7F800000#32 x = 0x3FC90FDB#32 ∧ atan2F32 0xFF800000#32 x = 0xBFC90FDB#32)
    ∧ atan2F32 0x7F800000#32 0x7F800000#32 = 0x3F490FDB#32 ∧ atan2F32 0xFF800000#32 0x7F800000#32 = 0xBF490FDB#32
    ∧ atan2F32 0x7F800000#32 0xFF800000#32 = 0x4016CBE4#32 ∧ atan2F32 0xFF800000#32 0xFF800000#32 = 0xC016CBE4#32

/-- R204, R205: an angle that is a NaN or not below 0 is kept; to one below 0, 2π is added, and where the sum reaches 2π it
is subtracted again. So the normalised angle is a NaN or lies from 0 below 2π, and the AngleIndex is at most 254; this for
every admissible ATAN2_F32. -/
def Obligations.AngleIsNormalisedAndIndexed : Prop :=
  ∀ (entries : List AngleEntry) (y x a th : F32), a = atan2At entries y x → th = normAngle a →
    (isNaN a = true ∨ fge a 0#32 = true → th = a)
    ∧ (flt a 0#32 = true → ∀ sum : F32, sum = fadd a 0x40C90FDB#32 →
        (flt sum 0x40C90FDB#32 = true → th = sum)
        ∧ (fge sum 0x40C90FDB#32 = true → th = fsub sum 0x40C90FDB#32))
    ∧ (isNaN th = true → angleIndex th = 0#8)
    ∧ (isNaN th = false →
        (angleIndex th).toNat = min 255 (ffloor (fdiv (fmul th 0x437F0000#32) 0x40C90FDB#32)).toNat)
    ∧ (isNaN th = true
      ∨ (fge th 0#32 = true ∧ flt th 0x40C90FDB#32 = true ∧ (angleIndex th).toNat ≤ 254))

/-! ### The spectral unit and the quantiser -/

/-- R230, R231: `bitrev6` reverses the six bits of every index; every twiddle is the f32 nearest to its cosine or sine, and
+0 where that is 0. -/
def Obligations.TransformTablesAreTheStatedOnes : Prop :=
  (∀ i < 64, bitrev6 i < 64 ∧ ∀ n < 6, (bitrev6 i).testBit n = i.testBit (5 - n))
  ∧ (∀ k : Nat, k < 32 → ∀ angle : ℝ, angle = 2 * Real.pi * k / 64 →
      Nearest (Real.cos angle * 2 ^ 149) (entry twCos k) ∧ Nearest (-Real.sin angle * 2 ^ 149) (entry twSinF k)
        ∧ Nearest (Real.sin angle * 2 ^ 149) (entry twSinI k))
  ∧ entry twCos 16 = 0#32 ∧ entry twSinF 0 = 0#32 ∧ entry twSinI 0 = 0#32

/-- R280, R281: every entry of both tables is the f32 nearest to k^(-si/10) or k^(si/10), the even one of two: the tenth
powers of the midpoints on its two sides enclose k^(-si) or k^si, and only an even significand meets a midpoint. An entry
is a normal f32 with exponent field `e` and significand `m`, worth `4m` quarters of 2^(e - 150); the f32 below a power of
two is half as far away. Column 0 is 1.0. -/
def Obligations.WeightTablesAreCorrectlyRounded : Prop :=
  (∀ si < 64, plwFwd si 0 = 0x3F800000#32 ∧ plwInv si 0 = 0x3F800000#32)
  ∧ ∀ si < 64, ∀ k < 64, 1 ≤ k →
    (∀ w e m low high : Nat, w = (plwFwd si k).toNat → e = w / 2 ^ 23 → m = w % 2 ^ 23 + 2 ^ 23 →
      low = (if m = 2 ^ 23 then 4 * m - 1 else 4 * m - 2) ^ 10 * k ^ si * 2 ^ (10 * e) →
      high = (4 * m + 2) ^ 10 * k ^ si * 2 ^ (10 * e) →
      low ≤ 2 ^ 1520 ∧ 2 ^ 1520 ≤ high ∧ (low = 2 ^ 1520 ∨ high = 2 ^ 1520 → m % 2 = 0))
    ∧ (∀ w e m low high : Nat, w = (plwInv si k).toNat → e = w / 2 ^ 23 → m = w % 2 ^ 23 + 2 ^ 23 →
      low = (if m = 2 ^ 23 then 4 * m - 1 else 4 * m - 2) ^ 10 * 2 ^ (10 * e) →
      high = (4 * m + 2) ^ 10 * 2 ^ (10 * e) →
      low ≤ k ^ si * 2 ^ 1520 ∧ k ^ si * 2 ^ 1520 ≤ high
        ∧ (low = k ^ si * 2 ^ 1520 ∨ high = k ^ si * 2 ^ 1520 → m % 2 = 0))

/-- R238: at row 0 PLTM_FWD changes no bin part that is not a NaN. -/
def Obligations.PltmFwdAtRowZeroIsTheIdentity : Prop :=
  ∀ s : State, svalid s.sParam = true → sidx s.sParam = 0 →
    ∃ t : State, exec .pltmFwd s = .next t ∧ ∀ k, k < 64 →
      (isNaN (s.wordAt (0x200 + 8 * k)) = false → t.wordAt (0x200 + 8 * k) = s.wordAt (0x200 + 8 * k))
      ∧ (isNaN (s.wordAt (0x204 + 8 * k)) = false → t.wordAt (0x204 + 8 * k) = s.wordAt (0x204 + 8 * k))

/-- R360: MaxVal bounds both parts of every bin whose squared magnitude is above 0, and is a part of one of them, or 1.0
where there is none. -/
def Obligations.MaxValIsTheLargestPart : Prop :=
  ∀ s : State,
    (∀ k, k < 64 → fgt (mag2 (s.cre k) (s.cim k)) 0#32 = true →
      fle (fabs (s.cre k)) (maxVal s) = true ∧ fle (fabs (s.cim k)) (maxVal s) = true)
    ∧ ((maxVal s = 0x3F800000#32 ∧ ∀ k, k < 64 → fgt (mag2 (s.cre k) (s.cim k)) 0#32 = false)
      ∨ ∃ k, k < 64 ∧ fgt (mag2 (s.cre k) (s.cim k)) 0#32 = true
          ∧ (maxVal s = fabs (s.cre k) ∨ maxVal s = fabs (s.cim k)))

/-- R362, R364: the record that QUANT builds passes DEQUANT's checks, so DEQUANT completes on it without an error. -/
def Obligations.QuantRecordsPassDequantsChecks : Prop :=
  ∀ s t : State, exec .quant s = .next t →
    ∃ u : State, exec .dequant t = .next u ∧ u.status = t.status
      ∧ ∀ k, k < 64 → (s.keepHi ++ s.keepLo).getLsbD k = false →
          u.wordAt (0x200 + 8 * k) = 0#32 ∧ u.wordAt (0x204 + 8 * k) = 0#32

/-! ### The range coder -/

/-- R303: `get_symbol(v)` is the largest symbol of 0..255 whose cumulative count is at most `v`. -/
def Obligations.GetSymbolIsTheLargest : Prop :=
  ∀ (counts : List Word) (v : Nat),
    getSymbol counts v ≤ 255 ∧ cum counts (getSymbol counts v) ≤ v
      ∧ ∀ x, getSymbol counts v < x → x ≤ 255 → v < cum counts x

/-- R304: an update of a good model is a good model; it adds one to the symbol's count, and at the limit halves every count,
the new total being (16384 - n_odd) / 2 + 256. -/
def Obligations.ModelUpdateCountsAndHalves : Prop :=
  ∀ (c : Coder) (sym : Nat), c.ModelOk → sym < 256 →
    (c.update sym).ModelOk
    ∧ (c.total.toNat < 16383 →
        (c.update sym).total = c.total + 1#32 ∧ (c.update sym).counts = c.counts.set sym (c.counts.getD sym 0#32 + 1#32))
    ∧ (c.total.toNat = 16383 →
        (c.update sym).counts
            = (c.counts.set sym (c.counts.getD sym 0#32 + 1#32)).map (fun x : Word => (x >>> (1 : Nat)) + 1#32)
        ∧ (c.update sym).total.toNat
            = (16384 - ((c.counts.set sym (c.counts.getD sym 0#32 + 1#32)).filter fun x => x.getLsbD 0).length) / 2 + 256
        ∧ 8320 ≤ (c.update sym).total.toNat ∧ (c.update sym).total.toNat ≤ 8448)

/-- R308: a push of the top byte of `low` through the carry discipline multiplies the encoder's number by 256: no carry and
no deferred byte is lost. -/
def Obligations.ShiftLowKeepsTheNumber : Prop :=
  ∀ s t : State, shiftLow s = .ok t → s.rc.ffrun.toNat + 1 < 2 ^ 32 →
    s.rc.pos.toNat + s.rc.ffrun.toNat + 1 < 2 ^ 32 →
    (2 ^ 32 ≤ s.rc.low.toNat → s.rc.started = true ∧ s.rc.cache ≠ 0xFF#8) →
    codeNumber t = codeNumber s * 256 ∧ heldBytes t.rc = heldBytes s.rc + 1 ∧ t.rc.low.toNat < 2 ^ 32

/-- R316: RC_STATE.MODE moves as the table says; a range coder command in the wrong mode changes nothing but the error and
completion; the other commands never change coder state. -/
def Obligations.CoderModeMovesByTheTable : Prop :=
  (∀ s t : State, exec .rcInitEnc s = .next t → t.rc.mode = .enc)
  ∧ (∀ s t : State, exec .rcInitDec s = .next t →
      (s.inlen.toNat ≤ s.caps.toNat → t.rc.mode = .dec) ∧ (s.caps.toNat < s.inlen.toNat → t.rc = s.rc))
  ∧ (∀ (s t : State) (sym : Byte), exec (.rcEnc sym) s = .next t →
      (s.rc.mode = .enc →
        (t.rc.mode = .enc ∧ t.status = (ended s).status) ∨ (t.rc.mode = .idle ∧ t.status = (endedWith .ovf s).status))
      ∧ (s.rc.mode ≠ .enc → t = endedWith .mode s))
  ∧ (∀ s t : State, exec .rcFinish s = .next t →
      (s.rc.mode = .enc →
        (t.rc.mode = .fin ∧ t.status = (ended s).status) ∨ (t.rc.mode = .idle ∧ t.status = (endedWith .ovf s).status))
      ∧ (s.rc.mode ≠ .enc → t = endedWith .mode s))
  ∧ (∀ s t : State, exec .rcDec s = .next t →
      (s.rc.mode = .dec → t.rc.mode = .dec) ∧ (s.rc.mode ≠ .dec → t = endedWith .mode s))
  ∧ (∀ (i : Instr) (s t : State), exec i s = .next t →
      i ∈ [.nop, .grad, .fftFwd, .fftInv, .pltmFwd, .pltmInv, .thresh, .quant, .dequant] → t.rc = s.rc)
  ∧ ∀ s : State, (resetBlock s).rc.mode = .idle

/-- R318: what RC_INIT_ENC, one RC_ENC a byte and RC_FINISH write without error, RC_INIT_DEC and as many RC_DEC commands
read back, in order. The bound on the number of bytes keeps the 32-bit RC_FFRUN (R59) from wrapping: a byte makes at most
two pushes. -/
def Obligations.DecodingReturnsTheEncodedBytes : Prop :=
  ∀ (s t : State) (bytes : List Byte), bytes.length < 2 ^ 30 → s.CapsLegal → s.status.err = false →
    execAll (.rcInitEnc :: bytes.map Instr.rcEnc ++ [.rcFinish]) s t → t.status.err = false →
    ∃ u v : State, exec .rcInitDec { t with inlen := t.rc.len } = .next u ∧ decodesTo bytes u v

/-! ### Invariants and progress -/

/-- The invariant of a safe state holds right after reset. -/
def Obligations.ResetIsSafe : Prop := State.reset.Safe

/-- Every step keeps the canonical form of memory (the model's own form, log entry 3). -/
def Obligations.StepKeepsMemoryCanonical : Prop :=
  ∀ s t : State, s.mem.wf → step s = .next t → t.mem.wf

/-- R101, R103: every step keeps the cells of memory inside the RAM windows: no store goes anywhere else. -/
def Obligations.StepStoresOnlyInRam : Prop :=
  ∀ s t : State, s.CapsLegal → s.MemOk → step s = .next t → t.CapsLegal ∧ t.MemOk

/-- R404, R405, R402, R407: every step keeps BUSY in accord with PCMD, a legal word in PCMD, and ECODE in accord with
ERR. -/
def Obligations.StepKeepsStatusInAccord : Prop :=
  ∀ s t : State, s.LatchOk → s.ErrorOk → step s = .next t → t.LatchOk ∧ t.ErrorOk

/-- R304, R317: every step keeps the frequency model, the range and the carry bounds of the coder. -/
def Obligations.StepKeepsTheCoder : Prop :=
  ∀ s t : State, s.rc.Ok → step s = .next t → t.rc.Ok

/-- R391, R400, R413: from a safe state every step goes on, to a safe state: no fault and no refusal is ever reached from
reset. -/
def Obligations.SafeStatesNeverStop : Prop :=
  ∀ s : State, s.Safe → ∃ t : State, step s = .next t ∧ t.Safe

/-- R413: a pending command completes, after as many steps as its latency has left, whatever the host does meanwhile short
of a reset. -/
def Obligations.PendingCommandCompletes : Prop :=
  ∀ (s : State) (w : Word), s.Safe → s.pcmd = some w → HostEvent.reset ∉ s.host.take s.delay →
    ∃ t u : State, runsTo s.delay s t ∧ t.pcmd = some w ∧ t.delay = 0 ∧ t.status.busy = true
      ∧ step t = .next u ∧ u.pcmd = none ∧ u.status.busy = false ∧ u.status.done = true
end

