-- ==== Sys2Proof/Laws/Float.lean ====
section
/-! SUPPORT. The fields of a packed pattern, and the order of the magnitudes. -/

namespace Sys2Proof.Machine

theorem magBits_lt (a : F32) : magBits a < 2 ^ 31 := Nat.mod_lt _ (by norm_num)

theorem toNat_packF (neg : Bool) {mag : Nat} (h : mag < 2 ^ 31) :
    (packF neg mag).toNat = (if neg then 2 ^ 31 else 0) + mag := by
  rw [packF, BitVec.toNat_ofNat, Nat.mod_eq_of_lt]
  cases neg
  · simp only [Bool.false_eq_true, if_false]
    omega
  · simp only [if_true]
    omega

theorem magBits_packF (neg : Bool) {mag : Nat} (h : mag < 2 ^ 31) : magBits (packF neg mag) = mag := by
  rw [magBits, toNat_packF neg h]
  cases neg
  · simp only [Bool.false_eq_true, if_false]
    omega
  · simp only [if_true]
    omega

theorem signBit_eq (a : F32) : signBit a = decide (2 ^ 31 ≤ a.toNat) := by
  have := a.isLt
  rw [signBit, BitVec.getLsbD, Nat.testBit_eq_decide_div_mod_eq, decide_eq_decide]
  omega

theorem signBit_packF (neg : Bool) {mag : Nat} (h : mag < 2 ^ 31) : signBit (packF neg mag) = neg := by
  rw [signBit_eq, toNat_packF neg h]
  cases neg
  · simp only [Bool.false_eq_true, if_false, decide_eq_false_iff_not]
    omega
  · simp

/-- A pattern is its sign and its magnitude bits. -/
theorem packF_fields (a : F32) : packF (signBit a) (magBits a) = a := by
  apply BitVec.eq_of_toNat_eq
  have := a.isLt
  rw [toNat_packF _ (magBits_lt a), signBit_eq, magBits]
  by_cases h : 2 ^ 31 ≤ a.toNat
  · simp only [h, decide_true, if_true]
    omega
  · simp only [h, decide_false, Bool.false_eq_true, if_false]
    omega

/-- The rounding function never gives a NaN's magnitude. -/
theorem roundMag_le (num den : Nat) : roundMag num den ≤ infMag := Nat.min_le_right _ _

theorem roundMag_lt (num den : Nat) : roundMag num den < 2 ^ 31 :=
  Nat.lt_of_le_of_lt (roundMag_le num den) (by norm_num [infMag])

end Sys2Proof.Machine
end

