-- ==== Sys2Proof/Laws/Atan2.lean ====
section
/-! SUPPORT. Why the comparison of Machine/Atan2.lean decides the side of an angle, and decides it in every case: the
functions Fₙ(m) = mⁿ · Sₙ(m) of that file, their sign between 0 and π, the bound of one by the one before, and from
these what `angleAbove` and `angleMag` say. -/

namespace Sys2Proof.Machine

open Real

/-- Fₙ(m) = mⁿ · Sₙ(m). -/
noncomputable def tailFn : Nat → ℝ → ℝ
  | 0, m => sin m
  | 1, m => sin m - m * cos m
  | n + 2, m => (2 * n + 3) * tailFn (n + 1) m - m ^ 2 * tailFn n m

theorem tailFn_two (n : Nat) (m : ℝ) :
    tailFn (n + 2) m = (2 * n + 3) * tailFn (n + 1) m - m ^ 2 * tailFn n m := rfl

/-- Fₙ₊₁' = m · Fₙ. -/
theorem tailFn_deriv (n : Nat) (m : ℝ) : HasDerivAt (tailFn (n + 1)) (m * tailFn n m) m := by
  induction n using Nat.strong_induction_on with
  | _ n ih =>
    match n with
    | 0 =>
      have h := (hasDerivAt_sin m).sub ((hasDerivAt_id m).mul (hasDerivAt_cos m))
      refine h.congr_deriv ?_
      simp only [tailFn, id]
      ring
    | 1 =>
      have h := ((ih 0 (by omega)).const_mul ((2 * (0 : Nat) + 3 : ℝ))).sub
        (((hasDerivAt_id m).pow 2).mul (hasDerivAt_sin m))
      refine HasDerivAt.congr_deriv (f := tailFn 2) h ?_
      simp only [tailFn, id, Pi.pow_apply]
      push_cast
      ring
    | n + 2 =>
      have h := ((ih (n + 1) (by omega)).const_mul ((2 * (n + 1 : Nat) + 3 : ℝ))).sub
        (((hasDerivAt_id m).pow 2).mul (ih n (by omega)))
      refine HasDerivAt.congr_deriv (f := tailFn (n + 3)) h ?_
      simp only [tailFn_two, id, Pi.pow_apply]
      push_cast
      ring

theorem tailFn_zero (n : Nat) : tailFn n 0 = 0 := by
  induction n using Nat.strong_induction_on with
  | _ n ih =>
    match n with
    | 0 => simp [tailFn]
    | 1 => simp [tailFn]
    | n + 2 => rw [tailFn_two, ih (n + 1) (by omega)]; simp

/-- A function that vanishes at 0 and whose derivative is positive below `m` is positive at `m`. -/
theorem pos_of_deriv {f f' : ℝ → ℝ} {m : ℝ} (hm : 0 < m) (h0 : f 0 = 0) (hd : ∀ t, HasDerivAt f (f' t) t)
    (hp : ∀ t, 0 < t → t < m → 0 < f' t) : 0 < f m := by
  have hmono : StrictMonoOn f (Set.Icc 0 m) := by
    refine strictMonoOn_of_deriv_pos (convex_Icc 0 m) (fun t _ => (hd t).continuousAt.continuousWithinAt) ?_
    intro t ht
    rw [interior_Icc] at ht
    rw [(hd t).deriv]
    exact hp t ht.1 ht.2
  have := hmono (Set.left_mem_Icc.2 hm.le) (Set.right_mem_Icc.2 hm.le) hm
  rwa [h0] at this

/-- Every Fₙ is positive between 0 and π. -/
theorem tailFn_pos (n : Nat) {m : ℝ} (h0 : 0 < m) (hpi : m < π) : 0 < tailFn n m := by
  induction n generalizing m with
  | zero => exact sin_pos_of_pos_of_lt_pi h0 hpi
  | succ n ih =>
    exact pos_of_deriv h0 (tailFn_zero _) (tailFn_deriv n) fun t ht htm => mul_pos ht (ih ht (htm.trans hpi))

/-- 2n · Fₙ₊₁ lies below m² · Fₙ from n = 1 on. -/
theorem tailFn_bound (n : Nat) {m : ℝ} (h0 : 0 < m) (hpi : m < π) :
    2 * (n + 1) * tailFn (n + 2) m < m ^ 2 * tailFn (n + 1) m := by
  induction n generalizing m with
  | zero =>
    have hd : ∀ t, HasDerivAt (fun t => t ^ 2 * tailFn 1 t - 2 * tailFn 2 t) (t * (t ^ 2 * tailFn 0 t)) t := by
      intro t
      have h := (((hasDerivAt_id t).pow 2).mul (tailFn_deriv 0 t)).sub ((tailFn_deriv 1 t).const_mul 2)
      refine HasDerivAt.congr_deriv (f := fun t => t ^ 2 * tailFn 1 t - 2 * tailFn 2 t) h ?_
      simp only [id, Pi.pow_apply]
      push_cast
      ring
    have := pos_of_deriv h0 (by simp [tailFn_zero]) hd fun t ht htm =>
      mul_pos ht (mul_pos (by positivity) (tailFn_pos 0 ht (htm.trans hpi)))
    push_cast
    linarith
  | succ n ih =>
    have hd : ∀ t, HasDerivAt (fun t => t ^ 2 * tailFn (n + 2) t - 2 * (n + 2) * tailFn (n + 3) t)
        (t * (t ^ 2 * tailFn (n + 1) t - 2 * (n + 1) * tailFn (n + 2) t)) t := by
      intro t
      have h := (((hasDerivAt_id t).pow 2).mul (tailFn_deriv (n + 1) t)).sub
        ((tailFn_deriv (n + 2) t).const_mul (2 * ((n : ℝ) + 2)))
      refine HasDerivAt.congr_deriv (f := fun t => t ^ 2 * tailFn (n + 2) t - 2 * (n + 2) * tailFn (n + 3) t) h ?_
      simp only [id, Pi.pow_apply]
      push_cast
      ring
    have := pos_of_deriv h0 (by simp [tailFn_zero]) hd fun t ht htm =>
      mul_pos ht (sub_pos.2 (ih ht (htm.trans hpi)))
    push_cast
    linarith

/-- The quantity whose sign the loop looks for: Aₙ · Sₙ - p · Aₙ₋₁ · Sₙ₊₁, times mⁿ. -/
noncomputable def sideValue (q n : Nat) (prev cur : Int) (m : ℝ) : ℝ :=
  cur * tailFn n m - q * prev * tailFn (n + 1) m

/-- A turn of the loop multiplies it by q · m², for p = q · m. -/
theorem sideValue_next (p q n : Nat) (prev cur : Int) {m : ℝ} (hm : (p : ℝ) = q * m) :
    sideValue q (n + 1) cur (nextSide p q n prev cur) m = q * m ^ 2 * sideValue q n prev cur m := by
  simp only [sideValue, nextSide, tailFn_two]
  push_cast
  rw [hm]
  ring

/-- What the bounds decide is the sign. -/
theorem sideOf_eq_some {p q n : Nat} {prev cur : Int} {m : ℝ} {b : Bool} (hm : (p : ℝ) = q * m) (hq : 0 < q) (h0 : 0 < m)
    (hpi : m < π) (hprev : 0 < prev) (h : sideOf p q n prev cur = some b) :
    b = true ↔ 0 < sideValue q n prev cur m := by
  have hF := tailFn_pos n h0 hpi
  have hF1 := tailFn_pos (n + 1) h0 hpi
  have hq' : (0 : ℝ) < q := by exact_mod_cast hq
  have hp' : (0 : ℝ) < prev := by exact_mod_cast hprev
  unfold sideOf at h
  split at h
  · rename_i hc
    have hc' : (cur : ℝ) ≤ 0 := by exact_mod_cast hc
    obtain rfl : false = b := by simpa using h
    have h1 := mul_nonpos_of_nonpos_of_nonneg hc' hF.le
    have h2 : 0 < (q : ℝ) * prev * tailFn (n + 1) m := by positivity
    simp only [sideValue, Bool.false_eq_true, false_iff, not_lt]
    linarith
  · rename_i hc
    split at h
    · rename_i hy
      obtain rfl : true = b := by simpa using h
      refine ⟨fun _ => ?_, fun _ => rfl⟩
      have hy' : (p : ℝ) ^ 2 * prev ≤ 2 * n * q * cur := by exact_mod_cast hy
      match n with
      | 0 =>
        have : 0 < (p : ℝ) ^ 2 * prev := by rw [hm]; positivity
        norm_num at hy'
        linarith
      | n + 1 =>
        have hb := tailFn_bound n h0 hpi
        have h1 : (q : ℝ) ^ 2 * prev * (2 * (n + 1) * tailFn (n + 2) m) < q ^ 2 * prev * (m ^ 2 * tailFn (n + 1) m) :=
          mul_lt_mul_of_pos_left hb (by positivity)
        have h2 : (p : ℝ) ^ 2 * prev * tailFn (n + 1) m ≤ 2 * (n + 1 : Nat) * q * cur * tailFn (n + 1) m :=
          mul_le_mul_of_nonneg_right hy' hF.le
        rw [hm] at h2
        push_cast at h2
        have h3 : 0 < 2 * ((n : ℝ) + 1) * q * (cur * tailFn (n + 1) m - q * prev * tailFn (n + 2) m) := by nlinarith
        exact (mul_pos_iff_of_pos_left (by positivity)).1 h3
    · cases h

/-- Where the bounds leave the side open, Aₙ is positive, and below Aₙ₋₁ once p² ≤ 2nq. -/
theorem sideOf_eq_none {p q n : Nat} {prev cur : Int} (h : sideOf p q n prev cur = none) (hprev : 0 < prev) :
    0 < cur ∧ (p ^ 2 ≤ 2 * n * q → cur < prev) := by
  unfold sideOf at h
  split at h
  · cases h
  · split at h
    · cases h
    · rename_i hc hy
      refine ⟨by omega, fun hn => ?_⟩
      have hn' : (p : Int) ^ 2 ≤ 2 * n * q := by exact_mod_cast hn
      by_contra hge
      have h1 : (p : Int) ^ 2 * prev ≤ 2 * n * q * prev := mul_le_mul_of_nonneg_right hn' hprev.le
      have h2 : (2 * n * q : Int) * prev ≤ 2 * n * q * cur := mul_le_mul_of_nonneg_left (by omega) (by positivity)
      omega

section
variable {p q : Nat} {m : ℝ} (hm : (p : ℝ) = q * m) (hq : 0 < q) (h0 : 0 < m) (hpi : m < π)
include hm hq h0 hpi

omit hpi in
/-- The next turn looks for the same sign. -/
theorem sideValue_next_pos (n : Nat) (prev cur : Int) :
    0 < sideValue q (n + 1) cur (nextSide p q n prev cur) m ↔ 0 < sideValue q n prev cur m := by
  have hq' : (0 : ℝ) < q := by exact_mod_cast hq
  rw [sideValue_next p q n prev cur hm]
  exact mul_pos_iff_of_pos_left (by positivity)

/-- The loop of the tail ends with the sign: what it starts from falls with each turn. -/
theorem sideTail_iff (fuel n : Nat) (prev cur : Int) (hn : p ^ 2 ≤ 2 * n * q) (hprev : 0 < prev) (hfuel : prev ≤ fuel) :
    sideTail p q fuel n prev cur = true ↔ 0 < sideValue q n prev cur m := by
  induction fuel generalizing n prev cur with
  | zero => omega
  | succ fuel ih =>
    unfold sideTail
    cases h : sideOf p q n prev cur with
    | some b => exact sideOf_eq_some hm hq h0 hpi hprev h
    | none =>
      obtain ⟨hpos, hlt⟩ := sideOf_eq_none h hprev
      have := hlt hn
      rw [← sideValue_next_pos hm hq h0 n prev cur]
      exact ih _ _ _ (hn.trans (by gcongr; omega)) hpos (by omega)

/-- The whole loop ends with the sign. -/
theorem sideFrom_iff (fuel n : Nat) (prev cur : Int) (hn : p ^ 2 ≤ 2 * (n + fuel) * q) (hprev : 0 < prev) :
    sideFrom p q fuel n prev cur = true ↔ 0 < sideValue q n prev cur m := by
  induction fuel generalizing n prev cur with
  | zero => exact sideTail_iff hm hq h0 hpi _ _ _ _ hn hprev (by omega)
  | succ fuel ih =>
    unfold sideFrom
    cases h : sideOf p q n prev cur with
    | some b => exact sideOf_eq_some hm hq h0 hpi hprev h
    | none =>
      rw [← sideValue_next_pos hm hq h0 n prev cur]
      exact ih _ _ _ (hn.trans (by gcongr 2 * ?_ * q; omega)) (sideOf_eq_none h hprev).1

/-- `angleAbove` says which side of p / q the angle of (x, y) lies on. -/
theorem angleAbove_iff {y : Nat} (hy : 0 < y) (x : Int) :
    angleAbove p q y x = true ↔ m < Complex.arg ⟨x, y⟩ := by
  have hq' : (0 : ℝ) < q := by exact_mod_cast hq
  have hy' : (0 : ℝ) < y := by exact_mod_cast hy
  have hfuel : p ^ 2 ≤ 2 * (0 + (p ^ 2 / (2 * q) + 1)) * q := by
    have := Nat.lt_div_mul_add (a := p ^ 2) (b := 2 * q) (by omega)
    nlinarith
  rw [angleAbove, sideFrom_iff hm hq h0 hpi _ _ _ _ hfuel (by exact_mod_cast hy)]
  set z : ℂ := ⟨x, y⟩ with hz
  have hz0 : z ≠ 0 := fun h => by simpa [hz, hy'.ne'] using congrArg Complex.im h
  have hr : 0 < ‖z‖ := norm_pos_iff.2 hz0
  have hval : sideValue q 0 y (q * y - p * x) m = q * m * (‖z‖ * sin (Complex.arg z - m)) := by
    have hx : (x : ℝ) = ‖z‖ * cos (Complex.arg z) := (Complex.norm_mul_cos_arg z).symm
    have hyy : (y : ℝ) = ‖z‖ * sin (Complex.arg z) := (Complex.norm_mul_sin_arg z).symm
    rw [sin_sub]
    simp only [sideValue, tailFn]
    push_cast
    rw [hm]
    linear_combination (q * m * cos m : ℝ) * hyy - (q * m * sin m : ℝ) * hx
  have hpos : 0 < Complex.arg z := by
    have h1 : 0 ≤ Complex.arg z := Complex.arg_nonneg_iff.2 hy'.le
    refine lt_of_le_of_ne h1 fun h => ?_
    have := (Complex.arg_eq_zero_iff.1 h.symm).2
    exact hy'.ne' this
  have hle := Complex.arg_le_pi z
  rw [hval, mul_pos_iff_of_pos_left (by positivity), mul_pos_iff_of_pos_left hr]
  constructor
  · intro h
    by_contra hc
    have := sin_nonpos_of_nonpos_of_neg_pi_le (x := Complex.arg z - m) (by linarith) (by linarith)
    linarith
  · intro h
    exact sin_pos_of_pos_of_lt_pi (by linarith) (by linarith)

end

/-! ### The magnitude -/

/-- The value of a magnitude, in units of 2^-149: `scaled` of any f32 with those bits. -/
def units (k : Nat) : Nat := (k - (stepExp k - 1) * 2 ^ 23) * 2 ^ (stepExp k - 1)

theorem scaled_eq_units (a : F32) : scaled a = units (magBits a) := by
  unfold scaled units stepExp
  split
  · rename_i h
    rw [max_eq_left (by omega)]
    simp
  · rename_i h
    rw [max_eq_right (by omega)]
    congr 1
    have := Nat.div_add_mod (magBits a) (2 ^ 23)
    have h1 : 1 ≤ magBits a / 2 ^ 23 := by omega
    rw [Nat.sub_mul]
    omega

/-- One step up adds the step. -/
theorem units_succ (k : Nat) : units (k + 1) = units k + 2 ^ (stepExp k - 1) := by
  have hd := Nat.div_add_mod k (2 ^ 23)
  unfold units
  by_cases h : (k + 1) / 2 ^ 23 = k / 2 ^ 23
  · have he : stepExp (k + 1) = stepExp k := by unfold stepExp; rw [h]
    rw [he]
    have hle : (stepExp k - 1) * 2 ^ 23 ≤ k := by unfold stepExp; omega
    rw [show k + 1 - (stepExp k - 1) * 2 ^ 23 = k - (stepExp k - 1) * 2 ^ 23 + 1 by omega]
    ring
  · have hk : k + 1 = (k / 2 ^ 23 + 1) * 2 ^ 23 := by omega
    have h1 : (k + 1) / 2 ^ 23 = k / 2 ^ 23 + 1 := by omega
    rcases Nat.eq_zero_or_pos (k / 2 ^ 23) with h0 | h0
    · have e1 : stepExp (k + 1) = 1 := by unfold stepExp; omega
      have e2 : stepExp k = 1 := by unfold stepExp; omega
      simp [e1, e2]
    · have e1 : stepExp (k + 1) = k / 2 ^ 23 + 1 := by unfold stepExp; omega
      have e2 : stepExp k = k / 2 ^ 23 := by unfold stepExp; omega
      rw [e1, e2]
      obtain ⟨e, he⟩ : ∃ e, k / 2 ^ 23 = e + 1 := ⟨k / 2 ^ 23 - 1, by omega⟩
      have hA : k + 1 - (k / 2 ^ 23 + 1 - 1) * 2 ^ 23 = 2 ^ 23 := by omega
      have hB : k - (k / 2 ^ 23 - 1) * 2 ^ 23 = 2 ^ 24 - 1 := by omega
      rw [hA, hB, he]
      simp only [Nat.add_sub_cancel]
      rw [pow_succ]
      have := Nat.one_le_two_pow (n := e)
      omega

theorem units_lt {j k : Nat} (h : j < k) : units j < units k := by
  induction k, h using Nat.le_induction with
  | base => rw [units_succ]; have := Nat.one_le_two_pow (n := stepExp j - 1); omega
  | succ k _ ih => rw [units_succ]; have := Nat.one_le_two_pow (n := stepExp k - 1); omega

/-- The point halfway from one f32 magnitude to the next. -/
noncomputable def midPoint (k : Nat) : ℝ := midNum k / midDen k

theorem midDen_pos (k : Nat) : 0 < midDen k := Nat.two_pow_pos _

/-- The halfway point is the mean of the two values, up to PI32's magnitude. -/
theorem midPoint_eq {k : Nat} (hk : k ≤ magBits pi32) : midPoint k = (units k + units (k + 1) : ℝ) / 2 ^ 150 := by
  have hk' : k ≤ 0x40490FDB := hk
  have he : 1 ≤ stepExp k ∧ stepExp k ≤ 150 := by unfold stepExp; omega
  have hsum : (units k + units (k + 1)) * midDen k = midNum k * 2 ^ 150 := by
    rw [units_succ, midDen, midNum, units]
    have : (2 : Nat) ^ 150 = 2 ^ (stepExp k - 1) * 2 ^ (151 - stepExp k) := by rw [← pow_add]; congr 1; omega
    rw [this]
    ring
  have hd : (0 : ℝ) < midDen k := by exact_mod_cast midDen_pos k
  have hsum' : ((units k + units (k + 1) : ℝ)) * midDen k = midNum k * 2 ^ 150 := by exact_mod_cast hsum
  rw [midPoint, div_eq_div_iff hd.ne' (by positivity)]
  linarith

/-- The halfway points rise. -/
theorem midPoint_le {j k : Nat} (h : j ≤ k) (hk : k ≤ magBits pi32) : midPoint j ≤ midPoint k := by
  rcases h.eq_or_lt with rfl | h
  · exact le_rfl
  · rw [midPoint_eq (by omega), midPoint_eq hk]
    have h1 := units_lt h
    have h2 := units_lt (Nat.succ_lt_succ h)
    have h1' : (units j : ℝ) ≤ units k := by exact_mod_cast h1.le
    have h2' : (units (j + 1) : ℝ) ≤ units (k + 1) := by exact_mod_cast h2.le
    gcongr

theorem midPoint_pos (k : Nat) : 0 < midPoint k := by
  have h1 : (0 : ℝ) < midNum k := by exact_mod_cast Nat.succ_pos _
  have h2 : (0 : ℝ) < midDen k := by exact_mod_cast midDen_pos k
  exact div_pos h1 h2

/-- Every halfway point below PI32 lies below π. -/
theorem midPoint_lt_pi {k : Nat} (hk : k < magBits pi32) : midPoint k < π := by
  have hP : magBits pi32 = 0x40490FDB := by decide
  have h1 := midPoint_le (show k ≤ 0x40490FDA by omega) (by omega)
  have h2 : midPoint 0x40490FDA ≤ 3.14159265 := by
    have e : midNum 0x40490FDA = 26353589 ∧ midDen 0x40490FDA = 2 ^ 23 := by decide +kernel
    rw [midPoint, e.1, e.2]
    norm_num
  have := pi_gt_d20
  linarith

/-- `angleAbove` at a halfway point below PI32. -/
theorem angleAbove_mid {y : Nat} (hy : 0 < y) (x : Int) {k : Nat} (hk : k < magBits pi32) :
    angleAbove (midNum k) (midDen k) y x = true ↔ midPoint k < Complex.arg ⟨x, y⟩ := by
  have hd : (0 : ℝ) < midDen k := by exact_mod_cast midDen_pos k
  exact angleAbove_iff (by rw [midPoint]; field_simp) (midDen_pos k) (midPoint_pos k) (midPoint_lt_pi hk) hy x

/-- The search keeps what it knows: the lower halfway point of `r` lies below the angle, and none from `r + 2^i` on does. -/
theorem angleMagFrom_spec {y : Nat} (hy : 0 < y) (x : Int) (i r : Nat) (hr : r ≤ magBits pi32)
    (hlo : r = 0 ∨ midPoint (r - 1) < Complex.arg ⟨x, y⟩)
    (hhi : ∀ k, r + 2 ^ i ≤ k → k ≤ magBits pi32 → Complex.arg ⟨x, y⟩ ≤ midPoint (k - 1)) :
    ∃ m, angleMagFrom y x i r = m ∧ m ≤ magBits pi32 ∧ (m = 0 ∨ midPoint (m - 1) < Complex.arg ⟨x, y⟩)
      ∧ (m = magBits pi32 ∨ Complex.arg ⟨x, y⟩ ≤ midPoint m) := by
  induction i generalizing r with
  | zero =>
    refine ⟨r, rfl, hr, hlo, ?_⟩
    rcases hr.eq_or_lt with h | h
    · exact .inl h
    · exact .inr (by simpa using hhi (r + 1) (by simp) h)
  | succ i ih =>
    have h2 : 2 ^ (i + 1) = 2 ^ i + 2 ^ i := by ring
    have hpos := Nat.one_le_two_pow (n := i)
    unfold angleMagFrom
    split
    · rename_i h
      exact ih _ h.1 (.inr ((angleAbove_mid hy x (by omega)).1 h.2)) fun k hk => hhi k (by omega)
    · rename_i h
      refine ih _ hr hlo fun k hk hkP => ?_
      have hn : ¬ midPoint (r + 2 ^ i - 1) < Complex.arg ⟨x, y⟩ := fun hc =>
        h ⟨by omega, (angleAbove_mid hy x (by omega)).2 hc⟩
      exact (not_lt.1 hn).trans (midPoint_le (by omega) (by omega))

/-- The magnitude found is the one whose two halfway points enclose the angle; the last one is PI32's. -/
theorem angleMag_spec {y : Nat} (hy : 0 < y) (x : Int) :
    angleMag y x ≤ magBits pi32 ∧ (angleMag y x = 0 ∨ midPoint (angleMag y x - 1) < Complex.arg ⟨x, y⟩)
      ∧ (angleMag y x = magBits pi32 ∨ Complex.arg ⟨x, y⟩ ≤ midPoint (angleMag y x)) := by
  obtain ⟨m, rfl, h⟩ := angleMagFrom_spec hy x 31 0 (Nat.zero_le _) (.inl rfl) fun k hk hkP => by
    have : magBits pi32 = 0x40490FDB := by decide
    omega
  exact h

end Sys2Proof.Machine
end

