-- ==== Sys2Proof/Laws/Memory.lean ====
section
/-! SUPPORT. The laws of memory: a store keeps the canonical form, a read after a store gives what was stored, and every
other byte is left alone. -/

namespace Sys2Proof.Machine

theorem lookup_cellsAt (bs : List Byte) (a x : Nat) :
    (cellsAt a bs).lookup x = if a ≤ x then bs[x - a]? else none := by
  induction bs generalizing a with
  | nil => simp [cellsAt]
  | cons b bs ih =>
    rw [cellsAt, List.lookup_cons, ih]
    by_cases h : x = a
    · subst h; simp
    · have hb : (x == a) = false := by simpa using h
      rw [hb]
      by_cases h1 : a + 1 ≤ x
      · have : x - a = (x - (a + 1)) + 1 := by omega
        simp [h1, show a ≤ x by omega, this]
      · simp [h1, show ¬a ≤ x by omega]

theorem lookup_filter_addr (p : Nat → Bool) (m : Memory) (x : Nat) :
    (m.filter fun c => p c.1).lookup x = if p x then m.lookup x else none := by
  induction m with
  | nil => simp
  | cons c m ih =>
    obtain ⟨a, b⟩ := c
    rw [List.filter_cons, List.lookup_cons]
    by_cases hc : p a <;> by_cases hx : x = a
    · subst hx; simp [hc]
    · have : (x == a) = false := by simpa using hx
      simp [hc, List.lookup_cons, this, ih]
    · subst hx; simp [hc, ih]
    · have : (x == a) = false := by simpa using hx
      simp [hc, this, ih]

/-- What a store leaves at an address: the byte stored there, or what was there. -/
theorem lookup_store (m : Memory) (a : Nat) (bs : List Byte) (x : Nat) :
    (m.store a bs).lookup x = if a ≤ x ∧ x < a + bs.length then bs[x - a]? else m.lookup x := by
  rw [Memory.store, List.lookup_append, List.lookup_append, lookup_cellsAt,
    lookup_filter_addr (fun y => decide (y < a)), lookup_filter_addr (fun y => decide (a + bs.length ≤ y))]
  rcases Nat.lt_or_ge x a with h | h
  · simp [h, show ¬a ≤ x by omega, show ¬a + bs.length ≤ x by omega]
  · rcases Nat.lt_or_ge x (a + bs.length) with h2 | h2
    · have h3 : x - a < bs.length := by omega
      simp [h, h2, show ¬x < a by omega, show ¬a + bs.length ≤ x by omega]
    · have h3 : bs[x - a]? = none := List.getElem?_eq_none (by omega)
      simp [h, h2, h3, show ¬x < a by omega, show ¬x < a + bs.length by omega]

theorem mem_cellsAt {bs : List Byte} {a : Nat} {c : Host.Cell} (h : c ∈ cellsAt a bs) :
    a ≤ c.1 ∧ c.1 < a + bs.length := by
  induction bs generalizing a with
  | nil => simp [cellsAt] at h
  | cons b bs ih =>
    rw [cellsAt, List.mem_cons] at h
    rcases h with rfl | h
    · simp
    · have := ih h; simp only [List.length_cons]; omega

theorem cellsAt_wf (bs : List Byte) (a : Nat) : Memory.wf (cellsAt a bs) := by
  induction bs generalizing a with
  | nil => simp [cellsAt, Memory.wf]
  | cons b bs ih =>
    rw [cellsAt, Memory.wf, List.pairwise_cons]
    exact ⟨fun c h => by have := mem_cellsAt h; simp only; omega, ih (a + 1)⟩

/-- A store keeps the canonical form. -/
theorem store_wf {m : Memory} (h : m.wf) (a : Nat) (bs : List Byte) : (m.store a bs).wf := by
  rw [Memory.store, Memory.wf, List.pairwise_append, List.pairwise_append]
  refine ⟨⟨h.filter _, cellsAt_wf bs a, ?_⟩, h.filter _, ?_⟩
  · intro c hc d hd
    have := mem_cellsAt hd
    simp only [List.mem_filter, decide_eq_true_eq] at hc
    omega
  · intro c hc d hd
    simp only [List.mem_filter, decide_eq_true_eq] at hd
    rcases List.mem_append.1 hc with hc | hc
    · simp only [List.mem_filter, decide_eq_true_eq] at hc
      omega
    · have := mem_cellsAt hc
      omega

/-- A cell after a store was there before, or was stored. -/
theorem mem_store {m : Memory} {a : Nat} {bs : List Byte} {c : Host.Cell} (h : c ∈ m.store a bs) :
    c ∈ m ∨ (a ≤ c.1 ∧ c.1 < a + bs.length) := by
  rw [Memory.store, List.mem_append, List.mem_append] at h
  rcases h with (h | h) | h
  · exact .inl (List.mem_filter.1 h).1
  · exact .inr (mem_cellsAt h)
  · exact .inl (List.mem_filter.1 h).1

/-- Reading a byte after a store. -/
theorem byteAt_storeBytes (s : State) (a : Nat) (bs : List Byte) (x : Nat) :
    (s.storeBytes a bs).byteAt x = if a ≤ x ∧ x < a + bs.length then bs.getD (x - a) 0#8 else s.byteAt x := by
  simp only [State.byteAt, State.storeBytes, lookup_store]
  split
  · next h =>
    have h3 : x - a < bs.length := by omega
    simp [h3]
  · rfl

theorem byteAt_storeBytes_of_outside {s : State} {a : Nat} {bs : List Byte} {x : Nat}
    (h : x < a ∨ a + bs.length ≤ x) : (s.storeBytes a bs).byteAt x = s.byteAt x := by
  rw [byteAt_storeBytes, if_neg (by omega)]

theorem byteAt_storeBytes_of_inside {s : State} {a : Nat} {bs : List Byte} {i : Nat} (h : i < bs.length) :
    (s.storeBytes a bs).byteAt (a + i) = bs.getD i 0#8 := by
  rw [byteAt_storeBytes, if_pos (by omega), Nat.add_sub_cancel_left]

@[simp] theorem length_wordBytes (w : Word) : (wordBytes w).length = 4 := rfl

@[simp] theorem length_flatMap_wordBytes (ws : List Word) : (ws.flatMap wordBytes).length = 4 * ws.length := by
  induction ws with
  | nil => rfl
  | cons w ws ih => simp only [List.flatMap_cons, List.length_append, length_wordBytes, ih, List.length_cons]; omega

theorem getD_flatMap_wordBytes (ws : List Word) (i j : Nat) (hj : j < 4) :
    (ws.flatMap wordBytes).getD (4 * i + j) 0#8 = (wordBytes (ws.getD i 0#32)).getD j 0#8 := by
  induction ws generalizing i with
  | nil =>
    rcases j with _ | _ | _ | _ | j <;> simp [wordBytes]
  | cons w ws ih =>
    rw [List.flatMap_cons, List.getD_eq_getElem?_getD]
    cases i with
    | zero =>
      rw [List.getElem?_append_left (by simpa using hj), ← List.getD_eq_getElem?_getD]
      simp
    | succ i =>
      rw [List.getElem?_append_right (by simp; omega), length_wordBytes, ← List.getD_eq_getElem?_getD,
        show 4 * (i + 1) + j - 4 = 4 * i + j by omega, ih]
      simp

theorem ofBytes_wordBytes (w : Word) :
    ofBytes ((wordBytes w).getD 0 0#8) ((wordBytes w).getD 1 0#8) ((wordBytes w).getD 2 0#8)
      ((wordBytes w).getD 3 0#8) = w := by
  apply BitVec.eq_of_getLsbD_eq
  intro i hi
  simp only [ofBytes, wordBytes, List.getD_cons_zero, List.getD_cons_succ, BitVec.getLsbD_append,
    BitVec.getLsbD_extractLsb']
  have : i < 8 ∨ (8 ≤ i ∧ i < 16) ∨ (16 ≤ i ∧ i < 24) ∨ 24 ≤ i := by omega
  rcases this with h | h | h | h
  · simp [h]
  · simp [show ¬i < 8 by omega, show i - 8 < 8 by omega, show 8 + (i - 8) = i by omega]
  · simp [show ¬i < 8 by omega, show ¬i - 8 < 8 by omega, show i - 8 - 8 < 8 by omega,
      show 16 + (i - 8 - 8) = i by omega]
  · simp [show ¬i < 8 by omega, show ¬i - 8 < 8 by omega, show ¬i - 8 - 8 < 8 by omega,
      show i - 8 - 8 - 8 < 8 by omega, show 24 + (i - 8 - 8 - 8) = i by omega]

/-- Reading back word `i` of a block of words just stored. -/
theorem wordAt_storeWords {s : State} {a : Nat} {ws : List Word} {i : Nat} (h : i < ws.length) :
    (s.storeWords a ws).wordAt (a + 4 * i) = ws.getD i 0#32 := by
  have hb (j : Nat) (hj : j < 4) :
      (s.storeWords a ws).byteAt (a + (4 * i + j)) = (wordBytes (ws.getD i 0#32)).getD j 0#8 := by
    rw [State.storeWords, byteAt_storeBytes_of_inside (by rw [length_flatMap_wordBytes]; omega),
      getD_flatMap_wordBytes _ _ _ hj]
  have h0 := hb 0 (by omega)
  have h1 := hb 1 (by omega)
  have h2 := hb 2 (by omega)
  have h3 := hb 3 (by omega)
  simp only [Nat.add_zero, ← Nat.add_assoc] at h0 h1 h2 h3
  rw [State.wordAt, h0, h1, h2, h3, ofBytes_wordBytes]

/-- A byte outside a block of words just stored. -/
theorem byteAt_storeWords_of_outside {s : State} {a : Nat} {ws : List Word} {x : Nat}
    (h : x < a ∨ a + 4 * ws.length ≤ x) : (s.storeWords a ws).byteAt x = s.byteAt x :=
  byteAt_storeBytes_of_outside (by rw [length_flatMap_wordBytes]; exact h)

/-- A word outside a block of words just stored. -/
theorem wordAt_storeWords_of_outside {s : State} {a : Nat} {ws : List Word} {x : Nat}
    (h : x + 4 ≤ a ∨ a + 4 * ws.length ≤ x) : (s.storeWords a ws).wordAt x = s.wordAt x := by
  simp only [State.wordAt]
  rw [byteAt_storeWords_of_outside (by omega), byteAt_storeWords_of_outside (by omega),
    byteAt_storeWords_of_outside (by omega), byteAt_storeWords_of_outside (by omega)]

/-- The canonical form after a store of bytes. -/
theorem storeBytes_wf {s : State} (h : s.mem.wf) (a : Nat) (bs : List Byte) : (s.storeBytes a bs).mem.wf :=
  store_wf h a bs

/-- The canonical form after a store of words. -/
theorem storeWords_wf {s : State} (h : s.mem.wf) (a : Nat) (ws : List Word) : (s.storeWords a ws).mem.wf :=
  store_wf h a _

end Sys2Proof.Machine
end

