-- ==== Sys2Proof/Laws/State.lean ====
section
/-! SUPPORT. One lemma per field per named update of State, and per field per update of STATUS, all true by rfl. -/

namespace Sys2Proof.Machine

section
variable (s : State) (t : Status)

/-! ### storeBytes -/

@[simp] theorem storeBytes_status (a : Nat) (bs : List Byte) : (s.storeBytes a bs).status = s.status := rfl
@[simp] theorem storeBytes_doneIe (a : Nat) (bs : List Byte) : (s.storeBytes a bs).doneIe = s.doneIe := rfl
@[simp] theorem storeBytes_errIe (a : Nat) (bs : List Byte) : (s.storeBytes a bs).errIe = s.errIe := rfl
@[simp] theorem storeBytes_lastCmd (a : Nat) (bs : List Byte) : (s.storeBytes a bs).lastCmd = s.lastCmd := rfl
@[simp] theorem storeBytes_pcmd (a : Nat) (bs : List Byte) : (s.storeBytes a bs).pcmd = s.pcmd := rfl
@[simp] theorem storeBytes_caps (a : Nat) (bs : List Byte) : (s.storeBytes a bs).caps = s.caps := rfl
@[simp] theorem storeBytes_angles (a : Nat) (bs : List Byte) : (s.storeBytes a bs).angles = s.angles := rfl
@[simp] theorem storeBytes_sParam (a : Nat) (bs : List Byte) : (s.storeBytes a bs).sParam = s.sParam := rfl
@[simp] theorem storeBytes_tParam (a : Nat) (bs : List Byte) : (s.storeBytes a bs).tParam = s.tParam := rfl
@[simp] theorem storeBytes_gr (a : Nat) (bs : List Byte) : (s.storeBytes a bs).gr = s.gr := rfl
@[simp] theorem storeBytes_kcount (a : Nat) (bs : List Byte) : (s.storeBytes a bs).kcount = s.kcount := rfl
@[simp] theorem storeBytes_keepLo (a : Nat) (bs : List Byte) : (s.storeBytes a bs).keepLo = s.keepLo := rfl
@[simp] theorem storeBytes_keepHi (a : Nat) (bs : List Byte) : (s.storeBytes a bs).keepHi = s.keepHi := rfl
@[simp] theorem storeBytes_maxval (a : Nat) (bs : List Byte) : (s.storeBytes a bs).maxval = s.maxval := rfl
@[simp] theorem storeBytes_rc (a : Nat) (bs : List Byte) : (s.storeBytes a bs).rc = s.rc := rfl
@[simp] theorem storeBytes_inlen (a : Nat) (bs : List Byte) : (s.storeBytes a bs).inlen = s.inlen := rfl
@[simp] theorem storeBytes_mem (a : Nat) (bs : List Byte) : (s.storeBytes a bs).mem = s.mem.store a bs := rfl
@[simp] theorem storeBytes_host (a : Nat) (bs : List Byte) : (s.storeBytes a bs).host = s.host := rfl
@[simp] theorem storeBytes_readData (a : Nat) (bs : List Byte) : (s.storeBytes a bs).readData = s.readData := rfl
@[simp] theorem storeBytes_delay (a : Nat) (bs : List Byte) : (s.storeBytes a bs).delay = s.delay := rfl
@[simp] theorem storeBytes_accepted (a : Nat) (bs : List Byte) : (s.storeBytes a bs).accepted = s.accepted := rfl
@[simp] theorem storeBytes_resets (a : Nat) (bs : List Byte) : (s.storeBytes a bs).resets = s.resets := rfl

/-! ### storeWords -/

@[simp] theorem storeWords_status (a : Nat) (ws : List Word) : (s.storeWords a ws).status = s.status := rfl
@[simp] theorem storeWords_doneIe (a : Nat) (ws : List Word) : (s.storeWords a ws).doneIe = s.doneIe := rfl
@[simp] theorem storeWords_errIe (a : Nat) (ws : List Word) : (s.storeWords a ws).errIe = s.errIe := rfl
@[simp] theorem storeWords_lastCmd (a : Nat) (ws : List Word) : (s.storeWords a ws).lastCmd = s.lastCmd := rfl
@[simp] theorem storeWords_pcmd (a : Nat) (ws : List Word) : (s.storeWords a ws).pcmd = s.pcmd := rfl
@[simp] theorem storeWords_caps (a : Nat) (ws : List Word) : (s.storeWords a ws).caps = s.caps := rfl
@[simp] theorem storeWords_angles (a : Nat) (ws : List Word) : (s.storeWords a ws).angles = s.angles := rfl
@[simp] theorem storeWords_sParam (a : Nat) (ws : List Word) : (s.storeWords a ws).sParam = s.sParam := rfl
@[simp] theorem storeWords_tParam (a : Nat) (ws : List Word) : (s.storeWords a ws).tParam = s.tParam := rfl
@[simp] theorem storeWords_gr (a : Nat) (ws : List Word) : (s.storeWords a ws).gr = s.gr := rfl
@[simp] theorem storeWords_kcount (a : Nat) (ws : List Word) : (s.storeWords a ws).kcount = s.kcount := rfl
@[simp] theorem storeWords_keepLo (a : Nat) (ws : List Word) : (s.storeWords a ws).keepLo = s.keepLo := rfl
@[simp] theorem storeWords_keepHi (a : Nat) (ws : List Word) : (s.storeWords a ws).keepHi = s.keepHi := rfl
@[simp] theorem storeWords_maxval (a : Nat) (ws : List Word) : (s.storeWords a ws).maxval = s.maxval := rfl
@[simp] theorem storeWords_rc (a : Nat) (ws : List Word) : (s.storeWords a ws).rc = s.rc := rfl
@[simp] theorem storeWords_inlen (a : Nat) (ws : List Word) : (s.storeWords a ws).inlen = s.inlen := rfl
@[simp] theorem storeWords_mem (a : Nat) (ws : List Word) :
    (s.storeWords a ws).mem = s.mem.store a (ws.flatMap wordBytes) := rfl
@[simp] theorem storeWords_host (a : Nat) (ws : List Word) : (s.storeWords a ws).host = s.host := rfl
@[simp] theorem storeWords_readData (a : Nat) (ws : List Word) : (s.storeWords a ws).readData = s.readData := rfl
@[simp] theorem storeWords_delay (a : Nat) (ws : List Word) : (s.storeWords a ws).delay = s.delay := rfl
@[simp] theorem storeWords_accepted (a : Nat) (ws : List Word) : (s.storeWords a ws).accepted = s.accepted := rfl
@[simp] theorem storeWords_resets (a : Nat) (ws : List Word) : (s.storeWords a ws).resets = s.resets := rfl

/-! ### withRc -/

@[simp] theorem withRc_status (c : Coder) : (s.withRc c).status = s.status := rfl
@[simp] theorem withRc_doneIe (c : Coder) : (s.withRc c).doneIe = s.doneIe := rfl
@[simp] theorem withRc_errIe (c : Coder) : (s.withRc c).errIe = s.errIe := rfl
@[simp] theorem withRc_lastCmd (c : Coder) : (s.withRc c).lastCmd = s.lastCmd := rfl
@[simp] theorem withRc_pcmd (c : Coder) : (s.withRc c).pcmd = s.pcmd := rfl
@[simp] theorem withRc_caps (c : Coder) : (s.withRc c).caps = s.caps := rfl
@[simp] theorem withRc_angles (c : Coder) : (s.withRc c).angles = s.angles := rfl
@[simp] theorem withRc_sParam (c : Coder) : (s.withRc c).sParam = s.sParam := rfl
@[simp] theorem withRc_tParam (c : Coder) : (s.withRc c).tParam = s.tParam := rfl
@[simp] theorem withRc_gr (c : Coder) : (s.withRc c).gr = s.gr := rfl
@[simp] theorem withRc_kcount (c : Coder) : (s.withRc c).kcount = s.kcount := rfl
@[simp] theorem withRc_keepLo (c : Coder) : (s.withRc c).keepLo = s.keepLo := rfl
@[simp] theorem withRc_keepHi (c : Coder) : (s.withRc c).keepHi = s.keepHi := rfl
@[simp] theorem withRc_maxval (c : Coder) : (s.withRc c).maxval = s.maxval := rfl
@[simp] theorem withRc_rc (c : Coder) : (s.withRc c).rc = c := rfl
@[simp] theorem withRc_inlen (c : Coder) : (s.withRc c).inlen = s.inlen := rfl
@[simp] theorem withRc_mem (c : Coder) : (s.withRc c).mem = s.mem := rfl
@[simp] theorem withRc_host (c : Coder) : (s.withRc c).host = s.host := rfl
@[simp] theorem withRc_readData (c : Coder) : (s.withRc c).readData = s.readData := rfl
@[simp] theorem withRc_delay (c : Coder) : (s.withRc c).delay = s.delay := rfl
@[simp] theorem withRc_accepted (c : Coder) : (s.withRc c).accepted = s.accepted := rfl
@[simp] theorem withRc_resets (c : Coder) : (s.withRc c).resets = s.resets := rfl

/-! ### signal -/

@[simp] theorem signal_status (code : ErrCode) : (signal code s).status = s.status.record code := rfl
@[simp] theorem signal_doneIe (code : ErrCode) : (signal code s).doneIe = s.doneIe := rfl
@[simp] theorem signal_errIe (code : ErrCode) : (signal code s).errIe = s.errIe := rfl
@[simp] theorem signal_lastCmd (code : ErrCode) : (signal code s).lastCmd = s.lastCmd := rfl
@[simp] theorem signal_pcmd (code : ErrCode) : (signal code s).pcmd = s.pcmd := rfl
@[simp] theorem signal_caps (code : ErrCode) : (signal code s).caps = s.caps := rfl
@[simp] theorem signal_angles (code : ErrCode) : (signal code s).angles = s.angles := rfl
@[simp] theorem signal_sParam (code : ErrCode) : (signal code s).sParam = s.sParam := rfl
@[simp] theorem signal_tParam (code : ErrCode) : (signal code s).tParam = s.tParam := rfl
@[simp] theorem signal_gr (code : ErrCode) : (signal code s).gr = s.gr := rfl
@[simp] theorem signal_kcount (code : ErrCode) : (signal code s).kcount = s.kcount := rfl
@[simp] theorem signal_keepLo (code : ErrCode) : (signal code s).keepLo = s.keepLo := rfl
@[simp] theorem signal_keepHi (code : ErrCode) : (signal code s).keepHi = s.keepHi := rfl
@[simp] theorem signal_maxval (code : ErrCode) : (signal code s).maxval = s.maxval := rfl
@[simp] theorem signal_rc (code : ErrCode) : (signal code s).rc = s.rc := rfl
@[simp] theorem signal_inlen (code : ErrCode) : (signal code s).inlen = s.inlen := rfl
@[simp] theorem signal_mem (code : ErrCode) : (signal code s).mem = s.mem := rfl
@[simp] theorem signal_host (code : ErrCode) : (signal code s).host = s.host := rfl
@[simp] theorem signal_readData (code : ErrCode) : (signal code s).readData = s.readData := rfl
@[simp] theorem signal_delay (code : ErrCode) : (signal code s).delay = s.delay := rfl
@[simp] theorem signal_accepted (code : ErrCode) : (signal code s).accepted = s.accepted := rfl
@[simp] theorem signal_resets (code : ErrCode) : (signal code s).resets = s.resets := rfl

/-! ### complete -/

@[simp] theorem complete_status : (complete s).status = s.status.finished := rfl
@[simp] theorem complete_doneIe : (complete s).doneIe = s.doneIe := rfl
@[simp] theorem complete_errIe : (complete s).errIe = s.errIe := rfl
@[simp] theorem complete_lastCmd : (complete s).lastCmd = s.lastCmd := rfl
@[simp] theorem complete_pcmd : (complete s).pcmd = none := rfl
@[simp] theorem complete_caps : (complete s).caps = s.caps := rfl
@[simp] theorem complete_angles : (complete s).angles = s.angles := rfl
@[simp] theorem complete_sParam : (complete s).sParam = s.sParam := rfl
@[simp] theorem complete_tParam : (complete s).tParam = s.tParam := rfl
@[simp] theorem complete_gr : (complete s).gr = s.gr := rfl
@[simp] theorem complete_kcount : (complete s).kcount = s.kcount := rfl
@[simp] theorem complete_keepLo : (complete s).keepLo = s.keepLo := rfl
@[simp] theorem complete_keepHi : (complete s).keepHi = s.keepHi := rfl
@[simp] theorem complete_maxval : (complete s).maxval = s.maxval := rfl
@[simp] theorem complete_rc : (complete s).rc = s.rc := rfl
@[simp] theorem complete_inlen : (complete s).inlen = s.inlen := rfl
@[simp] theorem complete_mem : (complete s).mem = s.mem := rfl
@[simp] theorem complete_host : (complete s).host = s.host := rfl
@[simp] theorem complete_readData : (complete s).readData = s.readData := rfl
@[simp] theorem complete_delay : (complete s).delay = s.delay := rfl
@[simp] theorem complete_accepted : (complete s).accepted = s.accepted := rfl
@[simp] theorem complete_resets : (complete s).resets = s.resets := rfl

/-! ### accept -/

@[simp] theorem accept_status (w : Word) : (accept w s).status = { s.status with busy := true } := rfl
@[simp] theorem accept_doneIe (w : Word) : (accept w s).doneIe = s.doneIe := rfl
@[simp] theorem accept_errIe (w : Word) : (accept w s).errIe = s.errIe := rfl
@[simp] theorem accept_lastCmd (w : Word) : (accept w s).lastCmd = w := rfl
@[simp] theorem accept_pcmd (w : Word) : (accept w s).pcmd = some w := rfl
@[simp] theorem accept_caps (w : Word) : (accept w s).caps = s.caps := rfl
@[simp] theorem accept_angles (w : Word) : (accept w s).angles = s.angles := rfl
@[simp] theorem accept_sParam (w : Word) : (accept w s).sParam = s.sParam := rfl
@[simp] theorem accept_tParam (w : Word) : (accept w s).tParam = s.tParam := rfl
@[simp] theorem accept_gr (w : Word) : (accept w s).gr = s.gr := rfl
@[simp] theorem accept_kcount (w : Word) : (accept w s).kcount = s.kcount := rfl
@[simp] theorem accept_keepLo (w : Word) : (accept w s).keepLo = s.keepLo := rfl
@[simp] theorem accept_keepHi (w : Word) : (accept w s).keepHi = s.keepHi := rfl
@[simp] theorem accept_maxval (w : Word) : (accept w s).maxval = s.maxval := rfl
@[simp] theorem accept_rc (w : Word) : (accept w s).rc = s.rc := rfl
@[simp] theorem accept_inlen (w : Word) : (accept w s).inlen = s.inlen := rfl
@[simp] theorem accept_mem (w : Word) : (accept w s).mem = s.mem := rfl
@[simp] theorem accept_host (w : Word) : (accept w s).host = s.host := rfl
@[simp] theorem accept_readData (w : Word) : (accept w s).readData = s.readData := rfl
@[simp] theorem accept_delay (w : Word) : (accept w s).delay = Config.latency s.accepted := rfl
@[simp] theorem accept_accepted (w : Word) : (accept w s).accepted = s.accepted + 1 := rfl
@[simp] theorem accept_resets (w : Word) : (accept w s).resets = s.resets := rfl

/-! ### tick -/

@[simp] theorem tick_status : (tick s).status = s.status := rfl
@[simp] theorem tick_doneIe : (tick s).doneIe = s.doneIe := rfl
@[simp] theorem tick_errIe : (tick s).errIe = s.errIe := rfl
@[simp] theorem tick_lastCmd : (tick s).lastCmd = s.lastCmd := rfl
@[simp] theorem tick_pcmd : (tick s).pcmd = s.pcmd := rfl
@[simp] theorem tick_caps : (tick s).caps = s.caps := rfl
@[simp] theorem tick_angles : (tick s).angles = s.angles := rfl
@[simp] theorem tick_sParam : (tick s).sParam = s.sParam := rfl
@[simp] theorem tick_tParam : (tick s).tParam = s.tParam := rfl
@[simp] theorem tick_gr : (tick s).gr = s.gr := rfl
@[simp] theorem tick_kcount : (tick s).kcount = s.kcount := rfl
@[simp] theorem tick_keepLo : (tick s).keepLo = s.keepLo := rfl
@[simp] theorem tick_keepHi : (tick s).keepHi = s.keepHi := rfl
@[simp] theorem tick_maxval : (tick s).maxval = s.maxval := rfl
@[simp] theorem tick_rc : (tick s).rc = s.rc := rfl
@[simp] theorem tick_inlen : (tick s).inlen = s.inlen := rfl
@[simp] theorem tick_mem : (tick s).mem = s.mem := rfl
@[simp] theorem tick_host : (tick s).host = s.host := rfl
@[simp] theorem tick_readData : (tick s).readData = s.readData := rfl
@[simp] theorem tick_delay : (tick s).delay = s.delay - 1 := rfl
@[simp] theorem tick_accepted : (tick s).accepted = s.accepted := rfl
@[simp] theorem tick_resets : (tick s).resets = s.resets := rfl

/-! ### latch -/

@[simp] theorem latch_status (w : Word) : (latch w s).status = { s.status with busy := true } := rfl
@[simp] theorem latch_doneIe (w : Word) : (latch w s).doneIe = s.doneIe := rfl
@[simp] theorem latch_errIe (w : Word) : (latch w s).errIe = s.errIe := rfl
@[simp] theorem latch_lastCmd (w : Word) : (latch w s).lastCmd = w := rfl
@[simp] theorem latch_pcmd (w : Word) : (latch w s).pcmd = some w := rfl
@[simp] theorem latch_caps (w : Word) : (latch w s).caps = s.caps := rfl
@[simp] theorem latch_angles (w : Word) : (latch w s).angles = s.angles := rfl
@[simp] theorem latch_sParam (w : Word) : (latch w s).sParam = s.sParam := rfl
@[simp] theorem latch_tParam (w : Word) : (latch w s).tParam = s.tParam := rfl
@[simp] theorem latch_gr (w : Word) : (latch w s).gr = s.gr := rfl
@[simp] theorem latch_kcount (w : Word) : (latch w s).kcount = s.kcount := rfl
@[simp] theorem latch_keepLo (w : Word) : (latch w s).keepLo = s.keepLo := rfl
@[simp] theorem latch_keepHi (w : Word) : (latch w s).keepHi = s.keepHi := rfl
@[simp] theorem latch_maxval (w : Word) : (latch w s).maxval = s.maxval := rfl
@[simp] theorem latch_rc (w : Word) : (latch w s).rc = s.rc := rfl
@[simp] theorem latch_inlen (w : Word) : (latch w s).inlen = s.inlen := rfl
@[simp] theorem latch_mem (w : Word) : (latch w s).mem = s.mem := rfl
@[simp] theorem latch_host (w : Word) : (latch w s).host = s.host := rfl
@[simp] theorem latch_readData (w : Word) : (latch w s).readData = s.readData := rfl
@[simp] theorem latch_delay (w : Word) : (latch w s).delay = 0 := rfl
@[simp] theorem latch_accepted (w : Word) : (latch w s).accepted = s.accepted := rfl
@[simp] theorem latch_resets (w : Word) : (latch w s).resets = s.resets := rfl

/-! ### STATUS -/

@[simp] theorem finished_busy : t.finished.busy = false := rfl
@[simp] theorem finished_done : t.finished.done = true := rfl
@[simp] theorem finished_err : t.finished.err = t.err := rfl
@[simp] theorem finished_nf : t.finished.nf = t.nf := rfl
@[simp] theorem finished_inexh : t.finished.inexh = t.inexh := rfl
@[simp] theorem finished_ecode : t.finished.ecode = t.ecode := rfl

@[simp] theorem record_busy (code : ErrCode) : (t.record code).busy = t.busy := by
  unfold Status.record; split <;> rfl
@[simp] theorem record_done (code : ErrCode) : (t.record code).done = t.done := by
  unfold Status.record; split <;> rfl
@[simp] theorem record_nf (code : ErrCode) : (t.record code).nf = t.nf := by
  unfold Status.record; split <;> rfl
@[simp] theorem record_inexh (code : ErrCode) : (t.record code).inexh = t.inexh := by
  unfold Status.record; split <;> rfl
@[simp] theorem record_err (code : ErrCode) : (t.record code).err = true := by
  unfold Status.record; split
  · assumption
  · rfl

/-- Completion does not disturb what a later error would find (60_exceptions.md R402, R405). -/
theorem finished_record (code : ErrCode) : (t.record code).finished = t.finished.record code := by
  unfold Status.record
  cases h : t.err <;> simp [h, Status.finished]

/-! ### Reads of memory after an update that does not touch it -/

@[simp] theorem withRc_byteAt (c : Coder) (x : Nat) : (s.withRc c).byteAt x = s.byteAt x := rfl
@[simp] theorem withRc_wordAt (c : Coder) (x : Nat) : (s.withRc c).wordAt x = s.wordAt x := rfl
@[simp] theorem signal_byteAt (code : ErrCode) (x : Nat) : (signal code s).byteAt x = s.byteAt x := rfl
@[simp] theorem signal_wordAt (code : ErrCode) (x : Nat) : (signal code s).wordAt x = s.wordAt x := rfl
@[simp] theorem complete_byteAt (x : Nat) : (complete s).byteAt x = s.byteAt x := rfl
@[simp] theorem complete_wordAt (x : Nat) : (complete s).wordAt x = s.wordAt x := rfl
@[simp] theorem accept_byteAt (w : Word) (x : Nat) : (accept w s).byteAt x = s.byteAt x := rfl
@[simp] theorem accept_wordAt (w : Word) (x : Nat) : (accept w s).wordAt x = s.wordAt x := rfl
@[simp] theorem tick_byteAt (x : Nat) : (tick s).byteAt x = s.byteAt x := rfl
@[simp] theorem tick_wordAt (x : Nat) : (tick s).wordAt x = s.wordAt x := rfl
@[simp] theorem latch_byteAt (w : Word) (x : Nat) : (latch w s).byteAt x = s.byteAt x := rfl
@[simp] theorem latch_wordAt (w : Word) (x : Nat) : (latch w s).wordAt x = s.wordAt x := rfl

end

end Sys2Proof.Machine
end

