-- ==== Sys2Proof/Laws/Ops.lean ====
section
/-! SUPPORT. What the operations over the running command can do: how a command's pseudocode goes on and ends, and which
bytes are RAM. -/

namespace Sys2Proof.Machine

/-! ### The result of a pseudocode -/

theorem andThen_ok (s : State) (f : State → CmdResult) : (CmdResult.ok s).andThen f = f s := rfl

theorem andThen_failed (code : ErrCode) (s : State) (f : State → CmdResult) :
    (CmdResult.failed code s).andThen f = .failed code s := rfl

theorem andThen_eq_ok {r : CmdResult} {f : State → CmdResult} {t : State} :
    r.andThen f = .ok t ↔ ∃ u, r = .ok u ∧ f u = .ok t := by
  cases r <;> simp [CmdResult.andThen]

theorem andThen_eq_failed {r : CmdResult} {f : State → CmdResult} {code : ErrCode} {t : State} :
    r.andThen f = .failed code t ↔ r = .failed code t ∨ ∃ u, r = .ok u ∧ f u = .failed code t := by
  cases r <;> simp [CmdResult.andThen]

/-- A command's end answers a next state, in one of two ways. -/
theorem finish_eq_next {r : CmdResult} {t : State} :
    r.finish = .next t ↔
      (∃ u, r = .ok u ∧ t = complete u) ∨ ∃ code u, r = .failed code u ∧ t = complete (signal code u) := by
  cases r <;> simp [CmdResult.finish, eq_comm]

/-- A command's end never stops the machine. -/
theorem finish_next (r : CmdResult) : ∃ t, r.finish = .next t := by
  cases r with
  | ok s => exact ⟨_, rfl⟩
  | failed code s => exact ⟨_, rfl⟩

/-! ### RAM -/

/-- `isRam` as ranges of offsets. -/
theorem isRam_iff (caps : Word) (a : Nat) :
    isRam caps a = true ↔
      (0x100 ≤ a ∧ a < 0x440) ∨ (0x480 ≤ a ∧ a < 0x500) ∨ (0x100000 ≤ a ∧ a < 0x100000 + caps.toNat) := by
  simp only [isRam, Bool.or_eq_true, Bool.and_eq_true, decide_eq_true_eq]
  simp only [patchBase, idxBase, qvalBase, streamBase]
  exact or_assoc

/-- A list of words of one value each. -/
theorem getD_map_range (n : Nat) (f : Nat → Word) (i : Nat) (h : i < n) : ((List.range n).map f).getD i 0#32 = f i := by
  rw [List.getD_eq_getElem _ _ (by simpa using h)]
  simp

/-- A word whose bytes are zero. -/
theorem wordAt_eq_zero {s : State} {a : Nat} (h : ∀ i < 4, s.byteAt (a + i) = 0#8) : s.wordAt a = 0#32 := by
  have h0 := h 0 (by omega)
  rw [Nat.add_zero] at h0
  rw [State.wordAt, h0, h 1 (by omega), h 2 (by omega), h 3 (by omega)]
  rfl

/-- The word at `a` depends on its four bytes only. -/
theorem wordAt_congr {s t : State} {a : Nat} (h : ∀ i < 4, t.byteAt (a + i) = s.byteAt (a + i)) :
    t.wordAt a = s.wordAt a := by
  have h0 := h 0 (by omega)
  rw [Nat.add_zero] at h0
  rw [State.wordAt, State.wordAt, h0, h 1 (by omega), h 2 (by omega), h 3 (by omega)]

end Sys2Proof.Machine
end

