-- ==== Sys2Proof/Laws/Bus.lean ====
section
/-! SUPPORT. What one access at the slave port, one event and one step can do, said once each. -/

namespace Sys2Proof.Machine

/-! ### One access -/

/-- A RAM word that a legal access moves is aligned and in a RAM window. -/
theorem legalTarget_ram {caps : Word} {size : Nat} {o : BitVec 21} {a : Nat}
    (h : legalTarget caps size o = some (.ram a)) : a = o.toNat ∧ a % 4 = 0 ∧ isRam caps a = true := by
  rw [legalTarget] at h
  split at h
  · next hh =>
    rw [target] at h
    split at h
    · simp at h
    · split at h
      · simp at h
        subst h
        exact ⟨rfl, hh.2, ‹_›⟩
      · split at h <;> simp at h
  · simp at h

/-- The offsets of the register map. -/
theorem target_reg {caps : Word} {n : Nat} {r : Reg} (h : target caps n = some (.reg r)) :
    n < 0x100 ∧ regAt n = some r := by
  rw [target] at h
  split at h
  · next hn => exact ⟨hn, by simpa using h⟩
  · split at h
    · cases h
    · split at h <;> cases h

/-- A RAM word or a word of COUNTS lies past the registers. -/
theorem target_of_ge {caps : Word} {n : Nat} {t : Target} (h : target caps n = some t) (ht : ∀ r, t ≠ .reg r) :
    0x100 ≤ n := by
  rw [target] at h
  split at h
  · cases hr : regAt n with
    | none => simp [hr] at h
    | some r =>
      simp [hr] at h
      exact absurd h.symm (ht r)
  · next hn => simpa [patchBase] using hn

/-- A host read: refused, or the word moved. -/
theorem hostRead_cases (size : Nat) (o : BitVec 21) (s : State) :
    hostRead size o s = { signal .access s with readData := 0#32 }
      ∨ ∃ t, legalTarget s.caps size o = some t ∧ (s.status.busy = false ∨ readWhileBusy t = true)
          ∧ hostRead size o s = { s with readData := readTarget t s } := by
  rw [hostRead]
  cases h : legalTarget s.caps size o with
  | none => exact .inl rfl
  | some t =>
    by_cases hb : (s.status.busy && !readWhileBusy t) = true
    · simp only [hb, if_true, true_or]
    · refine .inr ⟨t, rfl, ?_, by simp only [if_neg hb]⟩
      cases hs : s.status.busy <;> simp_all

/-- A host write: refused, or the effect of the target. -/
theorem hostWrite_cases (size : Nat) (o : BitVec 21) (v : Word) (s : State) :
    hostWrite size o v s = signal .access s
      ∨ ∃ t, legalTarget s.caps size o = some t ∧ (s.status.busy = false ∨ writeWhileBusy t = true)
          ∧ hostWrite size o v s = writeTarget t v s := by
  rw [hostWrite]
  cases h : legalTarget s.caps size o with
  | none => exact .inl rfl
  | some t =>
    by_cases hb : (s.status.busy && !writeWhileBusy t) = true
    · simp only [hb, if_true, true_or]
    · refine .inr ⟨t, rfl, ?_, by simp only [if_neg hb]⟩
      cases hs : s.status.busy <;> simp_all

/-- The issue of a command (60_exceptions.md R403). -/
theorem issue_cases (w : Word) (s : State) :
    (s.status.busy = true ∧ issue w s = signal .busy s)
      ∨ (s.status.busy = false ∧ (∃ e, decode w = .error e) ∧ issue w s = signal .illegal s)
      ∨ (s.status.busy = false ∧ (∃ i, decode w = .ok i) ∧ issue w s = accept w s) := by
  rw [issue]
  cases hb : s.status.busy
  · cases hd : decode w with
    | error e => exact .inr (.inl ⟨rfl, ⟨e, rfl⟩, rfl⟩)
    | ok i => exact .inr (.inr ⟨rfl, ⟨i, rfl⟩, rfl⟩)
  · exact .inl ⟨rfl, rfl⟩

/-- An issue touches the latch, STATUS and the model's latency fields only. -/
theorem issue_eq (w : Word) (s : State) :
    issue w s =
      { s with
        status := (issue w s).status
        lastCmd := (issue w s).lastCmd
        pcmd := (issue w s).pcmd
        delay := (issue w s).delay
        accepted := (issue w s).accepted } := by
  rcases issue_cases w s with ⟨-, h⟩ | ⟨-, -, h⟩ | ⟨-, -, h⟩ <;> rw [h] <;> rfl

/-! ### One step -/

/-- A step that answers a next state: a completion, an idle step, or one event. -/
theorem step_cases {s t : State} (h : step s = .next t) :
    (∃ w i, s.pcmd = some w ∧ s.delay = 0 ∧ decode w = .ok i ∧ exec i s = .next t)
      ∨ ((s.pcmd = none ∨ s.delay ≠ 0)
          ∧ ((s.host = [] ∧ t = tick s) ∨ ∃ e es, s.host = e :: es ∧ t = perform e { tick s with host := es })) := by
  rw [step] at h
  cases hf : fetch s with
  | none =>
    rw [hf] at h
    refine .inr ⟨?_, ?_⟩
    · rw [fetch] at hf
      split at hf
      · exact .inl hf
      · exact .inr ‹_›
    · simp only [hostStep] at h
      cases hh : s.host with
      | nil =>
        simp [hh] at h
        exact .inl ⟨rfl, h.symm⟩
      | cons e es =>
        simp [hh] at h
        exact .inr ⟨e, es, rfl, h.symm⟩
  | some w =>
    rw [hf] at h
    rw [fetch] at hf
    split at hf
    · next hd =>
      cases hdec : decode w with
      | error e => simp [hdec] at h
      | ok i =>
        simp [hdec] at h
        exact .inl ⟨w, i, hf, hd, hdec, h⟩
    · cases hf

end Sys2Proof.Machine
end

