-- ==== Sys2Proof/Laws/Coder.lean ====
section
/-! SUPPORT. What the range coder's operations can do, said once each: the sums of the frequency model, the emission of
bytes, a push of the encoder, and the decoder's input. -/

namespace Sys2Proof.Machine

/-! ### The frequency model -/

theorem cum_zero (counts : List Word) : cum counts 0 = 0 := by simp [cum]

/-- The cumulative count grows by the count of the symbol passed (43_range_coder.md R302). -/
theorem cum_succ (counts : List Word) (i : Nat) : cum counts (i + 1) = cum counts i + (counts.getD i 0#32).toNat := by
  simp only [cum, List.take_add_one, List.map_append, List.sum_append]
  congr 1
  rw [List.getD_eq_getElem?_getD]
  cases counts[i]? <;> simp

theorem cum_mono (counts : List Word) {i j : Nat} (h : i ≤ j) : cum counts i ≤ cum counts j := by
  induction j, h using Nat.le_induction with
  | base => exact Nat.le_refl _
  | succ j _ ih =>
    rw [cum_succ]
    omega

/-- Past the end of the list the cumulative count is the whole sum. -/
theorem cum_of_length_le (counts : List Word) (i : Nat) (h : counts.length ≤ i) :
    cum counts i = (counts.map BitVec.toNat).sum := by rw [cum, List.take_of_length_le h]

/-- FEN at an index whose lowest set bit is the step taken (43_range_coder.md R303). -/
theorem cum_add_fen (counts : List Word) (pos step : Nat) (h : lowbit (pos + step) = step) :
    cum counts pos + fen counts (pos + step) = cum counts (pos + step) := by
  simp only [fen, cum, h, Nat.add_sub_cancel]
  rw [List.take_add, List.map_append, List.sum_append]

theorem length_halve (counts : List Word) : (halve counts).length = counts.length := by simp [halve]

/-- A halved count. -/
theorem halved_toNat (x : Word) : ((x >>> 1) + 1#32).toNat = x.toNat / 2 + 1 := by
  have := x.isLt
  simp [BitVec.toNat_add, BitVec.toNat_ushiftRight, Nat.shiftRight_eq_div_pow]
  omega

/-- An update changes counts and total only. -/
theorem update_eq (sym : Nat) (c : Coder) :
    c.update sym = { c with counts := (c.update sym).counts, total := (c.update sym).total } := by
  rw [Coder.update]
  split <;> rfl

/-- The counts and the total after an update depend on those before. -/
theorem update_congr {c d : Coder} (sym : Nat) (h1 : d.counts = c.counts) (h2 : d.total = c.total) :
    (d.update sym).counts = (c.update sym).counts ∧ (d.update sym).total = (c.update sym).total := by
  simp only [Coder.update, Coder.count, h1, h2]
  split <;> exact ⟨rfl, rfl⟩

theorem counted_eq (sym : Nat) (c : Coder) :
    c.counted sym =
      { c with counts := (c.update sym).counts, total := (c.update sym).total, nsym := c.nsym + 1#32 } := by
  rw [Coder.counted, update_eq]

/-! ### Emission -/

/-- Bytes appended to STREAM RAM: what an emission that succeeds does, and nothing else. -/
def Appends (s : State) (bs : List Byte) (t : State) : Prop :=
  t = { s with mem := t.mem, rc := { s.rc with pos := t.rc.pos } }
    ∧ t.rc.pos.toNat = s.rc.pos.toNat + bs.length
    ∧ ∀ x, t.byteAt x =
        if streamBase + s.rc.pos.toNat ≤ x ∧ x < streamBase + s.rc.pos.toNat + bs.length then
          bs.getD (x - (streamBase + s.rc.pos.toNat)) 0#8
        else s.byteAt x

theorem Appends.refl (s : State) : Appends s [] s := ⟨rfl, rfl, fun x => by simp⟩

theorem Appends.caps {s t : State} {bs : List Byte} (h : Appends s bs t) : t.caps = s.caps := by rw [h.1]

theorem Appends.trans {s t u : State} {bs cs : List Byte} (h : Appends s bs t) (h' : Appends t cs u) :
    Appends s (bs ++ cs) u := by
  obtain ⟨h1, h2, h3⟩ := h
  obtain ⟨h4, h5, h6⟩ := h'
  refine ⟨by rw [h4]; rw [h1], by rw [h5, h2, List.length_append]; omega, fun x => ?_⟩
  rw [h6, h2, h3]
  simp only [List.length_append]
  by_cases ha : x < streamBase + s.rc.pos.toNat
  · rw [if_neg (by omega), if_neg (by omega), if_neg (by omega)]
  · by_cases hb : x < streamBase + s.rc.pos.toNat + bs.length
    · rw [if_neg (by omega), if_pos (by omega), if_pos (by omega), List.getD_append _ _ _ _ (by omega)]
    · by_cases hc : x < streamBase + s.rc.pos.toNat + (bs.length + cs.length)
      · rw [if_pos (by omega), if_pos (by omega), List.getD_append_right _ _ _ _ (by omega)]
        congr 1
        omega
      · rw [if_neg (by omega), if_neg (by omega), if_neg (by omega)]

/-- `emit` with room (43_range_coder.md R307). -/
theorem emit_of_lt {b : Byte} {s : State} (h : s.rc.pos.toNat < s.caps.toNat) :
    ∃ t, emit b s = .ok t ∧ Appends s [b] t := by
  refine ⟨_, by rw [emit, if_neg (by omega)], rfl, ?_, fun x => ?_⟩
  · have := s.caps.isLt
    simp [BitVec.toNat_add]
    omega
  · exact byteAt_storeBytes s _ _ x

/-- `emit` without room (43_range_coder.md R307). -/
theorem emit_of_le {b : Byte} {s : State} (h : s.caps.toNat ≤ s.rc.pos.toNat) :
    emit b s = .failed .ovf (s.withRc { s.rc with mode := .idle, pos := 0#32, len := 0#32 }) := by
  rw [emit, if_pos h]

/-- A list of bytes emitted one after the other: what `emitMany` and the flush of a push come to. -/
def emitAll : List Byte → State → CmdResult
  | [], s => .ok s
  | b :: bs, s => (emit b s).andThen (emitAll bs)

theorem andThen_assoc (r : CmdResult) (f g : State → CmdResult) :
    (r.andThen f).andThen g = r.andThen fun s => (f s).andThen g := by
  cases r <;> rfl

theorem emitAll_append (bs cs : List Byte) (s : State) :
    emitAll (bs ++ cs) s = (emitAll bs s).andThen (emitAll cs) := by
  induction bs generalizing s with
  | nil => rfl
  | cons b bs ih =>
    rw [List.cons_append, emitAll, emitAll, andThen_assoc]
    congr 1
    funext t
    exact ih t

theorem emitMany_eq (b : Byte) (n : Nat) (s : State) : emitMany b n s = emitAll (List.replicate n b) s := by
  induction n generalizing s with
  | zero => rfl
  | succ n ih =>
    rw [emitMany, List.replicate_succ, emitAll]
    congr 1
    funext t
    exact ih t

/-- Bytes with room for all of them. -/
theorem emitAll_of_le (bs : List Byte) {s : State} (h : bs = [] ∨ s.rc.pos.toNat + bs.length ≤ s.caps.toNat) :
    ∃ t, emitAll bs s = .ok t ∧ Appends s bs t := by
  induction bs generalizing s with
  | nil => exact ⟨s, rfl, .refl s⟩
  | cons b bs ih =>
    have h' : s.rc.pos.toNat + bs.length + 1 ≤ s.caps.toNat := by simpa [Nat.add_assoc] using h
    obtain ⟨t, h1, h2⟩ := emit_of_lt (b := b) (s := s) (by omega)
    obtain ⟨u, h3, h4⟩ := ih (s := t) (.inr (by rw [h2.caps, h2.2.1, List.length_singleton]; omega))
    exact ⟨u, by rw [emitAll, h1, andThen_ok, h3], h2.trans h4⟩

/-- Bytes without room for all of them: those that have room are stored, then the coder stops (43_range_coder.md R307). -/
theorem emitAll_of_gt (bs : List Byte) {s : State} (hb : bs ≠ []) (h : s.caps.toNat < s.rc.pos.toNat + bs.length) :
    ∃ u, Appends s (bs.take (s.caps.toNat - s.rc.pos.toNat)) u
      ∧ emitAll bs s = .failed .ovf (u.withRc { u.rc with mode := .idle, pos := 0#32, len := 0#32 }) := by
  induction bs generalizing s with
  | nil => exact absurd rfl hb
  | cons b bs ih =>
    rcases Nat.lt_or_ge s.rc.pos.toNat s.caps.toNat with hp | hp
    · obtain ⟨t, h1, h2⟩ := emit_of_lt (b := b) hp
      have h3 := h2.2.1
      rw [List.length_singleton] at h3
      rw [List.length_cons] at h
      have hne : bs ≠ [] := by
        rintro rfl
        simp at h
        omega
      obtain ⟨u, h4, h5⟩ := ih (s := t) hne (by rw [h2.caps, h3]; omega)
      refine ⟨u, ?_, by rw [emitAll, h1, andThen_ok, h5]⟩
      rw [h2.caps, h3] at h4
      rw [show s.caps.toNat - s.rc.pos.toNat = (s.caps.toNat - (s.rc.pos.toNat + 1)) + 1 by omega]
      exact h2.trans h4
    · rw [Nat.sub_eq_zero_of_le hp]
      exact ⟨s, .refl s, by rw [emitAll, emit_of_le hp, andThen_failed]⟩

/-! ### A push of the encoder -/

theorem shiftedLow_toNat (low : BitVec 33) : (shiftedLow low).toNat = low.toNat % 2 ^ 24 * 256 := by
  simp only [shiftedLow, BitVec.toNat_ofNat]
  omega

/-- The carry into the pending bytes (43_range_coder.md R308). -/
def carryOf (c : Coder) : Byte := BitVec.ofNat 8 (c.low.toNat / 2 ^ 24 / 2 ^ 8)

/-- The bytes that a push releases, if it releases any (43_range_coder.md R308). -/
def released (c : Coder) : List Byte :=
  (if c.started then [c.cache + carryOf c] else []) ++ List.replicate c.ffrun.toNat (0xFF#8 + carryOf c)

theorem length_released (c : Coder) : (released c).length = c.started.toNat + c.ffrun.toNat := by
  cases h : c.started <;> simp [released, h, Nat.add_comm]

/-- A push that defers: the byte leaving `low` is 0xFF. -/
theorem shiftLow_of_defer {s : State} (h : s.rc.low.toNat / 2 ^ 24 = 0xFF) :
    shiftLow s = .ok (s.withRc { s.rc with ffrun := s.rc.ffrun + 1#32, low := shiftedLow s.rc.low }) := by
  simp only [shiftLow, if_pos h]

/-- A push that releases is the emission of those bytes, then the assignments. -/
theorem shiftLow_of_release {s : State} (h : s.rc.low.toNat / 2 ^ 24 ≠ 0xFF) :
    shiftLow s = (emitAll (released s.rc) s).andThen fun t =>
      .ok (t.withRc
        { t.rc with
          ffrun := 0#32, cache := BitVec.ofNat 8 (s.rc.low.toNat / 2 ^ 24), started := true, low := shiftedLow t.rc.low }) := by
  have hc : (if s.rc.started then emit (s.rc.cache + carryOf s.rc) s else .ok s)
      = emitAll (if s.rc.started then [s.rc.cache + carryOf s.rc] else []) s := by
    cases s.rc.started
    · rfl
    · simp only [if_true, emitAll]
      cases emit (s.rc.cache + carryOf s.rc) s <;> rfl
  rw [released, emitAll_append, ← hc]
  simp only [shiftLow, if_neg h]
  congr 2
  funext t
  exact emitMany_eq _ _ t

/-- A push that releases, with room for what it releases. -/
theorem shiftLow_of_room {s : State} (h : s.rc.low.toNat / 2 ^ 24 ≠ 0xFF)
    (hr : s.rc.started.toNat + s.rc.ffrun.toNat = 0
      ∨ s.rc.pos.toNat + s.rc.started.toNat + s.rc.ffrun.toNat ≤ s.caps.toNat) :
    ∃ u, Appends s (released s.rc) u
      ∧ shiftLow s =
          .ok (u.withRc
            { u.rc with
              ffrun := 0#32
              cache := BitVec.ofNat 8 (s.rc.low.toNat / 2 ^ 24)
              started := true
              low := shiftedLow s.rc.low }) := by
  have hl := length_released s.rc
  obtain ⟨u, h1, h2⟩ := emitAll_of_le (released s.rc) (s := s) (by
    rcases hr with hr | hr
    · exact .inl (List.length_eq_zero_iff.1 (by omega))
    · exact .inr (by omega))
  have hlow : u.rc.low = s.rc.low := by rw [h2.1]
  exact ⟨u, h2, by rw [shiftLow_of_release h, h1, andThen_ok, hlow]⟩

/-- A push that releases without room: the bytes that have room are stored. -/
theorem shiftLow_of_full {s : State} (h : s.rc.low.toNat / 2 ^ 24 ≠ 0xFF)
    (hr : s.caps.toNat < s.rc.pos.toNat + s.rc.started.toNat + s.rc.ffrun.toNat)
    (hn : s.rc.started = true ∨ s.rc.ffrun ≠ 0#32) :
    ∃ u, Appends s ((released s.rc).take (s.caps.toNat - s.rc.pos.toNat)) u
      ∧ shiftLow s = .failed .ovf (u.withRc { u.rc with mode := .idle, pos := 0#32, len := 0#32 }) := by
  have hl := length_released s.rc
  have hne : released s.rc ≠ [] := by
    intro h0
    rw [h0, List.length_nil] at hl
    rcases hn with hn | hn
    · rw [hn] at hl
      simp at hl
      omega
    · exact hn (BitVec.eq_of_toNat_eq (by simp; omega))
  obtain ⟨u, h1, h2⟩ := emitAll_of_gt (released s.rc) (s := s) hne (by omega)
  exact ⟨u, h1, by rw [shiftLow_of_release h, h2, andThen_failed]⟩

/-- Pushes one after the other. -/
theorem shiftLowTimes_add (m n : Nat) (s : State) :
    shiftLowTimes (m + n) s = (shiftLowTimes m s).andThen (shiftLowTimes n) := by
  induction m generalizing s with
  | zero => simp [shiftLowTimes, andThen_ok]
  | succ m ih =>
    rw [show m + 1 + n = (m + n) + 1 by omega, shiftLowTimes, shiftLowTimes]
    cases shiftLow s with
    | ok t => exact ih t
    | failed code t => rfl

/-! ### The decoder's input -/

/-- What taking a byte changes (43_range_coder.md R312). -/
theorem shiftIn_eq (s : State) :
    shiftIn s =
      { s with
        status := { s.status with inexh := (shiftIn s).status.inexh }
        rc := { s.rc with code := (shiftIn s).rc.code, pos := (shiftIn s).rc.pos } } := rfl

/-- What the decoder's renormalisation changes (43_range_coder.md R314). -/
theorem renormDec_eq (n : Nat) (s : State) :
    renormDec n s =
      { s with
        status := { s.status with inexh := (renormDec n s).status.inexh }
        rc := { s.rc with
          range := (renormDec n s).rc.range
          code := (renormDec n s).rc.code
          pos := (renormDec n s).rc.pos } } := by
  induction n generalizing s with
  | zero => rfl
  | succ n ih =>
    rw [renormDec]
    split
    · rw [ih]
      rfl
    · rfl

theorem decoded_lt (c : Coder) : c.decoded < 256 := by
  simp only [Coder.decoded, getSymbol]
  omega

end Sys2Proof.Machine
end

