-- ==== Sys2Proof/Laws/PerInstr.lean ====
section
/-! SUPPORT. Facts of every command as syntax, one lemma per constructor. -/

namespace Sys2Proof.Laws

/-- The word of a command is legal (30_encoding.md R134), with RSVD zero (R133). -/
def EncodeLegal.Statement (i : Instr) : Prop := legalWord (encode i) = true ∧ rsvdField (encode i) = 0#16

theorem EncodeLegal.nop : EncodeLegal.Statement .nop := ⟨rfl, rfl⟩
theorem EncodeLegal.grad : EncodeLegal.Statement .grad := ⟨rfl, rfl⟩
theorem EncodeLegal.fftFwd : EncodeLegal.Statement .fftFwd := ⟨rfl, rfl⟩
theorem EncodeLegal.fftInv : EncodeLegal.Statement .fftInv := ⟨rfl, rfl⟩
theorem EncodeLegal.pltmFwd : EncodeLegal.Statement .pltmFwd := ⟨rfl, rfl⟩
theorem EncodeLegal.pltmInv : EncodeLegal.Statement .pltmInv := ⟨rfl, rfl⟩
theorem EncodeLegal.thresh : EncodeLegal.Statement .thresh := ⟨rfl, rfl⟩
theorem EncodeLegal.rcInitEnc : EncodeLegal.Statement .rcInitEnc := ⟨rfl, rfl⟩

theorem EncodeLegal.rcEnc (sym : Byte) : EncodeLegal.Statement (.rcEnc sym) := by
  unfold EncodeLegal.Statement
  revert sym
  decide +kernel

theorem EncodeLegal.rcFinish : EncodeLegal.Statement .rcFinish := ⟨rfl, rfl⟩
theorem EncodeLegal.rcInitDec : EncodeLegal.Statement .rcInitDec := ⟨rfl, rfl⟩
theorem EncodeLegal.rcDec : EncodeLegal.Statement .rcDec := ⟨rfl, rfl⟩
theorem EncodeLegal.quant : EncodeLegal.Statement .quant := ⟨rfl, rfl⟩
theorem EncodeLegal.dequant : EncodeLegal.Statement .dequant := ⟨rfl, rfl⟩

end Sys2Proof.Laws
end

