-- ==== Sys2Proof/Laws/Spectral.lean ====
section
/-! SUPPORT. What the operations of the spectral unit leave of their arguments' shape, and the mask and the zeroed bins of
the threshold. -/

namespace Sys2Proof.Machine

/-- A fold keeps what every turn keeps. -/
theorem foldl_keeps {α β : Type} (P : α → Prop) (f : α → β → α) (l : List β) (h : ∀ a b, P a → P (f a b)) (a : α)
    (ha : P a) : P (l.foldl f a) := by
  induction l generalizing a with
  | nil => exact ha
  | cons b l ih => exact ih _ (h _ _ ha)

/-- Both arrays have 64 entries. -/
def Arrays.Full (v : Arrays) : Prop := v.re.length = 64 ∧ v.im.length = 64

theorem bitReverse_full {v : Arrays} (h : v.Full) : (bitReverse v).Full := by
  refine foldl_keeps Arrays.Full _ _ (fun v i hv => ?_) _ h
  split
  · exact ⟨by simpa [swapEntries] using hv.1, by simpa [swapEntries] using hv.2⟩
  · exact hv

theorem stage_full {v : Arrays} (h : v.Full) (dir : Dir) (len : Nat) : (stage dir len v).Full := by
  refine foldl_keeps Arrays.Full _ _ (fun v n hv => ?_) _ h
  refine foldl_keeps Arrays.Full _ _ (fun v n hv => ?_) _ hv
  exact ⟨by simpa [butterfly] using hv.1, by simpa [butterfly] using hv.2⟩

theorem fft64_full {v : Arrays} (h : v.Full) (dir : Dir) : (fft64 v dir).Full := by
  have hs : ([2, 4, 8, 16, 32, 64].foldl (fun v len => stage dir len v) (bitReverse v)).Full :=
    foldl_keeps Arrays.Full _ _ (fun v n hv => stage_full hv dir n) _ (bitReverse_full h)
  cases dir
  · exact hs
  · generalize hw : [2, 4, 8, 16, 32, 64].foldl (fun v len => stage .inv len v) (bitReverse v) = w at hs
    have : fft64 v .inv = { re := w.re.map (fdiv · 0x42800000#32), im := w.im.map (fdiv · 0x42800000#32) } := by
      rw [← hw]
      rfl
    rw [this]
    exact ⟨by rw [List.length_map]; exact hs.1, by rw [List.length_map]; exact hs.2⟩

theorem length_interleave (a b : List F32) : (interleave a b).length = 2 * min a.length b.length := by
  induction a generalizing b with
  | nil => simp [interleave]
  | cons x a ih =>
    cases b with
    | nil => simp [interleave]
    | cons y b =>
      simp [interleave, ih]
      omega

theorem getD_interleave (a b : List F32) (i : Nat) (ha : i < a.length) (hb : i < b.length) :
    (interleave a b).getD (2 * i) 0#32 = a.getD i 0#32 ∧ (interleave a b).getD (2 * i + 1) 0#32 = b.getD i 0#32 := by
  induction a generalizing b i with
  | nil => simp at ha
  | cons x a ih =>
    cases b with
    | nil => simp at hb
    | cons y b =>
      cases i with
      | zero => exact ⟨rfl, rfl⟩
      | succ i =>
        have := ih b i (by simpa using ha) (by simpa using hb)
        rw [interleave, show 2 * (i + 1) = (2 * i + 1) + 1 by omega,
          show (2 * i + 1 + 1) + 1 = ((2 * i + 1) + 1) + 1 from rfl]
        simpa using this

/-- The bits of a mask. -/
theorem maskOf_getLsbD (p : Nat → Bool) (k : Nat) (hk : k < 64) : (maskOf p).getLsbD k = p k := by
  have key (l : List Nat) (m : BitVec 64) :
      (l.foldl (fun m k => if p k then m ||| BitVec.twoPow 64 k else m) m).getLsbD k
        = (m.getLsbD k || (decide (k ∈ l) && p k)) := by
    induction l generalizing m with
    | nil => simp
    | cons a l ih =>
      rw [List.foldl_cons, ih]
      by_cases hp : p a
      · simp only [hp, if_true, BitVec.getLsbD_or, BitVec.getLsbD_twoPow]
        by_cases hka : k = a
        · subst hka
          simp [hp, hk]
        · have : (a = k) = False := eq_false fun h => hka h.symm
          simp [hka, this]
      · rw [if_neg hp]
        by_cases hka : k = a
        · subst hka
          simp [hp]
        · simp [hka]
  rw [maskOf, key]
  simp [hk]

/-- Zeroing bins touches memory only. -/
theorem zeroBins_eq (ks : List Nat) (s : State) : zeroBins s ks = { s with mem := (zeroBins s ks).mem } := by
  induction ks generalizing s with
  | nil => rfl
  | cons k ks ih =>
    show zeroBins (s.storeWords _ _) ks = _
    rw [ih]
    rfl

/-- The bytes after zeroing bins. -/
theorem byteAt_zeroBins (ks : List Nat) (s : State) (x : Nat) :
    (zeroBins s ks).byteAt x = if ∃ k ∈ ks, 0x200 + 8 * k ≤ x ∧ x < 0x200 + 8 * k + 8 then 0#8 else s.byteAt x := by
  induction ks generalizing s with
  | nil => simp [zeroBins]
  | cons k ks ih =>
    show (zeroBins (s.storeWords (coefBase + 8 * k) [0#32, 0#32]) ks).byteAt x = _
    rw [ih]
    by_cases h : ∃ k ∈ ks, 0x200 + 8 * k ≤ x ∧ x < 0x200 + 8 * k + 8
    · obtain ⟨j, hj, h⟩ := h
      rw [if_pos ⟨j, hj, h⟩, if_pos ⟨j, List.mem_cons_of_mem _ hj, h⟩]
    · rw [if_neg h]
      by_cases hk : 0x200 + 8 * k ≤ x ∧ x < 0x200 + 8 * k + 8
      · rw [if_pos ⟨k, List.mem_cons_self .., hk⟩, State.storeWords, byteAt_storeBytes,
          if_pos (by simp only [coefBase]; simp; omega)]
        obtain ⟨d, rfl⟩ : ∃ d, x = 0x200 + 8 * k + d := ⟨x - (0x200 + 8 * k), by omega⟩
        have : d < 8 := by omega
        rw [show 0x200 + 8 * k + d - (coefBase + 8 * k) = d by simp only [coefBase]; omega]
        interval_cases d <;> rfl
      · rw [if_neg, State.storeWords, byteAt_storeBytes, if_neg (by simp only [coefBase]; simp; omega)]
        rintro ⟨j, hj, hx⟩
        rcases List.mem_cons.1 hj with rfl | hj
        · exact hk hx
        · exact h ⟨j, hj, hx⟩

end Sys2Proof.Machine
end

