-- ==== Sys2Proof/Tests/Slice0.lean ====
section
/-! SUPPORT. Tests: words written out from the spec's encoding, refused words, the vectors of 95_test_vectors.md one step
at a time, and a state or an input that meets the hypotheses of each statement that has any. -/

namespace Sys2Proof.Tests

set_option Elab.async false

open Sys2Proof Sys2Proof.Machine Sys2Proof.Claims

/-! ### Small states and outcomes -/

/-- The outcome is a next state. -/
def isNext : Host.Outcome State Fault Refusal → Bool
  | .next _ => true
  | .fault _ => false
  | .refused _ => false

/-- The next state of an outcome that has one. -/
def stateOf : Host.Outcome State Fault Refusal → State
  | .next t => t
  | .fault _ => State.reset
  | .refused _ => State.reset

theorem next_stateOf {r : Host.Outcome State Fault Refusal} (h : isNext r = true) : r = .next (stateOf r) := by
  cases r with
  | next t => rfl
  | fault f => cases h
  | refused f => cases h

/-- The state after a command. -/
def after (i : Instr) (s : State) : State := stateOf (exec i s)

/-- The state after commands. -/
def afterAll (is : List Instr) (s : State) : State := is.foldl (fun s i => after i s) s

/-- A patch in PATCH RAM. -/
def withPatch (f : Nat → F32) : State := State.reset.storeWords 0x100 ((List.range 64).map f)

/-- Every bin (+0, +0). -/
def zeroBinsState : State := State.reset.storeWords 0x200 (List.replicate 128 0#32)

/-- Bin `k` set. -/
def withBin (k : Nat) (re im : F32) (s : State) : State := s.storeWords (0x200 + 8 * k) [re, im]

/-- A record of one entry. -/
def oneEntry (idx qre qim : Byte) (maxval : F32) : State :=
  { (State.reset.storeBytes 0x400 [idx]).storeBytes 0x480 [qre, qim] with kcount := 1#7, maxval := maxval }

/-- The seven bytes of section 2.6 in STREAM, RC_INLEN = 7. -/
def sevenBytes : State :=
  { State.reset.storeBytes 0x100000 [0x47#8, 0x41#8, 0x10#8, 0x05#8, 0xB6#8, 0xE0#8, 0x00#8] with inlen := 7#32 }

/-! ### Decoding: every command's word, bit by bit from the opcode map (30_encoding.md R130 to R132) -/

theorem test_decode_nop : decode 0b00000000_00000000_00000000_00000000#32 = .ok .nop := by decide
theorem test_decode_grad : decode 0b00000000_00000000_00000000_00010000#32 = .ok .grad := by decide
theorem test_decode_fftFwd : decode 0b00000000_00000000_00000000_00100000#32 = .ok .fftFwd := by decide
theorem test_decode_fftInv : decode 0b00000000_00000000_00000000_00100001#32 = .ok .fftInv := by decide
theorem test_decode_pltmFwd : decode 0b00000000_00000000_00000000_00100010#32 = .ok .pltmFwd := by decide
theorem test_decode_pltmInv : decode 0b00000000_00000000_00000000_00100011#32 = .ok .pltmInv := by decide
theorem test_decode_thresh : decode 0b00000000_00000000_00000000_00100100#32 = .ok .thresh := by decide
theorem test_decode_rcInitEnc : decode 0b00000000_00000000_00000000_00110000#32 = .ok .rcInitEnc := by decide
theorem test_decode_rcEnc : decode 0b00000000_00000000_01000001_00110001#32 = .ok (.rcEnc 0x41#8) := by decide
theorem test_decode_rcEnc_max : decode 0b00000000_00000000_11111111_00110001#32 = .ok (.rcEnc 0xFF#8) := by decide
theorem test_decode_rcFinish : decode 0b00000000_00000000_00000000_00110010#32 = .ok .rcFinish := by decide
theorem test_decode_rcInitDec : decode 0b00000000_00000000_00000000_00111000#32 = .ok .rcInitDec := by decide
theorem test_decode_rcDec : decode 0b00000000_00000000_00000000_00111001#32 = .ok .rcDec := by decide
theorem test_decode_quant : decode 0b00000000_00000000_00000000_01000000#32 = .ok .quant := by decide
theorem test_decode_dequant : decode 0b00000000_00000000_00000000_01000001#32 = .ok .dequant := by decide

/-! ### Refused words, one for each check of WellFormed (30_encoding.md R133, R131, R132; section 2.1) -/

theorem test_refuse_rsvd :
    rsvdZero 0x00010031#32 = false ∧ legalWord 0x00010031#32 = false
      ∧ decode 0x00010031#32 = .error .rsvdNonzero := by decide
theorem test_refuse_opc :
    opcDefined 0x00000001#32 = false ∧ legalWord 0x00000001#32 = false
      ∧ decode 0x00000001#32 = .error .reservedOpc := by decide
theorem test_refuse_opc_high : legalWord 0x000000FF#32 = false ∧ decode 0x000000FF#32 = .error .reservedOpc := by decide
theorem test_refuse_arg :
    argAllowed 0x00000110#32 = false ∧ legalWord 0x00000110#32 = false
      ∧ decode 0x00000110#32 = .error .argNonzero := by decide
theorem test_wellFormed : (Instr.rcEnc 0xFF#8).wellFormed = true ∧ Instr.dequant.wellFormed = true := by decide
theorem test_table_word : decodeTableWord 16 0xFF31 = some (.rcEnc 0xFF#8) ∧ decodeTableWord 8 0x01 = none := by decide

/-! ### The step -/

theorem test_step_runs_fetched_word :
    isNext (step (State.reset.withFetchWord 32 0x10)) = true
      ∧ step (State.reset.withFetchWord 16 0x4131) = exec (.rcEnc 0x41#8) (State.reset.withFetchWord 16 0x4131) :=
  ⟨by decide +kernel, rfl⟩

/-- Section 2.1: a second CMD write while BUSY reads 0x205, and 0x206 once the first command has completed. -/
theorem test_busy_error_kept_over_completion :
    (hostWrite 4 0x008#21 0x10#32 (latch 0#32 State.reset)).status.word = 0x00000205#32
      ∧ (after .nop (hostWrite 4 0x008#21 0x10#32 (latch 0#32 State.reset))).status.word = 0x00000206#32 := by
  decide +kernel

/-! ### The slave port (section 2.2) -/

theorem test_read_unmapped :
    (hostRead 4 0x018#21 State.reset).readData = 0#32
      ∧ (hostRead 4 0x018#21 State.reset).status.word = 0x00000704#32 := by decide +kernel
theorem test_read_misaligned : (hostRead 4 0x102#21 State.reset).status.word = 0x00000704#32 := by decide +kernel
theorem test_illegal_word : (hostWrite 4 0x008#21 0x1#32 State.reset).status.word = 0x00000104#32 := by decide +kernel

/-- STATUS = 0x31E. -/
def status31E : State :=
  { State.reset with
    status := { busy := false, done := true, err := true, nf := true, inexh := true, ecode := .param } }

theorem test_status_clear :
    status31E.status.word = 0x31E#32 ∧ (hostWrite 4 0x00C#21 0x4#32 status31E).status.word = 0x1A#32 := by
  decide +kernel
theorem test_idx_word_bytes :
    (hostWrite 4 0x400#21 0x00090500#32 State.reset).byteAt 0x401 = 0x05#8
      ∧ (hostWrite 4 0x400#21 0x00090500#32 State.reset).byteAt 0x402 = 0x09#8 := by decide +kernel

/-! ### The commands (sections 2.2 to 2.6), at most two each -/

theorem test_nop : (after .nop State.reset).status.word = 0x2#32 := by decide +kernel

/-- The step patch: 0.0 for x < 4, else 1.0. -/
theorem test_grad_step :
    (after .grad (withPatch fun i => if i % 8 < 4 then 0#32 else 0x3F800000#32)).gr.dx = 0x3E124925#32 := by
  decide +kernel

/-- The vdown patch: (7 - y) / 7. -/
theorem test_grad_vdown :
    (after .grad (withPatch fun i => fdiv (i2f (7 - i / 8 : Nat)) 0x40E00000#32)).gr =
      { dx := 0#32, dy := 0xBE124921#32, mag := 0x3E124921#32, angle := 0xBFC90FDB#32, aidx := 191#8,
        theta := 0x4096CBE4#32 } := by decide +kernel

/-- The diagonal's angle, an arctangent that is not a table value's. -/
theorem test_atan2_diag : atan2F32 0x3D924921#32 0x3D924921#32 = 0x3F490FDB#32 := by decide +kernel
/-- An ATAN2_F32 that differs from the default at one pair; an entry outside the admitted range is none. -/
theorem test_atan2_parameter :
    atan2At [⟨0x3F800000#32, 0x3F800000#32, 0x3F490FDC#32⟩] 0x3F800000#32 0x3F800000#32 = 0x3F490FDC#32
      ∧ atan2At [⟨0x3F800000#32, 0x3F800000#32, 0x40490FDC#32⟩] 0x3F800000#32 0x3F800000#32 = 0x3F490FDB#32 := by
  decide +kernel
theorem test_normAngle :
    normAngle 0xB22BCC77#32 = 0#32 ∧ angleIndex 0x40C90FDA#32 = 254#8 ∧ angleIndex 0x40C00000#32 = 243#8 := by
  decide +kernel

theorem test_fftFwd_impulse :
    ((after .fftFwd (withPatch fun i => if i = 1 then 0x3F800000#32 else 0#32)).wordsAt 0x240 2)
      = [0x3F3504F3#32, 0xBF3504F3#32] := by decide +kernel

/-- The inverse of a constant spectrum's bin 0: 32.0 / 64 at every sample. -/
theorem test_fftInv_dc :
    entry (fft64 ⟨0x42000000#32 :: List.replicate 63 0#32, List.replicate 64 0#32⟩ .inv).re 63 = 0x3F000000#32 := by
  decide +kernel
theorem test_fftInv_nf :
    anyNonFinite [0x3F800000#32, 0x7F800000#32] = true ∧ anyNonFinite [0x7FC00000#32] = true
      ∧ anyNonFinite [0x7F7FFFFF#32] = false := by decide +kernel

theorem test_pltmFwd_bin2 :
    ((after .pltmFwd { withBin 2 0x3F800000#32 0xBF000000#32 zeroBinsState with sParam := 0x3F000000#32 }).wordsAt 0x210 2)
      = [0x3F3504F3#32, 0xBEB504F3#32] := by decide +kernel
theorem test_pltmFwd_param :
    (after .pltmFwd { State.reset with sParam := 0xBDCCCCCD#32 }).status.word = 0x306#32 := by decide +kernel

theorem test_pltmInv_cap :
    ((after .pltmInv (withBin 5 0x40400000#32 0x40800000#32 zeroBinsState)).wordsAt 0x228 2)
      = [0x4019999A#32, 0x404CCCCD#32] := by decide +kernel
theorem test_pltmInv_gate :
    (after .pltmInv (withBin 1 0x38D1B717#32 0#32 zeroBinsState)).wordAt 0x208 = 0#32
      ∧ (after .pltmInv (withBin 1 0x38D1B718#32 0#32 zeroBinsState)).wordAt 0x208 = 0x38D1B718#32 := by
  decide +kernel

/-- Bin 3 of the THRESH table, T = 0.5: one is zeroed; one whose squared magnitude rounds to t² itself is kept. -/
theorem test_thresh_bins :
    belowThreshold { withBin 3 0x3EFFFFFF#32 0#32 State.reset with tParam := 0x3F000000#32 } 3 = true
      ∧ belowThreshold { withBin 3 0x3E99999A#32 0x3ECCCCCD#32 State.reset with tParam := 0x3F000000#32 } 3 = false := by
  decide +kernel
theorem test_thresh_param :
    (after .thresh { State.reset with tParam := 0xBF800000#32 }).status.word = 0x306#32 := by decide +kernel

theorem test_rcInitEnc : readReg .rcState (after .rcInitEnc State.reset) = 1#32 := by decide +kernel

/-- The encoder after RC_INIT_ENC; RC_ENC 0x47. -/
theorem test_rcEnc :
    (afterAll [.rcInitEnc, .rcEnc 0x47#8] State.reset).rc.low = 0x0FFFFB900#33
      ∧ (afterAll [.rcInitEnc, .rcEnc 0x47#8] State.reset).rc.range = 0xFFFFFF00#32
      ∧ (afterAll [.rcInitEnc, .rcEnc 0x47#8] State.reset).rc.cache = 0x46#8 := by decide +kernel
theorem test_rcEnc_mode : (after (.rcEnc 5#8) State.reset).status.word = 0x506#32 := by decide +kernel

/-- The stream of `40 40`: a carry and a deferred 0xFF at RC_FINISH. -/
theorem test_rcFinish_carry :
    (List.range 5).map (afterAll [.rcInitEnc, .rcEnc 0x40#8, .rcEnc 0x40#8, .rcFinish] State.reset).stream
      = [0x40#8, 0x3F#8, 0xBF#8, 0xFF#8, 0x80#8] := by decide +kernel
/-- The example of R311 with room for four of its bytes: they stay (R307). -/
theorem test_rcFinish_ovf :
    (afterAll [.rcInitEnc, .rcEnc 0x47#8, .rcEnc 0x41#8, .rcEnc 0x50#8, .rcFinish]
        { State.reset with caps := 4#32 }).status.word = 0x606#32
      ∧ (List.range 4).map (afterAll [.rcInitEnc, .rcEnc 0x47#8, .rcEnc 0x41#8, .rcEnc 0x50#8, .rcFinish]
          { State.reset with caps := 4#32 }).stream = [0x47#8, 0x41#8, 0x10#8, 0x05#8] := by decide +kernel

theorem test_rcInitDec : (after .rcInitDec sevenBytes).rc.code = 0x47411005#32 := by decide +kernel
theorem test_rcInitDec_param :
    (after .rcInitDec { State.reset with inlen := 0x00100001#32 }).status.word = 0x306#32 := by decide +kernel

theorem test_rcDec :
    (afterAll [.rcInitDec, .rcDec, .rcDec] sevenBytes).rc.sym = 0x41#8
      ∧ (afterAll [.rcInitDec, .rcDec, .rcDec] sevenBytes).rc.code = 0x510C38E0#32 := by decide +kernel

/-- Input FF FF FF FF: the value is past the total. -/
theorem test_rcDec_past_total :
    (afterAll [.rcInitDec, .rcDec]
        { State.reset.storeBytes 0x100000 [0xFF#8, 0xFF#8, 0xFF#8, 0xFF#8] with inlen := 4#32 }).rc.code
      = 0x0000FE00#32 := by decide +kernel

/-- The parts of the first row of the QUANT table, MaxVal 20.0. -/
theorem test_quant_parts :
    ([0x41A00000#32, 0xC1200000#32, 0x40E9999A#32, 0x3D8F5C29#32, 0xC19FEB85#32].map fun x => quant8 x 0x41A00000#32)
      = [0x7F#8, 0xC1#8, 0x2E#8, 0x00#8, 0x82#8] := by decide +kernel
/-- A NaN part does not enter MaxVal, and quantises to 0. -/
theorem test_quant_nan :
    maxStep 0x40000000#32 0x7FC00000#32 0#32 = 0x40000000#32 ∧ quant8 0x7FC00000#32 0x40000000#32 = 0#8 := by
  decide +kernel

theorem test_dequant :
    ((after .dequant (oneEntry 3#8 0x81#8 95#8 0x40800000#32)).wordsAt 0x218 2) = [0xC0800000#32, 0x403F7EFE#32] := by
  decide +kernel
theorem test_dequant_badidx : (after .dequant (oneEntry 64#8 0#8 0#8 0x3F800000#32)).status.word = 0x406#32 := by
  decide +kernel

/-! ### What meets the hypotheses of the statements -/

/-- An open encoder. -/
def encoding : State := { State.reset with rc := { Coder.reset with mode := .enc } }

/-- An open decoder. -/
def decoding : State := { State.reset with rc := { Coder.reset with mode := .dec } }

/-- A pending NOP with one step to go, and a read in the queue. -/
def pending : State := { latch 0#32 State.reset with delay := 1, host := [.read 4 0x100#21] }

/-- The fresh model is good. -/
theorem fresh_modelOk {c : Coder} (h1 : c.counts = List.replicate 256 1#32) (h2 : c.total = 256#32) : c.ModelOk := by
  have hc : cum (List.replicate 256 1#32) 256 = 256 := by decide +kernel
  rw [Coder.ModelOk, h1, h2]
  exact ⟨List.length_replicate, fun x hx => by rw [List.eq_of_mem_replicate hx]; decide, hc, by decide, by decide⟩

theorem encoding_ok : encoding.rc.Ok :=
  ⟨fresh_modelOk rfl rfl, fun _ => by decide, fun _ => ⟨by decide, fun _ => by decide⟩⟩

theorem decoding_ok : decoding.rc.Ok := ⟨fresh_modelOk rfl rfl, fun _ => by decide, fun h => nomatch h⟩

theorem capsLegal_reset : State.reset.CapsLegal := ⟨by decide, by decide, by decide⟩

theorem pending_safe : pending.Safe :=
  ⟨capsLegal_reset, ⟨.nil, fun _ h => nomatch h⟩, ⟨rfl, fun w h => by cases h; decide⟩, ⟨fun _ => rfl, fun _ => rfl⟩,
    fresh_modelOk rfl rfl, fun h => absurd h (by decide), fun h => absurd h (by decide)⟩

theorem witness_EveryCommandDecodesFromItsWord : (Instr.rcEnc 0xFF#8).wellFormed = true := rfl

theorem witness_LegalWordsAreTheCommandWords :
    State.reset.status.busy = false ∧ legalWord 0x00010031#32 = false := by decide

theorem witness_DecodedWordsEncodeBack : decode 0x0000FF31#32 = .ok (.rcEnc 0xFF#8) ∧ decode 0x41#32 = .ok .dequant := by
  decide

theorem witness_StepCompletesTheCommandOrTakesOneEvent :
    (decode 0x10#32 = .ok .grad ∧ (latch 0x10#32 State.reset).pcmd = some 0x10#32
      ∧ (latch 0x10#32 State.reset).delay = 0)
    ∧ State.reset.pcmd = none ∧ pending.delay ≠ 0 := by decide

theorem witness_CommandIssueOrder :
    pending.status.busy = true ∧ State.reset.status.busy = false ∧ legalWord 0x00000110#32 = false
      ∧ legalWord 0x0000FF31#32 = true := by decide

theorem witness_IllegalAccessOnlySignals :
    ¬legalAccess State.reset.caps 4 0x440#21 ∧ ¬legalAccess State.reset.caps 4 0x0B4#21
      ∧ ¬legalAccess State.reset.caps 4 0x102#21 ∧ ¬legalAccess State.reset.caps 2 0x100#21 := by
  unfold legalAccess inRam
  decide

theorem witness_BusyBlockAdmitsSixRegisters :
    legalAccess pending.caps 4 0x100#21 ∧ legalAccess pending.caps 4 0x014#21 ∧ pending.status.busy = true
      ∧ (0x100#21).toNat ∉ [0x000, 0x004, 0x008, 0x00C, 0x010, 0x014] ∧ (0x014#21).toNat ∉ [0x008, 0x00C, 0x010]
      ∧ (0x014#21).toNat ∈ [0x000, 0x004, 0x008, 0x00C, 0x010, 0x014] ∧ State.reset.status.busy = false := by
  unfold legalAccess inRam
  decide

theorem witness_ReadOnlyWritesAreIgnored :
    State.reset.status.busy = false ∧ (0x0B0#21).toNat ∈ readOnlyOffsets
      ∧ (0x800 ≤ (0x800#21).toNat ∧ (0xBFC#21).toNat < 0xC00 ∧ (0xBFC#21).toNat % 4 = 0) := by decide

theorem witness_RegisterWritesStoreTheirFields : State.reset.status.busy = false := rfl

theorem witness_RamWordsReadBack :
    State.reset.status.busy = false ∧ State.reset.CapsLegal ∧ (0x1FFFFC#21).toNat % 4 = 0
      ∧ inRam State.reset.caps (0x1FFFFC#21).toNat ∧ inRam State.reset.caps (0x43C#21).toNat
      ∧ inRam State.reset.caps (0x480#21).toNat := by
  unfold State.CapsLegal inRam
  decide

theorem witness_StatusWritesClearByOnes : (0x4#32).getLsbD 2 = true ∧ (0x3#32).getLsbD 2 = false := by decide

theorem witness_FirstErrorIsKept : status31E.status.err = true ∧ State.reset.status.err = false := by decide

theorem witness_HostReadsShowTheState :
    State.reset.status.busy = false ∧ State.reset.CapsLegal ∧ (0x100#21).toNat % 4 = 0
      ∧ inRam State.reset.caps (0x100#21).toNat ∧ inRam State.reset.caps (0x4FC#21).toNat
      ∧ inRam State.reset.caps (0x1FFFFC#21).toNat := by
  unfold State.CapsLegal inRam
  decide

theorem witness_PstatShowsValidityAtOnce : State.reset.status.busy = false := rfl

theorem witness_ResetAbandonsThePendingCommand :
    ({ pending with host := [.reset] } : State).host = .reset :: [] ∧ ({ pending with host := [.reset] } : State).delay ≠ 0
      ∧ pending.pcmd = some 0#32 := by decide

/-- A NaN, values whose product by 10 is an infinity, and one past the last row. -/
theorem witness_ParameterValidityBounds :
    isNaN 0x7FC00000#32 = true ∧ isNaN 0x7F7FFFFF#32 = false ∧ fmul 0x7F7FFFFF#32 0x41200000#32 = 0x7F800000#32
      ∧ fmul 0xFF7FFFFF#32 0x41200000#32 = 0xFF800000#32 ∧ isFinite (fmul 0x40CCCCCD#32 0x41200000#32) = true := by
  decide +kernel

theorem witness_GradWritesTheGradient :
    isNaN (after .grad (withPatch fun i => if i = 10 then 0x7FC00000#32 else 0x3F000000#32)).gr.theta = true
      ∧ isNaN (after .grad (withPatch fun _ => 0x3F000000#32)).gr.theta = false := by decide +kernel

theorem witness_PltmFwdWeighsTheBins : svalid 0x40CCCCCC#32 = true ∧ svalid 0x40CCCCCD#32 = false := by decide +kernel

/-- Bin 1 at the gate, one step above it, and a bin 5 past the cap, at row 0. -/
theorem witness_PltmInvGatesWeighsAndCaps :
    svalid 0#32 = true ∧ svalid 0xBDCCCCCD#32 = false
      ∧ fle (mag2 0x38D1B717#32 0#32) (fmul (noiseFloor 1) (noiseFloor 1)) = true
      ∧ fle (mag2 0x38D1B718#32 0#32) (fmul (noiseFloor 1) (noiseFloor 1)) = false
      ∧ fle (mag2 0x40400000#32 0x40800000#32) (fmul (noiseFloor 5) (noiseFloor 5)) = false
      ∧ fgt (fsqrt (mag2 0x40400000#32 0x40800000#32)) 0x40800000#32 = true
      ∧ fgt (fsqrt (mag2 0x40800000#32 0#32)) 0x40800000#32 = false := by decide +kernel

theorem witness_ThreshZeroesTheSmallBins :
    tvalid 0x80000000#32 = true ∧ tvalid 0xBF000000#32 = false
      ∧ flt (mag2 0x3EFFFFFF#32 0#32) (fmul 0x3F000000#32 0x3F000000#32) = true
      ∧ flt (mag2 0x3F000000#32 0#32) (fmul 0x3F000000#32 0x3F000000#32) = false := by decide +kernel

/-- STREAM with just the room asked for. -/
theorem witness_RcEncTakesTheSymbolsInterval :
    (({ encoding with caps := 3#32 } : State).rc.mode = .enc ∧ ({ encoding with caps := 3#32 } : State).rc.Ok
      ∧ ({ encoding with caps := 3#32 } : State).rc.pos.toNat + ({ encoding with caps := 3#32 } : State).rc.ffrun.toNat + 3
          ≤ ({ encoding with caps := 3#32 } : State).caps.toNat)
    ∧ State.reset.rc.mode ≠ .enc := ⟨⟨rfl, encoding_ok, by decide⟩, by decide⟩

/-- An open encoder with a cache byte and four bytes in a STREAM of `caps` bytes. -/
def held (caps : Word) : State :=
  { encoding with caps := caps, rc := { encoding.rc with started := true, cache := 0x46#8, pos := 4#32 } }

theorem held_ok (caps : Word) : (held caps).rc.Ok :=
  ⟨fresh_modelOk rfl rfl, fun _ => by show top ≤ (0xFFFFFFFF#32).toNat; decide,
    fun _ => ⟨by show (0#33).toNat + (0xFFFFFFFF#32).toNat ≤ 2 ^ 33; decide,
      fun _ => by show (0#33).toNat + (0xFFFFFFFF#32).toNat ≤ 2 ^ 32; decide⟩⟩

/-- `held` after the interval of symbol 1 in the fresh model is taken. -/
def heldNarrowed : Coder := { (held 4#32).rc with low := 16777215#33, range := 16777215#32 }

/-- Symbol 1 after `held`: one turn, which releases the cache byte; it fits in five bytes and not in four. -/
theorem witness_RcEncTakesTheSymbolsInterval_turns :
    ((held 5#32).rc.mode = .enc ∧ (held 5#32).rc.Ok ∧ (held 4#32).rc.Ok)
    ∧ (16777215 = (held 5#32).rc.range.toNat / (held 5#32).rc.total.toNat
      ∧ 16777215 = ((held 5#32).rc.counts.getD (1#8).toNat 0#32).toNat * 16777215
      ∧ heldNarrowed = { (held 5#32).rc with
          low := BitVec.ofNat 33 ((held 5#32).rc.low.toNat + cum (held 5#32).rc.counts (1#8).toNat * 16777215)
          range := BitVec.ofNat 32 16777215 }
      ∧ 2 ^ 24 ≤ 16777215 * 256 ^ 1 ∧ 16777215 * 256 ^ (1 - 1) < 2 ^ 24)
    ∧ (held 5#32).rc.pos.toNat + (outBytes renormTurn 1 heldNarrowed).length ≤ (held 5#32).caps.toNat
    ∧ (held 4#32).rc.pos.toNat + (outBytes renormTurn 0 heldNarrowed).length ≤ (held 4#32).caps.toNat
    ∧ (held 4#32).caps.toNat < (held 4#32).rc.pos.toNat + (outBytes renormTurn (0 + 1) heldNarrowed).length := by
  refine ⟨⟨rfl, held_ok _, held_ok _⟩, ?_⟩
  decide +kernel

/-- The five pushes after `held` release five bytes: all fit in nine, none in four. -/
theorem witness_RcFinishWritesTheNumber_pushes :
    (held 9#32).rc.pos.toNat + (outBytes pushed 5 (held 9#32).rc).length ≤ (held 9#32).caps.toNat
    ∧ (held 4#32).rc.pos.toNat + (outBytes pushed 0 (held 4#32).rc).length ≤ (held 4#32).caps.toNat
    ∧ (held 4#32).caps.toNat < (held 4#32).rc.pos.toNat + (outBytes pushed (0 + 1) (held 4#32).rc).length := by
  decide +kernel

theorem witness_RcFinishWritesTheNumber :
    (({ encoding with caps := 4#32 } : State).rc.mode = .enc ∧ ({ encoding with caps := 4#32 } : State).rc.Ok
      ∧ heldBytes ({ encoding with caps := 4#32 } : State).rc + 4 ≤ ({ encoding with caps := 4#32 } : State).caps.toNat)
    ∧ (({ encoding with caps := 3#32 } : State).rc.Ok
      ∧ ({ encoding with caps := 3#32 } : State).rc.ffrun.toNat + 4 < 2 ^ 32
      ∧ ({ encoding with caps := 3#32 } : State).caps.toNat < heldBytes ({ encoding with caps := 3#32 } : State).rc + 4)
    ∧ State.reset.rc.mode ≠ .enc := ⟨⟨rfl, encoding_ok, by decide⟩, ⟨encoding_ok, by decide, by decide⟩, by decide⟩

theorem witness_RcInitDecTakesFourBytes :
    ({ State.reset with inlen := 0x00100000#32 } : State).inlen.toNat ≤ State.reset.caps.toNat
      ∧ State.reset.caps.toNat < ({ State.reset with inlen := 0x00100001#32 } : State).inlen.toNat := by decide

theorem witness_RcDecFindsTheSymbol : (decoding.rc.mode = .dec ∧ decoding.rc.Ok) ∧ State.reset.rc.mode ≠ .dec :=
  ⟨⟨rfl, decoding_ok⟩, by decide⟩

/-- A record of 64 entries, a count of 65, and a record with a repeated index. -/
theorem witness_DequantScattersTheRecord :
    (({ State.reset.storeBytes 0x400 ((List.range 64).map (BitVec.ofNat 8)) with kcount := 64#7 } : State).kcount.toNat ≤ 64
      ∧ (∀ j, j < 64 →
          (({ State.reset.storeBytes 0x400 ((List.range 64).map (BitVec.ofNat 8)) with kcount := 64#7 } : State).byteAt
            (0x400 + j)).toNat = j))
    ∧ 64 < ({ State.reset with kcount := 65#7 } : State).kcount.toNat
    ∧ ((State.reset.storeBytes 0x400 [3#8, 3#8]).byteAt (0x400 + 1)).toNat
        ≤ ((State.reset.storeBytes 0x400 [3#8, 3#8]).byteAt (0x400 + (1 - 1))).toNat := by decide +kernel

theorem witness_EveryCompletionSetsDone :
    exec (.rcEnc 5#8) status31E = .next (after (.rcEnc 5#8) status31E) ∧ status31E.status.err = true :=
  ⟨next_stateOf (by decide +kernel), rfl⟩

theorem witness_CommandsWriteOnlyTheirResults :
    exec .nop status31E = .next (after .nop status31E) ∧ status31E.status.nf = true ∧ status31E.status.inexh = true :=
  ⟨next_stateOf (by decide +kernel), rfl, rfl⟩

/-- A NaN from each primitive, then finite operands, a zero divisor, an infinity. -/
theorem witness_ArithmeticRoundsTheExactResult :
    (isNaN (fadd 0x7F800000#32 0xFF800000#32) = true ∧ isNaN (fsub 0x7F800000#32 0x7F800000#32) = true
      ∧ isNaN (fmul 0#32 0x7F800000#32) = true ∧ isNaN (fdiv 0#32 0#32) = true ∧ isNaN (fsqrt 0xBF800000#32) = true)
    ∧ (isFinite 0x7F7FFFFF#32 = true ∧ isFinite 0x80000001#32 = true ∧ isZero 0x80000001#32 = false
      ∧ exactVal 0x7F7FFFFF#32 + exactVal 0x80000001#32 ≠ 0 ∧ exactVal 0x3F800000#32 - exactVal 0x3F800000#32 = 0)
    ∧ (isFinite 0x80000000#32 = true ∧ isZero 0x80000000#32 = true)
    ∧ isInf 0x7F800000#32 = true ∧ isInf 0xFF800000#32 = true ∧ signBit 0x7F800000#32 ≠ signBit 0xFF800000#32
    ∧ signBit 0xBF800000#32 = true := by decide +kernel

theorem witness_RoundingIsToNearestEven : 0 < 3 ∧ roundMag 1 3 < 0x7F800000 := by decide +kernel

theorem witness_SquareRootIsNearest :
    isFinite 0x40000000#32 = true ∧ isZero 0x40000000#32 = false ∧ signBit 0x40000000#32 = false
      ∧ isFinite 0x3FB504F4#32 = true ∧ scaled (fsqrt 0x40000000#32) < scaled 0x3FB504F4#32
      ∧ isFinite 0x3FB504F2#32 = true ∧ scaled 0x3FB504F2#32 < scaled (fsqrt 0x40000000#32) := by decide +kernel

theorem witness_ComparisonsFollowTheValues :
    isNaN 0x7FC00000#32 = true ∧ isFinite 0x80000000#32 = true ∧ isFinite 0x7F7FFFFF#32 = true
      ∧ isInf 0xFF800000#32 = true := by decide

theorem witness_ConversionToInt8Saturates :
    isNaN 0xFFC00001#32 = true ∧ isFinite 0xC3008000#32 = true ∧ isInf 0x7F800000#32 = true := by decide

theorem witness_IntegersConvertExactly : (-16777216 : Int).natAbs ≤ 2 ^ 24 := by decide

theorem witness_Atan2IsTheNearestAngle :
    (isZero 0x80000000#32 = true ∧ isZero 0#32 = true) ∧ isNaN 0x7FC00000#32 = true
      ∧ isNaN 0x7F800000#32 = false ∧ isNaN 0xBF800000#32 = false ∧ isZero 0xBF800000#32 = false
      ∧ (fle 0xC0490FDB#32 0xC0490FDB#32 = true ∧ fle 0xC0490FDB#32 0x40490FDB#32 = true)
      ∧ isFinite 0xBF800000#32 = true ∧ isFinite 0x80000000#32 = true ∧ signBit 0xBF800000#32 = true
      ∧ signBit 0x3F800000#32 = false := by decide

/-- An angle below 0 that 2π is added to, one so near 0 that the sum is 2π, and one not below 0. -/
theorem witness_AngleIsNormalisedAndIndexed :
    (flt (atan2At [] 0xBE124921#32 0#32) 0#32 = true
      ∧ flt (fadd (atan2At [] 0xBE124921#32 0#32) 0x40C90FDB#32) 0x40C90FDB#32 = true)
    ∧ (flt (atan2At [⟨0xBE124921#32, 0#32, 0xB22BCC77#32⟩] 0xBE124921#32 0#32) 0#32 = true
      ∧ fge (fadd (atan2At [⟨0xBE124921#32, 0#32, 0xB22BCC77#32⟩] 0xBE124921#32 0#32) 0x40C90FDB#32) 0x40C90FDB#32 = true)
    ∧ fge (atan2At [] 0x3E124921#32 0#32) 0#32 = true ∧ isNaN (normAngle (atan2At [] 0x7FC00000#32 0#32)) = true := by
  decide +kernel

theorem witness_TransformTablesAreTheStatedOnes : 63 < 64 ∧ 5 < 6 ∧ 31 < 32 := by decide

theorem witness_PltmFwdAtRowZeroIsTheIdentity :
    svalid 0x3DCCC78F#32 = true ∧ sidx 0x3DCCC78F#32 = 0 ∧ isNaN (zeroBinsState.wordAt 0x200) = false := by decide +kernel

theorem witness_MaxValIsTheLargestPart :
    fgt (mag2 ((withBin 3 0xC0800000#32 0x40400000#32 zeroBinsState).cre 3)
      ((withBin 3 0xC0800000#32 0x40400000#32 zeroBinsState).cim 3)) 0#32 = true := by decide +kernel

theorem witness_QuantRecordsPassDequantsChecks :
    exec .quant zeroBinsState = .next (after .quant zeroBinsState)
      ∧ (zeroBinsState.keepHi ++ zeroBinsState.keepLo).getLsbD 63 = false :=
  ⟨next_stateOf (by decide +kernel), by decide⟩

/-- One count short of the halving. -/
def nearLimit : Coder := { Coder.reset with counts := (List.replicate 256 1#32).set 65 16128#32, total := 16383#32 }

theorem witness_ModelUpdateCountsAndHalves :
    (Coder.reset.ModelOk ∧ Coder.reset.total.toNat < 16383) ∧ (nearLimit.ModelOk ∧ nearLimit.total.toNat = 16383) := by
  have hc : cum nearLimit.counts 256 = 16383 := by decide +kernel
  refine ⟨⟨fresh_modelOk rfl rfl, by decide⟩, ⟨(List.length_set ..).trans List.length_replicate, fun x hx => ?_, hc, by decide, by decide⟩, by decide⟩
  rcases List.mem_or_eq_of_mem_set hx with h | rfl
  · rw [List.eq_of_mem_replicate h]
    decide
  · decide

/-- A push with a carry. -/
def carrying : State :=
  { encoding with rc := { encoding.rc with low := 0x13FBFFF80#33, cache := 0x3F#8, started := true } }

theorem witness_ShiftLowKeepsTheNumber :
    (∃ t, shiftLow carrying = .ok t) ∧ carrying.rc.ffrun.toNat + 1 < 2 ^ 32
      ∧ carrying.rc.pos.toNat + carrying.rc.ffrun.toNat + 1 < 2 ^ 32
      ∧ 2 ^ 32 ≤ carrying.rc.low.toNat ∧ carrying.rc.started = true ∧ carrying.rc.cache ≠ 0xFF#8 := by
  obtain ⟨u, -, h⟩ := shiftLow_of_room (s := carrying) (by decide) (.inr (by decide))
  exact ⟨⟨_, h⟩, by decide, by decide, by decide, rfl, by decide⟩

theorem witness_CoderModeMovesByTheTable :
    exec .rcInitEnc State.reset = .next (after .rcInitEnc State.reset)
      ∧ (exec .rcInitDec State.reset = .next (after .rcInitDec State.reset)
        ∧ State.reset.inlen.toNat ≤ State.reset.caps.toNat)
      ∧ (exec (.rcEnc 1#8) encoding = .next (after (.rcEnc 1#8) encoding) ∧ encoding.rc.mode = .enc)
      ∧ exec .rcFinish encoding = .next (after .rcFinish encoding)
      ∧ (exec .rcDec decoding = .next (after .rcDec decoding) ∧ decoding.rc.mode = .dec)
      ∧ (exec .quant State.reset = .next (after .quant State.reset)) :=
  ⟨next_stateOf (by decide +kernel), ⟨next_stateOf rfl, by decide⟩, ⟨next_stateOf (by decide +kernel), rfl⟩,
    next_stateOf (by decide +kernel), ⟨next_stateOf (by decide +kernel), rfl⟩, next_stateOf (by decide +kernel)⟩

/-- One byte encoded without an error. -/
theorem witness_DecodingReturnsTheEncodedBytes :
    ∃ t : State, [0x41#8].length < 2 ^ 30 ∧ State.reset.CapsLegal ∧ State.reset.status.err = false
      ∧ execAll (.rcInitEnc :: [0x41#8].map Instr.rcEnc ++ [.rcFinish]) State.reset t ∧ t.status.err = false := by
  refine ⟨afterAll [.rcInitEnc, .rcEnc 0x41#8, .rcFinish] State.reset, by decide, capsLegal_reset, rfl,
    ⟨after .rcInitEnc State.reset, next_stateOf (by decide +kernel), afterAll [.rcInitEnc, .rcEnc 0x41#8] State.reset,
      next_stateOf (by decide +kernel), afterAll [.rcInitEnc, .rcEnc 0x41#8, .rcFinish] State.reset,
      next_stateOf (by decide +kernel), rfl⟩, by decide +kernel⟩

/-- The one state that meets every invariant, in a step that answers a next state. -/
theorem witness_StepKeepsMemoryCanonical : pending.mem.wf ∧ step pending = .next (stateOf (step pending)) :=
  ⟨.nil, next_stateOf (by decide +kernel)⟩

theorem witness_StepStoresOnlyInRam :
    pending.CapsLegal ∧ pending.MemOk ∧ step pending = .next (stateOf (step pending)) :=
  ⟨pending_safe.1, pending_safe.2.1, next_stateOf (by decide +kernel)⟩

theorem witness_StepKeepsStatusInAccord :
    pending.LatchOk ∧ pending.ErrorOk ∧ step pending = .next (stateOf (step pending)) :=
  ⟨pending_safe.2.2.1, pending_safe.2.2.2.1, next_stateOf (by decide +kernel)⟩

theorem witness_StepKeepsTheCoder : encoding.rc.Ok ∧ step encoding = .next (stateOf (step encoding)) :=
  ⟨encoding_ok, next_stateOf (by decide +kernel)⟩

theorem witness_SafeStatesNeverStop : pending.Safe := pending_safe

theorem witness_PendingCommandCompletes :
    pending.Safe ∧ pending.pcmd = some 0#32 ∧ HostEvent.reset ∉ pending.host.take pending.delay :=
  ⟨pending_safe, rfl, by decide⟩

end Sys2Proof.Tests
end

