-- ==== Sys2Proof/Proofs/FloatClasses.lean ====
section
/-! The classes of f32 patterns (00_scope.md R8), the sign of a pattern turned, and the order of the exact values. -/

namespace Sys2Proof.Machine

/-! ### Classes -/

theorem isNaN_iff {a : F32} : isNaN a = true ↔ infMag < magBits a := decide_eq_true_iff

theorem isInf_iff {a : F32} : isInf a = true ↔ magBits a = infMag := beq_iff_eq

theorem isZero_iff {a : F32} : isZero a = true ↔ magBits a = 0 := beq_iff_eq

theorem isFinite_iff {a : F32} : isFinite a = true ↔ magBits a < infMag := decide_eq_true_iff

theorem not_isNaN_of_isFinite {a : F32} (h : isFinite a = true) : isNaN a = false := by
  rw [isFinite_iff] at h
  rw [← Bool.not_eq_true, isNaN_iff]
  omega

theorem not_isInf_of_isFinite {a : F32} (h : isFinite a = true) : isInf a = false := by
  rw [isFinite_iff] at h
  rw [← Bool.not_eq_true, isInf_iff]
  omega

theorem not_isNaN_of_isInf {a : F32} (h : isInf a = true) : isNaN a = false := by
  rw [isInf_iff] at h
  rw [← Bool.not_eq_true, isNaN_iff]
  omega

theorem not_isZero_of_isInf {a : F32} (h : isInf a = true) : isZero a = false := by
  rw [isInf_iff] at h
  rw [← Bool.not_eq_true, isZero_iff, h]
  decide

theorem isFinite_of_isZero {a : F32} (h : isZero a = true) : isFinite a = true := by
  rw [isFinite_iff, isZero_iff.1 h]
  decide

/-- R8: a pattern that is no NaN is finite or an infinity. -/
theorem isFinite_or_isInf {a : F32} (h : isNaN a = false) : isFinite a = true ∨ isInf a = true := by
  rw [← Bool.not_eq_true, isNaN_iff] at h
  rw [isFinite_iff, isInf_iff]
  omega

/-! ### Packed patterns -/

theorem isFinite_packF (neg : Bool) {mag : Nat} (h : mag < infMag) : isFinite (packF neg mag) = true := by
  rw [isFinite_iff, magBits_packF neg (h.trans (by decide))]
  exact h

theorem not_isNaN_packF (neg : Bool) {mag : Nat} (h : mag ≤ infMag) : isNaN (packF neg mag) = false := by
  rw [← Bool.not_eq_true, isNaN_iff, magBits_packF neg (h.trans_lt (by decide))]
  omega

@[simp] theorem not_isNaN_packF_roundMag (neg : Bool) (num den : Nat) : isNaN (packF neg (roundMag num den)) = false :=
  not_isNaN_packF neg (roundMag_le num den)

@[simp] theorem not_isNaN_packF_infMag (neg : Bool) : isNaN (packF neg infMag) = false := not_isNaN_packF neg le_rfl

@[simp] theorem not_isNaN_packF_zero (neg : Bool) : isNaN (packF neg 0) = false := not_isNaN_packF neg (Nat.zero_le _)

@[simp] theorem isInf_packF_infMag (neg : Bool) : isInf (packF neg infMag) = true :=
  isInf_iff.2 (magBits_packF neg (by decide))

@[simp] theorem isZero_packF_zero (neg : Bool) : isZero (packF neg 0) = true :=
  isZero_iff.2 (magBits_packF neg (by decide))

@[simp] theorem signBit_packF_infMag (neg : Bool) : signBit (packF neg infMag) = neg := signBit_packF neg (by decide)

@[simp] theorem signBit_packF_zero (neg : Bool) : signBit (packF neg 0) = neg := signBit_packF neg (by decide)

@[simp] theorem magBits_packF_roundMag (neg : Bool) (num den : Nat) :
    magBits (packF neg (roundMag num den)) = roundMag num den := magBits_packF neg (roundMag_lt num den)

@[simp] theorem signBit_packF_roundMag (neg : Bool) (num den : Nat) : signBit (packF neg (roundMag num den)) = neg :=
  signBit_packF neg (roundMag_lt num den)

@[simp] theorem isNaN_qNaN : isNaN qNaN = true := by decide

/-! ### The sign turned -/

/-- The pattern with its sign turned, as `fsub` turns it. -/
def turnSign (a : F32) : F32 := a ^^^ 0x80000000#32

theorem fsub_eq (a b : F32) : fsub a b = fadd a (turnSign b) := rfl

@[simp] theorem magBits_turnSign (a : F32) : magBits (turnSign a) = magBits a := by
  rw [magBits, turnSign, BitVec.toNat_xor, Nat.xor_mod_two_pow]
  exact Nat.xor_zero _

@[simp] theorem signBit_turnSign (a : F32) : signBit (turnSign a) = !signBit a := by
  rw [signBit, turnSign, BitVec.getLsbD_xor]
  exact Bool.xor_true _

@[simp] theorem isNaN_turnSign (a : F32) : isNaN (turnSign a) = isNaN a := by simp [isNaN]

@[simp] theorem isInf_turnSign (a : F32) : isInf (turnSign a) = isInf a := by simp [isInf]

@[simp] theorem isFinite_turnSign (a : F32) : isFinite (turnSign a) = isFinite a := by simp [isFinite]

@[simp] theorem exactVal_turnSign (a : F32) : exactVal (turnSign a) = -exactVal a := by
  have hs : scaled (turnSign a) = scaled a := by rw [scaled_eq_units, scaled_eq_units, magBits_turnSign]
  rw [exactVal, exactVal, hs, signBit_turnSign]
  cases signBit a <;> simp

/-! ### Exact values -/

@[simp] theorem units_zero : units 0 = 0 := rfl

theorem units_strictMono : StrictMono units := fun _ _ h => units_lt h

theorem exactVal_eq (a : F32) : exactVal a = if signBit a then -(units (magBits a) : Int) else units (magBits a) := by
  rw [exactVal, scaled_eq_units]

theorem exactVal_packF (neg : Bool) {mag : Nat} (h : mag < 2 ^ 31) :
    exactVal (packF neg mag) = if neg then -(units mag : Int) else units mag := by
  rw [exactVal_eq, signBit_packF neg h, magBits_packF neg h]

theorem exactVal_of_isZero {a : F32} (h : isZero a = true) : exactVal a = 0 := by
  rw [exactVal_eq, isZero_iff.1 h]
  simp

theorem scaled_pos_of_not_isZero {a : F32} (h : isZero a = false) : 0 < scaled a := by
  rw [← Bool.not_eq_true, isZero_iff] at h
  rw [scaled_eq_units]
  exact units_strictMono.lt_iff_lt.2 (Nat.pos_of_ne_zero h)

/-- The values, ordered as the keys of `flt` and `fle` order the patterns. -/
theorem exactVal_lt_iff (a b : F32) : exactVal a < exactVal b ↔ orderKey a < orderKey b := by
  have hpos (k : Nat) : 0 < units k ↔ 0 < k := units_strictMono.lt_iff_lt (a := 0)
  have hab : units (magBits a) < units (magBits b) ↔ magBits a < magBits b := units_strictMono.lt_iff_lt
  have hba : units (magBits b) < units (magBits a) ↔ magBits b < magBits a := units_strictMono.lt_iff_lt
  have ha := hpos (magBits a)
  have hb := hpos (magBits b)
  rw [exactVal_eq, exactVal_eq, orderKey, orderKey]
  cases signBit a <;> cases signBit b <;> simp only [Bool.false_eq_true, if_true, if_false] <;> omega

theorem exactVal_le_iff (a b : F32) : exactVal a ≤ exactVal b ↔ orderKey a ≤ orderKey b := by
  rw [← not_lt, ← not_lt, exactVal_lt_iff]

end Sys2Proof.Machine
end

