-- ==== Sys2Proof/Proofs/Comparisons.lean ====
section
/-! The comparisons of 00_scope.md R11 (O39). -/

namespace Sys2Proof.Machine

theorem flt_of_isNaN {a b : F32} (h : isNaN a = true ∨ isNaN b = true) : flt a b = false := by
  rcases h with h | h <;> simp [flt, h]

theorem fle_of_isNaN {a b : F32} (h : isNaN a = true ∨ isNaN b = true) : fle a b = false := by
  rcases h with h | h <;> simp [fle, h]

section
variable {a b : F32} (ha : isNaN a = false) (hb : isNaN b = false)
include ha hb

theorem flt_eq : flt a b = decide (orderKey a < orderKey b) := by simp [flt, ha, hb]

theorem fle_eq : fle a b = decide (orderKey a ≤ orderKey b) := by simp [fle, ha, hb]

end

theorem flt_iff_of_isFinite {a b : F32} (ha : isFinite a = true) (hb : isFinite b = true) :
    flt a b = true ↔ exactVal a < exactVal b := by
  rw [flt_eq (not_isNaN_of_isFinite ha) (not_isNaN_of_isFinite hb), decide_eq_true_iff, exactVal_lt_iff]

theorem fle_iff_of_isFinite {a b : F32} (ha : isFinite a = true) (hb : isFinite b = true) :
    fle a b = true ↔ exactVal a ≤ exactVal b := by
  rw [fle_eq (not_isNaN_of_isFinite ha) (not_isNaN_of_isFinite hb), decide_eq_true_iff, exactVal_le_iff]

theorem orderKey_of_isInf {a : F32} (h : isInf a = true) : orderKey a = if signBit a then -(infMag : Int) else infMag := by
  rw [orderKey, isInf_iff.1 h]

/-- The keys of the finite patterns lie strictly between those of the infinities. -/
theorem orderKey_of_isFinite {a : F32} (h : isFinite a = true) : -(infMag : Int) < orderKey a ∧ orderKey a < infMag := by
  rw [isFinite_iff] at h
  rw [orderKey]
  split <;> omega

section
variable {a b : F32} (ha : isFinite a = true) (hb : isInf b = true)
include ha hb

theorem flt_fle_isInf_right : flt a b = !signBit b ∧ fle a b = !signBit b := by
  have hk := orderKey_of_isFinite ha
  rw [flt_eq (not_isNaN_of_isFinite ha) (not_isNaN_of_isInf hb), fle_eq (not_isNaN_of_isFinite ha) (not_isNaN_of_isInf hb),
    orderKey_of_isInf hb]
  cases signBit b <;> simp <;> omega

theorem flt_fle_isInf_left : flt b a = signBit b ∧ fle b a = signBit b := by
  have hk := orderKey_of_isFinite ha
  rw [flt_eq (not_isNaN_of_isInf hb) (not_isNaN_of_isFinite ha), fle_eq (not_isNaN_of_isInf hb) (not_isNaN_of_isFinite ha),
    orderKey_of_isInf hb]
  cases signBit b <;> simp <;> omega

end

theorem flt_fle_isInf_isInf {a b : F32} (ha : isInf a = true) (hb : isInf b = true) :
    flt a b = (signBit a && !signBit b) ∧ fle a b = (signBit a || !signBit b) := by
  rw [flt_eq (not_isNaN_of_isInf ha) (not_isNaN_of_isInf hb), fle_eq (not_isNaN_of_isInf ha) (not_isNaN_of_isInf hb),
    orderKey_of_isInf ha, orderKey_of_isInf hb]
  cases signBit a <;> cases signBit b <;> decide

/-- Settles O39: a NaN, two finite operands, and an infinity on either side or on both. -/
theorem comparisonsFollowTheValues : Obligations.ComparisonsFollowTheValues := by
  intro a b
  refine ⟨fun h => ⟨flt_of_isNaN h, fle_of_isNaN h, flt_of_isNaN h.symm, fle_of_isNaN h.symm⟩, fun ha hb => ?_,
    fun ha hb => ?_, fun ha hb => ?_, fun ha hb => ?_⟩
  · exact ⟨flt_iff_of_isFinite ha hb, fle_iff_of_isFinite ha hb, flt_iff_of_isFinite hb ha, fle_iff_of_isFinite hb ha⟩
  · obtain ⟨hlt, hle⟩ := flt_fle_isInf_right ha hb
    obtain ⟨hgt, hge⟩ := flt_fle_isInf_left ha hb
    exact ⟨hlt, hle, hgt, hge⟩
  · obtain ⟨hlt, hle⟩ := flt_fle_isInf_left hb ha
    obtain ⟨hgt, hge⟩ := flt_fle_isInf_right hb ha
    exact ⟨hlt, hle, hgt, hge⟩
  · obtain ⟨hlt, hle⟩ := flt_fle_isInf_isInf ha hb
    obtain ⟨hgt, hge⟩ := flt_fle_isInf_isInf hb ha
    exact ⟨hlt, hle, by rw [fgt, hgt, Bool.and_comm], by rw [fge, hge, Bool.or_comm]⟩

end Sys2Proof.Machine
end

