-- ==== Sys2Proof/Proofs/Arithmetic.lean ====
section
/-! What each primitive of 00_scope.md R9 and R10 answers in each class of its operands (O36). -/

namespace Sys2Proof.Machine

/-! ### Sums and differences -/

theorem fadd_of_isNaN {a b : F32} (h : isNaN a = true ∨ isNaN b = true) : fadd a b = qNaN :=
  if_pos (by simpa using h)

theorem fadd_of_isFinite {a b : F32} (ha : isFinite a = true) (hb : isFinite b = true) :
    fadd a b = if exactVal a + exactVal b = 0 then packF (signBit a && signBit b) 0
      else roundInt (exactVal a + exactVal b) := by
  simp [fadd, not_isNaN_of_isFinite, not_isInf_of_isFinite, ha, hb]

theorem fadd_of_isInf_left {a b : F32} (ha : isInf a = true) (hb : isFinite b = true) : fadd a b = a := by
  simp [fadd, not_isNaN_of_isInf, not_isNaN_of_isFinite, not_isInf_of_isFinite, ha, hb]

theorem fadd_of_isInf_right {a b : F32} (ha : isFinite a = true) (hb : isInf b = true) : fadd a b = b := by
  simp [fadd, not_isNaN_of_isInf, not_isNaN_of_isFinite, not_isInf_of_isFinite, ha, hb]

theorem fadd_of_isInf_isInf {a b : F32} (ha : isInf a = true) (hb : isInf b = true) :
    fadd a b = if signBit a = signBit b then a else qNaN := by
  cases hs : (signBit a != signBit b)
  · simp [fadd, not_isNaN_of_isInf, ha, hb, bne_eq_false_iff_eq.1 hs]
  · simp [fadd, not_isNaN_of_isInf, ha, hb, hs, bne_iff_ne.1 hs]

/-- R10 for sums, and so for differences. -/
theorem fadd_eq_qNaN_of_isNaN {a b : F32} (h : isNaN (fadd a b) = true) : fadd a b = qNaN := by
  unfold fadd at h ⊢
  split_ifs at h ⊢ <;> simp_all [roundInt]

/-- The sum of finite operands, as R9 and log entry 15 give it. -/
theorem fadd_spec {a b : F32} (ha : isFinite a = true) (hb : isFinite b = true) {n : Int}
    (hn : n = exactVal a + exactVal b) :
    (n ≠ 0 → magBits (fadd a b) = roundMag n.natAbs 1 ∧ signBit (fadd a b) = decide (n < 0))
      ∧ (n = 0 → isZero (fadd a b) = true ∧ signBit (fadd a b) = (signBit a && signBit b)) := by
  rw [fadd_of_isFinite ha hb, ← hn]
  constructor
  · intro h0
    simp [h0, roundInt]
  · intro h0
    simp [h0]

/-! ### Products -/

theorem fmul_of_isNaN {a b : F32} (h : isNaN a = true ∨ isNaN b = true) : fmul a b = qNaN :=
  if_pos (by simpa using h)

theorem fmul_of_isFinite {a b : F32} (ha : isFinite a = true) (hb : isFinite b = true) :
    fmul a b = packF (signBit a != signBit b) (roundMag (scaled a * scaled b) (2 ^ 149)) := by
  simp [fmul, not_isNaN_of_isFinite, not_isInf_of_isFinite, ha, hb]

/-- A product with an infinity. -/
theorem fmul_of_isInf {a b : F32} (ha : isNaN a = false) (hb : isNaN b = false) (h : isInf a = true ∨ isInf b = true) :
    fmul a b = if isZero a || isZero b then qNaN else packF (signBit a != signBit b) infMag := by
  rcases h with h | h <;> simp [fmul, ha, hb, h]

theorem fmul_eq_qNaN_of_isNaN {a b : F32} (h : isNaN (fmul a b) = true) : fmul a b = qNaN := by
  unfold fmul at h ⊢
  split_ifs at h ⊢ <;> simp_all

/-- A product with an infinity, by the other operand: a NaN over a zero, else an infinity. -/
theorem fmul_isInf_spec {a b : F32} (ha : isNaN a = false) (hb : isNaN b = false) (h : isInf a = true ∨ isInf b = true) :
    (isZero a = true ∨ isZero b = true → isNaN (fmul a b) = true)
      ∧ (isZero a = false → isZero b = false →
        isInf (fmul a b) = true ∧ signBit (fmul a b) = (signBit a != signBit b)) := by
  rw [fmul_of_isInf ha hb h]
  constructor
  · intro hz
    rw [if_pos (by simpa using hz), isNaN_qNaN]
  · intro hza hzb
    simp [hza, hzb]

/-! ### Quotients -/

theorem fdiv_of_isNaN {a b : F32} (h : isNaN a = true ∨ isNaN b = true) : fdiv a b = qNaN :=
  if_pos (by simpa using h)

theorem fdiv_of_isFinite {a b : F32} (ha : isFinite a = true) (hb : isFinite b = true) (hz : isZero b = false) :
    fdiv a b = packF (signBit a != signBit b) (roundMag (scaled a * 2 ^ 149) (scaled b)) := by
  simp [fdiv, not_isNaN_of_isFinite, not_isInf_of_isFinite, ha, hb, hz]

theorem fdiv_of_isZero {a b : F32} (ha : isFinite a = true) (hb : isFinite b = true) (hz : isZero b = true) :
    fdiv a b = if isZero a then qNaN else packF (signBit a != signBit b) infMag := by
  simp [fdiv, not_isNaN_of_isFinite, not_isInf_of_isFinite, ha, hb, hz]

theorem fdiv_of_isInf_left {a b : F32} (ha : isInf a = true) (hb : isFinite b = true) :
    fdiv a b = packF (signBit a != signBit b) infMag := by
  simp [fdiv, not_isNaN_of_isInf, not_isNaN_of_isFinite, not_isInf_of_isFinite, ha, hb]

theorem fdiv_of_isInf_right {a b : F32} (ha : isFinite a = true) (hb : isInf b = true) :
    fdiv a b = packF (signBit a != signBit b) 0 := by
  simp [fdiv, not_isNaN_of_isInf, not_isNaN_of_isFinite, not_isInf_of_isFinite, ha, hb]

theorem fdiv_of_isInf_isInf {a b : F32} (ha : isInf a = true) (hb : isInf b = true) : fdiv a b = qNaN := by
  simp [fdiv, ha, hb]

theorem fdiv_eq_qNaN_of_isNaN {a b : F32} (h : isNaN (fdiv a b) = true) : fdiv a b = qNaN := by
  unfold fdiv at h ⊢
  split_ifs at h ⊢ <;> simp_all

/-! ### Square roots -/

theorem fsqrt_of_isNaN {a : F32} (h : isNaN a = true) : fsqrt a = qNaN := if_pos h

theorem fsqrt_of_isZero {a : F32} (h : isZero a = true) : fsqrt a = a := by
  have hn : isNaN a = false := not_isNaN_of_isFinite (isFinite_of_isZero h)
  rw [fsqrt, hn, h]
  rfl

theorem fsqrt_of_signBit {a : F32} (hz : isZero a = false) (hs : signBit a = true) : fsqrt a = qNaN := by
  simp [fsqrt, hz, hs]

theorem fsqrt_eq_qNaN_of_isNaN {a : F32} (h : isNaN (fsqrt a) = true) : fsqrt a = qNaN := by
  unfold fsqrt at h ⊢
  split_ifs at h ⊢ with hn hz hs hi
  · rfl
  · exact absurd h hn
  · rfl
  · exact absurd h hn
  · exact absurd h (by simp)

/-! ### The statement -/

/-- The clauses of O36 over two finite operands. -/
theorem arithmetic_of_isFinite {a b : F32} (ha : isFinite a = true) (hb : isFinite b = true) :
    (∀ n : Int, n = exactVal a + exactVal b →
        (n ≠ 0 → magBits (fadd a b) = roundMag n.natAbs 1 ∧ signBit (fadd a b) = decide (n < 0))
        ∧ (n = 0 → isZero (fadd a b) = true ∧ signBit (fadd a b) = (signBit a && signBit b)))
      ∧ (∀ n : Int, n = exactVal a - exactVal b →
        (n ≠ 0 → magBits (fsub a b) = roundMag n.natAbs 1 ∧ signBit (fsub a b) = decide (n < 0))
        ∧ (n = 0 → isZero (fsub a b) = true ∧ signBit (fsub a b) = (signBit a && !signBit b)))
      ∧ magBits (fmul a b) = roundMag (scaled a * scaled b) (2 ^ 149)
      ∧ signBit (fmul a b) = (signBit a != signBit b)
      ∧ (isZero b = false →
        magBits (fdiv a b) = roundMag (scaled a * 2 ^ 149) (scaled b) ∧ signBit (fdiv a b) = (signBit a != signBit b))
      ∧ (isZero b = true → isZero a = false →
        isInf (fdiv a b) = true ∧ signBit (fdiv a b) = (signBit a != signBit b))
      ∧ (isZero b = true → isZero a = true → isNaN (fdiv a b) = true) := by
  refine ⟨fun n hn => fadd_spec ha hb hn, fun n hn => ?_, ?_, ?_, fun hz => ?_, fun hz hza => ?_, fun hz hza => ?_⟩
  · have hsub := fadd_spec ha ((isFinite_turnSign b).trans hb) (n := n) (by rw [exactVal_turnSign, hn, sub_eq_add_neg])
    rwa [signBit_turnSign, ← fsub_eq] at hsub
  · rw [fmul_of_isFinite ha hb, magBits_packF_roundMag]
  · rw [fmul_of_isFinite ha hb, signBit_packF_roundMag]
  · rw [fdiv_of_isFinite ha hb hz]
    exact ⟨magBits_packF_roundMag .., signBit_packF_roundMag ..⟩
  · rw [fdiv_of_isZero ha hb hz, hza]
    exact ⟨isInf_packF_infMag _, signBit_packF_infMag _⟩
  · rw [fdiv_of_isZero ha hb hz, hza]
    exact isNaN_qNaN

/-- Settles O36: NaN operands and results, two finite operands, an infinity on either side, two infinities, the root. -/
theorem arithmeticRoundsTheExactResult : Obligations.ArithmeticRoundsTheExactResult := by
  intro a b
  refine ⟨fadd_eq_qNaN_of_isNaN, fadd_eq_qNaN_of_isNaN, fmul_eq_qNaN_of_isNaN, fdiv_eq_qNaN_of_isNaN,
    fsqrt_eq_qNaN_of_isNaN, fun h => ?nan, arithmetic_of_isFinite, fun ha hb => ?infLeft, fun ha hb => ?infRight,
    fun ha hb => ?infBoth, fun h => ?_, fsqrt_of_isZero, fun hz hs => ?_, by decide⟩
  case nan =>
    have hs : fsub a b = qNaN := by
      rw [fsub_eq]
      exact fadd_of_isNaN (by rwa [isNaN_turnSign])
    rw [fadd_of_isNaN h, hs, fmul_of_isNaN h, fdiv_of_isNaN h]
    exact ⟨isNaN_qNaN, isNaN_qNaN, isNaN_qNaN, isNaN_qNaN⟩
  case infLeft =>
    obtain ⟨hmul0, hmul⟩ := fmul_isInf_spec (not_isNaN_of_isInf ha) (not_isNaN_of_isFinite hb) (.inl ha)
    rw [fadd_of_isInf_left ha hb, fsub_eq, fadd_of_isInf_left ha ((isFinite_turnSign b).trans hb),
      fdiv_of_isInf_left ha hb]
    exact ⟨rfl, rfl, isInf_packF_infMag _, signBit_packF_infMag _, fun hz => hmul0 (.inr hz),
      hmul (not_isZero_of_isInf ha)⟩
  case infRight =>
    obtain ⟨hmul0, hmul⟩ := fmul_isInf_spec (not_isNaN_of_isFinite ha) (not_isNaN_of_isInf hb) (.inr hb)
    rw [fadd_of_isInf_right ha hb, fsub_eq, fadd_of_isInf_right ha ((isInf_turnSign b).trans hb),
      fdiv_of_isInf_right ha hb]
    exact ⟨rfl, magBits_turnSign b, signBit_turnSign b, isZero_packF_zero _, signBit_packF_zero _,
      fun hz => hmul0 (.inl hz), fun hz => hmul hz (not_isZero_of_isInf hb)⟩
  case infBoth =>
    obtain ⟨-, hmul⟩ := fmul_isInf_spec (not_isNaN_of_isInf ha) (not_isNaN_of_isInf hb) (.inl ha)
    obtain ⟨hmulInf, hmulSign⟩ := hmul (not_isZero_of_isInf ha) (not_isZero_of_isInf hb)
    rw [fadd_of_isInf_isInf ha hb, fsub_eq, fadd_of_isInf_isInf ha ((isInf_turnSign b).trans hb), signBit_turnSign,
      fdiv_of_isInf_isInf ha hb]
    refine ⟨fun hs => ?_, fun hs => ?_, hmulInf, hmulSign, isNaN_qNaN⟩
    · simp [hs]
    · simp [Bool.eq_not.2 hs]
  · rw [fsqrt_of_isNaN h, isNaN_qNaN]
  · rw [fsqrt_of_signBit hz hs, isNaN_qNaN]

end Sys2Proof.Machine
end

