-- ==== Sys2Proof/Proofs/Rounding.lean ====
section
/-! The one rounding function of 00_scope.md R9: where its result lies among the f32 magnitudes (O37). -/

namespace Sys2Proof.Machine

open Sys2Proof.Claims

/-! ### The nearest member of a rising sequence -/

/-- `v` lies between the halfway points below and above the member `u m`. -/
def BetweenMids {α : Type*} [CommRing α] [LinearOrder α] (u : Nat → α) (v : α) (m : Nat) : Prop :=
  (∀ j, j + 1 = m → u j + u m ≤ 2 * v) ∧ 2 * v ≤ u m + u (m + 1)

section
variable {α : Type*} [CommRing α] [LinearOrder α] [IsStrictOrderedRing α] {u : Nat → α} {v : α} {m : Nat}

/-- Then `v` lies on the side of `u m` of the halfway point with every other member. -/
theorem BetweenMids.le_add (hu : StrictMono u) (h : BetweenMids u v m) {k : Nat} (hk : m < k) : 2 * v ≤ u m + u k :=
  h.2.trans (by gcongr; exact hu.monotone hk)

theorem BetweenMids.add_le (hu : StrictMono u) (h : BetweenMids u v m) {k : Nat} (hk : k < m) : u k + u m ≤ 2 * v := by
  obtain ⟨j, rfl⟩ : ∃ j, m = j + 1 := ⟨m - 1, by omega⟩
  refine le_trans ?_ (h.1 j rfl)
  gcongr
  exact hu.monotone (by omega)

/-- So `u m` is a nearest member. -/
theorem BetweenMids.nearest (hu : StrictMono u) (h : BetweenMids u v m) (k : Nat) : |v - u m| ≤ |v - u k| := by
  rcases lt_trichotomy m k with hk | rfl | hk
  · have := h.le_add hu hk
    have := hu hk
    rw [abs_le, abs_of_nonpos (a := v - u k) (by linarith)]
    constructor <;> linarith
  · exact le_rfl
  · have := h.add_le hu hk
    have := hu hk
    rw [abs_le, abs_of_nonneg (a := v - u k) (by linarith)]
    constructor <;> linarith

/-- A nearest member that is not `u m` is a neighbour of it, and `v` is halfway between the two. -/
theorem BetweenMids.tie (hu : StrictMono u) (h : BetweenMids u v m) {k : Nat} (hk : k ≠ m)
    (heq : |v - u m| = |v - u k|) : 2 * v = u m + u (m + 1) ∨ ∃ j, j + 1 = m ∧ 2 * v = u j + u m := by
  have hne : u m ≠ u k := fun he => hk (hu.injective he).symm
  have hmid : 2 * v = u m + u k := by
    rcases abs_eq_abs.1 heq with he | he
    · exact absurd (by linarith) hne
    · linarith
  rcases lt_or_gt_of_ne hk with hlt | hlt
  · obtain ⟨j, rfl⟩ : ∃ j, m = j + 1 := ⟨m - 1, by omega⟩
    have := h.1 j rfl
    have := hu.monotone (show k ≤ j by omega)
    exact .inr ⟨j, rfl, by linarith⟩
  · have := h.2
    have := hu.monotone (show m + 1 ≤ k by omega)
    exact .inl (by linarith)

end

/-! ### What the rounding function computes -/

theorem units_add_stepExp (e m : Nat) (hm : m < 2 ^ 24) (he : e = 0 ∨ 2 ^ 23 ≤ m) :
    stepExp (e * 2 ^ 23 + m) = e + 1 ∧ units (e * 2 ^ 23 + m) = m * 2 ^ e := by
  have hs : stepExp (e * 2 ^ 23 + m) = e + 1 := by
    unfold stepExp
    omega
  refine ⟨hs, ?_⟩
  rw [units, hs, Nat.add_sub_cancel, Nat.add_sub_cancel_left]

/-- The magnitude before the bound by infinity's: `lo` is the largest one that is not above the value, and the next is
taken where the value lies past the halfway point, or at it from an odd one. -/
theorem roundMag_eq {num den : Nat} (hd : 0 < den) :
    ∃ lo, units lo * den ≤ num ∧ num < units (lo + 1) * den
      ∧ roundMag num den = min (lo + if (units lo + units (lo + 1)) * den < 2 * num
          ∨ (2 * num = (units lo + units (lo + 1)) * den ∧ lo % 2 = 1) then 1 else 0) infMag := by
  set k := Nat.log2 (num / den) - 23 with hk
  set unit := den * 2 ^ k with hunit
  set m := num / unit with hm
  have hunit0 : 0 < unit := Nat.mul_pos hd (Nat.two_pow_pos k)
  have hmq : m = num / den / 2 ^ k := by rw [hm, hunit, Nat.div_div_eq_div_mul]
  have hm_lt : m < 2 ^ 24 := by
    rw [hmq, Nat.div_lt_iff_lt_mul (Nat.two_pow_pos k), ← pow_add]
    exact Nat.lt_log2_self.trans_le (Nat.pow_le_pow_right (by norm_num) (by omega))
  have hm_ge : k = 0 ∨ 2 ^ 23 ≤ m := by
    rcases Nat.eq_zero_or_pos k with h0 | h0
    · exact .inl h0
    · right
      have hq : num / den ≠ 0 := by
        intro hz
        rw [hz] at hk
        norm_num at hk
        omega
      rw [hmq, Nat.le_div_iff_mul_le (Nat.two_pow_pos k), ← pow_add]
      exact (Nat.pow_le_pow_right (by norm_num) (by omega)).trans (Nat.log2_self_le hq)
  obtain ⟨hs, hu⟩ := units_add_stepExp k m hm_lt hm_ge
  have hlo : units (k * 2 ^ 23 + m) * den = m * unit := by rw [hu, hunit]; ring
  have hstep : units (k * 2 ^ 23 + m + 1) * den = m * unit + unit := by
    rw [units_succ, hs, Nat.add_sub_cancel, hu, hunit]; ring
  have hdm : unit * m + num % unit = num := Nat.div_add_mod num unit
  have hr : num % unit < unit := Nat.mod_lt _ hunit0
  have hcomm : unit * m = m * unit := Nat.mul_comm _ _
  refine ⟨k * 2 ^ 23 + m, by omega, by omega, ?_⟩
  have hround : roundMag num den = min (k * 2 ^ 23 + m + if unit < 2 * (num % unit) ∨ (2 * (num % unit) = unit ∧ m % 2 = 1)
      then 1 else 0) infMag := rfl
  rw [hround, Nat.add_mul, hlo, hstep]
  congr 3
  have hpar : (k * 2 ^ 23 + m) % 2 = m % 2 := by omega
  rw [eq_iff_iff, hpar]
  omega

/-- The f32 magnitudes in units of 1 / den of a unit, to compare them with a numerator. -/
def overDen (den k : Nat) : Int := units k * den

theorem overDen_strictMono {den : Nat} (hd : 0 < den) : StrictMono (overDen den) := fun _ _ h =>
  mul_lt_mul_of_pos_right (by exact_mod_cast units_lt h) (by exact_mod_cast hd)

/-- Round to nearest, ties to even, with the bound by infinity's magnitude apart. -/
theorem roundMag_spec (num : Nat) {den : Nat} (hd : 0 < den) :
    ∃ r, roundMag num den = min r infMag ∧ BetweenMids (overDen den) num r
      ∧ (2 * (num : Int) = overDen den r + overDen den (r + 1) → r % 2 = 0)
      ∧ ∀ j, j + 1 = r → 2 * (num : Int) = overDen den j + overDen den r → r % 2 = 0 := by
  obtain ⟨lo, hlo, hhi, hround⟩ := roundMag_eq (num := num) hd
  have hmono := overDen_strictMono hd
  have hlo' : overDen den lo ≤ num := by unfold overDen; exact_mod_cast hlo
  have hhi' : num < overDen den (lo + 1) := by unfold overDen; exact_mod_cast hhi
  have hsum : (((units lo + units (lo + 1)) * den : Nat) : Int) = overDen den lo + overDen den (lo + 1) := by
    unfold overDen
    push_cast
    ring
  split at hround
  case isTrue hup =>
    have hup' : overDen den lo + overDen den (lo + 1) < 2 * num
        ∨ (2 * num = overDen den lo + overDen den (lo + 1) ∧ lo % 2 = 1) := by omega
    have hnext := hmono (Nat.lt_add_one (lo + 1))
    refine ⟨lo + 1, hround, ⟨fun j hj => ?_, by omega⟩, fun h => by omega, fun j hj h => ?_⟩
    · obtain rfl : j = lo := by omega
      omega
    · obtain rfl : j = lo := by omega
      omega
  case isFalse hup =>
    have hup' : 2 * num ≤ overDen den lo + overDen den (lo + 1)
        ∧ (2 * num = overDen den lo + overDen den (lo + 1) → lo % 2 = 0) := by omega
    refine ⟨lo, hround, ⟨fun j hj => ?_, hup'.1⟩, hup'.2, fun j hj h => ?_⟩
    · have := hmono (show j < lo by omega)
      omega
    · have := hmono (show j < lo by omega)
      omega

/-! ### Overflow -/

theorem units_infMag_pred : units (infMag - 1) = (2 ^ 24 - 1) * 2 ^ 253 :=
  (units_add_stepExp 253 (2 ^ 24 - 1) (by norm_num) (.inr (by norm_num))).2

theorem units_infMag : units infMag = 2 ^ 24 * 2 ^ 253 := by
  have hs : stepExp (infMag - 1) = 254 := by decide
  rw [show infMag = infMag - 1 + 1 from rfl, units_succ, units_infMag_pred, hs]
  norm_num

/-- R9: half a step past the largest finite f32 is where infinity begins. -/
theorem roundMag_eq_infMag_iff (num : Nat) {den : Nat} (hd : 0 < den) :
    roundMag num den = infMag ↔ (2 ^ 25 - 1) * 2 ^ 252 * den ≤ num := by
  obtain ⟨r, hround, hmid, heven, -⟩ := roundMag_spec num hd
  have hmono := overDen_strictMono hd
  have hsum : overDen den (infMag - 1) + overDen den infMag = 2 * ((2 ^ 25 - 1) * 2 ^ 252 * den) := by
    rw [overDen, overDen, units_infMag_pred, units_infMag]
    push_cast
    ring
  have hle : overDen den (infMag - 1) + overDen den infMag ≤ 2 * num ↔ (2 ^ 25 - 1) * 2 ^ 252 * den ≤ num := by
    rw [hsum]
    zify
    norm_num
  rw [← hle, hround, min_eq_right_iff]
  constructor
  · intro hr
    calc overDen den (infMag - 1) + overDen den infMag ≤ overDen den (infMag - 1) + overDen den r := by
          gcongr
          exact hmono.monotone hr
      _ ≤ 2 * num := hmid.add_le hmono (by unfold infMag at *; omega)
  · intro hge
    by_contra hr
    have h2 := hmid.2
    rcases Nat.lt_or_ge (r + 1) infMag with hlt | hge'
    · have h3 := hmono hlt
      have h4 := hmono.monotone (show r ≤ infMag - 1 by omega)
      omega
    · obtain rfl : r = infMag - 1 := by omega
      have := heven (le_antisymm h2 hge)
      exact absurd this (by decide)

theorem roundMag_lt_infMag_iff (num : Nat) {den : Nat} (hd : 0 < den) :
    roundMag num den < infMag ↔ num < (2 ^ 25 - 1) * 2 ^ 252 * den := by
  rw [lt_iff_le_and_ne, ne_eq, roundMag_eq_infMag_iff num hd, not_le]
  exact and_iff_right (roundMag_le num den)

/-- A finite result lies between its halfway points, and is even at one. -/
theorem roundMag_betweenMids {num den : Nat} (hd : 0 < den) (h : roundMag num den < infMag) :
    BetweenMids (overDen den) num (roundMag num den)
      ∧ ∀ k, k ≠ roundMag num den → |(num : Int) - overDen den (roundMag num den)| = |(num : Int) - overDen den k| →
        roundMag num den % 2 = 0 := by
  obtain ⟨r, hround, hmid, hup, hdown⟩ := roundMag_spec num hd
  obtain rfl : roundMag num den = r := by omega
  refine ⟨hmid, fun k hk heq => ?_⟩
  rcases hmid.tie (overDen_strictMono hd) hk heq with h | ⟨j, hj, h⟩
  · exact hup h
  · exact hdown j hj h

/-- A value that is an f32's is rounded to that f32. -/
theorem roundMag_units {m den : Nat} (hd : 0 < den) (hm : m < infMag) : roundMag (units m * den) den = m := by
  have hmono := overDen_strictMono hd
  have hlt : roundMag (units m * den) den < infMag := by
    rw [roundMag_lt_infMag_iff _ hd]
    have hle : units m ≤ (2 ^ 24 - 1) * 2 ^ 253 := units_infMag_pred ▸ units_strictMono.monotone (by omega)
    exact Nat.mul_lt_mul_of_pos_right (by omega) hd
  have hnear := (roundMag_betweenMids hd hlt).1.nearest hmono m
  have hval : ((units m * den : Nat) : Int) = overDen den m := by
    unfold overDen
    push_cast
    rfl
  rw [hval, sub_self, abs_zero, abs_nonpos_iff, sub_eq_zero] at hnear
  exact (hmono.injective hnear).symm

theorem unitsOf_eq {m : Nat} (hm : m ≤ infMag) : unitsOf m = units m := by
  have hlt : m < 2 ^ 31 := hm.trans_lt (by decide)
  rw [unitsOf, scaled_eq_units, magBits, BitVec.toNat_ofNat, Nat.mod_eq_of_lt (a := m) (by omega),
    Nat.mod_eq_of_lt hlt]

/-- Settles O37: the bound, where infinity begins, and the nearest magnitude of the finite results. -/
theorem roundingIsToNearestEven : Obligations.RoundingIsToNearestEven := by
  intro num den hd
  refine ⟨roundMag_le num den, roundMag_eq_infMag_iff num hd, fun hlt m hm => ?_⟩
  obtain ⟨hmid, heven⟩ := roundMag_betweenMids hd hlt
  have hnear := hmid.nearest (overDen_strictMono hd) m
  rw [unitsOf_eq (roundMag_le num den), unitsOf_eq (show m ≤ infMag from hm.le)]
  simp only [overDen, Int.abs_eq_natAbs, Nat.cast_le, Nat.cast_inj] at hnear heven
  exact ⟨hnear, fun heq hne => heven m hne heq⟩

end Sys2Proof.Machine
end

