-- ==== Sys2Proof/Proofs/SquareRoot.lean ====
section
/-! The square root of 00_scope.md R9 (O38). -/

namespace Sys2Proof.Machine

theorem isqrtFrom_spec (n k r : Nat) (hlo : r ^ 2 ≤ n) (hhi : n < (r + 2 ^ k) ^ 2) :
    isqrtFrom n k r ^ 2 ≤ n ∧ n < (isqrtFrom n k r + 1) ^ 2 := by
  induction k generalizing r with
  | zero => exact ⟨hlo, hhi⟩
  | succ k ih =>
    unfold isqrtFrom
    split
    case isTrue h =>
      refine ih _ (by rwa [sq]) ?_
      rwa [add_assoc, ← two_mul, ← pow_succ']
    case isFalse h => exact ih _ hlo (by rwa [sq, ← not_le])

theorem isqrt_spec (n : Nat) : isqrt n ^ 2 ≤ n ∧ n < (isqrt n + 1) ^ 2 := by
  refine isqrtFrom_spec n _ 0 (Nat.zero_le n) ?_
  rw [zero_add, ← pow_mul]
  exact Nat.lt_log2_self.trans_le (Nat.pow_le_pow_right (by norm_num) (by omega))

/-- Twice the root of `n / 4`, in halves: the root itself where it is an integer, else the half above it. -/
def rootHalves (n : Nat) : Nat := if isqrt n * isqrt n = n then 2 * isqrt n else 2 * isqrt n + 1

theorem fsqrt_of_pos {a : F32} (hf : isFinite a = true) (hz : isZero a = false) (hs : signBit a = false) :
    fsqrt a = packF false (roundMag (rootHalves (scaled a * 2 ^ 151)) 4) := by
  simp only [fsqrt, not_isNaN_of_isFinite hf, hz, hs, not_isInf_of_isFinite hf, Bool.false_eq_true, if_false, rootHalves]

/-- Against an even number of halves, `rootHalves n` stands for twice the root of `n`. -/
theorem le_sq_of_rootHalves_le {n d : Nat} (h : rootHalves n ≤ 2 * d) : n ≤ d ^ 2 := by
  unfold rootHalves at h
  split at h
  case isTrue hx =>
    rw [← hx, ← sq]
    exact Nat.pow_le_pow_left (by omega) 2
  case isFalse hx => exact (isqrt_spec n).2.le.trans (Nat.pow_le_pow_left (by omega) 2)

theorem sq_le_of_le_rootHalves {n d : Nat} (h : 2 * d ≤ rootHalves n) : d ^ 2 ≤ n := by
  have hd : d ≤ isqrt n := by
    unfold rootHalves at h
    split at h <;> omega
  exact (Nat.pow_le_pow_left hd 2).trans (isqrt_spec n).1

theorem scaled_lt_of_isFinite {a : F32} (h : isFinite a = true) : scaled a < 2 ^ 24 * 2 ^ 253 := by
  rw [scaled_eq_units, ← units_infMag]
  exact units_lt (isFinite_iff.1 h)

/-- The root of a finite f32 is far from overflow. -/
theorem roundMag_rootHalves_lt {a : F32} (h : isFinite a = true) :
    roundMag (rootHalves (scaled a * 2 ^ 151)) 4 < infMag := by
  rw [roundMag_lt_infMag_iff _ (by norm_num)]
  by_contra hge
  have hsq := sq_le_of_le_rootHalves (n := scaled a * 2 ^ 151) (d := (2 ^ 25 - 1) * 2 ^ 252) (by omega)
  have hlt := scaled_lt_of_isFinite h
  omega

/-- Settles O38: the halves of the root are rounded to the nearest f32, and stand for the root against every midpoint. -/
theorem squareRootIsNearest : Obligations.SquareRootIsNearest := by
  intro a hf hz hs
  have hlt := roundMag_rootHalves_lt hf
  have hmid := (roundMag_betweenMids (by norm_num) hlt).1
  have hmono := overDen_strictMono (den := 4) (by norm_num)
  have hn : 4 * (scaled a * 2 ^ 149) = scaled a * 2 ^ 151 := by ring
  rw [fsqrt_of_pos hf hz hs, hn]
  refine ⟨isFinite_packF false hlt, signBit_packF_roundMag .., fun c _ => ?_⟩
  rw [scaled_eq_units (packF _ _), scaled_eq_units c, magBits_packF_roundMag]
  constructor
  · intro hc
    have := hmid.le_add hmono (units_strictMono.lt_iff_lt.1 hc)
    unfold overDen at this
    exact le_sq_of_rootHalves_le (by omega)
  · intro hc
    have := hmid.add_le hmono (units_strictMono.lt_iff_lt.1 hc)
    unfold overDen at this
    exact sq_le_of_le_rootHalves (by omega)

end Sys2Proof.Machine
end

