-- ==== Sys2Proof/Proofs/Conversions.lean ====
section
/-! The conversions of 00_scope.md R13 (O40, O41). -/

namespace Sys2Proof.Machine

/-! ### To eight bits -/

theorem f2i8_of_isNaN {a : F32} (h : isNaN a = true) : f2i8 a = 0#8 := if_pos h

theorem toInt_f2i8 {a : F32} (h : isNaN a = false) :
    (f2i8 a).toInt = if signBit a then -((min (scaled a / 2 ^ 149) 128 : Nat) : Int)
      else ((min (scaled a / 2 ^ 149) 127 : Nat) : Int) := by
  rw [f2i8, h]
  cases signBit a
  · have hle : min (scaled a / 2 ^ 149) 127 ≤ 127 := min_le_right _ _
    simp only [Bool.false_eq_true, if_false, BitVec.toInt_ofNat']
    exact Int.bmod_eq_of_le (by omega) (by omega)
  · have hle : min (scaled a / 2 ^ 149) 128 ≤ 128 := min_le_right _ _
    simp only [Bool.false_eq_true, if_true, if_false, BitVec.toInt_ofInt]
    exact Int.bmod_eq_of_le (by omega) (by omega)

theorem scaled_of_isInf {a : F32} (h : isInf a = true) : scaled a = 2 ^ 24 * 2 ^ 253 := by
  rw [scaled_eq_units, isInf_iff.1 h, units_infMag]

/-- Settles O40: a NaN, a finite value of either sign, an infinity. -/
theorem conversionToInt8Saturates : Obligations.ConversionToInt8Saturates := by
  intro a
  refine ⟨f2i8_of_isNaN, fun h => ?finite, fun h => ?inf⟩
  case finite =>
    rw [toInt_f2i8 (not_isNaN_of_isFinite h), exactVal]
    split
    · rw [Int.neg_tdiv, Int.tdiv_eq_ediv_of_nonneg (by omega)]
      omega
    · rw [Int.tdiv_eq_ediv_of_nonneg (by omega)]
      omega
  case inf =>
    rw [toInt_f2i8 (not_isNaN_of_isInf h), scaled_of_isInf h]
    norm_num

/-! ### From integers -/

/-- A number of at most 24 bits times a power of two has a magnitude, with no bound on the exponent. -/
theorem exists_units_eq (c e : Nat) (hc : c < 2 ^ 24) : ∃ m, units m = c * 2 ^ e := by
  induction e generalizing c with
  | zero => exact ⟨_, (units_add_stepExp 0 c hc (.inl rfl)).2⟩
  | succ e ih =>
    by_cases h : 2 ^ 23 ≤ c
    · exact ⟨_, (units_add_stepExp (e + 1) c hc (.inr h)).2⟩
    · obtain ⟨m, hm⟩ := ih (2 * c) (by omega)
      exact ⟨m, hm.trans (by ring)⟩

theorem exists_units_eq_natAbs {q : Nat} (hq : q ≤ 2 ^ 24) : ∃ m, m < infMag ∧ units m = q * 2 ^ 149 := by
  obtain ⟨m, hm⟩ : ∃ m, units m = q * 2 ^ 149 := by
    rcases hq.lt_or_eq with h | rfl
    · exact exists_units_eq q 149 h
    · obtain ⟨m, hm⟩ := exists_units_eq (2 ^ 23) 150 (by norm_num)
      exact ⟨m, hm.trans (by norm_num)⟩
  refine ⟨m, ?_, hm⟩
  rw [← units_strictMono.lt_iff_lt, hm, units_infMag]
  omega

/-- Settles O41: the magnitude is an f32's, which the rounding keeps. -/
theorem integersConvertExactly : Obligations.IntegersConvertExactly := by
  refine ⟨fun n hn => ?_, by decide⟩
  obtain ⟨m, hm, hval⟩ := exists_units_eq_natAbs hn
  have hround : roundMag (n.natAbs * 2 ^ 149) 1 = m := by
    rw [← hval, ← Nat.mul_one (units m), roundMag_units (by norm_num) hm]
  rw [i2f, hround]
  refine ⟨isFinite_packF _ hm, ?_⟩
  rw [exactVal_packF _ (hm.trans (by decide)), hval]
  rcases lt_or_ge n 0 with hneg | hpos
  · rw [if_pos (decide_eq_true hneg)]
    omega
  · rw [if_neg (by simpa using hpos)]
    omega

end Sys2Proof.Machine
end

