-- ==== Sys2Proof/Proofs/Atan2.lean ====
section
/-! ATAN2_F32 (40_gradient.md R203): the contract of the parameter, and the default as the nearest f32 (O42). -/

namespace Sys2Proof.Machine

open Real Sys2Proof.Claims

/-! ### The admitted angles -/

theorem angleAdmitted_iff {a : F32} :
    angleAdmitted a = true ↔ fle 0xC0490FDB#32 a = true ∧ fle a 0x40490FDB#32 = true := Bool.and_eq_true_iff

theorem angleAdmitted_packF (neg : Bool) {mag : Nat} (h : mag ≤ magBits pi32) : angleAdmitted (packF neg mag) = true := by
  have hmag : mag ≤ 0x40490FDB := h
  have hlt : mag < infMag := hmag.trans_lt (by decide)
  have hn := not_isNaN_packF neg hlt.le
  have hkey : orderKey (packF neg mag) = if neg then -(mag : Int) else mag := by
    rw [orderKey, signBit_packF neg (hlt.trans (by decide)), magBits_packF neg (hlt.trans (by decide))]
  have hlo : orderKey 0xC0490FDB#32 = -0x40490FDB := by decide
  have hhi : orderKey 0x40490FDB#32 = 0x40490FDB := by decide
  rw [angleAdmitted_iff, fle_eq (by decide) hn, fle_eq hn (by decide), decide_eq_true_iff, decide_eq_true_iff, hkey, hlo, hhi]
  cases neg <;> simp <;> omega

theorem isFinite_of_angleAdmitted {a : F32} (h : angleAdmitted a = true) : isFinite a = true := by
  obtain ⟨hlo, hhi⟩ := angleAdmitted_iff.1 h
  have hn : isNaN a = false := by
    by_contra hc
    rw [fle_of_isNaN (.inl (by simpa using hc))] at hhi
    cases hhi
  rcases isFinite_or_isInf hn with hf | hi
  · exact hf
  · obtain ⟨-, hpos⟩ := flt_fle_isInf_right (a := 0xC0490FDB#32) (by decide) hi
    obtain ⟨-, hneg⟩ := flt_fle_isInf_left (a := 0x40490FDB#32) (by decide) hi
    rw [hpos] at hlo
    rw [hneg] at hhi
    simp [hhi] at hlo

/-! ### The default, case by case -/

theorem atan2F32_of_isNaN {y x : F32} (h : isNaN y = true ∨ isNaN x = true) : atan2F32 y x = qNaN :=
  if_pos (by simpa using h)

theorem atan2F32_of_isZero_isZero {y x : F32} (hy : isZero y = true) (hx : isZero x = true) : atan2F32 y x = 0#32 := by
  simp [atan2F32, not_isNaN_of_isFinite, isFinite_of_isZero, hy, hx]

theorem atan2F32_of_isZero_left {y x : F32} (hy : isZero y = true) (hn : isNaN x = false) (hx : isZero x = false) :
    atan2F32 y x = if signBit x then pi32 else 0#32 := by
  simp [atan2F32, not_isNaN_of_isFinite, isFinite_of_isZero, hy, hn, hx]

theorem atan2F32_of_isInf_left {y x : F32} (hy : isInf y = true) (hn : isNaN x = false) :
    atan2F32 y x = packF (signBit y)
      (if isInf x then (if signBit x then 0x4016CBE4 else 0x3F490FDB) else 0x3FC90FDB) := by
  simp [atan2F32, not_isNaN_of_isInf, not_isZero_of_isInf, hy, hn]

theorem atan2F32_of_isInf_right {y x : F32} (hy : isFinite y = true) (hz : isZero y = false) (hx : isInf x = true) :
    atan2F32 y x = if signBit x then packF (signBit y) (magBits pi32) else 0#32 := by
  simp [atan2F32, not_isNaN_of_isFinite, not_isInf_of_isFinite, not_isNaN_of_isInf, hy, hz, hx]

theorem atan2F32_of_isZero_right {y x : F32} (hy : isFinite y = true) (hz : isZero y = false) (hx : isZero x = true) :
    atan2F32 y x = packF (signBit y) 0x3FC90FDB := by
  simp [atan2F32, not_isNaN_of_isFinite, not_isInf_of_isFinite, isFinite_of_isZero, hy, hz, hx]

theorem atan2F32_of_isFinite {y x : F32} (hy : isFinite y = true) (hzy : isZero y = false) (hx : isFinite x = true)
    (hzx : isZero x = false) : atan2F32 y x = atan2Finite y x := by
  simp [atan2F32, not_isNaN_of_isFinite, not_isInf_of_isFinite, hy, hzy, hx, hzx]

/-- R203 (c) for the default. -/
theorem angleAdmitted_atan2F32 {y x : F32} (hy : isNaN y = false) (hx : isNaN x = false) :
    angleAdmitted (atan2F32 y x) = true := by
  have hP : magBits pi32 = 0x40490FDB := by decide
  have h0 : angleAdmitted 0#32 = true := by decide
  rcases isFinite_or_isInf hy with hfy | hiy
  case inr =>
    rw [atan2F32_of_isInf_left hiy hx]
    exact angleAdmitted_packF _ (by split_ifs <;> omega)
  cases hzy : isZero y
  case true =>
    cases hzx : isZero x
    case true => rwa [atan2F32_of_isZero_isZero hzy hzx]
    case false =>
      rw [atan2F32_of_isZero_left hzy hx hzx]
      split
      · decide
      · exact h0
  case false =>
    rcases isFinite_or_isInf hx with hfx | hix
    case inr =>
      rw [atan2F32_of_isInf_right hfy hzy hix]
      split
      · exact angleAdmitted_packF _ le_rfl
      · exact h0
    cases hzx : isZero x
    case true =>
      rw [atan2F32_of_isZero_right hfy hzy hzx]
      exact angleAdmitted_packF _ (by omega)
    case false =>
      rw [atan2F32_of_isFinite hfy hzy hfx hzx]
      exact angleAdmitted_packF _ (angleMag_spec (scaled_pos_of_not_isZero hzy) _).1

/-! ### The parameter -/

theorem atan2At_nil (y x : F32) : atan2At [] y x = atan2F32 y x := by
  unfold atan2At
  split <;> rfl

/-- R203 (a) and (b) leave the parameter no choice. -/
theorem atan2At_of_decided (entries : List AngleEntry) {y x : F32}
    (h : (isNaN y = true ∨ isNaN x = true) ∨ (isZero y = true ∧ isZero x = true)) :
    atan2At entries y x = atan2F32 y x :=
  if_pos (by simpa using h)

theorem atan2At_cons_self {y x a : F32} (entries : List AngleEntry) (hy : isNaN y = false) (hx : isNaN x = false)
    (hz : isZero y = false ∨ isZero x = false) (ha : angleAdmitted a = true) :
    atan2At (⟨y, x, a⟩ :: entries) y x = a := by
  have hzz : (isZero y && isZero x) = false := by rcases hz with h | h <;> simp [h]
  simp [atan2At, hy, hx, hzz, ha]

/-- Whatever the entries, R203 (c) holds. -/
theorem angleAdmitted_atan2At (entries : List AngleEntry) {y x : F32} (hy : isNaN y = false) (hx : isNaN x = false) :
    angleAdmitted (atan2At entries y x) = true := by
  unfold atan2At
  split
  · exact angleAdmitted_atan2F32 hy hx
  · split
    · rename_i e he
      have hp := List.find?_some he
      simp only [Bool.and_eq_true] at hp
      exact hp.2
    · exact angleAdmitted_atan2F32 hy hx

/-! ### The nearest f32 -/

/-- The f32 magnitudes as real numbers of units. -/
def realUnits (k : Nat) : ℝ := units k

theorem realUnits_strictMono : StrictMono realUnits := fun _ _ h => Nat.cast_lt.2 (units_lt h)

/-- The halfway points of `Laws/Atan2.lean` are those of `BetweenMids`. -/
theorem betweenMids_of_midPoint {v : ℝ} {m : Nat} (hm : m ≤ magBits pi32) (hlo : m = 0 ∨ midPoint (m - 1) ≤ v)
    (hhi : v ≤ midPoint m) : BetweenMids realUnits (v * 2 ^ 149) m := by
  have hmid {k : Nat} (hk : k ≤ magBits pi32) : midPoint k * 2 ^ 150 = realUnits k + realUnits (k + 1) := by
    rw [midPoint_eq hk]
    exact div_mul_cancel₀ _ (by positivity)
  constructor
  · rintro j rfl
    rw [← hmid (by omega)]
    have := hlo.resolve_left (Nat.succ_ne_zero j)
    rw [Nat.add_sub_cancel] at this
    linarith
  · rw [← hmid hm]
    linarith

/-- An f32 whose magnitude has `v` between its halfway points is nearest to `v` with that sign. -/
theorem nearest_of_betweenMids {v : ℝ} {m : Nat} {a : F32} (neg : Bool) (hv : 0 ≤ v) (h : BetweenMids realUnits v m)
    (hf : isFinite a = true) (ha : exactVal a = if neg then -(units m : Int) else units m) :
    Nearest (if neg then -v else v) a := by
  refine ⟨hf, fun c _ => ?_⟩
  have hc : |(exactVal c : ℝ)| = realUnits (magBits c) := by
    rw [exactVal_eq, realUnits]
    split <;> simp
  have hnear := h.nearest realUnits_strictMono (magBits c)
  have ha' : |(if neg then -v else v) - exactVal a| = |v - realUnits m| := by
    rw [ha, realUnits]
    cases neg
    · simp
    · simp only [if_true]
      push_cast
      rw [neg_sub_neg, abs_sub_comm]
  have hv' : |if neg then -v else v| = v := by
    split <;> simp [abs_of_nonneg hv]
  have hsign := abs_abs_sub_abs_le (if neg then -v else v) (exactVal c : ℝ)
  rw [hv', hc] at hsign
  exact ha'.trans_le (hnear.trans hsign)

theorem pi_le_midPoint : π ≤ midPoint (magBits pi32) := by
  have e : midNum (magBits pi32) = 26353591 ∧ midDen (magBits pi32) = 2 ^ 23 := by decide +kernel
  have := pi_lt_d20
  rw [midPoint, e.1, e.2]
  norm_num
  linarith

/-- PI32 is the f32 nearest to π. -/
theorem betweenMids_pi : BetweenMids realUnits (π * 2 ^ 149) (magBits pi32) :=
  betweenMids_of_midPoint le_rfl (.inr (midPoint_lt_pi (by decide)).le) pi_le_midPoint

/-- 0x3FC90FDB is the f32 nearest to π/2. -/
theorem betweenMids_pi_div_two : BetweenMids realUnits (π / 2 * 2 ^ 149) 0x3FC90FDB := by
  have elo : midNum (0x3FC90FDB - 1) = 26353589 ∧ midDen (0x3FC90FDB - 1) = 2 ^ 24 := by decide +kernel
  have ehi : midNum 0x3FC90FDB = 26353591 ∧ midDen 0x3FC90FDB = 2 ^ 24 := by decide +kernel
  have := pi_gt_d20
  have := pi_lt_d20
  refine betweenMids_of_midPoint (by decide) (.inr ?_) ?_
  · rw [midPoint, elo.1, elo.2]
    norm_num
    linarith
  · rw [midPoint, ehi.1, ehi.2]
    norm_num
    linarith

/-- The magnitude that the search finds has the angle between its halfway points. -/
theorem betweenMids_angleMag {y : Nat} (hy : 0 < y) (x : Int) :
    BetweenMids realUnits (Complex.arg ⟨x, y⟩ * 2 ^ 149) (angleMag y x) := by
  obtain ⟨hle, hlo, hhi⟩ := angleMag_spec hy x
  refine betweenMids_of_midPoint hle (hlo.imp_right le_of_lt) ?_
  rcases hhi with hP | hhi
  · rw [hP]
    exact (Complex.arg_le_pi _).trans pi_le_midPoint
  · exact hhi

/-! ### The angle -/

/-- The angle has the sign of `y`, and otherwise depends on its absolute value. -/
theorem arg_exactVal {y : F32} (x : Int) (hz : isZero y = false) :
    Complex.arg ⟨x, exactVal y⟩ = if signBit y then -Complex.arg ⟨x, scaled y⟩ else Complex.arg ⟨x, scaled y⟩ := by
  have hpos : (0 : ℝ) < scaled y := by exact_mod_cast scaled_pos_of_not_isZero hz
  rw [exactVal]
  split
  · have hconj : (⟨x, ((-(scaled y : Int) : Int) : ℝ)⟩ : ℂ) = starRingEnd ℂ ⟨x, scaled y⟩ := by
      apply Complex.ext <;> simp
    have hne : Complex.arg ⟨x, scaled y⟩ ≠ π := fun h => hpos.ne' (Complex.arg_eq_pi_iff.1 h).2
    rw [hconj, Complex.arg_conj, if_neg hne]
  · simp

theorem arg_nonneg_of_nat (x : ℝ) (y : Nat) : 0 ≤ Complex.arg ⟨x, y⟩ := Complex.arg_nonneg_iff.2 (Nat.cast_nonneg y)

/-- The sign of a result that may have rounded to zero does not matter to its value. -/
theorem exactVal_atan2Finite {y : F32} (x : F32) (hz : isZero y = false) :
    exactVal (atan2Finite y x) = if signBit y then -(units (angleMag (scaled y) (exactVal x)) : Int)
      else units (angleMag (scaled y) (exactVal x)) := by
  have hle := (angleMag_spec (scaled_pos_of_not_isZero hz) (exactVal x)).1
  rw [atan2Finite, exactVal_packF _ (hle.trans_lt (by decide))]
  generalize angleMag (scaled y) (exactVal x) = mag
  cases signBit y
  · rfl
  · by_cases h0 : mag = 0
    · simp [h0]
    · simp [h0]

/-- The default over finite arguments, not both zero: the axes, and the rest by the search. -/
theorem nearest_atan2F32 {y x : F32} (hy : isFinite y = true) (hx : isFinite x = true)
    (hz : isZero y = false ∨ isZero x = false) :
    Nearest (Complex.arg ⟨exactVal x, exactVal y⟩ * 2 ^ 149) (atan2F32 y x) := by
  cases hzy : isZero y
  case true =>
    have hzx := hz.resolve_left (by simp [hzy])
    have hreal : (⟨exactVal x, exactVal y⟩ : ℂ) = ((exactVal x : ℝ) : ℂ) := by
      apply Complex.ext <;> simp [exactVal_of_isZero hzy]
    have hpos : 0 < scaled x := scaled_pos_of_not_isZero hzx
    rw [atan2F32_of_isZero_left hzy (not_isNaN_of_isFinite hx) hzx, hreal]
    cases hs : signBit x
    · have hval : (0 : ℝ) ≤ exactVal x := by
        rw [exactVal, hs]
        simp
      rw [Complex.arg_ofReal_of_nonneg hval, zero_mul]
      refine nearest_of_betweenMids false le_rfl (m := 0) ?_ (by decide) (by decide)
      rw [← zero_mul (2 ^ 149)]
      exact betweenMids_of_midPoint (Nat.zero_le _) (.inl rfl) (midPoint_pos 0).le
    · have hval : (exactVal x : ℝ) < 0 := by
        rw [exactVal, hs]
        simpa using hpos
      rw [Complex.arg_ofReal_of_neg hval]
      exact nearest_of_betweenMids false (by positivity) betweenMids_pi (by decide) (by decide)
  case false =>
    have hpos := scaled_pos_of_not_isZero hzy
    rw [arg_exactVal _ hzy, ite_mul, neg_mul]
    cases hzx : isZero x
    case true =>
      have harg : Complex.arg ⟨exactVal x, scaled y⟩ = π / 2 :=
        Complex.arg_eq_pi_div_two_iff.2 ⟨by simp [exactVal_of_isZero hzx], Nat.cast_pos.2 hpos⟩
      rw [atan2F32_of_isZero_right hy hzy hzx, harg]
      exact nearest_of_betweenMids _ (by positivity) betweenMids_pi_div_two (isFinite_packF _ (by decide))
        (exactVal_packF _ (by decide))
    case false =>
      have hnonneg := mul_nonneg (arg_nonneg_of_nat (exactVal x) (scaled y)) (show (0 : ℝ) ≤ 2 ^ 149 by positivity)
      rw [atan2F32_of_isFinite hy hzy hx hzx]
      refine nearest_of_betweenMids _ hnonneg (betweenMids_angleMag hpos (exactVal x)) ?_ (exactVal_atan2Finite x hzy)
      exact isFinite_packF _ ((angleMag_spec hpos (exactVal x)).1.trans_lt (by decide))

/-! ### The statement -/

/-- Settles O42: the contract for every list of entries, then the default: nearest, the axes, the infinities. -/
theorem atan2IsTheNearestAngle : Obligations.Atan2IsTheNearestAngle := by
  refine ⟨fun entries y x => ⟨fun hy hx => ?_, fun h => ?_, fun hy hx => ?_, fun hy hx hz a hlo hhi => ?_⟩, fun y x =>
    ⟨atan2At_nil y x, nearest_atan2F32, fun hy hn hx hs => ?_, fun hy hn hx hs => ?_, fun hy => ?_, fun hy hz => ?_,
      fun hx => ?_, by decide, by decide, by decide, by decide⟩⟩
  · rw [atan2At_of_decided entries (.inr ⟨hy, hx⟩), atan2F32_of_isZero_isZero hy hx]
  · rw [atan2At_of_decided entries (.inl h), atan2F32_of_isNaN h]
    rfl
  · have hadm := angleAdmitted_atan2At entries hy hx
    exact ⟨isFinite_of_angleAdmitted hadm, angleAdmitted_iff.1 hadm⟩
  · exact atan2At_cons_self entries hy hx hz (angleAdmitted_iff.2 ⟨hlo, hhi⟩)
  · rw [atan2F32_of_isZero_left hy hn hx, hs]
    rfl
  · rw [atan2F32_of_isZero_left hy hn hx, hs]
    rfl
  · cases hz : isZero y
    · exact atan2F32_of_isInf_right hy hz (by decide)
    · exact atan2F32_of_isZero_left hz (by decide) (by decide)
  · rw [atan2F32_of_isInf_right hy hz (by decide)]
    cases signBit y <;> decide
  · have hn := not_isNaN_of_isFinite hx
    have hi := not_isInf_of_isFinite hx
    rw [atan2F32_of_isInf_left (by decide) hn, atan2F32_of_isInf_left (by decide) hn, hi, if_neg Bool.false_ne_true]
    exact ⟨by decide, by decide⟩

end Sys2Proof.Machine
end

