-- ==== Sys2Proof/Proofs/RegisterFields.lean ====
section
/-! The fields of the registers that pack several of them in one word (10_state.md R44, R45, R48, R54, R56): the value of
each word, and from it the bits of each field. Every word is a sum of fields at their places. -/

namespace Sys2Proof.Machine

open Sys2Proof.Claims

/-! ### Fields from the value of a word -/

theorem bitAt_eq (pos : Nat) (b : Bool) : bitAt pos b = b.toNat * 2 ^ pos := by
  cases b <;> simp [bitAt]

theorem getLsbD_eq_of_toNat {n i : Nat} {w : BitVec n} {b : Bool} (h : w.toNat / 2 ^ i % 2 = b.toNat) :
    w.getLsbD i = b := by
  rw [BitVec.getLsbD, Nat.testBit_eq_decide_div_mod_eq, h]
  cases b <;> rfl

theorem extractLsb'_eq_of_toNat {n start len : Nat} {w : BitVec n} {x : BitVec len}
    (h : w.toNat / 2 ^ start % 2 ^ len = x.toNat) : w.extractLsb' start len = x := by
  apply BitVec.eq_of_toNat_eq
  rw [BitVec.extractLsb'_toNat, Nat.shiftRight_eq_div_pow, h]

/-- A reserved field reads as 0 (R74). -/
theorem extractLsb'_eq_zero_of_toNat {n start len : Nat} {w : BitVec n} (h : w.toNat / 2 ^ start % 2 ^ len = 0) :
    w.extractLsb' start len = 0#len :=
  extractLsb'_eq_of_toNat (h.trans BitVec.toNat_zero.symm)

/-! ### STATUS -/

theorem toNat_statusWord (t : Status) :
    t.word.toNat = t.busy.toNat + t.done.toNat * 2 + t.err.toNat * 4 + t.nf.toNat * 8 + t.inexh.toNat * 16
      + t.ecode.value.toNat * 256 := by
  have := t.ecode.value.isLt
  have := t.busy.toNat_le
  have := t.done.toNat_le
  have := t.err.toNat_le
  have := t.nf.toNat_le
  have := t.inexh.toNat_le
  simp only [Status.word, BitVec.toNat_ofNat, bitAt_eq]
  omega

/-- R44: the fields of STATUS, bits 7:5 and 31:16 being 0. -/
theorem statusWord_fields (t : Status) :
    t.word.getLsbD 0 = t.busy ∧ t.word.getLsbD 1 = t.done ∧ t.word.getLsbD 2 = t.err ∧ t.word.getLsbD 3 = t.nf
      ∧ t.word.getLsbD 4 = t.inexh ∧ t.word.extractLsb' 8 8 = t.ecode.value ∧ t.word.extractLsb' 5 3 = 0#3
      ∧ t.word.extractLsb' 16 16 = 0#16 := by
  have hword := toNat_statusWord t
  have hecode := t.ecode.value.isLt
  have hbusy := t.busy.toNat_le
  have hdone := t.done.toNat_le
  have herr := t.err.toNat_le
  have hnf := t.nf.toNat_le
  have hinexh := t.inexh.toNat_le
  refine ⟨getLsbD_eq_of_toNat ?_, getLsbD_eq_of_toNat ?_, getLsbD_eq_of_toNat ?_, getLsbD_eq_of_toNat ?_,
    getLsbD_eq_of_toNat ?_, extractLsb'_eq_of_toNat ?_, extractLsb'_eq_zero_of_toNat ?_,
    extractLsb'_eq_zero_of_toNat ?_⟩
  all_goals omega

/-! ### IRQ_EN -/

theorem toNat_readReg_irqEn (s : State) : (readReg .irqEn s).toNat = s.doneIe.toNat + s.errIe.toNat * 2 := by
  have := s.doneIe.toNat_le
  have := s.errIe.toNat_le
  simp only [readReg, BitVec.toNat_ofNat, bitAt_eq]
  omega

/-- R45: the fields of IRQ_EN, bits 31:2 being 0. -/
theorem irqEn_fields (s : State) :
    (readReg .irqEn s).getLsbD 0 = s.doneIe ∧ (readReg .irqEn s).getLsbD 1 = s.errIe
      ∧ (readReg .irqEn s).extractLsb' 2 30 = 0#30 := by
  have hword := toNat_readReg_irqEn s
  have hdone := s.doneIe.toNat_le
  have herr := s.errIe.toNat_le
  refine ⟨getLsbD_eq_of_toNat ?_, getLsbD_eq_of_toNat ?_, extractLsb'_eq_zero_of_toNat ?_⟩
  all_goals omega

/-! ### PSTAT -/

/-- R236: the row of the weighting tables is clamped to six bits. -/
theorem sidx_le (v : F32) : sidx v ≤ 63 := by
  rw [sidx]
  split
  · exact Nat.zero_le _
  · dsimp only
    split_ifs
    · exact le_rfl
    · exact Nat.zero_le _
    · exact min_le_left _ _

theorem toNat_pstat (s : State) :
    s.pstat.toNat = sidx s.sParam + (tvalid s.tParam).toNat * 2 ^ 30 + (svalid s.sParam).toNat * 2 ^ 31 := by
  have := sidx_le s.sParam
  have := (tvalid s.tParam).toNat_le
  have := (svalid s.sParam).toNat_le
  simp only [State.pstat, BitVec.toNat_ofNat, bitAt_eq]
  omega

/-- R48: the fields of PSTAT, bits 29:6 being 0. -/
theorem pstat_fields (s : State) :
    (s.pstat.extractLsb' 0 6).toNat = sidx s.sParam ∧ s.pstat.extractLsb' 6 24 = 0#24
      ∧ s.pstat.getLsbD 30 = tvalid s.tParam ∧ s.pstat.getLsbD 31 = svalid s.sParam := by
  have hword := toNat_pstat s
  have hsidx := sidx_le s.sParam
  have ht := (tvalid s.tParam).toNat_le
  have hs := (svalid s.sParam).toNat_le
  refine ⟨?_, extractLsb'_eq_zero_of_toNat ?_, getLsbD_eq_of_toNat ?_, getLsbD_eq_of_toNat ?_⟩
  · rw [BitVec.extractLsb'_toNat, Nat.shiftRight_zero]
    omega
  all_goals omega

/-! ### RC_STATE and RC_LOW_HI -/

theorem toNat_modeField (m : RcMode) : (modeField m).toNat = m.value := by cases m <;> rfl

theorem toNat_readReg_rcState (s : State) :
    (readReg .rcState s).toNat = (modeField s.rc.mode).toNat + s.rc.started.toNat * 4 := by
  have := (modeField s.rc.mode).isLt
  have := s.rc.started.toNat_le
  simp only [readReg, BitVec.toNat_ofNat, bitAt_eq, ← toNat_modeField]
  omega

/-- R54: the fields of RC_STATE, bits 31:3 being 0. -/
theorem rcState_fields (s : State) :
    (readReg .rcState s).extractLsb' 0 2 = modeField s.rc.mode ∧ (readReg .rcState s).getLsbD 2 = s.rc.started
      ∧ (readReg .rcState s).extractLsb' 3 29 = 0#29 := by
  have hword := toNat_readReg_rcState s
  have hmode := (modeField s.rc.mode).isLt
  have hstarted := s.rc.started.toNat_le
  refine ⟨extractLsb'_eq_of_toNat ?_, getLsbD_eq_of_toNat ?_, extractLsb'_eq_zero_of_toNat ?_⟩
  all_goals omega

/-- R56: RC_LOW_HI is bit 32 of `low`. -/
theorem readReg_rcLowHi (s : State) : readReg .rcLowHi s = 0#31 ++ s.rc.low.extractLsb' 32 1 := by
  refine Eq.trans ?_ (BitVec.setWidth_eq_append (by omega))
  apply BitVec.eq_of_toNat_eq
  simp only [readReg, bitAt_eq, BitVec.toNat_ofNat, BitVec.toNat_setWidth, BitVec.extractLsb'_toNat, BitVec.getLsbD,
    Nat.toNat_testBit, Nat.shiftRight_eq_div_pow]
  omega

end Sys2Proof.Machine
end

