-- ==== Sys2Proof/Proofs/Access.lean ====
section
/-! The reasoning rules of the slave port (20_memory.md R101 to R105): where each register, word of COUNTS and RAM word is
mapped, and what an admitted access of it does. -/

namespace Sys2Proof.Machine

open Sys2Proof.Claims

/-! ### The address map -/

/-- The offset of a register (10_state.md section 2). -/
def Reg.offset : Reg → BitVec 21
  | .id => 0x000
  | .version => 0x004
  | .cmd => 0x008
  | .status => 0x00C
  | .irqEn => 0x010
  | .caps => 0x014
  | .sParam => 0x020
  | .pstat => 0x024
  | .tParam => 0x028
  | .grDx => 0x030
  | .grDy => 0x034
  | .grMag => 0x038
  | .grAngle => 0x03C
  | .grAidx => 0x040
  | .grTheta => 0x044
  | .kcount => 0x050
  | .keepLo => 0x054
  | .keepHi => 0x058
  | .maxval => 0x05C
  | .rcState => 0x080
  | .rcRange => 0x084
  | .rcLowLo => 0x088
  | .rcLowHi => 0x08C
  | .rcCode => 0x090
  | .rcCache => 0x094
  | .rcFfrun => 0x098
  | .rcTotal => 0x09C
  | .rcPos => 0x0A0
  | .rcInlen => 0x0A4
  | .rcSym => 0x0A8
  | .rcNsym => 0x0AC
  | .rcLen => 0x0B0

theorem legalTarget_offset (caps : Word) (r : Reg) : legalTarget caps 4 r.offset = some (.reg r) := by
  cases r <;> rfl

/-- R70: the words of COUNTS, which no size of STREAM RAM covers. -/
theorem legalTarget_count (caps : Word) {i : Nat} (hi : i < 256) :
    legalTarget caps 4 (BitVec.ofNat 21 (0x800 + 4 * i)) = some (.count i) := by
  have hoff : (BitVec.ofNat 21 (0x800 + 4 * i)).toNat = 0x800 + 4 * i := by
    rw [BitVec.toNat_ofNat, Nat.mod_eq_of_lt (by omega)]
  have hram : ¬isRam caps (0x800 + 4 * i) = true := by
    rw [isRam_iff]
    omega
  rw [legalTarget, hoff, if_pos ⟨rfl, by omega⟩, target, if_neg (by simp only [patchBase]; omega), if_neg hram,
    if_pos (by simp only [countsBase]; omega), countsBase]
  congr 2
  omega

theorem legalTarget_of_inRam {caps : Word} {o : BitVec 21} (ho : o.toNat % 4 = 0) (hr : inRam caps o.toNat) :
    legalTarget caps 4 o = some (.ram o.toNat) := by
  have hge : 0x100 ≤ o.toNat := by
    rw [inRam] at hr
    omega
  rw [legalTarget, if_pos ⟨rfl, ho⟩, target, if_neg (by simp only [patchBase]; omega), if_pos ((isRam_iff _ _).2 hr)]

/-! ### An admitted access -/

section
variable {s : State} {size : Nat} {o : BitVec 21} {t : Target} (ht : legalTarget s.caps size o = some t)
include ht

/-- R104, R110: an admitted read returns the word and changes nothing else. -/
theorem hostRead_of_admitted (hb : s.status.busy = false ∨ readWhileBusy t = true) :
    hostRead size o s = { s with readData := readTarget t s } := by
  have hadmit : ¬(s.status.busy && !readWhileBusy t) = true := by
    rcases hb with h | h <;> simp [h]
  simp only [hostRead, ht, if_neg hadmit]

/-- R104: an admitted write has the effect of its target. -/
theorem hostWrite_of_admitted (v : Word) (hb : s.status.busy = false ∨ writeWhileBusy t = true) :
    hostWrite size o v s = writeTarget t v s := by
  have hadmit : ¬(s.status.busy && !writeWhileBusy t) = true := by
    rcases hb with h | h <;> simp [h]
  simp only [hostWrite, ht, if_neg hadmit]

end

/-! ### Registers -/

theorem readData_hostRead_reg {s : State} (r : Reg) (hb : s.status.busy = false ∨ readWhileBusy (.reg r) = true) :
    (hostRead 4 r.offset s).readData = readReg r s := by
  rw [hostRead_of_admitted (legalTarget_offset _ r) hb, readTarget]

theorem hostWrite_reg {s : State} (r : Reg) (v : Word) (hb : s.status.busy = false ∨ writeWhileBusy (.reg r) = true) :
    hostWrite 4 r.offset v s = writeReg r v s := by
  rw [hostWrite_of_admitted (legalTarget_offset _ r) v hb, writeTarget]

/-- What a register reads right after a write of it that starts no command. -/
theorem readData_hostRead_hostWrite_reg {s : State} (r : Reg) (v : Word) (hb : s.status.busy = false)
    (hw : (writeReg r v s).status = s.status) :
    (hostRead 4 r.offset (hostWrite 4 r.offset v s)).readData = readReg r (writeReg r v s) := by
  rw [hostWrite_reg r v (.inl hb), readData_hostRead_reg r (.inl (hw ▸ hb))]

/-! ### COUNTS and the RAMs -/

theorem readData_hostRead_count {s : State} {i : Nat} (hi : i < 256) (hb : s.status.busy = false) :
    (hostRead 4 (BitVec.ofNat 21 (0x800 + 4 * i)) s).readData = s.rc.counts.getD i 0#32 := by
  rw [hostRead_of_admitted (legalTarget_count _ hi) (.inl hb), readTarget, Coder.count]

section
variable {s : State} {o : BitVec 21} (hb : s.status.busy = false) (ho : o.toNat % 4 = 0) (hr : inRam s.caps o.toNat)
include hb ho hr

theorem readData_hostRead_ram : (hostRead 4 o s).readData = s.wordAt o.toNat := by
  rw [hostRead_of_admitted (legalTarget_of_inRam ho hr) (.inl hb), readTarget]

theorem hostWrite_ram (v : Word) : hostWrite 4 o v s = s.storeWords o.toNat [v] := by
  rw [hostWrite_of_admitted (legalTarget_of_inRam ho hr) v (.inl hb), writeTarget]

end

/-- R107: the bytes of a word just stored, the low one first. -/
theorem byteAt_storeWords_singleton (s : State) (a : Nat) (v : Word) {i : Nat} (hi : i < 4) :
    (s.storeWords a [v]).byteAt (a + i) = v.extractLsb' (8 * i) 8 := by
  rw [State.storeWords, byteAt_storeBytes_of_inside (by simpa using hi)]
  interval_cases i <;> rfl

end Sys2Proof.Machine
end

