-- ==== Sys2Proof/Proofs/Registers.lean ====
section
/-! The host's view of the state (10_state.md): words written to the RAMs (O11), what the host reads (O14, O16), what its
writes store (O10), and the interrupt output (O15). -/

namespace Sys2Proof.Machine

open Sys2Proof.Claims

/-- Settles O11: the write is a store of one word, read back by the rules of memory. -/
theorem ramWordsReadBack : Obligations.RamWordsReadBack := by
  intro s o v hb _ ho hr
  refine ⟨s.storeWords o.toNat [v], hostWrite_ram hb ho hr v, rfl, fun i hi => byteAt_storeWords_singleton s _ v hi,
    fun a ha => byteAt_storeWords_of_outside ha, ?_⟩
  rw [readData_hostRead_ram (s := s.storeWords o.toNat [v]) hb ho hr]
  exact wordAt_storeWords (i := 0) Nat.zero_lt_one

/-- Settles O14: every register by its read, then COUNTS and the RAMs. -/
theorem hostReadsShowTheState : Obligations.HostReadsShowTheState := by
  intro s
  have always (r : Reg) (h : readWhileBusy (.reg r) = true) : (hostRead 4 r.offset s).readData = readReg r s :=
    readData_hostRead_reg r (.inr h)
  refine ⟨⟨_, always .status rfl, statusWord_fields s.status⟩, always .id rfl, always .version rfl, always .cmd rfl,
    always .caps rfl, ⟨_, always .irqEn rfl, irqEn_fields s⟩, fun hb => ?_⟩
  have read (r : Reg) : (hostRead 4 r.offset s).readData = readReg r s := readData_hostRead_reg r (.inl hb)
  have zeroExtended {w : Nat} (x : BitVec w) (h : w ≤ 32) := BitVec.setWidth_eq_append (x := x) h
  exact ⟨read .sParam, read .tParam, read .grDx, read .grDy, read .grMag, read .grAngle,
    (read .grAidx).trans (zeroExtended s.gr.aidx (by omega)), read .grTheta,
    (read .kcount).trans (zeroExtended s.kcount (by omega)), read .keepLo, read .keepHi, read .maxval,
    ⟨_, read .rcState, rcState_fields s⟩, read .rcRange,
    (read .rcLowLo).trans (BitVec.setWidth_eq_extractLsb' (by omega)), (read .rcLowHi).trans (readReg_rcLowHi s),
    read .rcCode, (read .rcCache).trans (zeroExtended s.rc.cache (by omega)), read .rcFfrun, read .rcTotal, read .rcPos,
    read .rcInlen, (read .rcSym).trans (zeroExtended s.rc.sym (by omega)), read .rcNsym, read .rcLen,
    fun _ hi => readData_hostRead_count hi hb, fun _ _ ho hr => readData_hostRead_ram hb ho hr⟩

theorem pstat_reset : State.reset.pstat = 0xC0000000#32 := by decide

/-- Settles O16: the read computes the fields from the two parameters as they stand. -/
theorem pstatShowsValidityAtOnce : Obligations.PstatShowsValidityAtOnce :=
  ⟨fun s a b hb => ⟨_, readData_hostRead_reg .pstat (.inl hb), pstat_fields { s with sParam := a, tParam := b }⟩,
    pstat_reset⟩

/-! ### Host writes of registers -/

/-- The writable registers whose one field is the whole word (R47, R49, R52, R53, R62). -/
def wholeWordRegs : List Reg := [.sParam, .tParam, .keepLo, .keepHi, .maxval, .rcInlen]

theorem readReg_writeReg_wholeWord {r : Reg} (hr : r ∈ wholeWordRegs) (v : Word) (s : State) :
    readReg r (writeReg r v s) = v ∧ (writeReg r v s).status = s.status := by
  simp only [wholeWordRegs, List.mem_cons, List.not_mem_nil, or_false] at hr
  rcases hr with rfl | rfl | rfl | rfl | rfl | rfl <;> exact ⟨rfl, rfl⟩

/-- R51, R74: KCOUNT keeps seven bits. -/
theorem readReg_writeReg_kcount (v : Word) (s : State) : readReg .kcount (writeReg .kcount v s) = v &&& 0x7F#32 := by
  apply BitVec.eq_of_toNat_eq
  simp only [readReg, writeReg, BitVec.toNat_setWidth, BitVec.toNat_and]
  exact (Nat.mod_eq_of_lt (by omega)).trans (Nat.and_two_pow_sub_one_eq_mod _ 7).symm

/-- R45, R74: IRQ_EN keeps two bits. -/
theorem readReg_writeReg_irqEn (v : Word) (s : State) : readReg .irqEn (writeReg .irqEn v s) = v &&& 0x3#32 := by
  apply BitVec.eq_of_toNat_eq
  rw [toNat_readReg_irqEn, BitVec.toNat_and]
  refine Eq.trans ?_ (Nat.and_two_pow_sub_one_eq_mod _ 2).symm
  simp only [writeReg, BitVec.getLsbD, Nat.toNat_testBit]
  omega

/-- Settles O10: each write has its register's effect, and a read of it follows. -/
theorem registerWritesStoreTheirFields : Obligations.RegisterWritesStoreTheirFields := by
  intro s v hb
  have write (r : Reg) : hostWrite 4 r.offset v s = writeReg r v s := hostWrite_reg r v (.inl hb)
  have hk : v.setWidth 7 = v.extractLsb' 0 7 := BitVec.setWidth_eq_extractLsb' (by omega)
  refine ⟨write .sParam, write .tParam, ?_, write .keepLo, write .keepHi, write .maxval, write .rcInlen, ?_, ?_, ?_⟩
  · rw [← hk]
    exact write .kcount
  · exact (readData_hostRead_hostWrite_reg .kcount v hb rfl).trans (readReg_writeReg_kcount v s)
  · exact (readData_hostRead_hostWrite_reg .irqEn v hb rfl).trans (readReg_writeReg_irqEn v s)
  · refine List.forall_mem_map (f := Reg.offset) (l := wholeWordRegs).2 fun r hr => ?_
    obtain ⟨hread, hstatus⟩ := readReg_writeReg_wholeWord hr v s
    exact (readData_hostRead_hostWrite_reg r v hb hstatus).trans hread

/-! ### The interrupt output -/

/-- Settles O15: the bits read are the fields that the level is made of. -/
theorem interruptIsALevel : Obligations.InterruptIsALevel := by
  refine ⟨fun s => ?_, rfl⟩
  obtain ⟨-, hdone, herr, -⟩ := statusWord_fields s.status
  obtain ⟨hdoneIe, herrIe, -⟩ := irqEn_fields s
  rw [State.irq, hdoneIe, herrIe, readReg, hdone, herr]

end Sys2Proof.Machine
end

