-- ==== Sys2Proof/Proofs/ResetState.lean ====
section
/-! The state right after reset (70_reset_and_hazards.md R450, R451): the table of 10_state.md section 2 (O17), and the
invariant of a safe state (O54). -/

namespace Sys2Proof.Machine

open Sys2Proof.Claims

/-! ### The register table -/

/-- The registers in the order of the map (10_state.md section 2). -/
def registers : List Reg :=
  [.id, .version, .cmd, .status, .irqEn, .caps, .sParam, .pstat, .tParam, .grDx, .grDy, .grMag, .grAngle, .grAidx,
   .grTheta, .kcount, .keepLo, .keepHi, .maxval, .rcState, .rcRange, .rcLowLo, .rcLowHi, .rcCode, .rcCache, .rcFfrun, .rcTotal,
   .rcPos, .rcInlen, .rcSym, .rcNsym, .rcLen]

/-- The table lists every register at its offset, with what it reads after reset. -/
theorem resetTable_eq : resetTable = registers.map fun r => (r.offset, readReg r State.reset) := by decide

/-- Settles O17: the registers by the table, COUNTS by the model's reset. -/
theorem resetRegisterTable : Obligations.ResetRegisterTable := by
  refine ⟨?_, fun i hi => ?_, rfl, rfl, rfl⟩
  · rw [resetTable_eq, List.map_map, List.map_map]
    exact List.map_congr_left fun r _ => readData_hostRead_reg r (.inl rfl)
  · rw [readData_hostRead_count hi rfl]
    exact List.getD_replicate _ hi

/-! ### The invariant -/

/-- R301, R304: the model after reset has 256 counts of 1. -/
theorem modelOk_reset : Coder.reset.ModelOk := by
  have hcum : cum (List.replicate 256 1#32) 256 = 256 := by
    rw [cum_of_length_le _ _ List.length_replicate.le, List.map_replicate, List.sum_replicate]
    rfl
  refine ⟨List.length_replicate, fun x hx => ?_, hcum, by decide, by decide⟩
  rw [List.eq_of_mem_replicate hx]
  decide

/-- No stream is open after reset, so only the model is bound. -/
theorem coderOk_reset : Coder.reset.Ok :=
  ⟨modelOk_reset, fun h => h.elim nofun nofun, nofun⟩

/-- Settles O54: the parameter at its default, no cell written, no command pending, no error, the coder reset. -/
theorem resetIsSafe : Obligations.ResetIsSafe := by
  have hcaps : State.reset.CapsLegal := ⟨by decide, by decide, by decide⟩
  have hmem : State.reset.MemOk := ⟨.nil, nofun⟩
  have hlatch : State.reset.LatchOk := ⟨rfl, nofun⟩
  have herror : State.reset.ErrorOk := iff_of_true rfl rfl
  exact ⟨hcaps, hmem, hlatch, herror, coderOk_reset⟩

end Sys2Proof.Machine
end

