-- ==== Sys2Proof/Proofs/AccessRefusals.lean ====
section
/-! Which accesses the slave port admits (20_memory.md R102 to R105): an illegal one (O7) and one refused while BUSY (O8)
signal ACCESS and nothing else, and a write to what is read-only has no effect (O9). -/

namespace Sys2Proof.Machine

open Sys2Proof.Claims

/-! ### The registers of the map -/

/-- Each register stands at its offset only. -/
theorem regAt_eq_some_iff {n : Nat} {r : Reg} : regAt n = some r ↔ n = r.offset.toNat := by
  constructor
  · intro h
    unfold regAt at h
    split at h <;> cases h <;> rfl
  · rintro rfl
    cases r <;> rfl

theorem mem_registers (r : Reg) : r ∈ registers := by cases r <;> decide

theorem registerOffsets_eq : registerOffsets = registers.map fun r => r.offset.toNat := by decide

theorem mem_registerOffsets_iff {n : Nat} : n ∈ registerOffsets ↔ ∃ r, regAt n = some r := by
  simp only [registerOffsets_eq, List.mem_map, mem_registers, true_and, regAt_eq_some_iff]
  exact exists_congr fun r => eq_comm

theorem lt_of_mem_registerOffsets {n : Nat} (h : n ∈ registerOffsets) : n < 0x100 := by
  have hall : ∀ m ∈ registerOffsets, m < 0x100 := by decide
  exact hall n h

/-! ### Legal accesses -/

theorem legalTarget_eq_some_iff {caps : Word} {size : Nat} {o : BitVec 21} {t : Target} :
    legalTarget caps size o = some t ↔ (size = 4 ∧ o.toNat % 4 = 0) ∧ target caps o.toNat = some t := by
  simp [legalTarget]

/-- R101: the mapped offsets, registers below 0x100 and the windows above. -/
theorem target_isSome_iff (caps : Word) (n : Nat) :
    (∃ t, target caps n = some t) ↔ n ∈ registerOffsets ∨ inRam caps n ∨ (0x800 ≤ n ∧ n < 0xC00) := by
  have hram : isRam caps n = true ↔ inRam caps n := isRam_iff caps n
  by_cases hn : n < 0x100
  · have hwindows : ¬(inRam caps n ∨ (0x800 ≤ n ∧ n < 0xC00)) := by
      rw [inRam]
      omega
    simp [target, patchBase, hn, hwindows, mem_registerOffsets_iff]
  · have hreg : n ∉ registerOffsets := fun h => hn (lt_of_mem_registerOffsets h)
    by_cases hr : isRam caps n = true
    · simp [target, patchBase, hn, hr, hram.1 hr]
    · by_cases hc : 0x800 ≤ n ∧ n < 0xC00 <;>
        simp [target, patchBase, countsBase, hn, hr, hreg, mt hram.2 hr, hc]

/-- R102: a legal access is one that moves a word. -/
theorem legalAccess_iff {caps : Word} {size : Nat} {o : BitVec 21} :
    legalAccess caps size o ↔ ∃ t, legalTarget caps size o = some t := by
  simp [legalAccess, legalTarget_eq_some_iff, target_isSome_iff, and_assoc]

theorem legalTarget_of_not_legalAccess {caps : Word} {size : Nat} {o : BitVec 21} (h : ¬legalAccess caps size o) :
    legalTarget caps size o = none := by
  rw [legalAccess_iff] at h
  exact Option.eq_none_iff_forall_ne_some.2 fun t ht => h ⟨t, ht⟩

/-- A register is reached at its offset only. -/
theorem offset_of_legalTarget {caps : Word} {size : Nat} {o : BitVec 21} {r : Reg}
    (h : legalTarget caps size o = some (.reg r)) : o = r.offset :=
  BitVec.eq_of_toNat_eq (regAt_eq_some_iff.1 (target_reg (legalTarget_eq_some_iff.1 h).2).2)

/-- The windows lie past the registers. -/
theorem le_of_legalTarget {caps : Word} {size : Nat} {o : BitVec 21} {t : Target}
    (h : legalTarget caps size o = some t) (ht : ∀ r, t ≠ .reg r) : 0x100 ≤ o.toNat :=
  target_of_ge (legalTarget_eq_some_iff.1 h).2 ht

/-! ### Accesses while BUSY -/

section
variable {caps : Word} {size : Nat} {o : BitVec 21} {t : Target} (ht : legalTarget caps size o = some t)
include ht

/-- R104: the six registers that may be read while BUSY, by their offsets. -/
theorem readWhileBusy_iff : readWhileBusy t = true ↔ o.toNat ∈ [0x000, 0x004, 0x008, 0x00C, 0x010, 0x014] := by
  cases t with
  | reg r =>
    rw [offset_of_legalTarget ht]
    cases r <;> decide
  | ram a | count a =>
    have := le_of_legalTarget ht nofun
    refine iff_of_false Bool.false_ne_true ?_
    simp only [List.mem_cons, List.not_mem_nil, or_false]
    omega

/-- R104: the three registers that may be written while BUSY, by their offsets. -/
theorem writeWhileBusy_iff : writeWhileBusy t = true ↔ o.toNat ∈ [0x008, 0x00C, 0x010] := by
  cases t with
  | reg r =>
    rw [offset_of_legalTarget ht]
    cases r <;> decide
  | ram a | count a =>
    have := le_of_legalTarget ht nofun
    refine iff_of_false Bool.false_ne_true ?_
    simp only [List.mem_cons, List.not_mem_nil, or_false]
    omega

end

/-! ### Refused accesses -/

/-- R402: `signal` keeps the first error. -/
theorem signal_eq_flagged (code : ErrCode) (s : State) : signal code s = flagged code s := by
  have hstatus : s.status.record code = flaggedStatus code s.status := by
    rw [Status.record, flaggedStatus]
    cases he : s.status.err
    · rfl
    · simp [← he]
  rw [signal, flagged, hstatus]

section
variable {s : State} {size : Nat} {o : BitVec 21}

/-- R103: an illegal read. -/
theorem hostRead_of_illegal (h : legalTarget s.caps size o = none) :
    hostRead size o s = { flagged .access s with readData := 0#32 } := by
  simp only [hostRead, h, signal_eq_flagged]

/-- R103: an illegal write. -/
theorem hostWrite_of_illegal (v : Word) (h : legalTarget s.caps size o = none) :
    hostWrite size o v s = flagged .access s := by
  simp only [hostWrite, h, signal_eq_flagged]

variable {t : Target} (ht : legalTarget s.caps size o = some t) (hb : s.status.busy = true)
include ht hb

/-- R104: a legal read refused while BUSY is as an illegal one. -/
theorem hostRead_of_refused (hr : ¬readWhileBusy t = true) :
    hostRead size o s = { flagged .access s with readData := 0#32 } := by
  simp [hostRead, ht, hb, hr, signal_eq_flagged]

/-- R104: a legal write refused while BUSY is as an illegal one. -/
theorem hostWrite_of_refused (v : Word) (hw : ¬writeWhileBusy t = true) :
    hostWrite size o v s = flagged .access s := by
  simp [hostWrite, ht, hb, hw, signal_eq_flagged]

end

/-! ### Read-only registers and COUNTS -/

/-- The read-only registers (R105). -/
def readOnlyRegs : List Reg :=
  [.id, .version, .caps, .pstat, .grDx, .grDy, .grMag, .grAngle, .grAidx, .grTheta, .rcState, .rcRange, .rcLowLo, .rcLowHi,
   .rcCode, .rcCache, .rcFfrun, .rcTotal, .rcPos, .rcSym, .rcNsym, .rcLen]

theorem readOnlyOffsets_eq : readOnlyOffsets = readOnlyRegs.map fun r => r.offset.toNat := by decide

theorem writeReg_readOnly (v : Word) (s : State) : ∀ r ∈ readOnlyRegs, writeReg r v s = s := by
  simp [readOnlyRegs, writeReg]

/-- The words of COUNTS by their offsets (R70). -/
theorem legalTarget_of_inCounts (caps : Word) {o : BitVec 21} (hlo : 0x800 ≤ o.toNat) (hhi : o.toNat < 0xC00)
    (h4 : o.toNat % 4 = 0) : ∃ i, legalTarget caps 4 o = some (.count i) := by
  have ho : o = BitVec.ofNat 21 (0x800 + 4 * ((o.toNat - 0x800) / 4)) := by
    rw [show 0x800 + 4 * ((o.toNat - 0x800) / 4) = o.toNat by omega, BitVec.ofNat_toNat, BitVec.setWidth_eq]
  rw [ho]
  exact ⟨_, legalTarget_count caps (by omega)⟩

/-! ### The statements -/

/-- Settles O7: an access that is not legal moves no word. -/
theorem illegalAccessOnlySignals : Obligations.IllegalAccessOnlySignals := by
  intro s size o v h
  have hnone := legalTarget_of_not_legalAccess h
  exact ⟨hostRead_of_illegal hnone, hostWrite_of_illegal v hnone⟩

/-- Settles O8: a legal access moves the word of some target, whose offset says whether it is admitted while BUSY. -/
theorem busyBlockAdmitsSixRegisters : Obligations.BusyBlockAdmitsSixRegisters := by
  intro s o v h
  obtain ⟨t, ht⟩ := legalAccess_iff.1 h
  have hread := readWhileBusy_iff ht
  have hwrite := writeWhileBusy_iff ht
  refine ⟨fun hb ho => hostRead_of_refused ht hb (mt hread.1 ho), fun hb ho => hostWrite_of_refused ht hb v (mt hwrite.1 ho),
    fun hadmit => ⟨_, hostRead_of_admitted ht (hadmit.imp_right hread.2)⟩, hostWrite_reg .irqEn v (.inr rfl), fun hb => ?_⟩
  rw [← signal_eq_flagged]
  refine (hostWrite_reg .cmd v (.inr rfl)).trans ?_
  rw [writeReg, issue, if_pos hb]

/-- Settles O9: a read-only register by its offset, then a word of COUNTS. -/
theorem readOnlyWritesAreIgnored : Obligations.ReadOnlyWritesAreIgnored := by
  rintro s o v hb (ho | ⟨hlo, hhi, h4⟩)
  · rw [readOnlyOffsets_eq, List.mem_map] at ho
    obtain ⟨r, hr, hro⟩ := ho
    obtain rfl : r.offset = o := BitVec.eq_of_toNat_eq hro
    exact (hostWrite_reg r v (.inl hb)).trans (writeReg_readOnly v s r hr)
  · obtain ⟨i, hi⟩ := legalTarget_of_inCounts s.caps hlo hhi h4
    exact hostWrite_of_admitted hi v (.inl hb)

end Sys2Proof.Machine
end

