-- ==== Sys2Proof/Proofs/RamStores.lean ====
section
/-! Where memory grows (20_memory.md R101): the cells that the stores of a command add lie in the RAM
windows, and the canonical form is kept. -/

namespace Sys2Proof.Machine

/-! ### Stores into the RAM windows -/

/-- From `s` to `t` memory keeps its form, and gains cells of the RAM windows only. -/
structure StoresInRam (s t : State) : Prop where
  caps : t.caps = s.caps
  wf : s.mem.wf → t.mem.wf
  cells : ∀ c ∈ t.mem, c ∈ s.mem ∨ isRam s.caps c.1 = true

namespace StoresInRam

/-- An update that leaves memory and CAPS alone stores nothing. -/
theorem of_mem_eq {s t : State} (hcaps : t.caps = s.caps) (hmem : t.mem = s.mem) : StoresInRam s t :=
  ⟨hcaps, fun h => hmem ▸ h, fun _ hc => .inl (hmem ▸ hc)⟩

theorem refl (s : State) : StoresInRam s s := of_mem_eq rfl rfl

theorem trans {s t u : State} (h : StoresInRam s t) (h' : StoresInRam t u) : StoresInRam s u where
  caps := h'.caps.trans h.caps
  wf hs := h'.wf (h.wf hs)
  cells c hc := by
    rcases h'.cells c hc with hc | hc
    · exact h.cells c hc
    · exact .inr (h.caps ▸ hc)

theorem memOk {s t : State} (h : StoresInRam s t) (hs : s.MemOk) : t.MemOk := by
  obtain ⟨hwf, hcells⟩ := hs
  refine ⟨h.wf hwf, fun c hc => ?_⟩
  rw [h.caps]
  exact (h.cells c hc).elim (hcells c) id

theorem capsLegal {s t : State} (h : StoresInRam s t) (hs : s.CapsLegal) : t.CapsLegal := by
  rw [State.CapsLegal, h.caps]
  exact hs

/-- A store of bytes whose offsets are all in RAM. -/
theorem storeBytes {s : State} {a : Nat} {bs : List Byte}
    (h : ∀ x, a ≤ x → x < a + bs.length → isRam s.caps x = true) : StoresInRam s (s.storeBytes a bs) :=
  ⟨rfl, fun hs => storeBytes_wf hs a bs, fun c hc => (mem_store hc).imp_right fun ⟨hlo, hhi⟩ => h c.1 hlo hhi⟩

/-- A store of words whose offsets are all in RAM. -/
theorem storeWords {s : State} {a : Nat} {ws : List Word}
    (h : ∀ x, a ≤ x → x < a + 4 * ws.length → isRam s.caps x = true) : StoresInRam s (s.storeWords a ws) :=
  storeBytes fun x hlo hhi => h x hlo (by rwa [length_flatMap_wordBytes] at hhi)

/-- PATCH and COEF are one run of RAM (R101). -/
theorem storeWords_patchCoef {s : State} {a : Nat} {ws : List Word} (hlo : 0x100 ≤ a) (hhi : a + 4 * ws.length ≤ 0x400) :
    StoresInRam s (s.storeWords a ws) :=
  storeWords fun x _ _ => (isRam_iff _ _).2 (by omega)

end StoresInRam

/-! ### Lists of stored values -/

theorem length_flatMap_pair {α β : Type} (l : List α) (f g : α → β) :
    (l.flatMap fun x => [f x, g x]).length = 2 * l.length := by
  simp [List.length_flatMap, Nat.mul_comm]

theorem length_forward (p : List F32) (hp : p.length = 64) :
    (interleave (forward p).re (forward p).im).length = 128 := by
  obtain ⟨hre, him⟩ : (forward p).Full := fft64_full ⟨hp, List.length_replicate⟩ .fwd
  rw [length_interleave, hre, him, Nat.min_self]

theorem length_scattered (s : State) : (scattered s).length = 64 :=
  foldl_keeps (fun bins : List (F32 × F32) => bins.length = 64) _ _ (fun _ _ h => List.length_set.trans h) _ List.length_replicate

theorem length_keptBins_le (s : State) : (keptBins s).length ≤ 64 :=
  (List.length_filter_le _ _).trans List.length_range.le

/-! ### The spectral unit and the quantiser -/

theorem storesInRam_storeBins1 (s : State) (f : Nat → F32 × F32) : StoresInRam s (s.storeBins1 f) :=
  .storeWords_patchCoef (by simp only [coefBase]; omega) (by rw [length_flatMap_pair, List.length_range, coefBase])

theorem storesInRam_zeroBins (ks : List Nat) (s : State) (hks : ∀ k ∈ ks, k < 64) : StoresInRam s (zeroBins s ks) := by
  induction ks generalizing s with
  | nil => exact .refl s
  | cons k ks ih =>
    have hk := hks k List.mem_cons_self
    have hfirst : StoresInRam s (s.storeWords (coefBase + 8 * k) [0#32, 0#32]) :=
      .storeWords_patchCoef (by simp only [coefBase]; omega) (by simp [coefBase]; omega)
    exact hfirst.trans (ih _ fun j hj => hks j (List.mem_cons_of_mem k hj))

/-- R362: IDX and QVAL are written whole. -/
theorem storesInRam_quantize (s : State) : StoresInRam s (quantize s) := by
  have hk := length_keptBins_le s
  refine .trans (t := (s.storeBytes idxBase _).storeBytes qvalBase _) (.trans (.storeBytes ?_) (.storeBytes ?_))
    (.of_mem_eq rfl rfl)
  all_goals
    simp only [List.length_append, List.length_map, length_flatMap_pair, List.length_replicate, idxBase, qvalBase]
    intro x hlo hhi
    rw [isRam_iff]
    omega

end Sys2Proof.Machine
end

