-- ==== Sys2Proof/Proofs/CommandWrites.lean ====
section
/-! What each command may have written when its pseudocode ends (20_memory.md R101, R116), said once for every command, and
from it which commands write which result registers (O35). -/

namespace Sys2Proof.Machine

/-! ### The end of a pseudocode -/

/-- The state in which a pseudocode ends. -/
def CmdResult.state : CmdResult → State
  | .ok s => s
  | .failed _ s => s

/-- Completion empties PCMD and leaves NF and INEXH of STATUS as the pseudocode left them. -/
theorem finish_frame {r : CmdResult} {t : State} (h : r.finish = .next t) :
    ∃ status : Status, t = { r.state with pcmd := none, status := status } ∧ status.nf = r.state.status.nf
      ∧ status.inexh = r.state.status.inexh := by
  rcases finish_eq_next.1 h with ⟨u, rfl, rfl⟩ | ⟨code, u, rfl, rfl⟩
  · exact ⟨_, rfl, rfl, rfl⟩
  · exact ⟨_, rfl, record_nf _ code, record_inexh _ code⟩

/-! ### The coder's writes -/

/-- The encoder's operations write its registers and STREAM. -/
def EncoderWrites (s u : State) : Prop := (∃ mem rc, u = { s with mem := mem, rc := rc }) ∧ StoresInRam s u

namespace EncoderWrites

theorem storesInRam {s u : State} (h : EncoderWrites s u) : StoresInRam s u := h.2

theorem withRc (s : State) (c : Coder) : EncoderWrites s (s.withRc c) := ⟨⟨s.mem, c, rfl⟩, .of_mem_eq rfl rfl⟩

theorem refl (s : State) : EncoderWrites s s := withRc s s.rc

theorem trans {s t u : State} : EncoderWrites s t → EncoderWrites t u → EncoderWrites s u := by
  rintro ⟨⟨_, _, rfl⟩, hst⟩ ⟨⟨mem, rc, rfl⟩, htu⟩
  exact ⟨⟨mem, rc, rfl⟩, hst.trans htu⟩

/-- What holds of both parts of a pseudocode holds of the whole, whether or not the first part fails. -/
theorem andThen {s : State} {r : CmdResult} {f : State → CmdResult} (hr : EncoderWrites s r.state)
    (hf : ∀ t, EncoderWrites t (f t).state) : EncoderWrites s (r.andThen f).state := by
  cases r with
  | ok t => exact hr.trans (hf t)
  | failed code t => exact hr

end EncoderWrites

/-- R307: a byte is emitted only where STREAM has room. -/
theorem encoderWrites_emit (b : Byte) (s : State) : EncoderWrites s (emit b s).state := by
  rw [emit]
  split
  · exact .withRc s _
  · next hroom =>
    have hstore : StoresInRam s (s.storeBytes (streamBase + s.rc.pos.toNat) [b]) := by
      refine .storeBytes fun x hlo hhi => ?_
      rw [List.length_singleton] at hhi
      rw [isRam_iff]
      simp only [streamBase] at hlo hhi
      omega
    exact .trans ⟨⟨_, _, rfl⟩, hstore⟩ (.withRc _ _)

theorem encoderWrites_emitAll (bs : List Byte) (s : State) : EncoderWrites s (emitAll bs s).state := by
  induction bs generalizing s with
  | nil => exact .refl s
  | cons b bs ih => exact (encoderWrites_emit b s).andThen ih

theorem encoderWrites_shiftLow (s : State) : EncoderWrites s (shiftLow s).state := by
  by_cases h : s.rc.low.toNat / 2 ^ 24 = 0xFF
  · rw [shiftLow_of_defer h]
    exact .withRc s _
  · rw [shiftLow_of_release h]
    exact (encoderWrites_emitAll _ s).andThen fun t => .withRc t _

theorem encoderWrites_shiftLowTimes (n : Nat) (s : State) : EncoderWrites s (shiftLowTimes n s).state := by
  induction n generalizing s with
  | zero => exact .refl s
  | succ n ih => exact (encoderWrites_shiftLow s).andThen ih

theorem encoderWrites_renormEnc (n : Nat) (s : State) : EncoderWrites s (renormEnc n s).state := by
  induction n generalizing s with
  | zero => exact .refl s
  | succ n ih =>
    rw [renormEnc]
    split
    · exact (encoderWrites_shiftLow s).andThen fun t => (EncoderWrites.withRc t _).trans (ih _)
    · exact .refl s

theorem encoderWrites_encodeSymbol (sym : Nat) (s : State) : EncoderWrites s (encodeSymbol sym s).state :=
  ((EncoderWrites.withRc s _).trans (encoderWrites_renormEnc 4 _)).andThen fun t => .withRc t _

/-- The decoder's operations write its registers and may set INEXH. -/
def DecoderWrites (s u : State) : Prop :=
  ∃ rc inexh, u = { s with rc := rc, status := { s.status with inexh := inexh } } ∧ (s.status.inexh = true → inexh = true)

namespace DecoderWrites

theorem withRc (s : State) (c : Coder) : DecoderWrites s (s.withRc c) := ⟨c, s.status.inexh, rfl, id⟩

theorem refl (s : State) : DecoderWrites s s := withRc s s.rc

theorem trans {s t u : State} : DecoderWrites s t → DecoderWrites t u → DecoderWrites s u := by
  rintro ⟨_, _, rfl, hst⟩ ⟨rc, inexh, rfl, htu⟩
  exact ⟨rc, inexh, rfl, htu ∘ hst⟩

theorem storesInRam {s u : State} : DecoderWrites s u → StoresInRam s u := by
  rintro ⟨rc, inexh, rfl, -⟩
  exact .of_mem_eq rfl rfl

end DecoderWrites

/-- R312: a byte taken past the input sets INEXH, and no byte clears it. -/
theorem decoderWrites_shiftIn (s : State) : DecoderWrites s (shiftIn s) :=
  ⟨_, _, rfl, fun h => by rw [h, Bool.true_or]⟩

theorem decoderWrites_shiftInTimes (n : Nat) (s : State) : DecoderWrites s (shiftInTimes n s) := by
  induction n generalizing s with
  | zero => exact .refl s
  | succ n ih => exact (decoderWrites_shiftIn s).trans (ih _)

/-- R313: the decoder starts by taking four bytes. -/
theorem decoderWrites_start (c d : Coder) (s : State) :
    DecoderWrites s ((shiftInTimes 4 (s.withRc c)).withRc d) :=
  ((DecoderWrites.withRc s c).trans (decoderWrites_shiftInTimes 4 _)).trans (.withRc _ d)

theorem decoderWrites_renormDec (n : Nat) (s : State) : DecoderWrites s (renormDec n s) := by
  induction n generalizing s with
  | zero => exact .refl s
  | succ n ih =>
    rw [renormDec]
    split
    · exact ((decoderWrites_shiftIn s).trans (.withRc _ _)).trans (ih _)
    · exact .refl s

theorem decoderWrites_decodeSymbol (s : State) : DecoderWrites s (decodeSymbol s) :=
  ((DecoderWrites.withRc s _).trans (decoderWrites_renormDec 4 _)).trans (.withRc _ _)

/-! ### The writes of every command -/

/-- What a command's pseudocode may have written when it ends in `u` (R116). -/
def Writes (i : Instr) (s u : State) : Prop :=
  match i with
  | .nop => u = s
  | .grad => ∃ gr, u = { s with gr := gr }
  | .fftFwd | .pltmFwd | .pltmInv | .dequant => ∃ mem, u = { s with mem := mem }
  | .fftInv =>
    ∃ mem nf, u = { s with mem := mem, status := { s.status with nf := nf } } ∧ (s.status.nf = true → nf = true)
  | .thresh =>
    ∃ mem keepLo keepHi kcount, u = { s with mem := mem, keepLo := keepLo, keepHi := keepHi, kcount := kcount }
  | .quant => ∃ mem kcount maxval, u = { s with mem := mem, kcount := kcount, maxval := maxval }
  | .rcInitEnc | .rcEnc _ | .rcFinish => EncoderWrites s u
  | .rcInitDec | .rcDec => DecoderWrites s u

/-- A command that writes nothing keeps to its row of the table. -/
theorem Writes.refl (i : Instr) (s : State) : Writes i s s := by
  cases i with
  | nop => rfl
  | grad => exact ⟨s.gr, rfl⟩
  | fftFwd | pltmFwd | pltmInv | dequant => exact ⟨s.mem, rfl⟩
  | fftInv => exact ⟨s.mem, s.status.nf, rfl, id⟩
  | thresh => exact ⟨s.mem, s.keepLo, s.keepHi, s.kcount, rfl⟩
  | quant => exact ⟨s.mem, s.kcount, s.maxval, rfl⟩
  | rcInitEnc | rcEnc _ | rcFinish => exact EncoderWrites.refl s
  | rcInitDec | rcDec => exact DecoderWrites.refl s

/-- A command ends by completing a pseudocode that wrote its row of the table, in memory only RAM. -/
def EndsWithin (i : Instr) (s : State) (o : Host.Outcome State Fault Refusal) : Prop :=
  ∀ t, o = .next t → ∃ r : CmdResult, r.finish = .next t ∧ Writes i s r.state ∧ StoresInRam s r.state

theorem endsWithin_finish {i : Instr} {s : State} {r : CmdResult} (hw : Writes i s r.state)
    (hm : StoresInRam s r.state) : EndsWithin i s r.finish := fun _ h => ⟨r, h, hw, hm⟩

/-- A command that fails before its first write. -/
theorem endsWithin_failed (i : Instr) (s : State) (code : ErrCode) : EndsWithin i s (CmdResult.failed code s).finish :=
  endsWithin_finish (.refl i s) (.refl s)

theorem endsWithin_fault (i : Instr) (s : State) (f : Fault) : EndsWithin i s (.fault f) := by
  intro t h
  cases h

theorem length_patch (s : State) : s.patch.length = 64 := by simp [State.patch, State.wordsAt]

/-- R235: both arrays of the inverse transform are full. -/
theorem endsWithin_fftInv (s : State) : EndsWithin .fftInv s (execFftInv s) := by
  obtain ⟨hre, him⟩ : (fft64 { re := s.creAll, im := s.cimAll } .inv).Full :=
    fft64_full ⟨by simp [State.creAll], by simp [State.cimAll]⟩ .inv
  rw [execFftInv]
  refine endsWithin_finish ⟨_, _, rfl, fun h => Bool.or_eq_true_iff.2 (.inl h)⟩ ?_
  refine ((StoresInRam.storeWords_patchCoef ?_ ?_).trans (.storeWords_patchCoef ?_ ?_)).trans (.of_mem_eq rfl rfl)
  all_goals simp [length_interleave, hre, him, coefBase, patchBase]

/-- R242: the threshold writes memory, KEEP and KCOUNT. -/
theorem threshold_eq (s : State) :
    threshold s =
      { s with
        mem := (threshold s).mem
        keepLo := (threshold s).keepLo
        keepHi := (threshold s).keepHi
        kcount := (threshold s).kcount } := by
  rw [threshold, zeroBins_eq]

theorem endsWithin_thresh (s : State) : EndsWithin .thresh s (execThresh s) := by
  rw [execThresh]
  split
  · have hzero := storesInRam_zeroBins ((List.range 64).filter (belowThreshold s)) s fun k hk =>
      List.mem_range.1 (List.mem_filter.1 hk).1
    exact endsWithin_finish ⟨_, _, _, _, threshold_eq s⟩ (hzero.trans (.of_mem_eq rfl rfl))
  · exact endsWithin_failed _ s _

theorem endsWithin_rcEnc (sym : Byte) (s : State) : EndsWithin (.rcEnc sym) s (execRcEnc sym s) := by
  rw [execRcEnc]
  split_ifs
  · exact endsWithin_failed _ s _
  · exact endsWithin_fault _ s _
  · have hw := encoderWrites_encodeSymbol sym.toNat s
    exact endsWithin_finish hw hw.storesInRam

theorem endsWithin_rcFinish (s : State) : EndsWithin .rcFinish s (execRcFinish s) := by
  rw [execRcFinish]
  split
  · exact endsWithin_failed _ s _
  · have hw := (encoderWrites_shiftLowTimes 5 s).andThen
      (f := fun t => .ok (t.withRc { t.rc with len := t.rc.pos, mode := .fin })) fun t => .withRc t _
    exact endsWithin_finish hw hw.storesInRam

theorem endsWithin_rcInitDec (s : State) : EndsWithin .rcInitDec s (execRcInitDec s) := by
  rw [execRcInitDec]
  split
  · exact endsWithin_failed _ s _
  · exact endsWithin_finish (decoderWrites_start _ _ s) (decoderWrites_start _ _ s).storesInRam

theorem endsWithin_rcDec (s : State) : EndsWithin .rcDec s (execRcDec s) := by
  rw [execRcDec]
  split_ifs
  · exact endsWithin_failed _ s _
  · exact endsWithin_fault _ s _
  · have hw := decoderWrites_decodeSymbol s
    exact endsWithin_finish hw hw.storesInRam

/-- Bins 1 to 63 are rewritten where the parameter is valid (R238, R240). -/
theorem endsWithin_pltm {i : Instr} (hi : i = .pltmFwd ∨ i = .pltmInv) (s : State) (f : Nat → F32 × F32) :
    EndsWithin i s
      (if svalid s.sParam then (CmdResult.ok (s.storeBins1 f)).finish else (CmdResult.failed .param s).finish) := by
  split
  · refine endsWithin_finish ?_ (storesInRam_storeBins1 s f)
    rcases hi with rfl | rfl <;> exact ⟨_, rfl⟩
  · exact endsWithin_failed i s _

theorem endsWithin_dequant (s : State) : EndsWithin .dequant s (execDequant s) := by
  rw [execDequant]
  split_ifs
  · exact endsWithin_failed _ s _
  · exact endsWithin_failed _ s _
  · refine endsWithin_finish ⟨_, rfl⟩ (.storeWords_patchCoef (by simp only [coefBase]; omega) ?_)
    rw [length_flatMap_pair, length_scattered, coefBase]

theorem endsWithin_grad (s : State) : EndsWithin .grad s (execGrad s) := by
  rw [execGrad]
  generalize gradient (atan2At s.angles) s.patch = gr
  exact endsWithin_finish ⟨_, rfl⟩ (.of_mem_eq rfl rfl)

theorem endsWithin_fftFwd (s : State) : EndsWithin .fftFwd s (execFftFwd s) := by
  refine endsWithin_finish ⟨_, rfl⟩ (.storeWords_patchCoef (by simp only [coefBase]; omega) ?_)
  rw [length_forward _ (length_patch s), coefBase]

theorem endsWithin_exec (i : Instr) (s : State) : EndsWithin i s (exec i s) := by
  cases i with
  | nop => exact endsWithin_finish (i := .nop) (r := .ok s) rfl (.refl s)
  | grad => exact endsWithin_grad s
  | fftFwd => exact endsWithin_fftFwd s
  | fftInv => exact endsWithin_fftInv s
  | pltmFwd => exact endsWithin_pltm (.inl rfl) s _
  | pltmInv => exact endsWithin_pltm (.inr rfl) s _
  | thresh => exact endsWithin_thresh s
  | rcInitEnc =>
    exact endsWithin_finish (i := .rcInitEnc) (r := .ok (s.withRc _)) (.withRc s _) (.of_mem_eq rfl rfl)
  | rcEnc sym => exact endsWithin_rcEnc sym s
  | rcFinish => exact endsWithin_rcFinish s
  | rcInitDec => exact endsWithin_rcInitDec s
  | rcDec => exact endsWithin_rcDec s
  | quant =>
    exact endsWithin_finish (i := .quant) (r := .ok (quantize s)) ⟨_, _, _, rfl⟩ (storesInRam_quantize s)
  | dequant => exact endsWithin_dequant s

/-! ### The statement -/

/-- Settles O35: completion keeps NF and INEXH, and the table of writes leaves the rest to each command. -/
theorem commandsWriteOnlyTheirResults : Obligations.CommandsWriteOnlyTheirResults := by
  intro i s t h
  obtain ⟨r, hfinish, hw, -⟩ := endsWithin_exec i s t h
  obtain ⟨status, rfl, hnf, hinexh⟩ := finish_frame hfinish
  generalize r.state = u at hw hnf hinexh
  cases i with
  | nop =>
    obtain rfl : u = s := hw
    simp [hnf, hinexh]
  | grad | fftFwd | pltmFwd | pltmInv | dequant =>
    obtain ⟨_, rfl⟩ := hw
    simp [hnf, hinexh]
  | rcInitEnc | rcEnc _ | rcFinish =>
    obtain ⟨⟨_, _, rfl⟩, -⟩ := hw
    simp [hnf, hinexh]
  | thresh =>
    obtain ⟨_, _, _, _, rfl⟩ := hw
    simp [hnf, hinexh]
  | quant =>
    obtain ⟨_, _, _, rfl⟩ := hw
    simp [hnf, hinexh]
  | fftInv | rcInitDec | rcDec =>
    obtain ⟨_, _, rfl, hsticky⟩ := hw
    simpa [hnf, hinexh] using hsticky

end Sys2Proof.Machine
end

