-- ==== Sys2Proof/Proofs/RamInvariant.lean ====
section
/-! Memory stays inside the RAM windows (20_memory.md R101, R103; O56): a completion stores by its command, a host event by a
legal write, and nothing else stores. -/

namespace Sys2Proof.Machine

theorem storesInRam_exec {i : Instr} {s t : State} (h : exec i s = .next t) : StoresInRam s t := by
  obtain ⟨r, hfinish, -, hm⟩ := endsWithin_exec i s t h
  obtain ⟨status, rfl, -, -⟩ := finish_frame hfinish
  exact hm.trans (.of_mem_eq rfl rfl)

/-! ### Host events -/

theorem storesInRam_signal (code : ErrCode) (s : State) : StoresInRam s (signal code s) := .of_mem_eq rfl rfl

/-- No register write reaches memory or CAPS. -/
theorem storesInRam_writeReg (r : Reg) (v : Word) (s : State) : StoresInRam s (writeReg r v s) := by
  cases r
  case cmd =>
    rw [writeReg, issue_eq]
    exact .of_mem_eq rfl rfl
  all_goals exact .of_mem_eq rfl rfl

/-- R101: every window is a whole number of words, STREAM by R6. -/
theorem isRam_word {s : State} (hs : s.CapsLegal) {a x : Nat} (ha : isRam s.caps a = true) (h4 : a % 4 = 0)
    (hlo : a ≤ x) (hhi : x < a + 4) : isRam s.caps x = true := by
  obtain ⟨-, -, hcaps⟩ := hs
  rw [isRam_iff] at ha ⊢
  omega

theorem storesInRam_hostRead (size : Nat) (o : BitVec 21) (s : State) : StoresInRam s (hostRead size o s) := by
  rcases hostRead_cases size o s with h | ⟨t, -, -, h⟩ <;> rw [h] <;> exact .of_mem_eq rfl rfl

theorem storesInRam_hostWrite {s : State} (hs : s.CapsLegal) (size : Nat) (o : BitVec 21) (v : Word) :
    StoresInRam s (hostWrite size o v s) := by
  rcases hostWrite_cases size o v s with h | ⟨t, ht, -, h⟩ <;> rw [h]
  · exact storesInRam_signal .access s
  · cases t with
    | reg r => exact storesInRam_writeReg r v s
    | ram a =>
      obtain ⟨-, h4, hram⟩ := legalTarget_ram ht
      exact .storeWords fun x hlo hhi => isRam_word hs hram h4 hlo hhi
    | count i => exact .refl s

/-- R450, R452: a reset event empties the RAMs and keeps CAPS. -/
theorem storesInRam_resetBlock (s : State) : StoresInRam s (resetBlock s) := ⟨rfl, fun _ => .nil, nofun⟩

theorem storesInRam_perform {s : State} (hs : s.CapsLegal) (e : HostEvent) : StoresInRam s (perform e s) := by
  cases e with
  | read size o => exact storesInRam_hostRead size o s
  | write size o v => exact storesInRam_hostWrite hs size o v
  | reset => exact storesInRam_resetBlock s

/-! ### The statement -/

theorem storesInRam_step {s t : State} (hs : s.CapsLegal) (h : step s = .next t) : StoresInRam s t := by
  rcases step_cases h with ⟨w, i, -, -, -, hexec⟩ | ⟨-, ⟨-, rfl⟩ | ⟨e, es, -, rfl⟩⟩
  · exact storesInRam_exec hexec
  · exact .of_mem_eq rfl rfl
  · have htaken : StoresInRam s { tick s with host := es } := .of_mem_eq rfl rfl
    exact htaken.trans (storesInRam_perform (htaken.capsLegal hs) e)

/-- Settles O56: every step stores in the RAM windows only, and keeps CAPS. -/
theorem stepStoresOnlyInRam : Obligations.StepStoresOnlyInRam := by
  intro s t hcaps hmem h
  have hstores := storesInRam_step hcaps h
  exact ⟨hstores.capsLegal hcaps, hstores.memOk hmem⟩

end Sys2Proof.Machine
end

