-- ==== Sys2Proof/Proofs/CommandWords.lean ====
section
/-! Command words (30_encoding.md R130 to R135). A word is RSVD, ARG and OPC; it decodes to a command exactly when it is
that command's word, which gives the round trips (O1, O3) and the legal words (O2). -/

namespace Sys2Proof.Machine

open Sys2Proof.Claims

/-! ### The fields of a word -/

/-- The word with the given fields, from the high bits down (R130). -/
def wordOf (rsvd : BitVec 16) (arg opc : Byte) : Word := rsvd ++ arg ++ opc

section
variable (rsvd : BitVec 16) (arg opc : Byte)

@[simp] theorem opcField_wordOf : opcField (wordOf rsvd arg opc) = opc := BitVec.extractLsb'_append_eq_right

@[simp] theorem argField_wordOf : argField (wordOf rsvd arg opc) = arg := by
  rw [argField, wordOf, BitVec.extractLsb'_append_eq_of_le (by decide)]
  exact BitVec.extractLsb'_append_eq_right

@[simp] theorem rsvdField_wordOf : rsvdField (wordOf rsvd arg opc) = rsvd := by
  rw [rsvdField, wordOf, BitVec.extractLsb'_append_eq_of_le (by decide)]
  exact BitVec.extractLsb'_append_eq_left

end

theorem wordOf_fields (w : Word) : wordOf (rsvdField w) (argField w) (opcField w) = w := by
  have hhigh : rsvdField w ++ argField w = w.extractLsb' 8 24 :=
    BitVec.extractLsb'_append_extractLsb'_eq_extractLsb' rfl
  rw [wordOf, hhigh]
  exact BitVec.extractLsb'_append_extractLsb' (w := 24)

theorem wordOf_eq_iff {rsvd : BitVec 16} {arg opc : Byte} {w : Word} :
    wordOf rsvd arg opc = w ↔ rsvd = rsvdField w ∧ arg = argField w ∧ opc = opcField w := by
  constructor
  · rintro rfl
    simp
  · rintro ⟨rfl, rfl, rfl⟩
    exact wordOf_fields w

theorem and_wordOf (w : Word) (rsvd : BitVec 16) (arg opc : Byte) :
    w &&& wordOf rsvd arg opc = wordOf (rsvdField w &&& rsvd) (argField w &&& arg) (opcField w &&& opc) :=
  calc w &&& wordOf rsvd arg opc
    _ = wordOf (rsvdField w) (argField w) (opcField w) &&& wordOf rsvd arg opc := by rw [wordOf_fields]
    _ = ((rsvdField w ++ argField w) &&& (rsvd ++ arg)) ++ (opcField w &&& opc) := BitVec.and_append
    _ = _ := by rw [BitVec.and_append, wordOf]

/-- The mask of R134 clears ARG only. -/
theorem and_mask (w : Word) : w &&& 0xFFFF00FF#32 = wordOf (rsvdField w) 0#8 (opcField w) := by
  have hmask : 0xFFFF00FF#32 = wordOf (.allOnes 16) 0#8 (.allOnes 8) := rfl
  rw [hmask, and_wordOf, BitVec.and_allOnes, BitVec.and_zero, BitVec.and_allOnes]

theorem and_opcMask (w : Word) : w &&& 0xFF#32 = wordOf 0#16 0#8 (opcField w) := by
  have hmask : 0xFF#32 = wordOf 0#16 0#8 (.allOnes 8) := rfl
  rw [hmask, and_wordOf, BitVec.and_zero, BitVec.and_zero, BitVec.and_allOnes]

/-! ### The word of a command -/

theorem encode_eq_wordOf (i : Instr) : encode i = wordOf 0#16 i.arg i.opcode := rfl

theorem encode_eq_iff {i : Instr} {w : Word} :
    encode i = w ↔ rsvdField w = 0#16 ∧ argField w = i.arg ∧ opcField w = i.opcode := by
  rw [encode_eq_wordOf, wordOf_eq_iff, eq_comm, eq_comm (a := i.arg), eq_comm (a := i.opcode)]

/-- R132: a command without an argument has ARG 0. -/
theorem arg_eq_zero {i : Instr} (h : i.usesArg = false) : i.arg = 0#8 := by
  cases i
  case rcEnc sym => cases h
  all_goals rfl

theorem usesArg_eq_false {i : Instr} (h : ∀ sym, i ≠ .rcEnc sym) : i.usesArg = false := by
  cases i
  case rcEnc sym => exact absurd rfl (h sym)
  all_goals rfl

/-- R131, R132: a command is reached by its opcode only, RC_ENC with ARG as its symbol. -/
theorem ofOpcode_eq_some_iff {opc arg : Byte} {i : Instr} :
    ofOpcode opc arg = some i ↔ opc = i.opcode ∧ (i.usesArg = true → arg = i.arg) := by
  constructor
  · intro h
    unfold ofOpcode at h
    split at h <;> cases h
    case h_9 hopc => exact ⟨BitVec.eq_of_toNat_eq hopc, fun _ => rfl⟩
    all_goals exact ⟨BitVec.eq_of_toNat_eq ‹_›, nofun⟩
  · rintro ⟨rfl, harg⟩
    cases i
    case rcEnc sym =>
      obtain rfl := harg rfl
      rfl
    all_goals rfl

/-! ### Decoding -/

/-- R134: the three tests a word passes to be a command. -/
theorem decode_eq_ok_iff {w : Word} {i : Instr} :
    decode w = .ok i ↔
      rsvdField w = 0#16 ∧ ofOpcode (opcField w) (argField w) = some i ∧ (argField w = 0#8 ∨ i.usesArg = true) := by
  by_cases hrsvd : rsvdField w = 0#16
  · rw [decode, if_neg (not_not_intro hrsvd)]
    cases hop : ofOpcode (opcField w) (argField w) with
    | none => simp
    | some j =>
      by_cases hused : argField w = 0#8 ∨ j.usesArg = true
      · simp only [if_pos hused, Except.ok.injEq, Option.some.injEq]
        exact ⟨fun h => ⟨hrsvd, h, h ▸ hused⟩, fun ⟨_, h, _⟩ => h⟩
      · simp only [if_neg hused, reduceCtorEq, Option.some.injEq, false_iff]
        rintro ⟨-, rfl, h⟩
        exact hused h
  · rw [decode, if_pos hrsvd]
    exact iff_of_false nofun fun h => hrsvd h.1

/-- A word decodes to the command whose word it is, and to no other. -/
theorem decode_eq_ok_iff_encode_eq {w : Word} {i : Instr} : decode w = .ok i ↔ encode i = w := by
  rw [decode_eq_ok_iff, ofOpcode_eq_some_iff, encode_eq_iff]
  cases hused : i.usesArg
  · simp [arg_eq_zero hused, and_comm]
  · simp [and_comm]

theorem decode_encode (i : Instr) : decode (encode i) = .ok i := decode_eq_ok_iff_encode_eq.2 rfl

/-! ### Legal words -/

/-- The commands without an argument, in the order of `plainOpcodes`. -/
def plainCommands : List Instr :=
  [.nop, .grad, .fftFwd, .fftInv, .pltmFwd, .pltmInv, .thresh, .rcInitEnc, .rcFinish, .rcInitDec, .rcDec, .quant, .dequant]

theorem plainOpcodes_eq : plainOpcodes = plainCommands.map encode := by decide

theorem mem_plainOpcodes_iff {w : Word} : w ∈ plainOpcodes ↔ ∃ i ∈ plainCommands, encode i = w := by
  rw [plainOpcodes_eq, List.mem_map]

/-- R134's formal definition, with the masked word as its fields. -/
theorem legalWord_iff {w : Word} :
    legalWord w = true ↔
      (wordOf (rsvdField w) 0#8 (opcField w) ∈ plainOpcodes ∧ argField w = 0#8)
        ∨ (rsvdField w = 0#16 ∧ opcField w = 0x31#8) := by
  have hrcEnc : wordOf (rsvdField w) 0#8 (opcField w) = 0x31#32 ↔ rsvdField w = 0#16 ∧ opcField w = 0x31#8 := by
    rw [wordOf_eq_iff]
    exact ⟨fun ⟨hrsvd, _, hopc⟩ => ⟨hrsvd, hopc⟩, fun ⟨hrsvd, hopc⟩ => ⟨hrsvd, rfl, hopc⟩⟩
  rw [← hrcEnc, ← and_mask]
  simp [legalWord, argField]

/-- R134: a legal word is the word of a command. -/
theorem legalWord_iff_exists_encode_eq {w : Word} : legalWord w = true ↔ ∃ i, encode i = w := by
  constructor
  · rw [legalWord_iff]
    rintro (⟨hplain, harg⟩ | ⟨hrsvd, hopc⟩)
    · obtain ⟨i, -, hi⟩ := mem_plainOpcodes_iff.1 hplain
      rw [← harg, wordOf_fields] at hi
      exact ⟨i, hi⟩
    · exact ⟨.rcEnc (argField w), encode_eq_iff.2 ⟨hrsvd, rfl, hopc⟩⟩
  · rintro ⟨i, rfl⟩
    cases i
    case rcEnc sym => exact (Laws.EncodeLegal.rcEnc sym).1
    all_goals rfl

theorem legalWord_iff_decodes {w : Word} : legalWord w = true ↔ ∃ i, decode w = .ok i := by
  simp only [legalWord_iff_exists_encode_eq, decode_eq_ok_iff_encode_eq]

/-- R134: RSVD, OPC and ARG each in order. -/
theorem legalWord_eq_fields (w : Word) : legalWord w = (rsvdZero w && opcDefined w && argAllowed w) := by
  have hplain : wordOf (rsvdField w) 0#8 (opcField w) ∈ plainOpcodes ↔
      rsvdField w = 0#16 ∧ wordOf 0#16 0#8 (opcField w) ∈ plainOpcodes := by
    by_cases hrsvd : rsvdField w = 0#16
    · simp [hrsvd]
    · refine iff_of_false (fun h => ?_) fun h => hrsvd h.1
      obtain ⟨i, -, hi⟩ := mem_plainOpcodes_iff.1 h
      obtain ⟨hzero, -, -⟩ := encode_eq_iff.1 hi
      rw [rsvdField_wordOf] at hzero
      exact hrsvd hzero
  have hrcEnc : wordOf 0#16 0#8 (opcField w) = 0x31#32 ↔ opcField w = 0x31#8 := by
    rw [wordOf_eq_iff]
    exact ⟨fun ⟨_, _, hopc⟩ => hopc, fun hopc => ⟨rfl, rfl, hopc⟩⟩
  have hrsvd : rsvdZero w = true ↔ rsvdField w = 0#16 := beq_iff_eq
  have hopc : opcDefined w = true ↔ opcField w = 0x31#8 ∨ wordOf 0#16 0#8 (opcField w) ∈ plainOpcodes := by
    rw [← hrcEnc, ← and_opcMask]
    simp [opcDefined]
  have harg : argAllowed w = true ↔ opcField w = 0x31#8 ∨ argField w = 0#8 := by
    rw [← hrcEnc, ← and_opcMask]
    simp [argAllowed, argField]
  rw [Bool.eq_iff_iff, Bool.and_eq_true, Bool.and_eq_true, legalWord_iff, hplain, hrsvd, hopc, harg]
  rw [and_assoc, and_assoc, ← and_or_left, or_comm, or_and_left]

/-- R403: an illegal word at issue. -/
theorem issue_of_not_legalWord {w : Word} {s : State} (hb : s.status.busy = false) (h : legalWord w = false) :
    issue w s = flagged .illegal s := by
  rw [← signal_eq_flagged]
  rcases issue_cases w s with ⟨hbusy, -⟩ | ⟨-, -, hissue⟩ | ⟨-, hdec, -⟩
  · exact absurd (hb.symm.trans hbusy) (by decide)
  · exact hissue
  · exact absurd (h.symm.trans (legalWord_iff_decodes.2 hdec)) (by decide)

/-! ### The statements -/

/-- Settles O1: a word decodes to the command whose word it is. -/
theorem everyCommandDecodesFromItsWord : Obligations.EveryCommandDecodesFromItsWord :=
  fun i _ => decode_encode i

/-- Settles O2: a legal word is the word of a command, and these are the words that decode. -/
theorem legalWordsAreTheCommandWords : Obligations.LegalWordsAreTheCommandWords := by
  intro w
  refine ⟨legalWord_iff_decodes.symm, ?_, legalWord_eq_fields w, fun s hb h => ?_⟩
  · simp [legalWord, plainOpcodes]
  · exact (hostWrite_reg .cmd w (.inl hb)).trans (issue_of_not_legalWord hb h)

/-- Settles O3: the word is the command's, so its ARG is the command's. -/
theorem decodedWordsEncodeBack : Obligations.DecodedWordsEncodeBack := by
  intro w i h
  have hword : encode i = w := decode_eq_ok_iff_encode_eq.1 h
  obtain ⟨-, harg, -⟩ := encode_eq_iff.1 hword
  refine ⟨hword, ?_, fun hi => harg.trans (arg_eq_zero (usesArg_eq_false hi))⟩
  rintro sym rfl
  exact harg.symm

/-- Settles O4: the words of six commands, then one word for each reason of R134. -/
theorem writtenWordsDecode : Obligations.WrittenWordsDecode :=
  ⟨decode_encode .nop, decode_encode .grad, decode_encode .pltmInv, decode_encode (.rcEnc 0x47), decode_encode .rcDec,
    decode_encode .dequant, by decide, by decide, by decide⟩

end Sys2Proof.Machine
end

