-- ==== Sys2Proof/Proofs/Angle.lean ====
section
/-! The angle of the gradient unit, normalised and indexed (40_gradient.md R204, R205; O43). -/

namespace Sys2Proof.Machine

/-! ### Monotone rounding -/

theorem roundMag_mono {m n den : Nat} (hd : 0 < den) (h : m ≤ n) : roundMag m den ≤ roundMag n den := by
  rcases h.eq_or_lt with rfl | hlt
  · exact le_rfl
  obtain ⟨r, hr, hmid, -⟩ := roundMag_spec m hd
  obtain ⟨q, hq, hmid', -⟩ := roundMag_spec n hd
  have hrq : r ≤ q := by
    by_contra hc
    have hbelow : overDen den q + overDen den r ≤ 2 * m := hmid.add_le (overDen_strictMono hd) (not_le.1 hc)
    have habove : 2 * n ≤ overDen den q + overDen den r := hmid'.le_add (overDen_strictMono hd) (not_le.1 hc)
    omega
  rw [hr, hq]
  exact min_le_min_right infMag hrq

/-- A value up to an f32's is rounded to at most that f32. -/
theorem roundMag_le_of_le_units {n m : Nat} (hm : m < infMag) (h : n ≤ units m) : roundMag n 1 ≤ m := by
  have hself : roundMag (units m * 1) 1 = m := roundMag_units one_pos hm
  exact (roundMag_mono one_pos (by rwa [mul_one])).trans_eq hself

theorem isFinite_of_magBits_le {a b : F32} (hb : isFinite b = true) (h : magBits a ≤ magBits b) : isFinite a = true :=
  isFinite_iff.2 (h.trans_lt (isFinite_iff.1 hb))

theorem scaled_le_of_magBits_le {a b : F32} (h : magBits a ≤ magBits b) : scaled a ≤ scaled b := by
  rw [scaled_eq_units, scaled_eq_units]
  exact units_strictMono.monotone h

section
variable {a b c : F32} (hb : isFinite b = true) (hc : isFinite c = true) (h : magBits a ≤ magBits b)
include hb hc h

theorem magBits_fmul_le : magBits (fmul a c) ≤ magBits (fmul b c) := by
  rw [fmul_of_isFinite (isFinite_of_magBits_le hb h) hc, fmul_of_isFinite hb hc, magBits_packF_roundMag,
    magBits_packF_roundMag]
  exact roundMag_mono (by positivity) (Nat.mul_le_mul_right _ (scaled_le_of_magBits_le h))

theorem magBits_fdiv_le (hz : isZero c = false) : magBits (fdiv a c) ≤ magBits (fdiv b c) := by
  rw [fdiv_of_isFinite (isFinite_of_magBits_le hb h) hc hz, fdiv_of_isFinite hb hc hz, magBits_packF_roundMag,
    magBits_packF_roundMag]
  exact roundMag_mono (scaled_pos_of_not_isZero hz) (Nat.mul_le_mul_right _ (scaled_le_of_magBits_le h))

end

/-! ### Angles from 0 below 2π -/

/-- An angle from 0 below 2π, the range of R204. -/
def InTurn (th : F32) : Prop := fge th 0#32 = true ∧ flt th twoPi = true

theorem not_isNaN_of_flt {a b : F32} (h : flt a b = true) : isNaN a = false := by
  by_contra hn
  rw [flt_of_isNaN (.inl (by simpa using hn))] at h
  cases h

/-- R11: without a NaN, `>=` is the negation of `<`. -/
theorem fge_eq_not_flt {a b : F32} (ha : isNaN a = false) (hb : isNaN b = false) : fge a b = !flt a b := by
  rw [fge, fle_eq hb ha, flt_eq ha hb, ← decide_not]
  simp only [not_lt]

theorem inTurn_iff {th : F32} (hn : isNaN th = false) :
    InTurn th ↔ 0 ≤ orderKey th ∧ orderKey th < 0x40C90FDB := by
  have h0 : orderKey 0#32 = 0 := by decide
  have h2 : orderKey twoPi = 0x40C90FDB := by decide
  rw [InTurn, fge, fle_eq (by decide) hn, flt_eq hn (by decide), decide_eq_true_iff, decide_eq_true_iff, h0, h2]

theorem not_flt_zero_of_inTurn {th : F32} (h : InTurn th) : flt th 0#32 = false := by
  have hge := h.1
  rwa [fge_eq_not_flt (not_isNaN_of_flt h.2) (by decide), Bool.not_eq_true'] at hge

theorem not_fge_twoPi_of_inTurn {th : F32} (h : InTurn th) : fge th twoPi = false := by
  rw [fge_eq_not_flt (not_isNaN_of_flt h.2) (by decide), h.2]
  rfl

theorem magBits_lt_of_inTurn {th : F32} (h : InTurn th) : magBits th < 0x40C90FDB := by
  obtain ⟨hlo, hhi⟩ := (inTurn_iff (not_isNaN_of_flt h.2)).1 h
  rw [orderKey] at hlo hhi
  cases hs : signBit th <;> simp only [hs, if_true, if_false, Bool.false_eq_true] at hlo hhi <;> omega

/-! ### The loops of R204 -/

theorem raiseAngle_of_not_flt (n : Nat) {th : F32} (h : flt th 0#32 = false) : raiseAngle n th = th := by
  cases n <;> simp [raiseAngle, h]

theorem lowerAngle_of_not_fge (n : Nat) {th : F32} (h : fge th twoPi = false) : lowerAngle n th = th := by
  cases n <;> simp [lowerAngle, h]

theorem lowerAngle_twoPi : lowerAngle 2 twoPi = 0#32 := by decide +kernel

theorem normAngle_of_isNaN {a : F32} (h : isNaN a = true) : normAngle a = a := if_pos h

theorem normAngle_of_not_isNaN {a : F32} (h : isNaN a = false) : normAngle a = lowerAngle 2 (raiseAngle 2 a) := by
  simp [normAngle, h]

theorem normAngle_of_inTurn {a : F32} (h : InTurn a) : normAngle a = a := by
  rw [normAngle_of_not_isNaN (not_isNaN_of_flt h.2), raiseAngle_of_not_flt 2 (not_flt_zero_of_inTurn h),
    lowerAngle_of_not_fge 2 (not_fge_twoPi_of_inTurn h)]

/-- Where one turn of the first loop is enough, the second loop starts from its sum. -/
theorem normAngle_of_flt_zero {a : F32} (h : flt a 0#32 = true) (hsum : flt (fadd a twoPi) 0#32 = false) :
    normAngle a = lowerAngle 2 (fadd a twoPi) := by
  rw [normAngle_of_not_isNaN (not_isNaN_of_flt h), raiseAngle, if_pos h, raiseAngle_of_not_flt 1 hsum]

/-! ### One turn of each loop is enough -/

theorem angleAdmitted_bounds {a : F32} (h : angleAdmitted a = true) :
    -(units 0x40490FDB : Int) ≤ exactVal a ∧ exactVal a ≤ units 0x40490FDB := by
  have hf := isFinite_of_angleAdmitted h
  obtain ⟨hlo, hhi⟩ := angleAdmitted_iff.1 h
  exact ⟨(fle_iff_of_isFinite (by decide) hf).1 hlo, (fle_iff_of_isFinite hf (by decide)).1 hhi⟩

theorem inTurn_of_angleAdmitted {a : F32} (h : angleAdmitted a = true) (h0 : flt a 0#32 = false) : InTurn a := by
  have hn := not_isNaN_of_isFinite (isFinite_of_angleAdmitted h)
  obtain ⟨-, hhi⟩ := angleAdmitted_iff.1 h
  have hpi : orderKey 0x40490FDB#32 = 0x40490FDB := by decide
  have hzero : orderKey 0#32 = 0 := by decide
  rw [fle_eq hn (by decide), decide_eq_true_iff, hpi] at hhi
  rw [flt_eq hn (by decide), decide_eq_false_iff_not, hzero] at h0
  exact (inTurn_iff hn).2 ⟨by omega, by omega⟩

/-- R204: the sum of 2π and an admitted angle below 0 is rounded to at most 2π. -/
theorem fadd_twoPi_of_flt_zero {a : F32} (h : angleAdmitted a = true) (hneg : flt a 0#32 = true) :
    InTurn (fadd a twoPi) ∨ fadd a twoPi = twoPi := by
  have hf := isFinite_of_angleAdmitted h
  obtain ⟨hlo, -⟩ := angleAdmitted_bounds h
  have hlt : exactVal a < 0 := (flt_iff_of_isFinite hf (by decide)).1 hneg
  have hpi : units 0x40490FDB < units 0x40C90FDB := units_lt (by decide)
  have htwoPi : exactVal twoPi = units 0x40C90FDB := by rw [exactVal_eq]; rfl
  obtain ⟨n, hn⟩ : ∃ n : Nat, exactVal a + exactVal twoPi = n := ⟨_, (Int.toNat_of_nonneg (by omega)).symm⟩
  have hsum : fadd a twoPi = packF false (roundMag n 1) := by
    rw [fadd_of_isFinite hf (by decide), hn, if_neg (by omega), roundInt, Int.natAbs_natCast,
      decide_eq_false (by omega)]
  have hle : roundMag n 1 ≤ 0x40C90FDB := roundMag_le_of_le_units (by decide) (by omega)
  rcases hle.eq_or_lt with heq | hround
  · exact .inr (by rw [hsum, heq]; decide)
  · refine .inl ?_
    rw [hsum, inTurn_iff (not_isNaN_packF_roundMag ..), orderKey, signBit_packF_roundMag, magBits_packF_roundMag,
      if_neg (by decide)]
    omega

/-- R204 for what ATAN2_F32 answers: a NaN and an angle from 0 on are kept, and one below 0 becomes its sum with 2π, or 0
where that sum is 2π. -/
theorem normAngle_cases {a : F32} (h : isNaN a = true ∨ angleAdmitted a = true) :
    (isNaN a = true ∧ normAngle a = a) ∨ (InTurn a ∧ normAngle a = a)
      ∨ (flt a 0#32 = true ∧ InTurn (fadd a twoPi) ∧ normAngle a = fadd a twoPi)
      ∨ (flt a 0#32 = true ∧ fadd a twoPi = twoPi ∧ normAngle a = 0#32) := by
  rcases h with hn | hadm
  · exact .inl ⟨hn, normAngle_of_isNaN hn⟩
  cases hneg : flt a 0#32 with
  | false =>
    have hturn := inTurn_of_angleAdmitted hadm hneg
    exact .inr (.inl ⟨hturn, normAngle_of_inTurn hturn⟩)
  | true =>
    rcases fadd_twoPi_of_flt_zero hadm hneg with hturn | heq
    · refine .inr (.inr (.inl ⟨rfl, hturn, ?_⟩))
      rw [normAngle_of_flt_zero hneg (not_flt_zero_of_inTurn hturn),
        lowerAngle_of_not_fge 2 (not_fge_twoPi_of_inTurn hturn)]
    · refine .inr (.inr (.inr ⟨rfl, heq, ?_⟩))
      rw [normAngle_of_flt_zero hneg (by rw [heq]; decide), heq, lowerAngle_twoPi]

/-- R203 (b), (c): what every admissible ATAN2_F32 answers. -/
theorem isNaN_or_angleAdmitted_atan2At (entries : List AngleEntry) (y x : F32) :
    isNaN (atan2At entries y x) = true ∨ angleAdmitted (atan2At entries y x) = true := by
  by_cases h : isNaN y = true ∨ isNaN x = true
  · left
    rw [atan2At_of_decided entries (.inl h), atan2F32_of_isNaN h, isNaN_qNaN]
  · right
    obtain ⟨hy, hx⟩ := not_or.1 h
    exact angleAdmitted_atan2At entries (Bool.eq_false_iff.2 hy) (Bool.eq_false_iff.2 hx)

/-! ### The AngleIndex -/

theorem angleIndex_of_isNaN {th : F32} (h : isNaN th = true) : angleIndex th = 0#8 := if_pos h

theorem toNat_angleIndex {th : F32} (h : isNaN th = false) :
    (angleIndex th).toNat = min 255 (ffloor (fdiv (fmul th 0x437F0000#32) twoPi)).toNat := by
  rw [angleIndex, h, if_neg Bool.false_ne_true, BitVec.toNat_ofNat]
  exact Nat.mod_eq_of_lt ((Nat.min_le_left ..).trans_lt (by decide))

theorem exactVal_le_units (a : F32) : exactVal a ≤ units (magBits a) := by
  rw [exactVal_eq]
  split <;> omega

/-- The quotient of R205 at the largest angle below 2π. -/
theorem indexQuotient_last : magBits (fdiv (fmul 0x40C90FDA#32 0x437F0000#32) twoPi) < magBits 0x437F0000#32 := by
  decide +kernel

/-- R205: the quotient does not decrease with the angle, so at every angle below 2π it is below 255. -/
theorem angleIndex_le_of_inTurn {th : F32} (h : InTurn th) : (angleIndex th).toNat ≤ 254 := by
  have hth : magBits th ≤ magBits 0x40C90FDA#32 := Nat.le_of_lt_succ (magBits_lt_of_inTurn h)
  have hmul : magBits (fmul th 0x437F0000#32) ≤ magBits (fmul 0x40C90FDA#32 0x437F0000#32) :=
    magBits_fmul_le (by decide) (by decide) hth
  have hquot := magBits_fdiv_le (c := twoPi) (by decide +kernel) (by decide) hmul (by decide)
  have hval : exactVal (fdiv (fmul th 0x437F0000#32) twoPi) < 255 * 2 ^ 149 :=
    calc _ ≤ (units (magBits (fdiv (fmul th 0x437F0000#32) twoPi)) : Int) := exactVal_le_units _
      _ < units (magBits 0x437F0000#32) := by exact_mod_cast units_lt (hquot.trans_lt indexQuotient_last)
      _ = 255 * 2 ^ 149 := by decide +kernel
  have hfloor : ffloor (fdiv (fmul th 0x437F0000#32) twoPi) < 255 := Int.ediv_lt_of_lt_mul (by norm_num) hval
  rw [toNat_angleIndex (not_isNaN_of_flt h.2)]
  omega

/-- Settles O43: the cases of the loops, and the index of a NaN and of an angle from 0 below 2π. -/
theorem angleIsNormalisedAndIndexed : Obligations.AngleIsNormalisedAndIndexed := by
  rintro entries y x a _ ha rfl
  have hcases := normAngle_cases (ha ▸ isNaN_or_angleAdmitted_atan2At entries y x)
  refine ⟨fun hkept => ?_, ?_, angleIndex_of_isNaN, toNat_angleIndex, ?_⟩
  · rcases hcases with ⟨-, h⟩ | ⟨-, h⟩ | ⟨hneg, -⟩ | ⟨hneg, -⟩
    · exact h
    · exact h
    all_goals
      rw [fge_eq_not_flt (not_isNaN_of_flt hneg) (by decide), not_isNaN_of_flt hneg, hneg] at hkept
      simp at hkept
  · rintro hneg _ rfl
    rcases hcases with ⟨hn, -⟩ | ⟨hturn, -⟩ | ⟨-, hturn, h⟩ | ⟨-, hsum, h⟩
    · exact absurd (hn.symm.trans (not_isNaN_of_flt hneg)) (by decide)
    · exact absurd (hneg.symm.trans (not_flt_zero_of_inTurn hturn)) (by decide)
    · exact ⟨fun _ => h, fun hge => absurd (hge.symm.trans (not_fge_twoPi_of_inTurn hturn)) (by decide)⟩
    · change (flt (fadd a twoPi) twoPi = true → _) ∧ (_ → normAngle a = fsub (fadd a twoPi) twoPi)
      rw [hsum, h]
      exact ⟨fun hlt => absurd hlt (by decide), fun _ => by decide⟩
  · have hrange : isNaN (normAngle a) = true ∨ InTurn (normAngle a) := by
      rcases hcases with ⟨hn, h⟩ | ⟨hturn, h⟩ | ⟨-, hturn, h⟩ | ⟨-, -, h⟩ <;> rw [h]
      · exact .inl hn
      · exact .inr hturn
      · exact .inr hturn
      · exact .inr ((inTurn_iff (by decide)).2 (by decide))
    exact hrange.imp_right fun hturn => ⟨hturn.1, hturn.2, angleIndex_le_of_inTurn hturn⟩

end Sys2Proof.Machine
end

