-- ==== Sys2Proof/Proofs/Gradient.lean ====
section
/-! GRAD (40_gradient.md R206): the sums of R201 over the patch, and the six registers (O21). -/

namespace Sys2Proof.Machine

open Sys2Proof.Claims

/-! ### The sums -/

/-- R200: the samples in PATCH, row by row. -/
theorem getD_patch (s : State) {x y : Nat} (hx : x < 8) (hy : y < 8) : s.patch.getD (8 * y + x) 0#32 = sample s x y :=
  getD_map_range 64 (fun i => s.wordAt (patchBase + 4 * i)) (8 * y + x) (by omega)

/-- R201: the sum over a list of pairs, written row by row, is the nested loop. -/
theorem diffSum_rows (p : List F32) (rows cols : Nat) (pair : Nat → Nat → Nat × Nat) (d : Nat → Nat → F32)
    (h : ∀ y < rows, ∀ x < cols, fsub (p.getD (pair y x).1 0#32) (p.getD (pair y x).2 0#32) = d x y) :
    diffSum p ((List.range rows).flatMap fun y => (List.range cols).map (pair y)) = loopSum rows cols d := by
  rw [diffSum, loopSum, List.foldl_flatMap]
  refine List.foldl_ext _ _ _ fun acc y hy => ?_
  rw [List.foldl_map]
  refine List.foldl_ext _ _ _ fun acc x hx => ?_
  rw [h y (List.mem_range.1 hy) x (List.mem_range.1 hx)]

theorem diffSum_pairsX (s : State) :
    diffSum s.patch pairsX = loopSum 8 7 fun x y => fsub (sample s (x + 1) y) (sample s x y) := by
  refine diffSum_rows s.patch 8 7 _ _ fun y hy x hx => ?_
  rw [← getD_patch s (show x + 1 < 8 by omega) hy, ← getD_patch s (show x < 8 by omega) hy]
  rfl

theorem diffSum_pairsY (s : State) :
    diffSum s.patch pairsY = loopSum 7 8 fun x y => fsub (sample s x (y + 1)) (sample s x y) := by
  refine diffSum_rows s.patch 7 8 _ _ fun y hy x hx => ?_
  rw [← getD_patch s hx (show y + 1 < 8 by omega), ← getD_patch s hx (show y < 8 by omega)]

/-! ### The results -/

section
variable (atan2 : F32 → F32 → F32) (p : List F32)

theorem gradient_dx : (gradient atan2 p).dx = fdiv (diffSum p pairsX) 0x42600000#32 := by rw [gradient]

theorem gradient_dy : (gradient atan2 p).dy = fdiv (diffSum p pairsY) 0x42600000#32 := by rw [gradient]

theorem gradient_mag :
    (gradient atan2 p).mag = fsqrt (fadd (fmul (gradient atan2 p).dx (gradient atan2 p).dx)
      (fmul (gradient atan2 p).dy (gradient atan2 p).dy)) := by rw [gradient]

theorem gradient_angle : (gradient atan2 p).angle = atan2 (gradient atan2 p).dy (gradient atan2 p).dx := by rw [gradient]

theorem gradient_theta : (gradient atan2 p).theta = normAngle (gradient atan2 p).angle := by rw [gradient]

theorem gradient_aidx : (gradient atan2 p).aidx = angleIndex (gradient atan2 p).theta := by rw [gradient]

end

/-- R206: GRAD completes with the results in the gradient registers. -/
theorem exec_grad (s : State) :
    exec .grad s = .next { ended s with gr := gradient (atan2At s.angles) s.patch } := by
  change execGrad s = _
  rw [execGrad]
  generalize gradient (atan2At s.angles) s.patch = gr
  rfl

/-- Settles O21: the sums are the nested loops of R201, and the index is that of O43. -/
theorem gradWritesTheGradient : Obligations.GradWritesTheGradient := by
  refine ⟨decode_encode .grad, fun s => ⟨_, exec_grad s, rfl, ?_, ?_, gradient_mag .., gradient_angle ..,
    gradient_theta .., fun hn => ?_, fun hn => ?_⟩⟩
  · rw [← diffSum_pairsX]
    exact gradient_dx ..
  · rw [← diffSum_pairsY]
    exact gradient_dy ..
  · exact (gradient_aidx ..).trans (angleIndex_of_isNaN hn)
  · exact (congrArg BitVec.toNat (gradient_aidx ..)).trans (toNat_angleIndex hn)

end Sys2Proof.Machine
end

