-- ==== Sys2Proof/Proofs/ParameterValidity.lean ====
section
/-! Which parameters are valid, and the row of the weighting tables (41_spectral.md R236, R237, R241; O19). -/

namespace Sys2Proof.Machine

-- As in the tests, the kernel evaluations do not each take a thread.
set_option Elab.async false

theorem not_isFinite_of_isNaN {a : F32} (h : isNaN a = true) : isFinite a = false := by
  rw [isNaN_iff] at h
  rw [← Bool.not_eq_true, isFinite_iff]
  omega

theorem not_isInf_of_isNaN {a : F32} (h : isNaN a = true) : isInf a = false := by
  rw [isNaN_iff] at h
  rw [← Bool.not_eq_true, isInf_iff]
  omega

theorem not_isFinite_of_isInf {a : F32} (h : isInf a = true) : isFinite a = false := by
  rw [isInf_iff] at h
  rw [← Bool.not_eq_true, isFinite_iff]
  omega

theorem isFinite_of_flt_of_fge {v a b : F32} (ha : isFinite a = true) (hb : isFinite b = true) (hge : fge v a = true)
    (hlt : flt v b = true) : isFinite v = true := by
  rcases isFinite_or_isInf (not_isNaN_of_flt hlt) with hf | hi
  · exact hf
  · have hneg := (flt_fle_isInf_left hb hi).1
    have hpos := (flt_fle_isInf_right ha hi).2
    rw [hlt] at hneg
    rw [← fge, hge, ← hneg] at hpos
    cases hpos

theorem fge_zero_iff_of_isFinite {v : F32} (h : isFinite v = true) : fge v 0#32 = true ↔ 0 ≤ exactVal v :=
  fle_iff_of_isFinite (by decide) h

/-- No f32 lies from 6.4 up to the pattern 0x40CCCCCD, which is the f32 nearest to 6.4 and lies above it. -/
theorem exactVal_lt_sixPointFour_iff (v : F32) :
    exactVal v < exactVal 0x40CCCCCD#32 ↔ 10 * exactVal v < 64 * 2 ^ 149 := by
  have hnext : exactVal 0x40CCCCCD#32 = 13421773 * 2 ^ 128 := by decide +kernel
  have hlast : exactVal 0x40CCCCCC#32 = 13421772 * 2 ^ 128 := by decide +kernel
  have hstep : exactVal v < exactVal 0x40CCCCCD#32 ↔ exactVal v ≤ exactVal 0x40CCCCCC#32 := by
    rw [exactVal_lt_iff, exactVal_le_iff]
    exact Int.lt_add_one_iff (b := orderKey 0x40CCCCCC#32)
  constructor
  · intro h
    rw [hstep, hlast] at h
    omega
  · intro h
    rw [hnext]
    omega

theorem svalid_iff (v : F32) :
    svalid v = true ↔ isFinite v = true ∧ 0 ≤ exactVal v ∧ 10 * exactVal v < 64 * 2 ^ 149 := by
  have hparts : svalid v = true ↔ (isNaN v = false ∧ fge v 0#32 = true) ∧ flt v 0x40CCCCCD#32 = true := by
    simp [svalid]
  rw [hparts]
  constructor
  · rintro ⟨⟨-, hge⟩, hlt⟩
    have hf : isFinite v = true := isFinite_of_flt_of_fge (by decide) (by decide) hge hlt
    exact ⟨hf, (fge_zero_iff_of_isFinite hf).1 hge,
      (exactVal_lt_sixPointFour_iff v).1 ((flt_iff_of_isFinite hf (by decide)).1 hlt)⟩
  · rintro ⟨hf, hge, hlt⟩
    exact ⟨⟨not_isNaN_of_isFinite hf, (fge_zero_iff_of_isFinite hf).2 hge⟩,
      (flt_iff_of_isFinite hf (by decide)).2 ((exactVal_lt_sixPointFour_iff v).2 hlt)⟩

theorem tvalid_iff (v : F32) :
    tvalid v = true ↔ (isFinite v = true ∧ 0 ≤ exactVal v) ∨ (isInf v = true ∧ signBit v = false) := by
  cases hn : isNaN v
  case true => simp [tvalid, hn, not_isFinite_of_isNaN hn, not_isInf_of_isNaN hn]
  case false =>
    have hge : tvalid v = fge v 0#32 := by simp [tvalid, hn]
    rw [hge]
    rcases isFinite_or_isInf hn with hf | hi
    · rw [fge_zero_iff_of_isFinite hf, hf, not_isInf_of_isFinite hf]
      simp
    · rw [fge, (flt_fle_isInf_right (by decide) hi).2, hi, not_isFinite_of_isInf hi]
      simp

theorem sidx_of_isNaN {v : F32} (h : isNaN v = true) : sidx v = 0 := if_pos h

theorem sidx_of_not_isNaN {v : F32} (h : isNaN v = false) :
    sidx v = if fmul v 0x41200000#32 = 0x7F800000#32 then 63 else if fmul v 0x41200000#32 = 0xFF800000#32 then 0
      else min 63 (ffloor (fmul v 0x41200000#32)).toNat := by
  rw [sidx, h]
  rfl

/-- Settles O19: the validity of the two parameters by exact value, and R236 over a NaN, an infinite product and a finite
one. -/
theorem parameterValidityBounds : Obligations.ParameterValidityBounds := by
  intro v
  refine ⟨svalid_iff v, tvalid_iff v, sidx_of_isNaN, ?_⟩
  rintro hn p rfl
  rw [sidx_of_not_isNaN hn]
  refine ⟨fun hpos => by rw [if_pos hpos], fun hneg => by rw [hneg]; rfl, fun hf => ?_⟩
  have hpos : fmul v 0x41200000#32 ≠ 0x7F800000#32 := fun h => absurd (h ▸ hf) (by decide)
  have hneg : fmul v 0x41200000#32 ≠ 0xFF800000#32 := fun h => absurd (h ▸ hf) (by decide)
  rw [if_neg hpos, if_neg hneg, ffloor]
  omega

end Sys2Proof.Machine
end

