-- ==== Sys2Proof/Proofs/SpectralFilters.lean ====
section
/-! The commands on the bins in COEF (41_spectral.md R238, R240, R242): the polylogarithmic filters and the threshold
(O24, O25, O26, O46). -/

namespace Sys2Proof.Machine

-- As in the tests, the kernel evaluations do not each take a thread.
set_option Elab.async false

open Sys2Proof.Claims

/-! ### How a command ends -/

theorem finish_ok (s : State) : (CmdResult.ok s).finish = .next (ended s) := rfl

theorem finish_failed (code : ErrCode) (s : State) : (CmdResult.failed code s).finish = .next (endedWith code s) := by
  rw [endedWith, ← signal_eq_flagged]
  rfl

/-! ### What completion leaves -/

@[simp] theorem ended_byteAt (s : State) (a : Nat) : (ended s).byteAt a = s.byteAt a := rfl

@[simp] theorem ended_wordAt (s : State) (a : Nat) : (ended s).wordAt a = s.wordAt a := rfl

@[simp] theorem ended_keepLo (s : State) : (ended s).keepLo = s.keepLo := rfl

@[simp] theorem ended_keepHi (s : State) : (ended s).keepHi = s.keepHi := rfl

@[simp] theorem ended_kcount (s : State) : (ended s).kcount = s.kcount := rfl

/-! ### The bins in COEF -/

theorem cre_eq (s : State) (k : Nat) : s.cre k = s.wordAt (0x200 + 8 * k) := rfl

theorem cim_eq (s : State) (k : Nat) : s.cim k = s.wordAt (0x204 + 8 * k) := rfl

/-- Pairs of words as the two interleaved lists. -/
theorem flatMap_pair_eq_interleave {α : Type} (l : List α) (f g : α → F32) :
    (l.flatMap fun x => [f x, g x]) = interleave (l.map f) (l.map g) := by
  induction l with
  | nil => rfl
  | cons x l ih => simp only [List.flatMap_cons, List.map_cons, interleave, ih, List.cons_append, List.nil_append]

theorem getD_flatMap_pair {n : Nat} (f g : Nat → F32) {i : Nat} (h : i < n) :
    ((List.range n).flatMap fun x => [f x, g x]).getD (2 * i) 0#32 = f i
      ∧ ((List.range n).flatMap fun x => [f x, g x]).getD (2 * i + 1) 0#32 = g i := by
  obtain ⟨hf, hg⟩ := getD_interleave ((List.range n).map f) ((List.range n).map g) i (by simpa using h) (by simpa using h)
  rw [flatMap_pair_eq_interleave, hf, hg, getD_map_range n f i h, getD_map_range n g i h]
  exact ⟨rfl, rfl⟩

/-- R67: what is read back of bins stored from bin 1 on. -/
theorem wordAt_storeBins1 (s : State) (f : Nat → F32 × F32) {k : Nat} (h1 : 1 ≤ k) (hk : k < 64) :
    (s.storeBins1 f).wordAt (0x200 + 8 * k) = (f k).1 ∧ (s.storeBins1 f).wordAt (0x204 + 8 * k) = (f k).2 := by
  obtain ⟨i, rfl⟩ : ∃ i, k = i + 1 := ⟨k - 1, by omega⟩
  have hi : i < 63 := by omega
  obtain ⟨hre, him⟩ := getD_flatMap_pair (fun i => (f (i + 1)).1) (fun i => (f (i + 1)).2) hi
  have hread {j : Nat} (hj : j < 126) := wordAt_storeWords (s := s) (a := coefBase + 8) (i := j)
    (ws := (List.range 63).flatMap fun i => [(f (i + 1)).1, (f (i + 1)).2])
    (by rwa [length_flatMap_pair, List.length_range])
  have hcoef : coefBase = 0x200 := rfl
  constructor
  · rw [← hre, ← hread (by omega), State.storeBins1, show coefBase + 8 + 4 * (2 * i) = 0x200 + 8 * (i + 1) by omega]
  · rw [← him, ← hread (by omega), State.storeBins1, show coefBase + 8 + 4 * (2 * i + 1) = 0x204 + 8 * (i + 1) by omega]

theorem byteAt_storeBins1 (s : State) (f : Nat → F32 × F32) {a : Nat} (h : a < 0x208 ∨ 0x400 ≤ a) :
    (s.storeBins1 f).byteAt a = s.byteAt a :=
  byteAt_storeWords_of_outside (by rw [length_flatMap_pair, List.length_range, coefBase]; omega)

/-! ### The filters -/

/-- What both filters do: with a valid S_PARAM bins 1 to 63 become those of `f`, else they fail before any write. -/
theorem filter_spec (s : State) (f : Nat → F32 × F32) :
    (svalid s.sParam = true →
        (if svalid s.sParam then (CmdResult.ok (s.storeBins1 f)).finish else (CmdResult.failed .param s).finish)
          = .next (ended (s.storeBins1 f)))
      ∧ (svalid s.sParam = false →
        (if svalid s.sParam then (CmdResult.ok (s.storeBins1 f)).finish else (CmdResult.failed .param s).finish)
          = .next (endedWith .param s)) := by
  refine ⟨fun h => ?_, fun h => ?_⟩
  · rw [if_pos h, finish_ok]
  · rw [if_neg (by simp [h]), finish_failed]

theorem exec_pltmFwd (s : State) :
    (svalid s.sParam = true → exec .pltmFwd s = .next (ended (s.storeBins1 (pltmFwdBin s))))
      ∧ (svalid s.sParam = false → exec .pltmFwd s = .next (endedWith .param s)) := filter_spec s _

theorem exec_pltmInv (s : State) :
    (svalid s.sParam = true → exec .pltmInv s = .next (ended (s.storeBins1 (pltmInvBin s))))
      ∧ (svalid s.sParam = false → exec .pltmInv s = .next (endedWith .param s)) := filter_spec s _

theorem pltmFwdBin_eq (s : State) (k : Nat) :
    pltmFwdBin s k = (fmul (s.wordAt (0x200 + 8 * k)) (plwFwd (sidx s.sParam) k),
      fmul (s.wordAt (0x204 + 8 * k)) (plwFwd (sidx s.sParam) k)) := rfl

/-- Settles O24: the weighted bins, the frame, and the failure. -/
theorem pltmFwdWeighsTheBins : Obligations.PltmFwdWeighsTheBins := by
  refine ⟨decode_encode .pltmFwd, fun s => ⟨fun hv => ?_, (exec_pltmFwd s).2⟩⟩
  refine ⟨_, (exec_pltmFwd s).1 hv, rfl, fun k h1 hk => ?_, fun a ha => byteAt_storeBins1 s _ ha⟩
  exact wordAt_storeBins1 s (pltmFwdBin s) h1 hk

/-! ### The inverse filter -/

/-- R240: a bin at or below the noise floor is gated. -/
theorem fwsmBin_of_gated {si k : Nat} {re im : F32} (h : fle (mag2 re im) (fmul (noiseFloor k) (noiseFloor k)) = true) :
    fwsmBin si k re im = (0#32, 0#32) := if_pos h

/-- R240: a bin above it is weighed, and scaled to the cap where its magnitude is past it. -/
theorem fwsmBin_of_not_gated {si k : Nat} {re im : F32}
    (h : fle (mag2 re im) (fmul (noiseFloor k) (noiseFloor k)) = false) :
    fwsmBin si k re im = capBin (fmul re (plwInv si k)) (fmul im (plwInv si k)) := by
  rw [fwsmBin, if_neg (by simp [h])]
  rfl

theorem capBin_of_capped {re im : F32} (h : fgt (fsqrt (mag2 re im)) 0x40800000#32 = true) :
    capBin re im = (fmul re (fdiv 0x40800000#32 (fsqrt (mag2 re im))), fmul im (fdiv 0x40800000#32 (fsqrt (mag2 re im)))) :=
  if_pos h

theorem capBin_of_not_capped {re im : F32} (h : fgt (fsqrt (mag2 re im)) 0x40800000#32 = false) :
    capBin re im = (re, im) := if_neg (by simpa [impulseCap] using h)

/-- Settles O25: the gated, the capped and the kept bins, the frame, and the failure. -/
theorem pltmInvGatesWeighsAndCaps : Obligations.PltmInvGatesWeighsAndCaps := by
  refine ⟨decode_encode .pltmInv, fun s => ⟨fun hv => ?_, (exec_pltmInv s).2⟩⟩
  refine ⟨_, (exec_pltmInv s).1 hv, rfl, fun k h1 hk => ?_, fun a ha => byteAt_storeBins1 s _ ha⟩
  rintro re im _ _ _ _ _ hre him rfl rfl rfl rfl rfl
  have hbin : pltmInvBin s k = fwsmBin (sidx s.sParam) k re im := by rw [pltmInvBin, cre_eq, cim_eq, hre, him]
  have hread := wordAt_storeBins1 s (pltmInvBin s) h1 hk
  rw [hbin] at hread
  refine ⟨fun hgate => ?gated, fun hgate hcap => ?capped, fun hgate hcap => ?kept⟩
  case gated => rwa [fwsmBin_of_gated hgate] at hread
  case capped => rwa [fwsmBin_of_not_gated hgate, capBin_of_capped hcap] at hread
  case kept => rwa [fwsmBin_of_not_gated hgate, capBin_of_not_capped hcap] at hread

/-! ### Row 0 -/

/-- 1.0 is neutral for every operand but a NaN, whose pattern becomes the canonical one (R10). -/
theorem fmul_one {a : F32} (h : isNaN a = false) : fmul a 0x3F800000#32 = a := by
  have hsign : (signBit a != signBit 0x3F800000#32) = signBit a := Bool.xor_false _
  rcases isFinite_or_isInf h with hf | hi
  · have hone : scaled 0x3F800000#32 = 2 ^ 149 := by decide +kernel
    rw [fmul_of_isFinite hf (by decide), hsign, hone, scaled_eq_units,
      roundMag_units (by positivity) (isFinite_iff.1 hf), packF_fields]
  · rw [fmul_of_isInf h (by decide) (.inl hi), not_isZero_of_isInf hi, hsign, ← isInf_iff.1 hi, packF_fields]
    rfl

theorem plwFwd_row_zero : ∀ k < 64, plwFwd 0 k = 0x3F800000#32 := by decide +kernel

/-- Settles O46: the weights of row 0 are 1.0, and bin 0 is not weighed. -/
theorem pltmFwdAtRowZeroIsTheIdentity : Obligations.PltmFwdAtRowZeroIsTheIdentity := by
  intro s hv hrow
  refine ⟨_, (exec_pltmFwd s).1 hv, fun k hk => ?_⟩
  rcases Nat.eq_zero_or_pos k with rfl | h1
  · exact ⟨fun _ => wordAt_congr fun i _ => byteAt_storeBins1 s _ (by omega),
      fun _ => wordAt_congr fun i _ => byteAt_storeBins1 s _ (by omega)⟩
  · obtain ⟨hre, him⟩ := wordAt_storeBins1 s (pltmFwdBin s) h1 hk
    rw [pltmFwdBin_eq, hrow, plwFwd_row_zero k hk] at hre him
    exact ⟨fun hn => hre.trans (fmul_one hn), fun hn => him.trans (fmul_one hn)⟩

/-! ### The threshold -/

theorem exec_thresh (s : State) :
    (tvalid s.tParam = true → exec .thresh s = .next (ended (threshold s)))
      ∧ (tvalid s.tParam = false → exec .thresh s = .next (endedWith .param s)) := by
  change (_ → execThresh s = _) ∧ (_ → execThresh s = _)
  refine ⟨fun h => ?_, fun h => ?_⟩
  · rw [execThresh, if_pos h, finish_ok]
  · rw [execThresh, if_neg (by simp [h]), finish_failed]

/-- R52: KEEP has bit `k` set exactly where bin `k` is not below the threshold. -/
theorem keep_threshold (s : State) {k : Nat} (hk : k < 64) :
    ((threshold s).keepHi ++ (threshold s).keepLo).getLsbD k = !belowThreshold s k := by
  have hhalves : (threshold s).keepHi ++ (threshold s).keepLo = maskOf fun k => !belowThreshold s k :=
    (BitVec.extractLsb'_append_extractLsb'_eq_extractLsb' rfl).trans BitVec.extractLsb'_eq_self
  rw [hhalves, maskOf_getLsbD _ k hk]

theorem toNat_kcount_threshold (s : State) :
    (threshold s).kcount.toNat = ((List.range 64).filter fun k => !belowThreshold s k).length := by
  have hle : ((List.range 64).filter fun k => !belowThreshold s k).length ≤ 64 := List.length_filter_le _ _
  rw [threshold, BitVec.toNat_ofNat, List.countP_eq_length_filter, Nat.mod_eq_of_lt (by omega)]

/-- R242: the bytes of the bins below the threshold are zero, every other byte stays. -/
theorem byteAt_threshold (s : State) (x : Nat) :
    (threshold s).byteAt x =
      if ∃ k ∈ (List.range 64).filter (belowThreshold s), 0x200 + 8 * k ≤ x ∧ x < 0x200 + 8 * k + 8 then 0#8
      else s.byteAt x := byteAt_zeroBins _ s x

theorem byteAt_threshold_of_below {s : State} {k i : Nat} (hk : k < 64) (h : belowThreshold s k = true) (hi : i < 8) :
    (threshold s).byteAt (0x200 + 8 * k + i) = 0#8 := by
  rw [byteAt_threshold, if_pos ⟨k, by simpa using ⟨hk, h⟩, by omega, by omega⟩]

theorem byteAt_threshold_of_kept {s : State} {k i : Nat} (h : belowThreshold s k = false) (hi : i < 8) :
    (threshold s).byteAt (0x200 + 8 * k + i) = s.byteAt (0x200 + 8 * k + i) := by
  rw [byteAt_threshold, if_neg]
  rintro ⟨j, hj, hlo, hhi⟩
  obtain rfl : j = k := by omega
  simp [h] at hj

theorem byteAt_threshold_of_outside (s : State) {x : Nat} (h : x < 0x200 ∨ 0x400 ≤ x) :
    (threshold s).byteAt x = s.byteAt x := by
  rw [byteAt_threshold, if_neg]
  rintro ⟨j, hj, hlo, hhi⟩
  have hj64 : j < 64 := List.mem_range.1 (List.mem_filter.1 hj).1
  omega

theorem wordAt_threshold_of_below {s : State} {k : Nat} (hk : k < 64) (h : belowThreshold s k = true) :
    (threshold s).wordAt (0x200 + 8 * k) = 0#32 ∧ (threshold s).wordAt (0x204 + 8 * k) = 0#32 := by
  refine ⟨wordAt_eq_zero fun i hi => byteAt_threshold_of_below hk h (by omega), wordAt_eq_zero fun i hi => ?_⟩
  rw [show 0x204 + 8 * k + i = 0x200 + 8 * k + (4 + i) by omega]
  exact byteAt_threshold_of_below hk h (by omega)

theorem belowThreshold_eq (s : State) (k : Nat) :
    belowThreshold s k = flt (fadd (fmul (s.wordAt (0x200 + 8 * k)) (s.wordAt (0x200 + 8 * k)))
      (fmul (s.wordAt (0x204 + 8 * k)) (s.wordAt (0x204 + 8 * k)))) (fmul s.tParam s.tParam) := rfl

/-- Settles O26: the mask, the zeroed and the kept bins, the count, the frame, and the failure. -/
theorem threshZeroesTheSmallBins : Obligations.ThreshZeroesTheSmallBins := by
  refine ⟨decode_encode .thresh, fun s => ⟨fun hv => ?_, (exec_thresh s).2⟩⟩
  refine ⟨_, (exec_thresh s).1 hv, congrArg ended (threshold_eq s), ?_⟩
  simp only [ended_wordAt, ended_byteAt, ended_keepLo, ended_keepHi, ended_kcount, ← belowThreshold_eq]
  refine ⟨fun k hk => ?_, ?_, fun a ha => byteAt_threshold_of_outside s ha⟩
  · rw [keep_threshold s hk, Bool.not_eq_false', Bool.not_eq_true']
    exact ⟨Iff.rfl, wordAt_threshold_of_below hk, fun h i hi => byteAt_threshold_of_kept h hi⟩
  · rw [toNat_kcount_threshold]
    exact congrArg List.length (List.filter_congr fun k hk => (keep_threshold s (List.mem_range.1 hk)).symm)

end Sys2Proof.Machine
end

