-- ==== Sys2Proof/Proofs/Transform.lean ====
section
/-! The 64-point transform (41_spectral.md R232): the exchanges and butterflies on the arrays, entry by entry, and the two
commands that run it (O22, O23). -/

namespace Sys2Proof.Machine

open Sys2Proof.Claims

/-! ### Entries of the arrays -/

theorem entry_set {v : List F32} {i : Nat} (h : i < v.length) (a : F32) (n : Nat) :
    entry (v.set i a) n = if n = i then a else entry v n := by
  rw [entry, entry, List.getD_eq_getElem?_getD, List.getElem?_set]
  by_cases hn : n = i
  · subst hn
    simp [h]
  · rw [if_neg fun hi => hn hi.symm, if_neg hn, ← List.getD_eq_getElem?_getD]

theorem entry_map {v : List F32} (f : F32 → F32) {i : Nat} (h : i < v.length) : entry (v.map f) i = f (entry v i) := by
  rw [entry, entry, List.getD_eq_getElem _ _ (by simpa using h), List.getD_eq_getElem _ _ h, List.getElem_map]

/-- The pair of entries `i`. -/
def Arrays.bin (v : Arrays) (i : Nat) : F32 × F32 := (entry v.re i, entry v.im i)

/-- The arrays hold the 64 pairs that `x` lists. -/
def Arrays.Holds (v : Arrays) (x : Nat → F32 × F32) : Prop := v.Full ∧ ∀ i < 64, v.bin i = x i

/-! ### The permutation -/

theorem bitrev6_lt (i : Nat) : bitrev6 i < 64 := by
  unfold bitrev6
  omega

theorem bitrev6_bitrev6 : ∀ i < 64, bitrev6 (bitrev6 i) = i := by decide

/-- An exchange, on both arrays. -/
theorem bin_swapEntries {v : Arrays} (hv : v.Full) {i j : Nat} (hi : i < 64) (hj : j < 64) (n : Nat) :
    Arrays.bin { re := swapEntries v.re i j, im := swapEntries v.im i j } n =
      if n = j then v.bin i else if n = i then v.bin j else v.bin n := by
  obtain ⟨hre, him⟩ := hv
  have hswap {a : List F32} (ha : a.length = 64) :
      entry (swapEntries a i j) n = if n = j then entry a i else if n = i then entry a j else entry a n := by
    rw [swapEntries, entry_set (by rw [List.length_set]; omega), entry_set (by omega)]
  rw [Arrays.bin, hswap hre, hswap him]
  split_ifs <;> rfl

/-- Part 1 of R232 after the turns below `n`: an entry has its final value once its own turn or its partner's is over. -/
def revBelow (n : Nat) (x : Nat → F32 × F32) (i : Nat) : F32 × F32 :=
  if i < n ∨ bitrev6 i < n then x (bitrev6 i) else x i

/-- One turn of the permutation. -/
def revTurn (v : Arrays) (i : Nat) : Arrays :=
  if i < bitrev6 i then { re := swapEntries v.re i (bitrev6 i), im := swapEntries v.im i (bitrev6 i) } else v

theorem full_revTurn {v : Arrays} (hv : v.Full) (i : Nat) : (revTurn v i).Full := by
  obtain ⟨hre, him⟩ := hv
  rw [revTurn]
  split
  · exact ⟨by simpa [swapEntries] using hre, by simpa [swapEntries] using him⟩
  · exact ⟨hre, him⟩

theorem holds_revTurn {v : Arrays} {x : Nat → F32 × F32} {n : Nat} (hn : n < 64) (h : v.Holds (revBelow n x)) :
    (revTurn v n).Holds (revBelow (n + 1) x) := by
  obtain ⟨hv, hx⟩ := h
  refine ⟨full_revTurn hv n, fun i hi => ?_⟩
  have hrev := bitrev6_bitrev6 n hn
  have hinv := bitrev6_bitrev6 i hi
  have hpartner : bitrev6 i = n → i = bitrev6 n := fun h => by rw [← h, hinv]
  rw [revTurn]
  split
  case isTrue hlt =>
    rw [bin_swapEntries hv hn (bitrev6_lt n), hx n hn, hx _ (bitrev6_lt n), hx i hi]
    by_cases hb : i = bitrev6 n
    · subst hb
      simp only [revBelow, hrev]
      simp [show ¬bitrev6 n < n by omega]
    · by_cases ha : i = n
      · subst ha
        simp only [revBelow, hrev]
        simp [hb, show ¬bitrev6 i < i by omega]
      · have hb' : bitrev6 i ≠ n := fun h => hb (hpartner h)
        rw [if_neg hb, if_neg ha, revBelow, revBelow]
        congr 1
        rw [eq_iff_iff]
        omega
  case isFalse hge =>
    rw [hx i hi, revBelow, revBelow]
    by_cases hfix : i = bitrev6 i
    · rw [← hfix, ite_self, ite_self]
    · congr 1
      have hown : i = n → bitrev6 i < n := fun h => by subst h; omega
      have hother : bitrev6 i = n → i < n := fun h => by have := hpartner h; omega
      rw [eq_iff_iff]
      omega

/-- R230, R232: the permutation puts entry `bitrev6 i` at `i`. -/
theorem holds_bitReverse {v : Arrays} {x : Nat → F32 × F32} (h : v.Holds x) :
    (bitReverse v).Holds fun i => x (bitrev6 i) := by
  have hturns (n : Nat) (hn : n ≤ 64) : ((List.range n).foldl revTurn v).Holds (revBelow n x) := by
    induction n with
    | zero =>
      obtain ⟨hv, hx⟩ := h
      exact ⟨hv, fun i hi => by simp [revBelow, hx i hi]⟩
    | succ n ih =>
      rw [List.range_succ, List.foldl_append]
      exact holds_revTurn (by omega) (ih (by omega))
  obtain ⟨hv, hx⟩ := hturns 64 le_rfl
  exact ⟨hv, fun i hi => (hx i hi).trans (if_pos (.inl hi))⟩

/-! ### One butterfly -/

/-- The product of the twiddle and entry `b` (R232). -/
def twiddled (dir : Dir) (t : Nat) (b : F32 × F32) : F32 × F32 :=
  (fsub (fmul (entry twCos t) b.1) (fmul (entry (twSin dir) t) b.2),
    fadd (fmul (entry twCos t) b.2) (fmul (entry (twSin dir) t) b.1))

/-- Entry `a` after a butterfly. -/
def sumBin (a p : F32 × F32) : F32 × F32 := (fadd a.1 p.1, fadd a.2 p.2)

/-- Entry `b` after a butterfly. -/
def diffBin (a p : F32 × F32) : F32 × F32 := (fsub a.1 p.1, fsub a.2 p.2)

theorem full_butterfly {v : Arrays} (hv : v.Full) (dir : Dir) (t a b : Nat) : (butterfly dir t a b v).Full := by
  obtain ⟨hre, him⟩ := hv
  exact ⟨by simpa [butterfly] using hre, by simpa [butterfly] using him⟩

theorem bin_butterfly {v : Arrays} (hv : v.Full) (dir : Dir) (t : Nat) {a b : Nat} (ha : a < 64) (hb : b < 64) (i : Nat) :
    (butterfly dir t a b v).bin i =
      if i = a then sumBin (v.bin a) (twiddled dir t (v.bin b))
      else if i = b then diffBin (v.bin a) (twiddled dir t (v.bin b)) else v.bin i := by
  obtain ⟨hre, him⟩ := hv
  have hset {w : List F32} (hw : w.length = 64) (p q : F32) :
      entry ((w.set b p).set a q) i = if i = a then q else if i = b then p else entry w i := by
    rw [entry_set (by rw [List.length_set]; omega), entry_set (by omega)]
  rw [Arrays.bin, butterfly, hset hre, hset him]
  split_ifs <;> rfl

/-! ### One stage -/

/-- The butterfly that entry `i` takes part in: its block, and its place in the half. -/
def pairOf (len i : Nat) : Nat × Nat := (i / len, i % (len / 2))

/-- The stage lengths of R232. -/
def IsStageLen (len : Nat) : Prop := ∃ half, 0 < half ∧ len = 2 * half ∧ 64 / len * len = 64

theorem isStageLen_of_mem : ∀ len ∈ [2, 4, 8, 16, 32, 64], IsStageLen len := by
  intro len h
  refine ⟨len / 2, ?_⟩
  revert len
  decide

theorem div_mod_of_block (block : Nat) {len r : Nat} (hr : r < len) :
    (block * len + r) / len = block ∧ (block * len + r) % len = r :=
  (Nat.div_mod_unique (Nat.zero_lt_of_lt hr)).2 ⟨by ring, hr⟩

/-- The two entries of a butterfly. -/
theorem pairOf_eq_iff {half : Nat} (hpos : 0 < half) {i block j : Nat} (hj : j < half) :
    pairOf (2 * half) i = (block, j) ↔ i = block * (2 * half) + j ∨ i = block * (2 * half) + j + half := by
  have hhalf : 2 * half / 2 = half := by omega
  rw [pairOf, hhalf, Prod.mk.injEq]
  constructor
  · rintro ⟨rfl, rfl⟩
    have hi := Nat.div_add_mod' i (2 * half)
    have hr : i % (2 * half) < 2 * half := Nat.mod_lt _ (by omega)
    have hmod : i % half = i % (2 * half) % half := (Nat.mod_mod_of_dvd i (Nat.dvd_mul_left half 2)).symm
    rcases Nat.lt_or_ge (i % (2 * half)) half with hlt | hge
    · left
      rw [hmod, Nat.mod_eq_of_lt hlt, hi]
    · right
      rw [hmod, Nat.mod_eq_sub_mod hge, Nat.mod_eq_of_lt (by omega)]
      omega
  · rintro (rfl | rfl)
    · refine ⟨(div_mod_of_block block (by omega)).1, ?_⟩
      rw [← Nat.mul_assoc, Nat.mul_add_mod_self_right, Nat.mod_eq_of_lt hj]
    · rw [Nat.add_assoc]
      refine ⟨(div_mod_of_block block (by omega)).1, ?_⟩
      rw [← Nat.mul_assoc, Nat.mul_add_mod_self_right, Nat.add_mod_right, Nat.mod_eq_of_lt hj]

/-- An entry of a stage's result in terms of its butterfly. -/
theorem fftStage_eq (dir : Dir) {half : Nat} (x : Nat → F32 × F32) (i : Nat) :
    fftStage dir (2 * half) x i =
      if i % (2 * half) < half then
        sumBin (x (i / (2 * half) * (2 * half) + i % half))
          (twiddled dir (i % half * (64 / (2 * half))) (x (i / (2 * half) * (2 * half) + i % half + half)))
      else
        diffBin (x (i / (2 * half) * (2 * half) + i % half))
          (twiddled dir (i % half * (64 / (2 * half))) (x (i / (2 * half) * (2 * half) + i % half + half))) := by
  have hhalf : 2 * half / 2 = half := by omega
  rw [fftStage, hhalf]
  cases dir <;> rfl

/-- An entry of a stage's result depends on the two entries of its butterfly only. -/
theorem fftStage_congr (dir : Dir) {len : Nat} (hlen : IsStageLen len) {x y : Nat → F32 × F32} {i : Nat}
    (h : ∀ j, pairOf len j = pairOf len i → x j = y j) : fftStage dir len x i = fftStage dir len y i := by
  obtain ⟨half, hpos, rfl, -⟩ := hlen
  have hpair : pairOf (2 * half) i = (i / (2 * half), i % half) := by rw [pairOf, show 2 * half / 2 = half by omega]
  have hmem (j : Nat) := pairOf_eq_iff hpos (i := j) (block := i / (2 * half)) (Nat.mod_lt i hpos)
  rw [fftStage_eq, fftStage_eq, h _ (((hmem _).2 (.inl rfl)).trans hpair.symm),
    h _ (((hmem _).2 (.inr rfl)).trans hpair.symm)]

/-- A butterfly is the stage on its own two entries, and leaves every other. -/
theorem bin_butterfly_eq_fftStage (dir : Dir) {half block j : Nat} (hblock : block < 64 / (2 * half))
    (h64 : 64 / (2 * half) * (2 * half) = 64) (hj : j < half) {v : Arrays} (hv : v.Full) (i : Nat) :
    (butterfly dir (j * (64 / (2 * half))) (block * (2 * half) + j) (block * (2 * half) + j + half) v).bin i =
      if pairOf (2 * half) i = (block, j) then fftStage dir (2 * half) v.bin i else v.bin i := by
  have hpos : 0 < half := by omega
  have hend : block * (2 * half) + 2 * half ≤ 64 := by
    rw [← Nat.succ_mul, ← h64]
    exact Nat.mul_le_mul_right _ hblock
  have hmod (i : Nat) (h : pairOf (2 * half) i = (block, j)) : i % half = j := by
    rw [pairOf, show 2 * half / 2 = half by omega] at h
    exact congrArg Prod.snd h
  rw [bin_butterfly hv dir _ (by omega) (by omega)]
  by_cases ha : i = block * (2 * half) + j
  · have hp := (pairOf_eq_iff hpos hj).2 (.inl ha)
    obtain ⟨hdiv, hrem⟩ := div_mod_of_block (len := 2 * half) block (r := j) (by omega)
    rw [if_pos ha, if_pos hp, fftStage_eq, hmod i hp, ha, hdiv, hrem, if_pos hj]
  · by_cases hb : i = block * (2 * half) + j + half
    · have hp := (pairOf_eq_iff hpos hj).2 (.inr hb)
      obtain ⟨hdiv, hrem⟩ := div_mod_of_block (len := 2 * half) block (r := j + half) (by omega)
      rw [if_neg ha, if_pos hb, if_pos hp, fftStage_eq, hmod i hp, hb, Nat.add_assoc, hdiv, hrem, if_neg (by omega),
        Nat.add_assoc]
    · rw [if_neg ha, if_neg hb, if_neg fun hp => ((pairOf_eq_iff hpos hj).1 hp).elim ha hb]

/-- Turns that each do a part of one map, on entries of their own, do the whole of it in any order. -/
theorem bin_foldl_of_parts {κ : Type} [DecidableEq κ] {key : Nat → κ} {f : (Nat → F32 × F32) → Nat → F32 × F32}
    (hlocal : ∀ x y i, (∀ j, key j = key i → x j = y j) → f x i = f y i) {turn : Arrays → κ → Arrays} {l : List κ}
    (hl : l.Nodup)
    (hturn : ∀ k ∈ l, ∀ v : Arrays, v.Full →
      (turn v k).Full ∧ ∀ i, (turn v k).bin i = if key i = k then f v.bin i else v.bin i)
    {v : Arrays} (hv : v.Full) (i : Nat) : (l.foldl turn v).bin i = if key i ∈ l then f v.bin i else v.bin i := by
  induction l generalizing v with
  | nil => simp
  | cons k l ih =>
    obtain ⟨hk, hl⟩ := List.nodup_cons.1 hl
    obtain ⟨hfull, hbin⟩ := hturn k List.mem_cons_self v hv
    rw [List.foldl_cons, ih hl (fun k' hk' => hturn k' (List.mem_cons_of_mem _ hk')) hfull]
    by_cases hmem : key i ∈ l
    · rw [if_pos hmem, if_pos (List.mem_cons_of_mem _ hmem)]
      refine hlocal _ _ _ fun j hj => ?_
      rw [hbin, if_neg]
      rintro rfl
      exact hk (hj ▸ hmem)
    · rw [if_neg hmem, hbin]
      simp only [List.mem_cons, hmem, or_false]

/-- The butterflies of a stage as one list: every block, every place in the half. -/
theorem stage_eq_foldl (dir : Dir) (len : Nat) (v : Arrays) :
    stage dir len v = (List.range (64 / len) ×ˢ List.range (len / 2)).foldl
      (fun v p => butterfly dir (p.2 * (64 / len)) (p.1 * len + p.2) (p.1 * len + p.2 + len / 2) v) v := by
  change _ = List.foldl _ v ((List.range (64 / len)).flatMap fun block => (List.range (len / 2)).map (Prod.mk block))
  rw [List.foldl_flatMap]
  simp only [List.foldl_map]
  rfl

/-- A butterfly's entries lie within the arrays, exactly where one of them does. -/
theorem lt_iff_div_lt {len : Nat} (h : 64 / len * len = 64) (i : Nat) : i < 64 ↔ i / len < 64 / len := by
  have hpos : 0 < len := by
    by_contra h0
    obtain rfl : len = 0 := by omega
    omega
  rw [Nat.div_lt_iff_lt_mul hpos, h]

/-- One stage of R232 is `fftStage`. -/
theorem holds_stage (dir : Dir) {len : Nat} (hlen : IsStageLen len) {v : Arrays} {x : Nat → F32 × F32} (h : v.Holds x) :
    (stage dir len v).Holds (fftStage dir len x) := by
  obtain ⟨hv, hx⟩ := h
  refine ⟨stage_full hv dir len, fun i hi => ?_⟩
  have hall : (stage dir len v).bin i = fftStage dir len v.bin i := by
    obtain ⟨half, hpos, rfl, h64⟩ := id hlen
    rw [stage_eq_foldl, bin_foldl_of_parts (key := pairOf (2 * half)) (f := fftStage dir (2 * half))
      (fun x y i => fftStage_congr dir hlen) (List.nodup_range.product List.nodup_range) ?turn hv, if_pos ?mem]
    case mem => exact List.pair_mem_product.2 ⟨List.mem_range.2 ((lt_iff_div_lt h64 i).1 hi),
      List.mem_range.2 (Nat.mod_lt _ (by omega))⟩
    case turn =>
      rintro ⟨block, j⟩ hk v hv
      obtain ⟨hblock, hj⟩ := List.pair_mem_product.1 hk
      rw [show 2 * half / 2 = half by omega] at hj ⊢
      exact ⟨full_butterfly hv _ _ _ _,
        bin_butterfly_eq_fftStage dir (List.mem_range.1 hblock) h64 (List.mem_range.1 hj) hv⟩
  rw [hall]
  refine fftStage_congr dir hlen fun j hj => hx j ?_
  obtain ⟨half, hpos, rfl, h64⟩ := hlen
  rw [lt_iff_div_lt h64, show j / (2 * half) = i / (2 * half) from congrArg Prod.fst hj, ← lt_iff_div_lt h64]
  exact hi

/-! ### The whole transform -/

theorem holds_stages (dir : Dir) (lens : List Nat) (hlens : ∀ len ∈ lens, IsStageLen len) {v : Arrays}
    {x : Nat → F32 × F32} (h : v.Holds x) :
    (lens.foldl (fun v len => stage dir len v) v).Holds (lens.foldl (fun x len => fftStage dir len x) x) := by
  induction lens generalizing v x with
  | nil => exact h
  | cons len lens ih =>
    exact ih (fun l hl => hlens l (List.mem_cons_of_mem _ hl)) (holds_stage dir (hlens len List.mem_cons_self) h)

/-- The division by 64.0 that ends the inverse. -/
def divided (v : Arrays) : Arrays :=
  { re := v.re.map (fdiv · 0x42800000#32), im := v.im.map (fdiv · 0x42800000#32) }

theorem bin_divided {v : Arrays} (hv : v.Full) {i : Nat} (hi : i < 64) :
    (divided v).bin i = (fdiv (v.bin i).1 0x42800000#32, fdiv (v.bin i).2 0x42800000#32) := by
  obtain ⟨hre, him⟩ := hv
  rw [Arrays.bin, divided, entry_map _ (hre ▸ hi), entry_map _ (him ▸ hi)]
  rfl

theorem fft64_inv (v : Arrays) :
    fft64 v .inv = divided ([2, 4, 8, 16, 32, 64].foldl (fun v len => stage .inv len v) (bitReverse v)) := rfl

/-- R232: `FFT64` is the transform, entry by entry. -/
theorem holds_fft64 (dir : Dir) {v : Arrays} {x : Nat → F32 × F32} (h : v.Holds x) :
    (fft64 v dir).Holds (transform dir x) := by
  obtain ⟨hfull, hbin⟩ := holds_stages dir _ isStageLen_of_mem (holds_bitReverse h)
  refine ⟨fft64_full h.1 dir, fun i hi => ?_⟩
  cases dir with
  | fwd => exact hbin i hi
  | inv =>
    rw [fft64_inv, bin_divided hfull hi, hbin i hi, transform, if_pos rfl]

/-! ### The two commands -/

theorem wordAt_storeWords_interleave (s : State) {v : Arrays} (hv : v.Full) {k : Nat} (hk : k < 64) :
    (s.storeWords coefBase (interleave v.re v.im)).wordAt (0x200 + 8 * k) = entry v.re k
      ∧ (s.storeWords coefBase (interleave v.re v.im)).wordAt (0x204 + 8 * k) = entry v.im k := by
  obtain ⟨hre, him⟩ := hv
  obtain ⟨hkre, hkim⟩ := getD_interleave v.re v.im k (by omega) (by omega)
  have hread {j : Nat} (hj : j < 128) := wordAt_storeWords (s := s) (a := coefBase) (i := j)
    (ws := interleave v.re v.im) (by rw [length_interleave]; omega)
  have hcoef : coefBase = 0x200 := rfl
  constructor
  · rw [entry, ← hkre, ← hread (by omega), show coefBase + 4 * (2 * k) = 0x200 + 8 * k by omega]
  · rw [entry, ← hkim, ← hread (by omega), show coefBase + 4 * (2 * k + 1) = 0x204 + 8 * k by omega]

theorem byteAt_storeWords_interleave (s : State) {v : Arrays} (hv : v.Full) {a : Nat} (ha : a < 0x200 ∨ 0x400 ≤ a) :
    (s.storeWords coefBase (interleave v.re v.im)).byteAt a = s.byteAt a := by
  obtain ⟨hre, him⟩ := hv
  exact byteAt_storeWords_of_outside (by rw [length_interleave, hre, him, coefBase]; omega)

/-- R234: the samples with imaginary parts +0. -/
theorem holds_patchInput (s : State) : Arrays.Holds ⟨s.patch, List.replicate 64 0#32⟩ (patchInput s) := by
  refine ⟨⟨length_patch s, List.length_replicate⟩, fun i hi => Prod.ext ?_ ?_⟩
  · exact getD_map_range 64 (fun i => s.wordAt (patchBase + 4 * i)) i hi
  · exact List.getD_replicate 0#32 hi

/-- R235: the bins. -/
theorem holds_coefInput (s : State) : Arrays.Holds ⟨s.creAll, s.cimAll⟩ (coefInput s) :=
  ⟨⟨by simp [State.creAll], by simp [State.cimAll]⟩,
    fun i hi => Prod.ext (getD_map_range 64 s.cre i hi) (getD_map_range 64 s.cim i hi)⟩

theorem exec_fftFwd (s : State) :
    exec .fftFwd s = .next (ended (s.storeWords coefBase (interleave (forward s.patch).re (forward s.patch).im))) := by
  change execFftFwd s = _
  rw [execFftFwd, finish_ok]

/-- Settles O22: what is read back of the stored transform, and the frame. -/
theorem fftFwdWritesTheTransform : Obligations.FftFwdWritesTheTransform := by
  refine ⟨decode_encode .fftFwd, fun s => ⟨_, exec_fftFwd s, ?_⟩⟩
  obtain ⟨hfull, hbin⟩ : (forward s.patch).Holds (transform .fwd (patchInput s)) := holds_fft64 .fwd (holds_patchInput s)
  generalize forward s.patch = v at hfull hbin
  refine ⟨rfl, fun k hk => ?_, fun a ha => byteAt_storeWords_interleave s hfull ha⟩
  rw [← hbin k hk]
  exact wordAt_storeWords_interleave s hfull hk

/-- R235: the inverse transform in COEF, its real parts in PATCH, and the sticky NF. -/
def storeInverse (s : State) (v : Arrays) : State :=
  { (s.storeWords coefBase (interleave v.re v.im)).storeWords patchBase v.re with
    status := { s.status with nf := s.status.nf || anyNonFinite v.re } }

theorem exec_fftInv (s : State) :
    exec .fftInv s = .next (ended (storeInverse s (fft64 ⟨s.creAll, s.cimAll⟩ .inv))) := by
  change execFftInv s = _
  rw [execFftInv]
  generalize fft64 ⟨s.creAll, s.cimAll⟩ .inv = v
  rfl

theorem wordAt_storeInverse (s : State) {v : Arrays} (hv : v.Full) {k : Nat} (hk : k < 64) :
    (storeInverse s v).wordAt (0x200 + 8 * k) = entry v.re k ∧ (storeInverse s v).wordAt (0x204 + 8 * k) = entry v.im k
      ∧ (storeInverse s v).wordAt (0x100 + 4 * k) = entry v.re k := by
  obtain ⟨hre, him⟩ := wordAt_storeWords_interleave s hv hk
  have hlen : v.re.length = 64 := hv.1
  have hcoef {a : Nat} (ha : 0x200 ≤ a) :
      (storeInverse s v).wordAt a = (s.storeWords coefBase (interleave v.re v.im)).wordAt a :=
    wordAt_storeWords_of_outside (by rw [hlen, patchBase]; omega)
  exact ⟨(hcoef (by omega)).trans hre, (hcoef (by omega)).trans him, wordAt_storeWords (by omega)⟩

theorem byteAt_storeInverse (s : State) {v : Arrays} (hv : v.Full) {a : Nat} (ha : a < 0x100 ∨ 0x400 ≤ a) :
    (storeInverse s v).byteAt a = s.byteAt a := by
  have hlen : v.re.length = 64 := hv.1
  have hpatch : (storeInverse s v).byteAt a = (s.storeWords coefBase (interleave v.re v.im)).byteAt a :=
    byteAt_storeWords_of_outside (by rw [hlen, patchBase]; omega)
  rw [hpatch, byteAt_storeWords_interleave s hv (by omega)]

theorem anyNonFinite_iff {v : List F32} (hv : v.length = 64) :
    anyNonFinite v = true ↔ ∃ i, i < 64 ∧ isFinite (entry v i) = false := by
  rw [anyNonFinite, List.any_eq_true]
  constructor
  · rintro ⟨a, ha, hf⟩
    obtain ⟨i, hi, rfl⟩ := List.getElem_of_mem ha
    exact ⟨i, hv ▸ hi, by rw [entry, List.getD_eq_getElem _ _ hi]; simpa using hf⟩
  · rintro ⟨i, hi, hf⟩
    rw [entry, List.getD_eq_getElem _ _ (hv ▸ hi)] at hf
    exact ⟨v[i], List.getElem_mem _, by simpa using hf⟩

/-- Settles O23: the flag, what is read back of the stored transform and of its real parts, and the frame. -/
theorem fftInvWritesTheSamples : Obligations.FftInvWritesTheSamples := by
  refine ⟨decode_encode .fftInv, fun s => ⟨_, exec_fftInv s, ?_⟩⟩
  obtain ⟨hfull, hbin⟩ := holds_fft64 .inv (holds_coefInput s)
  generalize fft64 ⟨s.creAll, s.cimAll⟩ .inv = v at hfull hbin
  refine ⟨rfl, ?_, fun k hk => ?_, fun a ha => byteAt_storeInverse s hfull ha⟩
  · have hnf : (s.status.nf || anyNonFinite v.re) = true ↔ s.status.nf = true ∨ ∃ i, i < 64 ∧ isFinite (v.bin i).1 = false := by
      rw [Bool.or_eq_true, anyNonFinite_iff hfull.1]
      rfl
    refine hnf.trans (or_congr_right (exists_congr fun i => and_congr_right fun hi => ?_))
    rw [hbin i hi]
  · rw [← hbin k hk]
    exact wordAt_storeInverse s hfull hk

end Sys2Proof.Machine
end

