-- ==== Sys2Proof/Proofs/Twiddles.lean ====
section
/-! The tables of the transform (41_spectral.md R230, R231): every twiddle is, up to its sign, the f32 nearest to
cos (j · π / 32) for a `j` up to 16 (O44). Two rational bounds of cos (π / 32) give bounds of all of these through the
Chebyshev polynomials: with `c` = cos φ a bound of cos (π / 32), cos (j · φ) bounds cos (j · π / 32) from the same side. -/

namespace Sys2Proof.Machine

-- As in the tests, the kernel evaluations do not each take a thread.
set_option Elab.async false

open Real Sys2Proof.Claims

/-! ### Cosines of multiples -/

/-- The Chebyshev polynomial of degree `k` at `p / q`, times `q ^ k`. -/
def chebNum (p q : Int) : Nat → Int
  | 0 => 1
  | 1 => p
  | k + 2 => 2 * p * chebNum p q (k + 1) - q ^ 2 * chebNum p q k

theorem chebNum_eq {p q : Int} {φ : ℝ} (hp : (p : ℝ) = q * cos φ) (k : Nat) :
    (chebNum p q k : ℝ) = q ^ k * cos (k * φ) := by
  induction k using Nat.twoStepInduction with
  | zero => simp [chebNum]
  | one => simp [chebNum, hp]
  | more k ih ih' =>
    have hnext : cos (((k + 2 : Nat) : ℝ) * φ) = cos (((k + 1 : Nat) : ℝ) * φ + φ) := by
      congr 1
      push_cast
      ring
    have hlast : cos ((k : ℝ) * φ) = cos (((k + 1 : Nat) : ℝ) * φ - φ) := by
      congr 1
      push_cast
      ring
    rw [chebNum]
    simp only [Int.cast_sub, Int.cast_mul, Int.cast_pow, Int.cast_ofNat]
    rw [ih, ih', hp, hnext, hlast, cos_add, cos_sub]
    ring

/-- A lower bound of cos (π / 32), in units of 10^-12. -/
def cosLow : Int := 995184726672

/-- An upper bound of cos (π / 32), in the same units. -/
def cosHigh : Int := 995184726673

theorem le_sqrt_two_add {x r : ℝ} (h : x ^ 2 - 2 ≤ r) : x ≤ √(2 + r) := le_sqrt_of_sq_le (by linarith)

theorem sqrt_two_add_le {x r : ℝ} (hx : 0 ≤ x) (h : r ≤ x ^ 2 - 2) : √(2 + r) ≤ x := sqrt_le_iff.2 ⟨hx, by linarith⟩

theorem cosLow_le : (cosLow / 10 ^ 12 : ℝ) ≤ cos (π / 32) := by
  rw [cos_pi_div_thirty_two, le_div_iff₀ two_pos]
  refine le_sqrt_two_add (le_sqrt_two_add (le_sqrt_two_add (le_sqrt_of_sq_le ?_)))
  norm_num [cosLow]

theorem le_cosHigh : cos (π / 32) ≤ (cosHigh / 10 ^ 12 : ℝ) := by
  rw [cos_pi_div_thirty_two, div_le_iff₀ two_pos]
  refine sqrt_two_add_le ?_ (sqrt_two_add_le ?_ (sqrt_two_add_le ?_ (sqrt_le_iff.2 ⟨?_, ?_⟩)))
  all_goals norm_num [cosHigh]

theorem cos_arccos_cosLow : (cosLow : ℝ) = 10 ^ 12 * cos (arccos (cosLow / 10 ^ 12)) := by
  rw [cos_arccos (by norm_num [cosLow]) (by norm_num [cosLow])]
  ring

theorem cos_arccos_cosHigh : (cosHigh : ℝ) = 10 ^ 12 * cos (arccos (cosHigh / 10 ^ 12)) := by
  rw [cos_arccos (by norm_num [cosHigh]) (by norm_num [cosHigh])]
  ring

/-- The angle of the lower bound stays within a half turn when multiplied by up to 16. -/
theorem arccos_cosLow_le : arccos (cosLow / 10 ^ 12) ≤ π / 16 := by
  have hpi := pi_pos
  have hdouble : cos (π / 16) = 2 * cos (π / 32) ^ 2 - 1 := by
    rw [← cos_two_mul]
    congr 1
    ring
  have hpos : 0 ≤ cos (π / 32) := cos_nonneg_of_neg_pi_div_two_le_of_le (by linarith) (by linarith)
  have hsq := pow_le_pow_left₀ hpos le_cosHigh 2
  have hle : cos (π / 16) ≤ cosLow / 10 ^ 12 := by
    rw [hdouble]
    refine (by linarith : _ ≤ 2 * (cosHigh / 10 ^ 12 : ℝ) ^ 2 - 1).trans ?_
    norm_num [cosHigh, cosLow]
  rw [← arccos_cos (x := π / 16) (by linarith) (by linarith)]
  exact arccos_le_arccos hle

/-- The bounds of cos (j · π / 32). -/
theorem chebNum_bounds {j : Nat} (hj : j ≤ 16) :
    (chebNum cosLow (10 ^ 12) j : ℝ) ≤ (10 ^ 12) ^ j * cos (j * (π / 32))
      ∧ (10 ^ 12) ^ j * cos (j * (π / 32)) ≤ (chebNum cosHigh (10 ^ 12) j : ℝ) := by
  have hpi := pi_pos
  have hj' : (j : ℝ) ≤ 16 := by exact_mod_cast hj
  have hangle : arccos (cos (π / 32)) = π / 32 := arccos_cos (by linarith) (by linarith)
  have hlow : π / 32 ≤ arccos (cosLow / 10 ^ 12) := hangle ▸ arccos_le_arccos cosLow_le
  have hhigh : arccos (cosHigh / 10 ^ 12) ≤ π / 32 := hangle ▸ arccos_le_arccos le_cosHigh
  have hlow16 := arccos_cosLow_le
  have hscale : ((10 ^ 12 : Int) : ℝ) = 10 ^ 12 := by norm_num
  rw [chebNum_eq (φ := arccos (cosLow / 10 ^ 12)) (by exact_mod_cast cos_arccos_cosLow),
    chebNum_eq (φ := arccos (cosHigh / 10 ^ 12)) (by exact_mod_cast cos_arccos_cosHigh), hscale]
  constructor
  · refine mul_le_mul_of_nonneg_left (cos_le_cos_of_nonneg_of_le_pi (by positivity) ?_ (by gcongr)) (by positivity)
    calc j * arccos (cosLow / 10 ^ 12) ≤ 16 * (π / 16) := mul_le_mul hj' hlow16 (arccos_nonneg _) (by norm_num)
      _ = π := by ring
  · have hpos : 0 ≤ j * arccos (cosHigh / 10 ^ 12) := mul_nonneg (by positivity) (arccos_nonneg _)
    refine mul_le_mul_of_nonneg_left (cos_le_cos_of_nonneg_of_le_pi hpos ?_ (by gcongr)) (by positivity)
    calc j * (π / 32) ≤ 16 * (π / 16) := by gcongr; linarith
      _ = π := by ring

/-! ### The magnitudes -/

/-- The magnitude bits of TW_COS. -/
def twiddleMag (j : Nat) : Nat := magBits (entry twCos j)

/-- The halfway points around every magnitude but that of cos (π / 2) enclose the bounds. -/
theorem twiddleMag_encloses : ∀ j < 16,
    0 < twiddleMag j ∧ twiddleMag j ≤ magBits pi32
      ∧ midNum (twiddleMag j - 1) * (10 ^ 12) ^ j ≤ chebNum cosLow (10 ^ 12) j * midDen (twiddleMag j - 1)
      ∧ chebNum cosHigh (10 ^ 12) j * midDen (twiddleMag j) ≤ midNum (twiddleMag j) * (10 ^ 12) ^ j := by
  decide +kernel

theorem betweenMids_twiddleMag {j : Nat} (hj : j ≤ 16) :
    BetweenMids realUnits (cos (j * (π / 32)) * 2 ^ 149) (twiddleMag j) := by
  rcases hj.lt_or_eq with hlt | rfl
  · obtain ⟨-, hle, hlo, hhi⟩ := twiddleMag_encloses j hlt
    obtain ⟨hcosLo, hcosHi⟩ := chebNum_bounds hj
    have hden (k : Nat) : (0 : ℝ) < midDen k := by exact_mod_cast midDen_pos k
    have hlo' : (midNum (twiddleMag j - 1) : ℝ) * (10 ^ 12) ^ j
        ≤ chebNum cosLow (10 ^ 12) j * midDen (twiddleMag j - 1) := by exact_mod_cast hlo
    have hhi' : (chebNum cosHigh (10 ^ 12) j : ℝ) * midDen (twiddleMag j)
        ≤ midNum (twiddleMag j) * (10 ^ 12) ^ j := by exact_mod_cast hhi
    have hq : (0 : ℝ) < (10 ^ 12) ^ j := by positivity
    refine betweenMids_of_midPoint hle (.inr ?_) ?_
    · rw [midPoint, div_le_iff₀ (hden _)]
      refine le_of_mul_le_mul_right (hlo'.trans ?_) hq
      calc _ ≤ (10 ^ 12) ^ j * cos (j * (π / 32)) * midDen (twiddleMag j - 1) := by gcongr
        _ = _ := by ring
    · rw [midPoint, le_div_iff₀ (hden _)]
      refine le_of_mul_le_mul_right (le_trans ?_ hhi') hq
      calc _ = (10 ^ 12) ^ j * cos (j * (π / 32)) * midDen (twiddleMag j) := by ring
        _ ≤ _ := by gcongr
  · have hzero : cos ((16 : Nat) * (π / 32)) = 0 := by
      rw [← cos_pi_div_two]
      congr 1
      push_cast
      ring
    rw [hzero]
    exact betweenMids_of_midPoint (m := 0) (Nat.zero_le _) (.inl rfl) (midPoint_pos 0).le

theorem nearest_twiddle (neg : Bool) {j : Nat} (hj : j ≤ 16) {v : ℝ}
    (hv : v = if neg then -cos (j * (π / 32)) else cos (j * (π / 32))) {a : F32} (hf : isFinite a = true)
    (ha : exactVal a = if neg then -(units (twiddleMag j) : Int) else units (twiddleMag j)) : Nearest (v * 2 ^ 149) a := by
  have hpi := pi_pos
  have hj' : (j : ℝ) ≤ 16 := by exact_mod_cast hj
  have hcos : 0 ≤ cos (j * (π / 32)) := by
    refine cos_nonneg_of_neg_pi_div_two_le_of_le ?_ ?_
    · have : 0 ≤ j * (π / 32) := by positivity
      linarith
    · calc j * (π / 32) ≤ 16 * (π / 32) := by gcongr
        _ = π / 2 := by ring
  rw [hv, ite_mul, neg_mul]
  exact nearest_of_betweenMids neg (by positivity) (betweenMids_twiddleMag hj) hf ha

/-! ### The tables -/

/-- The multiple of π / 32 in the first quadrant whose cosine has the absolute value of cos (k · π / 32). -/
def cosIndex (k : Nat) : Nat := if 16 < k then 32 - k else k

/-- The multiple whose cosine is sin (k · π / 32). -/
def sinIndex (k : Nat) : Nat := if 16 < k then k - 16 else 16 - k

theorem cos_eq_cosIndex {k : Nat} (hk : k < 32) :
    cos (2 * π * k / 64) =
      if decide (16 < k) then -cos (cosIndex k * (π / 32)) else cos (cosIndex k * (π / 32)) := by
  by_cases h : 16 < k
  · rw [if_pos (decide_eq_true h), cosIndex, if_pos h, ← cos_pi_sub, Nat.cast_sub hk.le]
    congr 1
    push_cast
    ring
  · rw [if_neg (by simpa using h), cosIndex, if_neg h]
    congr 1
    ring

theorem sin_eq_sinIndex (k : Nat) : sin (2 * π * k / 64) = cos (sinIndex k * (π / 32)) := by
  rw [sinIndex]
  split_ifs with h
  · rw [← cos_sub_pi_div_two, Nat.cast_sub h.le]
    congr 1
    push_cast
    ring
  · rw [← cos_pi_div_two_sub, Nat.cast_sub (not_lt.1 h)]
    congr 1
    push_cast
    ring

/-- The tables by the magnitudes of TW_COS in the first quadrant. -/
theorem twiddles_eq : ∀ k < 32,
    (isFinite (entry twCos k) = true ∧ exactVal (entry twCos k) =
        if decide (16 < k) then -(units (twiddleMag (cosIndex k)) : Int) else units (twiddleMag (cosIndex k)))
      ∧ (isFinite (entry twSinF k) = true ∧ exactVal (entry twSinF k) = -(units (twiddleMag (sinIndex k)) : Int))
      ∧ isFinite (entry twSinI k) = true ∧ exactVal (entry twSinI k) = units (twiddleMag (sinIndex k)) := by
  decide +kernel

theorem bitrev6_testBit : ∀ i < 64, ∀ n < 6, (bitrev6 i).testBit n = i.testBit (5 - n) := by decide

/-- Settles O44: the permutation's bits, and the nearest f32 through the first quadrant. -/
theorem transformTablesAreTheStatedOnes : Obligations.TransformTablesAreTheStatedOnes := by
  refine ⟨fun i hi => ⟨bitrev6_lt i, bitrev6_testBit i hi⟩, ?_, rfl, rfl, rfl⟩
  rintro k hk _ rfl
  obtain ⟨⟨hcosF, hcos⟩, ⟨hfwdF, hfwd⟩, hinvF, hinv⟩ := twiddles_eq k hk
  have hci : cosIndex k ≤ 16 := by
    unfold cosIndex
    split <;> omega
  have hsi : sinIndex k ≤ 16 := by
    unfold sinIndex
    split <;> omega
  refine ⟨nearest_twiddle _ hci (cos_eq_cosIndex hk) hcosF hcos, nearest_twiddle true hsi ?_ hfwdF ?_,
    nearest_twiddle false hsi ?_ hinvF ?_⟩
  · rw [if_pos rfl, sin_eq_sinIndex]
  · rw [if_pos rfl, hfwd]
  · rw [if_neg Bool.false_ne_true, sin_eq_sinIndex]
  · rw [if_neg Bool.false_ne_true, hinv]

end Sys2Proof.Machine
end

