-- ==== Sys2Proof/Proofs/WeightTables.lean ====
section
/-! The weighting tables (42_spectral_tables.md R280, R281; O45). Both tables hold rounded tenth roots of a fraction: of
1 / k ^ si in PLW_FWD, of k ^ si / 1 in PLW_INV. So one test on whole numbers serves both; the kernel evaluates
it line by line of a table, which reaches every entry without a search for its line. -/

namespace Sys2Proof.Machine

-- As in the tests, the kernel evaluations do not each take a thread.
set_option Elab.async false

/-! ### Rounded tenth roots -/

/-- The significand of a normal pattern, its hidden bit included. -/
def significand (w : Nat) : Nat := w % 2 ^ 23 + 2 ^ 23

/-- Four times the midpoint between a significand and the f32 below, which is half as far away at a power of two. -/
def midpointBelow (m : Nat) : Nat := if m = 2 ^ 23 then 4 * m - 1 else 4 * m - 2

/-- Four times the midpoint between a significand and the f32 above. -/
def midpointAbove (m : Nat) : Nat := 4 * m + 2

/-- The tenth power, in units of 2 ^ -1520, of a midpoint next to the pattern `w`. -/
def tenthPower (midpoint : Nat → Nat) (w : Nat) : Nat := midpoint (significand w) ^ 10 * 2 ^ (10 * (w / 2 ^ 23))

/-- The pattern `w` is the f32 nearest to the tenth root of `num / den`. An odd significand may meet neither midpoint: its
last bit, which is that of `w`, makes both bounds strict. -/
abbrev RoundsTenthRoot (w num den : Nat) : Prop :=
  tenthPower midpointBelow w * den + w % 2 ≤ num * 2 ^ 1520
    ∧ num * 2 ^ 1520 + w % 2 ≤ tenthPower midpointAbove w * den

theorem significand_mod_two (w : Nat) : significand w % 2 = w % 2 := by
  unfold significand
  omega

/-- The tie rule, from the strict bounds of an odd significand. -/
theorem RoundsTenthRoot.enclosure {w num den : Nat} (h : RoundsTenthRoot w num den) :
    tenthPower midpointBelow w * den ≤ num * 2 ^ 1520 ∧ num * 2 ^ 1520 ≤ tenthPower midpointAbove w * den
      ∧ (tenthPower midpointBelow w * den = num * 2 ^ 1520 ∨ tenthPower midpointAbove w * den = num * 2 ^ 1520 →
          significand w % 2 = 0) := by
  obtain ⟨hbelow, habove⟩ := h
  refine ⟨le_of_add_le_left hbelow, le_of_add_le_left habove, fun hmeets => ?_⟩
  rw [significand_mod_two]
  rcases hmeets with hmeets | hmeets
  · rw [hmeets] at hbelow
    omega
  · rw [hmeets] at habove
    omega

/-! ### The entries of a table -/

/-- `P w si k` for the pattern `w` of every entry `k` of row `si`, the lines taken in their order. -/
abbrev AllOnLines (lines : List Nat) (P : Nat → Nat → Nat → Prop) : Prop :=
  ∀ line ∈ lines.zipIdx, ∀ j < 16, P (line.1 / 2 ^ (32 * (15 - j)) % 2 ^ 32) (line.2 / 4) (16 * (line.2 % 4) + j)

theorem AllOnLines.tableEntry {lines : List Nat} {P : Nat → Nat → Nat → Prop} (h : AllOnLines lines P)
    (hlen : lines.length = 256) {si k : Nat} (hsi : si < 64) (hk : k < 64) : P (tableEntry lines si k).toNat si k := by
  have hline : (lines.getD (4 * si + k / 16) 0, 4 * si + k / 16) ∈ lines.zipIdx := by
    rw [List.mk_mem_zipIdx_iff_getElem?, List.getD_eq_getElem _ _ (by omega), List.getElem?_eq_getElem]
  have hentry := h _ hline (k % 16) (by omega)
  rwa [show (4 * si + k / 16) / 4 = si by omega, show 16 * ((4 * si + k / 16) % 4) + k % 16 = k by omega,
    ← BitVec.toNat_ofNat] at hentry

/-- R282 in column 0, and the rounded root `num / den` in the others. -/
abbrev IsWeight (w k num den : Nat) : Prop := (k = 0 → w = 0x3F800000) ∧ (1 ≤ k → RoundsTenthRoot w num den)

/-- R280: every forward weight. -/
theorem plwFwd_isWeight {si k : Nat} (hsi : si < 64) (hk : k < 64) : IsWeight (plwFwd si k).toNat k 1 (k ^ si) := by
  have hlines : AllOnLines plwFwdLines fun w si k => IsWeight w k 1 (k ^ si) := by decide +kernel
  exact hlines.tableEntry (by decide +kernel) hsi hk

/-- R281: every inverse weight. -/
theorem plwInv_isWeight {si k : Nat} (hsi : si < 64) (hk : k < 64) : IsWeight (plwInv si k).toNat k (k ^ si) 1 := by
  have hlines : AllOnLines plwInvLines fun w si k => IsWeight w k (k ^ si) 1 := by decide +kernel
  exact hlines.tableEntry (by decide +kernel) hsi hk

/-- Settles O45: every entry of both tables passes the test of a rounded tenth root. -/
theorem weightTablesAreCorrectlyRounded : Obligations.WeightTablesAreCorrectlyRounded := by
  refine ⟨fun si hsi => ⟨BitVec.eq_of_toNat_eq ?_, BitVec.eq_of_toNat_eq ?_⟩, fun si hsi k hk h1 => ⟨?_, ?_⟩⟩
  · exact (plwFwd_isWeight hsi (by decide)).1 rfl
  · exact (plwInv_isWeight hsi (by decide)).1 rfl
  · rintro w e m low high hw rfl hm rfl rfl
    have hround := ((plwFwd_isWeight hsi hk).2 h1).enclosure
    rw [← hw, Nat.one_mul, tenthPower, tenthPower, Nat.mul_right_comm, Nat.mul_right_comm _ _ (k ^ si)] at hround
    rw [hm]
    exact hround
  · rintro w e m low high hw rfl hm rfl rfl
    have hround := ((plwInv_isWeight hsi hk).2 h1).enclosure
    rw [← hw, Nat.mul_one, Nat.mul_one] at hround
    rw [hm]
    exact hround

end Sys2Proof.Machine
end

