-- ==== Sys2Proof/Proofs/FrequencyModel.lean ====
section
/-! The frequency model of the range coder (43_range_coder.md R301 to R304): the binary descent finds the largest symbol
(O49), and an update keeps the model good (O50). -/

namespace Sys2Proof.Machine

open Sys2Proof.Claims

/-! ### The binary descent -/

/-- The steps `2^(k-1)` down to 1 of R303. -/
def descentSteps : Nat → List Nat
  | 0 => []
  | k + 1 => 2 ^ k :: descentSteps k

theorem getSymbol_eq (counts : List Word) (v : Nat) :
    getSymbol counts v = min (descend counts (descentSteps 8) 0 v) 255 := rfl

/-- `pos` is not past the largest symbol whose cumulative count is at most `v`, and that symbol is among the next
`width`. -/
def Brackets (counts : List Word) (v pos width : Nat) : Prop :=
  cum counts pos ≤ v ∧ pos + width ≤ 256 ∧ ∀ x ≤ 255, pos + width ≤ x → v < cum counts x

/-- The probes of the descent read entries of FEN whose lowest set bit is the step. -/
theorem lowbit_probe : ∀ k < 8, ∀ m < 128, lowbit (2 ^ (k + 1) * m + 2 ^ k) = 2 ^ k := by decide +kernel

/-- A probe reads the cumulative count on from `pos` (R303). -/
theorem cum_add_fen_probe (counts : List Word) {k m : Nat} (h : 2 ^ (k + 1) * m + 2 ^ (k + 1) ≤ 256) :
    cum counts (2 ^ (k + 1) * m) + fen counts (2 ^ (k + 1) * m + 2 ^ k) = cum counts (2 ^ (k + 1) * m + 2 ^ k) := by
  have hk : k < 8 := by
    have hpow : 2 ^ (k + 1) ≤ 2 ^ 8 := by omega
    have := (Nat.pow_le_pow_iff_right (by decide : 1 < 2)).1 hpow
    omega
  have hm : m < 128 := by
    have hpow : 2 ^ 1 ≤ 2 ^ (k + 1) := Nat.pow_le_pow_right (by decide) (by omega)
    have := Nat.mul_le_mul_right m hpow
    omega
  exact cum_add_fen counts _ _ (lowbit_probe k hk m hm)

/-- R303: the descent keeps the bracket and narrows it to one symbol. -/
theorem brackets_descend (counts : List Word) {v k pos rem : Nat} (hdvd : 2 ^ k ∣ pos) (hrem : cum counts pos + rem = v)
    (h : Brackets counts v pos (2 ^ k)) : Brackets counts v (descend counts (descentSteps k) pos rem) 1 := by
  induction k generalizing pos rem with
  | zero => exact h
  | succ k ih =>
    obtain ⟨m, rfl⟩ := hdvd
    obtain ⟨hlow, hwidth, hhigh⟩ := h
    have hprobe := cum_add_fen_probe counts hwidth
    have hdouble : 2 ^ (k + 1) = 2 ^ k + 2 ^ k := by omega
    have hhalf : 2 ^ k ∣ 2 ^ (k + 1) * m := Dvd.dvd.mul_right (pow_dvd_pow 2 (by omega)) m
    rw [descentSteps, descend]
    split
    next hle =>
      refine ih (hhalf.add (dvd_refl _)) (by omega) ⟨by omega, by omega, fun x hx hpos => hhigh x hx (by omega)⟩
    next hgt =>
      refine ih hhalf hrem ⟨hlow, by omega, fun x hx hpos => ?_⟩
      have := cum_mono counts hpos
      omega

/-- Settles O49: at the start the bracket is all 256 symbols, at the end it is one. -/
theorem getSymbolIsTheLargest : Obligations.GetSymbolIsTheLargest := by
  intro counts v
  have hstart : Brackets counts v 0 (2 ^ 8) := ⟨by simp [cum_zero], by decide, fun x hx hpos => by omega⟩
  obtain ⟨hlow, hwidth, hhigh⟩ := brackets_descend counts (rem := v) (dvd_zero _) (by simp [cum_zero]) hstart
  rw [getSymbol_eq, Nat.min_eq_left (by omega)]
  exact ⟨by omega, hlow, fun x hlt hx => hhigh x hx hlt⟩

/-- R303: in range, the symbol found is the one whose share holds the value. -/
theorem getSymbol_eq_of_mem {counts : List Word} {v sym : Nat} (hsym : sym < 256) (hlow : cum counts sym ≤ v)
    (hhigh : v < cum counts (sym + 1)) : getSymbol counts v = sym := by
  obtain ⟨hle, hfound, hnext⟩ := getSymbolIsTheLargest counts v
  rcases Nat.lt_trichotomy (getSymbol counts v) sym with hlt | heq | hlt
  · exact absurd (hnext sym hlt (by omega)) (Nat.not_lt.2 hlow)
  · exact heq
  · have := cum_mono counts (i := sym + 1) hlt
    omega

/-! ### The sum of the counts -/

theorem sum_set_toNat (counts : List Word) (i : Nat) (x : Word) (h : i < counts.length) :
    ((counts.set i x).map BitVec.toNat).sum + (counts.getD i 0#32).toNat = (counts.map BitVec.toNat).sum + x.toNat := by
  induction counts generalizing i with
  | nil => exact absurd h (Nat.not_lt_zero i)
  | cons c counts ih =>
    cases i with
    | zero => simp only [List.set_cons_zero, List.map_cons, List.sum_cons, List.getD_cons_zero]; omega
    | succ i =>
      have := ih i (Nat.lt_of_succ_lt_succ h)
      simp only [List.set_cons_succ, List.map_cons, List.sum_cons, List.getD_cons_succ]
      omega

/-- R304: a halving rounds every odd count down, and adds one to every count. -/
theorem sum_halve (counts : List Word) :
    2 * ((halve counts).map BitVec.toNat).sum + (counts.filter fun x => x.getLsbD 0).length
      = (counts.map BitVec.toNat).sum + 2 * counts.length := by
  induction counts with
  | nil => rfl
  | cons c counts ih =>
    have hodd : c.getLsbD 0 = decide (c.toNat % 2 = 1) := by
      rw [BitVec.getLsbD, Nat.testBit_zero]
    rw [halve] at ih
    rw [halve, List.map_cons, List.map_cons, List.map_cons, List.sum_cons, List.sum_cons, halved_toNat, List.filter_cons,
      hodd, List.length_cons]
    by_cases h : c.toNat % 2 = 1
    · simp only [h, decide_true, if_true, List.length_cons]
      omega
    · simp only [h, decide_false, Bool.false_eq_true, if_false]
      omega

/-! ### A good model -/

section
variable {c : Coder} (h : c.ModelOk)
include h

theorem Coder.ModelOk.sum_counts : (c.counts.map BitVec.toNat).sum = c.total.toNat := by
  obtain ⟨hlength, -, hsum, -, -⟩ := h
  rw [← hsum, cum_of_length_le _ _ hlength.le]

theorem Coder.ModelOk.count_mem {sym : Nat} (hsym : sym < 256) : c.counts.getD sym 0#32 ∈ c.counts := by
  obtain ⟨hlength, -⟩ := h
  rw [List.getD_eq_getElem _ _ (by omega)]
  exact List.getElem_mem _

theorem Coder.ModelOk.total_bounds : 256 ≤ c.total.toNat ∧ c.total.toNat ≤ 16383 := by
  obtain ⟨-, -, -, hlow, hhigh⟩ := h
  rw [halvingLimit] at hhigh
  omega

/-- R302: the share of a symbol lies within the total. -/
theorem Coder.ModelOk.interval_le {sym : Nat} (hsym : sym < 256) :
    cum c.counts sym + (c.counts.getD sym 0#32).toNat ≤ c.total.toNat := by
  obtain ⟨-, -, hsum, -, -⟩ := h
  rw [← cum_succ, ← hsum]
  exact cum_mono _ (by omega)

theorem Coder.ModelOk.one_le_count {sym : Nat} (hsym : sym < 256) : 1 ≤ (c.counts.getD sym 0#32).toNat := by
  have hmem := h.count_mem hsym
  obtain ⟨-, hpos, -⟩ := h
  exact hpos _ hmem

end

/-! ### An update -/

/-- COUNTS after the symbol is counted, before a halving (R304). -/
def Coder.countedUp (sym : Nat) (c : Coder) : List Word := c.counts.set sym (c.counts.getD sym 0#32 + 1#32)

theorem update_of_lt {c : Coder} (sym : Nat) (h : (c.total + 1#32).toNat < halvingLimit) :
    c.update sym = { c with counts := c.countedUp sym, total := c.total + 1#32 } := by
  rw [Coder.update]
  exact if_neg (by omega)

theorem update_of_le {c : Coder} (sym : Nat) (h : halvingLimit ≤ (c.total + 1#32).toNat) :
    c.update sym =
      { c with counts := halve (c.countedUp sym), total := BitVec.ofNat 32 (cum (halve (c.countedUp sym)) 256) } := by
  rw [Coder.update]
  exact if_pos h

theorem toNat_add_one {x : Word} (h : x.toNat + 1 < 2 ^ 32) : (x + 1#32).toNat = x.toNat + 1 := BitVec.toNat_add_of_lt h

section
variable {c : Coder} (h : c.ModelOk)
include h

theorem Coder.ModelOk.length_countedUp (sym : Nat) : (c.countedUp sym).length = 256 := by
  obtain ⟨hlength, -⟩ := h
  rw [Coder.countedUp, List.length_set, hlength]

theorem Coder.ModelOk.toNat_total_add_one : (c.total + 1#32).toNat = c.total.toNat + 1 := by
  obtain ⟨-, hhigh⟩ := h.total_bounds
  exact toNat_add_one (by omega)

/-- R304: below the limit the total is one more. -/
theorem Coder.ModelOk.update_counts (sym : Nat) (hlt : c.total.toNat < 16383) :
    c.update sym = { c with counts := c.countedUp sym, total := c.total + 1#32 } :=
  update_of_lt sym (by rw [h.toNat_total_add_one, halvingLimit]; omega)

/-- R304: at the limit every count is halved. -/
theorem Coder.ModelOk.update_halves (sym : Nat) (heq : c.total.toNat = 16383) :
    c.update sym =
      { c with counts := halve (c.countedUp sym), total := BitVec.ofNat 32 (cum (halve (c.countedUp sym)) 256) } :=
  update_of_le sym (by rw [h.toNat_total_add_one, halvingLimit]; omega)

variable {sym : Nat} (hsym : sym < 256)
include hsym

theorem Coder.ModelOk.toNat_count_add_one :
    (c.counts.getD sym 0#32 + 1#32).toNat = (c.counts.getD sym 0#32).toNat + 1 := by
  have := h.interval_le hsym
  have := h.total_bounds
  exact toNat_add_one (by omega)

theorem Coder.ModelOk.sum_countedUp : ((c.countedUp sym).map BitVec.toNat).sum = c.total.toNat + 1 := by
  have hset := sum_set_toNat c.counts sym (c.counts.getD sym 0#32 + 1#32) (by obtain ⟨hlength, -⟩ := h; omega)
  rw [h.toNat_count_add_one hsym, h.sum_counts] at hset
  rw [Coder.countedUp]
  omega

theorem Coder.ModelOk.one_le_of_mem_countedUp {x : Word} (hx : x ∈ c.countedUp sym) : 1 ≤ x.toNat := by
  have hcount := h.toNat_count_add_one hsym
  obtain ⟨-, hpos, -⟩ := h
  rcases List.mem_or_eq_of_mem_set hx with hx | rfl
  · exact hpos x hx
  · omega

/-- R304: the total that a halving leaves. -/
theorem Coder.ModelOk.cum_halve (heq : c.total.toNat = 16383) :
    cum (halve (c.countedUp sym)) 256 = (16384 - ((c.countedUp sym).filter fun x => x.getLsbD 0).length) / 2 + 256 := by
  have hlength := h.length_countedUp sym
  have hsum := sum_halve (c.countedUp sym)
  have hodd := List.length_filter_le (fun x : Word => x.getLsbD 0) (c.countedUp sym)
  rw [h.sum_countedUp hsym] at hsum
  rw [cum_of_length_le _ _ (by rw [length_halve]; omega)]
  omega

theorem Coder.ModelOk.cum_halve_bounds (heq : c.total.toNat = 16383) :
    8320 ≤ cum (halve (c.countedUp sym)) 256 ∧ cum (halve (c.countedUp sym)) 256 ≤ 8448 := by
  have hlength := h.length_countedUp sym
  have hodd := List.length_filter_le (fun x : Word => x.getLsbD 0) (c.countedUp sym)
  rw [h.cum_halve hsym heq]
  omega

theorem Coder.ModelOk.toNat_total_update (heq : c.total.toNat = 16383) :
    (c.update sym).total.toNat = cum (halve (c.countedUp sym)) 256 := by
  obtain ⟨-, hhigh⟩ := h.cum_halve_bounds hsym heq
  rw [h.update_halves sym heq]
  exact Nat.mod_eq_of_lt (by omega)

theorem Coder.ModelOk.update : (c.update sym).ModelOk := by
  have hlength := h.length_countedUp sym
  obtain ⟨hlow, hhigh⟩ := h.total_bounds
  rcases Nat.lt_or_eq_of_le hhigh with hlt | heq
  · have htotal := h.toNat_total_add_one
    rw [h.update_counts sym hlt]
    refine ⟨hlength, fun x hx => h.one_le_of_mem_countedUp hsym hx, ?_, ?_, ?_⟩
    · rw [cum_of_length_le _ _ hlength.le, h.sum_countedUp hsym, htotal]
    · simp only [htotal]; omega
    · simp only [htotal, halvingLimit]; omega
  · have htotal := h.toNat_total_update hsym heq
    obtain ⟨hmin, hmax⟩ := h.cum_halve_bounds hsym heq
    have hcounts : (c.update sym).counts = halve (c.countedUp sym) := by rw [h.update_halves sym heq]
    refine ⟨?_, fun x hx => ?_, ?_, ?_, ?_⟩
    · rw [hcounts, length_halve, hlength]
    · rw [hcounts, halve, List.mem_map] at hx
      obtain ⟨y, -, rfl⟩ := hx
      rw [halved_toNat]
      omega
    · rw [htotal, hcounts]
    · omega
    · rw [halvingLimit]; omega

end

/-- Settles O50: the two sides of the halving limit. -/
theorem modelUpdateCountsAndHalves : Obligations.ModelUpdateCountsAndHalves := by
  intro c sym h hsym
  refine ⟨h.update hsym, fun hlt => ?_, fun heq => ?_⟩
  · rw [h.update_counts sym hlt]
    exact ⟨rfl, rfl⟩
  · obtain ⟨hmin, hmax⟩ := h.cum_halve_bounds hsym heq
    rw [h.toNat_total_update hsym heq]
    refine ⟨?_, h.cum_halve hsym heq, hmin, hmax⟩
    rw [h.update_halves sym heq]
    rfl

end Sys2Proof.Machine
end

