-- ==== Sys2Proof/Proofs/EncoderPushes.lean ====
section
/-! The pushes of the encoder (43_range_coder.md R307, R308). RC_ENC and RC_FINISH run pushes one after the other: all
their bytes find room, or the run stops at the first push whose bytes do not. A push multiplies the encoder's number by 256
(O51). -/

namespace Sys2Proof.Machine

open Sys2Proof.Claims

/-! ### A push of the coder -/

/-- The coder with another RC_POS. -/
def Coder.atPos (c : Coder) (p : Word) : Coder := { c with pos := p }

theorem pushed_of_defer {c : Coder} (h : c.low.toNat / 2 ^ 24 = 0xFF) :
    pushed c = { c with ffrun := c.ffrun + 1#32, low := shiftedLow c.low } := if_pos h

theorem pushed_of_release {c : Coder} (h : c.low.toNat / 2 ^ 24 ≠ 0xFF) :
    pushed c =
      { c with
        ffrun := 0#32, cache := BitVec.ofNat 8 (c.low.toNat / 2 ^ 24), started := true, low := shiftedLow c.low } :=
  if_neg h

theorem pushBytes_of_defer {c : Coder} (h : c.low.toNat / 2 ^ 24 = 0xFF) : pushBytes c = [] := if_pos h

theorem carryOf_eq (c : Coder) : carryOf c = pushCarry c := congrArg (BitVec.ofNat 8) (Nat.div_div_eq_div_mul _ _ _)

theorem pushBytes_of_release {c : Coder} (h : c.low.toNat / 2 ^ 24 ≠ 0xFF) : pushBytes c = released c := by
  rw [pushBytes, if_neg h, released, carryOf_eq]

theorem pushBytes_atPos (c : Coder) (p : Word) : pushBytes (c.atPos p) = pushBytes c := rfl

/-- A push and what its command does to the range with it: nothing in RC_FINISH, the shift in RC_ENC. -/
def pushTurn (f : Word → Word) (c : Coder) : Coder := { pushed c with range := f c.range }

/-- The shift of the range by one turn. -/
abbrev shiftRange (w : Word) : Word := w <<< 8

theorem renormTurn_eq : renormTurn = pushTurn shiftRange := rfl

theorem pushed_eq : pushed = pushTurn id := by
  funext c
  rw [pushTurn, pushed]
  split <;> rfl

section
variable (f : Word → Word) (c : Coder)

/-- A push touches the encoder's registers only. -/
theorem pushTurn_fields :
    pushTurn f c =
      { c with
        started := (pushTurn f c).started
        range := f c.range
        low := shiftedLow c.low
        cache := (pushTurn f c).cache
        ffrun := (pushTurn f c).ffrun } := by
  rw [pushTurn]
  by_cases h : c.low.toNat / 2 ^ 24 = 0xFF
  · rw [pushed_of_defer h]
  · rw [pushed_of_release h]

theorem pushTurn_atPos (p : Word) : pushTurn f (c.atPos p) = (pushTurn f c).atPos p := by
  rw [pushTurn, pushTurn]
  by_cases h : c.low.toNat / 2 ^ 24 = 0xFF
  · rw [pushed_of_defer h, pushed_of_defer (c := c.atPos p) h]
    rfl
  · rw [pushed_of_release h, pushed_of_release (c := c.atPos p) h]
    rfl

theorem low_pushTurn : (pushTurn f c).low = shiftedLow c.low := by rw [pushTurn_fields]

theorem low_pushTurn_lt : (pushTurn f c).low.toNat < 2 ^ 32 := by
  rw [low_pushTurn, shiftedLow_toNat]
  omega

theorem turns_pushTurn_atPos (p : Word) (n : Nat) :
    turns (pushTurn f) n (c.atPos p) = (turns (pushTurn f) n c).atPos p := by
  induction n generalizing c with
  | zero => rfl
  | succ n ih => rw [turns, turns, pushTurn_atPos, ih]

theorem outBytes_pushTurn_atPos (p : Word) (n : Nat) :
    outBytes (pushTurn f) n (c.atPos p) = outBytes (pushTurn f) n c := by
  induction n generalizing c with
  | zero => rfl
  | succ n ih => rw [outBytes, outBytes, pushTurn_atPos, ih, pushBytes_atPos]

/-- Pushes touch the encoder's registers only. -/
theorem turns_pushTurn_fields (n : Nat) :
    turns (pushTurn f) n c =
      { c with
        started := (turns (pushTurn f) n c).started
        range := (turns (pushTurn f) n c).range
        low := (turns (pushTurn f) n c).low
        cache := (turns (pushTurn f) n c).cache
        ffrun := (turns (pushTurn f) n c).ffrun } := by
  induction n generalizing c with
  | zero => rfl
  | succ n ih => rw [turns, ih, pushTurn_fields]

theorem length_outBytes_mono {m n : Nat} (h : m ≤ n) :
    (outBytes (pushTurn f) m c).length ≤ (outBytes (pushTurn f) n c).length := by
  induction m generalizing c n with
  | zero => exact Nat.zero_le _
  | succ m ih =>
    obtain ⟨n, rfl⟩ : ∃ k, n = k + 1 := ⟨n - 1, by omega⟩
    have := ih (pushTurn f c) (Nat.le_of_succ_le_succ h)
    rw [outBytes, outBytes, List.length_append, List.length_append]
    omega

end

/-! ### Bytes in STREAM -/

/-- `u` is `s` with the coder `c` and with bytes appended to STREAM. -/
def Advances (s : State) (bs : List Byte) (c : Coder) (u : State) : Prop :=
  Appends (s.withRc (c.atPos s.rc.pos)) bs u

/-- The bytes have room in STREAM. -/
def Fits (s : State) (bs : List Byte) : Prop := bs = [] ∨ s.rc.pos.toNat + bs.length ≤ s.caps.toNat

/-- `u` is `s` stopped by a full STREAM while the coder was `c` (R307): the bytes that had room are appended. -/
def Overruns (s : State) (bs : List Byte) (c : Coder) (u : State) : Prop :=
  ∃ v, Advances s (bs.take (s.caps.toNat - s.rc.pos.toNat)) c v ∧ u = v.withRc (overrun v.rc)

theorem Appends.withRc {s t : State} {bs : List Byte} (h : Appends s bs t) (d : Coder) :
    Appends (s.withRc (d.atPos s.rc.pos)) bs (t.withRc (d.atPos t.rc.pos)) := by
  obtain ⟨heq, hpos, hbytes⟩ := h
  refine ⟨?_, hpos, hbytes⟩
  rw [heq]
  rfl

namespace Advances

variable {s t u : State} {bs cs : List Byte} {c d : Coder}

theorem refl (s : State) : Advances s [] s.rc s := Appends.refl s

theorem eq (h : Advances s bs c u) : u = { s with mem := u.mem, rc := c.atPos u.rc.pos } := h.1

theorem caps (h : Advances s bs c u) : u.caps = s.caps := by rw [h.eq]

theorem rc (h : Advances s bs c u) : u.rc = c.atPos u.rc.pos := congrArg State.rc h.eq

theorem pos (h : Advances s bs c u) : u.rc.pos.toNat = s.rc.pos.toNat + bs.length := h.2.1

theorem rc_eq (h : Advances s bs c u) : u.rc = c.atPos (BitVec.ofNat 32 (s.rc.pos.toNat + bs.length)) := by
  rw [← h.pos, BitVec.ofNat_toNat, BitVec.setWidth_eq]
  exact h.rc

theorem trans (h : Advances s bs c t) (h' : Advances t cs d u) : Advances s (bs ++ cs) d u :=
  (Appends.withRc h d).trans h'

/-- The coder of the state reached may be replaced. -/
theorem withRc (h : Advances s bs c u) (d : Coder) : Advances s bs d (u.withRc (d.atPos u.rc.pos)) :=
  Appends.withRc h d

theorem fits_append_iff (h : Advances s bs c t) (hbs : Fits s bs) : Fits s (bs ++ cs) ↔ Fits t cs := by
  have hpos := h.pos
  rw [Fits, Fits, h.caps, hpos, List.append_eq_nil_iff, List.length_append]
  constructor
  · rintro (⟨-, hcs⟩ | hle)
    · exact .inl hcs
    · exact .inr (by omega)
  · rintro (rfl | hle)
    · rcases hbs with rfl | hle
      · exact .inl ⟨rfl, rfl⟩
      · exact .inr (by simpa using hle)
    · exact .inr (by omega)

end Advances

namespace Fits

theorem take_eq {s : State} {bs : List Byte} (h : Fits s bs) : bs.take (s.caps.toNat - s.rc.pos.toNat) = bs := by
  rcases h with rfl | hle
  · exact List.take_nil
  · exact List.take_of_length_le (by omega)

theorem mono {s : State} {bs cs : List Byte} (h : Fits s cs) (hle : bs.length ≤ cs.length) : Fits s bs := by
  rcases h with rfl | hroom
  · exact .inl (List.length_eq_zero_iff.1 (by simpa using hle))
  · exact .inr (by omega)

end Fits

theorem not_fits_iff {s : State} {bs : List Byte} :
    ¬Fits s bs ↔ bs ≠ [] ∧ s.caps.toNat < s.rc.pos.toNat + bs.length := by
  rw [Fits, not_or, Nat.not_le]

theorem not_fits_of_lt {s : State} {bs : List Byte} (hpos : s.rc.pos.toNat ≤ s.caps.toNat)
    (h : s.caps.toNat < s.rc.pos.toNat + bs.length) : ¬Fits s bs := by
  refine not_fits_iff.2 ⟨?_, h⟩
  rintro rfl
  exact absurd h (Nat.not_lt.2 hpos)

theorem Advances.overruns {s t u : State} {bs cs : List Byte} {c d : Coder} (h : Advances s bs c t) (hbs : Fits s bs)
    (h' : Overruns t cs d u) : Overruns s (bs ++ cs) d u := by
  obtain ⟨v, hv, rfl⟩ := h'
  refine ⟨v, ?_, rfl⟩
  rw [List.take_append, hbs.take_eq, Nat.sub_sub, ← h.pos, ← h.caps]
  exact h.trans hv

/-- Bytes appended are those that the statements name, as far as STREAM has room. -/
theorem Advances.emits {s u : State} {bs : List Byte} {c : Coder}
    (h : Advances s (bs.take (s.caps.toNat - s.rc.pos.toNat)) c u) : Emits s u bs := by
  obtain ⟨-, -, hbytes⟩ := h
  simp only [withRc_rc, Coder.atPos, withRc_byteAt, List.length_take, streamBase] at hbytes
  refine ⟨fun i hi hroom => ?_, fun a ha => ?_⟩
  · rw [hbytes, if_pos (by omega), show 0x100000 + s.rc.pos.toNat + i - (0x100000 + s.rc.pos.toNat) = i by omega,
      List.getD_eq_getElem?_getD, List.getElem?_take_of_lt (by omega), List.getD_eq_getElem?_getD]
  · rw [hbytes, if_neg (by omega)]

theorem Advances.emits_of_fits {s u : State} {bs : List Byte} {c : Coder} (h : Advances s bs c u) (hfits : Fits s bs) :
    Emits s u bs := by
  rw [← hfits.take_eq] at h
  exact h.emits

theorem Overruns.emits {s u : State} {bs : List Byte} {c : Coder} (h : Overruns s bs c u) : Emits s u bs := by
  obtain ⟨v, hv, rfl⟩ := h
  exact hv.emits

theorem Overruns.eq {s u : State} {bs : List Byte} {c : Coder} (h : Overruns s bs c u) :
    u = { s with mem := u.mem, rc := overrun c } := by
  obtain ⟨v, hv, rfl⟩ := h
  rw [hv.eq]
  rfl

theorem Overruns.rc {s u : State} {bs : List Byte} {c : Coder} (h : Overruns s bs c u) : u.rc = overrun c :=
  congrArg State.rc h.eq

/-! ### Pushes of the machine -/

/-- A push, and the range with it. -/
def pushOp (f : Word → Word) (s : State) : CmdResult :=
  (shiftLow s).andThen fun t => .ok (t.withRc { t.rc with range := f t.rc.range })

/-- Pushes one after the other. -/
def pushOps (f : Word → Word) : Nat → State → CmdResult
  | 0, s => .ok s
  | n + 1, s => (pushOp f s).andThen (pushOps f n)

theorem pushOp_id (s : State) : pushOp id s = shiftLow s := by
  rw [pushOp]
  cases shiftLow s <;> rfl

theorem shiftLowTimes_eq (n : Nat) (s : State) : shiftLowTimes n s = pushOps id n s := by
  induction n generalizing s with
  | zero => rfl
  | succ n ih =>
    rw [shiftLowTimes, pushOps, pushOp_id]
    congr 1
    funext t
    exact ih t

/-- What `shift_low()` does (R308): a push, or a stop with OVF where the bytes it releases have no room. -/
theorem shiftLow_cases (s : State) :
    (Fits s (pushBytes s.rc) ∧ ∃ u, shiftLow s = .ok u ∧ Advances s (pushBytes s.rc) (pushed s.rc) u)
      ∨ (¬Fits s (pushBytes s.rc) ∧ ∃ u, shiftLow s = .failed .ovf u ∧ Overruns s (pushBytes s.rc) s.rc u) := by
  by_cases hdefer : s.rc.low.toNat / 2 ^ 24 = 0xFF
  · rw [pushBytes_of_defer hdefer, pushed_of_defer hdefer]
    exact .inl ⟨.inl rfl, _, shiftLow_of_defer hdefer, Advances.refl (s.withRc _)⟩
  · rw [pushBytes_of_release hdefer, pushed_of_release hdefer]
    by_cases hfits : Fits s (released s.rc)
    · obtain ⟨v, hv, happend⟩ := emitAll_of_le _ hfits
      refine .inl ⟨hfits, _, by rw [shiftLow_of_release hdefer, hv, andThen_ok], ?_⟩
      rw [Advances.rc (c := s.rc) happend]
      exact happend.withRc _
    · obtain ⟨hne, hfull⟩ := not_fits_iff.1 hfits
      obtain ⟨v, happend, hv⟩ := emitAll_of_gt _ hne hfull
      exact .inr ⟨hfits, _, by rw [shiftLow_of_release hdefer, hv]; rfl, v, happend, rfl⟩

theorem pushOp_cases (f : Word → Word) (s : State) :
    (Fits s (pushBytes s.rc) ∧ ∃ u, pushOp f s = .ok u ∧ Advances s (pushBytes s.rc) (pushTurn f s.rc) u)
      ∨ (¬Fits s (pushBytes s.rc) ∧ ∃ u, pushOp f s = .failed .ovf u ∧ Overruns s (pushBytes s.rc) s.rc u) := by
  rcases shiftLow_cases s with ⟨hfits, u, hu, hadvances⟩ | ⟨hfits, u, hu, hoverruns⟩
  · refine .inl ⟨hfits, _, by rw [pushOp, hu, andThen_ok], ?_⟩
    have hrange : (pushed s.rc).range = s.rc.range := by rw [pushed_eq, pushTurn_fields, id]
    rw [pushTurn, ← hrange, hadvances.rc]
    exact hadvances.withRc _
  · exact .inr ⟨hfits, u, by rw [pushOp, hu, andThen_failed], hoverruns⟩

/-- A run of pushes: all of them, or a stop at push `j + 1`, the first whose bytes have no room. -/
theorem pushOps_cases (f : Word → Word) (n : Nat) (s : State) :
    (Fits s (outBytes (pushTurn f) n s.rc)
        ∧ ∃ u, pushOps f n s = .ok u ∧ Advances s (outBytes (pushTurn f) n s.rc) (turns (pushTurn f) n s.rc) u)
      ∨ ∃ j < n, Fits s (outBytes (pushTurn f) j s.rc) ∧ ¬Fits s (outBytes (pushTurn f) (j + 1) s.rc)
        ∧ ∃ u, pushOps f n s = .failed .ovf u
          ∧ Overruns s (outBytes (pushTurn f) (j + 1) s.rc) (turns (pushTurn f) j s.rc) u := by
  induction n generalizing s with
  | zero => exact .inl ⟨.inl rfl, s, rfl, .refl s⟩
  | succ n ih =>
    rcases pushOp_cases f s with ⟨hfits, t, ht, hadvances⟩ | ⟨hfits, u, hu, hoverruns⟩
    · have hrun : pushOps f (n + 1) s = pushOps f n t := by rw [pushOps, ht, andThen_ok]
      have hout (m : Nat) : outBytes (pushTurn f) m t.rc = outBytes (pushTurn f) m (pushTurn f s.rc) := by
        rw [hadvances.rc, outBytes_pushTurn_atPos]
      have hturns (m : Nat) : turns (pushTurn f) m t.rc = (turns (pushTurn f) m (pushTurn f s.rc)).atPos t.rc.pos := by
        rw [← turns_pushTurn_atPos, ← hadvances.rc]
      have hiff {cs : List Byte} : Fits s (pushBytes s.rc ++ cs) ↔ Fits t cs := hadvances.fits_append_iff hfits
      rcases ih t with ⟨hrest, u, hu, hadvances'⟩ | ⟨j, hj, hrest, hfull, u, hu, hoverruns⟩
      · rw [hout] at hrest hadvances'
        rw [hturns] at hadvances'
        exact .inl ⟨hiff.2 hrest, u, hrun.trans hu, hadvances.trans hadvances'⟩
      · rw [hout] at hrest hfull hoverruns
        rw [hturns] at hoverruns
        exact .inr ⟨j + 1, by omega, hiff.2 hrest, fun h => hfull (hiff.1 h), u, hrun.trans hu,
          hadvances.overruns hfits hoverruns⟩
    · have hout : outBytes (pushTurn f) 1 s.rc = pushBytes s.rc := List.append_nil _
      refine .inr ⟨0, by omega, .inl rfl, by rwa [hout], u, by rw [pushOps, hu, andThen_failed], ?_⟩
      rwa [hout]

theorem pushOps_of_fits (f : Word → Word) (n : Nat) {s : State} (h : Fits s (outBytes (pushTurn f) n s.rc)) :
    ∃ u, pushOps f n s = .ok u ∧ Advances s (outBytes (pushTurn f) n s.rc) (turns (pushTurn f) n s.rc) u := by
  rcases pushOps_cases f n s with ⟨-, hok⟩ | ⟨j, hj, -, hfull, -⟩
  · exact hok
  · exact absurd (h.mono (length_outBytes_mono f s.rc hj)) hfull

theorem pushOps_of_full (f : Word → Word) {n j : Nat} {s : State} (hj : j < n)
    (h : Fits s (outBytes (pushTurn f) j s.rc)) (hfull : ¬Fits s (outBytes (pushTurn f) (j + 1) s.rc)) :
    ∃ u, pushOps f n s = .failed .ovf u
      ∧ Overruns s (outBytes (pushTurn f) (j + 1) s.rc) (turns (pushTurn f) j s.rc) u := by
  rcases pushOps_cases f n s with ⟨hfits, -⟩ | ⟨i, hi, hfits', hfull', hfailed⟩
  · exact absurd (hfits.mono (length_outBytes_mono f s.rc hj)) hfull
  · rcases Nat.lt_trichotomy i j with hlt | rfl | hlt
    · exact absurd (h.mono (length_outBytes_mono f s.rc hlt)) hfull'
    · exact hfailed
    · exact absurd (hfits'.mono (length_outBytes_mono f s.rc hlt)) hfull

theorem advances_of_pushOps {f : Word → Word} {n : Nat} {s u : State} (h : pushOps f n s = .ok u) :
    Fits s (outBytes (pushTurn f) n s.rc)
      ∧ Advances s (outBytes (pushTurn f) n s.rc) (turns (pushTurn f) n s.rc) u := by
  rcases pushOps_cases f n s with ⟨hfits, v, hv, hadvances⟩ | ⟨j, -, -, -, v, hv, -⟩
  · obtain rfl := CmdResult.ok.inj (hv.symm.trans h)
    exact ⟨hfits, hadvances⟩
  · exact absurd (hv.symm.trans h) nofun

/-! ### The encoder's number -/

/-- A number in base 256 with one more byte. -/
def appendByte (n : Nat) (b : Byte) : Nat := n * 256 + b.toNat

theorem foldl_appendByte_zeros (n m : Nat) : (List.replicate m 0#8).foldl appendByte n = n * 256 ^ m := by
  induction m generalizing n with
  | zero => simp
  | succ m ih =>
    rw [List.replicate_succ, List.foldl_cons, ih, appendByte, pow_succ']
    simp [Nat.mul_assoc]

theorem foldl_appendByte_ones (n m : Nat) :
    (List.replicate m 0xFF#8).foldl appendByte n = n * 256 ^ m + (256 ^ m - 1) := by
  induction m generalizing n with
  | zero => simp
  | succ m ih =>
    have hpos : 0 < 256 ^ m := Nat.pow_pos (by decide)
    have hbyte : (0xFF#8).toNat = 255 := rfl
    rw [List.replicate_succ, List.foldl_cons, ih, appendByte, hbyte, Nat.add_mul, pow_succ', Nat.mul_assoc]
    omega

theorem streamNumber_congr {s t : State} {n : Nat} (h : ∀ i < n, t.byteAt (0x100000 + i) = s.byteAt (0x100000 + i)) :
    streamNumber t n = streamNumber s n := by
  induction n with
  | zero => rfl
  | succ n ih => rw [streamNumber, streamNumber, h n (by omega), ih fun i hi => h i (by omega)]

theorem streamNumber_of_appends {s t : State} {bs : List Byte} (h : Appends s bs t) :
    streamNumber t t.rc.pos.toNat = bs.foldl appendByte (streamNumber s s.rc.pos.toNat) := by
  obtain ⟨-, hpos, hbytes⟩ := h
  rw [streamBase] at hbytes
  have htake (k : Nat) (hk : k ≤ bs.length) :
      streamNumber t (s.rc.pos.toNat + k) = (bs.take k).foldl appendByte (streamNumber s s.rc.pos.toNat) := by
    induction k with
    | zero => exact streamNumber_congr fun i hi => by rw [hbytes, if_neg (by omega)]
    | succ k ih =>
      rw [List.take_succ_eq_append_getElem (by omega), List.foldl_append, ← ih (by omega), ← Nat.add_assoc, streamNumber,
        hbytes, if_pos (by omega), List.getD_eq_getElem _ _ (by omega)]
      simp only [List.foldl_cons, List.foldl_nil, appendByte]
      congr 4
      omega
  rw [hpos, htake _ (Nat.le_refl _), List.take_length]

/-- The bytes written and held, as a number. -/
def pending (written : Nat) (c : Coder) : Nat :=
  (if c.started then written * 256 + c.cache.toNat else written) * 256 ^ c.ffrun.toNat + (256 ^ c.ffrun.toNat - 1)

theorem codeNumber_eq (s : State) :
    codeNumber s = pending (streamNumber s s.rc.pos.toNat) s.rc * 2 ^ 32 + s.rc.low.toNat := rfl

/-- Two states whose numbers differ in `low` only. -/
structure SameHeld (s t : State) : Prop where
  bytes : ∀ a, t.byteAt a = s.byteAt a
  pos : t.rc.pos = s.rc.pos
  started : t.rc.started = s.rc.started
  cache : t.rc.cache = s.rc.cache
  ffrun : t.rc.ffrun = s.rc.ffrun

theorem SameHeld.codeNumber_add {s t : State} {d : Nat} (h : SameHeld s t) (hlow : t.rc.low.toNat = s.rc.low.toNat + d) :
    codeNumber t = codeNumber s + d := by
  obtain ⟨hbytes, hpos, hstarted, hcache, hffrun⟩ := h
  have hpending (w : Nat) : pending w t.rc = pending w s.rc := by rw [pending, pending, hstarted, hcache, hffrun]
  rw [codeNumber_eq, codeNumber_eq, streamNumber_congr fun i _ => hbytes _, hpending, hpos, hlow]
  omega

theorem SameHeld.codeNumber_eq {s t : State} (h : SameHeld s t) (hlow : t.rc.low = s.rc.low) :
    codeNumber t = codeNumber s := by
  have hadd := h.codeNumber_add (d := 0) (by rw [hlow, Nat.add_zero])
  rwa [Nat.add_zero] at hadd

theorem codeNumber_ended (s : State) : codeNumber (ended s) = codeNumber s :=
  SameHeld.codeNumber_eq ⟨fun _ => rfl, rfl, rfl, rfl, rfl⟩ rfl

/-- A carry is pending only where the cache byte can take it (R317 (c)). -/
def CarryFits (c : Coder) : Prop := 2 ^ 32 ≤ c.low.toNat → c.started = true ∧ c.cache ≠ 0xFF#8

/-- R308: what is released is what was pending, with the carry. -/
theorem foldl_released {c : Coder} (h : CarryFits c) (written : Nat) :
    (released c).foldl appendByte written = pending written c + c.low.toNat / 2 ^ 32 := by
  have hlow := c.low.isLt
  have hpos : 0 < 256 ^ c.ffrun.toNat := Nat.pow_pos (by decide)
  rw [released, List.foldl_append]
  by_cases hcarry : 2 ^ 32 ≤ c.low.toNat
  · obtain ⟨hstarted, hcache⟩ := h hcarry
    have hone : c.low.toNat / 2 ^ 32 = 1 := by omega
    have hcarryOf : carryOf c = 1#8 := by rw [carryOf_eq, pushCarry, hone]
    have hsum : (c.cache + 1#8).toNat = c.cache.toNat + 1 := by
      have hne : c.cache.toNat ≠ 255 := fun h => hcache (BitVec.eq_of_toNat_eq h)
      have := c.cache.isLt
      rw [BitVec.toNat_add, show (1#8).toNat = 1 from rfl]
      omega
    rw [hone, hcarryOf, hstarted, if_pos rfl, show 0xFF#8 + 1#8 = 0#8 from rfl, foldl_appendByte_zeros, pending, hstarted,
      if_pos rfl, List.foldl_cons, List.foldl_nil, appendByte, hsum, ← Nat.add_assoc, Nat.add_mul]
    omega
  · have hzero : c.low.toNat / 2 ^ 32 = 0 := by omega
    have hcarryOf : carryOf c = 0#8 := by rw [carryOf_eq, pushCarry, hzero]
    rw [hzero, hcarryOf, BitVec.add_zero, BitVec.add_zero, foldl_appendByte_ones, pending]
    cases c.started <;> rfl

/-- R308: the number that a coder stands at, given the bytes written, is multiplied by 256 by a push. -/
theorem pending_pushTurn (f : Word → Word) {c : Coder} (h : CarryFits c) (hrun : c.ffrun.toNat + 1 < 2 ^ 32)
    (written : Nat) :
    pending ((pushBytes c).foldl appendByte written) (pushTurn f c) * 2 ^ 32 + (pushTurn f c).low.toNat
      = (pending written c * 2 ^ 32 + c.low.toNat) * 256 := by
  have hlow := c.low.isLt
  rw [low_pushTurn, shiftedLow_toNat]
  by_cases hdefer : c.low.toNat / 2 ^ 24 = 0xFF
  · have hpending : pending written (pushTurn f c) = pending written c * 256 + 255 := by
      have hpos : 0 < 256 ^ c.ffrun.toNat := Nat.pow_pos (by decide)
      simp only [pushTurn, pushed_of_defer hdefer, pending, toNat_add_one hrun, pow_succ, Nat.add_mul, ← Nat.mul_assoc]
      omega
    rw [pushBytes_of_defer hdefer, List.foldl_nil, hpending]
    omega
  · have hpending (w : Nat) : pending w (pushTurn f c) = w * 256 + c.low.toNat / 2 ^ 24 % 256 := by
      simp [pushTurn, pushed_of_release hdefer, pending]
    rw [pushBytes_of_release hdefer, hpending, foldl_released h]
    omega

/-- The bytes held back. -/
def Coder.heldBack (c : Coder) : Nat := c.started.toNat + c.ffrun.toNat

theorem heldBytes_eq (c : Coder) : heldBytes c = c.pos.toNat + c.heldBack := Nat.add_assoc _ _ _

/-- R308: a push takes one byte in. -/
theorem heldBack_pushTurn (f : Word → Word) {c : Coder} (hrun : c.ffrun.toNat + 1 < 2 ^ 32) :
    (pushBytes c).length + (pushTurn f c).heldBack = c.heldBack + 1 := by
  by_cases hdefer : c.low.toNat / 2 ^ 24 = 0xFF
  · simp only [pushBytes_of_defer hdefer, pushTurn, pushed_of_defer hdefer, Coder.heldBack, toNat_add_one hrun,
      List.length_nil]
    omega
  · simp [pushBytes_of_release hdefer, pushTurn, pushed_of_release hdefer, Coder.heldBack, length_released]

theorem ffrun_pushTurn_le (f : Word → Word) {c : Coder} (hrun : c.ffrun.toNat + 1 < 2 ^ 32) :
    (pushTurn f c).ffrun.toNat ≤ c.ffrun.toNat + 1 := by
  by_cases hdefer : c.low.toNat / 2 ^ 24 = 0xFF
  · simp only [pushTurn, pushed_of_defer hdefer, toNat_add_one hrun, Nat.le_refl]
  · simp [pushTurn, pushed_of_release hdefer]

theorem heldBack_turns (f : Word → Word) {n : Nat} {c : Coder} (hrun : c.ffrun.toNat + n < 2 ^ 32) :
    (outBytes (pushTurn f) n c).length + (turns (pushTurn f) n c).heldBack = c.heldBack + n := by
  induction n generalizing c with
  | zero => exact Nat.zero_add _
  | succ n ih =>
    have hfirst := heldBack_pushTurn f (c := c) (by omega)
    have hle := ffrun_pushTurn_le f (c := c) (by omega)
    have hrest := ih (c := pushTurn f c) (by omega)
    rw [outBytes, turns, List.length_append]
    omega

theorem outBytes_succ (turn : Coder → Coder) (n : Nat) (c : Coder) :
    outBytes turn (n + 1) c = outBytes turn n c ++ pushBytes (turns turn n c) := by
  induction n generalizing c with
  | zero => exact List.append_nil _
  | succ n ih => rw [outBytes, ih, outBytes, List.append_assoc, turns]

theorem carryFits_of_low_lt {c : Coder} (h : c.low.toNat < 2 ^ 32) : CarryFits c := fun hle => absurd hle (by omega)

/-- Pushes take no carry away and lose no deferred byte. -/
theorem pending_turns (f : Word → Word) {n : Nat} {c : Coder} (h : CarryFits c) (hrun : c.ffrun.toNat + n < 2 ^ 32)
    (written : Nat) :
    pending ((outBytes (pushTurn f) n c).foldl appendByte written) (turns (pushTurn f) n c) * 2 ^ 32
        + (turns (pushTurn f) n c).low.toNat
      = (pending written c * 2 ^ 32 + c.low.toNat) * 256 ^ n := by
  induction n generalizing c written with
  | zero => simp [outBytes, turns]
  | succ n ih =>
    have hle := ffrun_pushTurn_le f (c := c) (by omega)
    rw [outBytes, turns, List.foldl_append, ih (carryFits_of_low_lt (low_pushTurn_lt f c)) (by omega),
      pending_pushTurn f h (by omega), pow_succ' 256 n, Nat.mul_assoc]

theorem Advances.streamNumber {s u : State} {bs : List Byte} {c : Coder} (h : Advances s bs c u) :
    streamNumber u u.rc.pos.toNat = bs.foldl appendByte (streamNumber s s.rc.pos.toNat) :=
  (streamNumber_of_appends h).trans (congrArg (bs.foldl appendByte) (streamNumber_congr fun _ _ => rfl))

/-- R308: `n` pushes that find room multiply the encoder's number by `256 ^ n` and take in `n` bytes. -/
theorem Advances.codeNumber {s u : State} {n : Nat} {f : Word → Word}
    (h : Advances s (outBytes (pushTurn f) n s.rc) (turns (pushTurn f) n s.rc) u) (hcarry : CarryFits s.rc)
    (hrun : s.rc.ffrun.toNat + n < 2 ^ 32) : codeNumber u = codeNumber s * 256 ^ n := by
  rw [codeNumber_eq, codeNumber_eq, h.streamNumber, ← pending_turns f hcarry hrun, h.rc]
  rfl

theorem Advances.heldBytes {s u : State} {n : Nat} {f : Word → Word}
    (h : Advances s (outBytes (pushTurn f) n s.rc) (turns (pushTurn f) n s.rc) u)
    (hrun : s.rc.ffrun.toNat + n < 2 ^ 32) : heldBytes u.rc = heldBytes s.rc + n := by
  have hback := heldBack_turns f hrun
  have hsame : u.rc.heldBack = (turns (pushTurn f) n s.rc).heldBack := by rw [h.rc]; rfl
  rw [heldBytes_eq, heldBytes_eq, h.pos, hsame]
  omega

/-- Settles O51: a push is a run of one push. -/
theorem shiftLowKeepsTheNumber : Obligations.ShiftLowKeepsTheNumber := by
  intro s t h hrun _ hcarry
  have hone : pushOps id 1 s = .ok t := by rw [pushOps, pushOp_id, h]; rfl
  obtain ⟨-, hadvances⟩ := advances_of_pushOps hone
  refine ⟨hadvances.codeNumber hcarry hrun, hadvances.heldBytes hrun, ?_⟩
  rw [hadvances.rc]
  exact low_pushTurn_lt id s.rc

end Sys2Proof.Machine
end

