-- ==== Sys2Proof/Proofs/EncoderCommands.lean ====
section
/-! The encoder's commands (43_range_coder.md R309 to R311) as runs of pushes: RC_INIT_ENC (O27), RC_ENC (O28) and
RC_FINISH (O29), and what RC_ENC keeps of the coder's bounds (R317). -/

namespace Sys2Proof.Machine

open Sys2Proof.Claims

/-- The coder at the start of a stream (R301, R306, R309). -/
def encStart : Coder :=
  { mode := .enc, started := false, range := 0xFFFFFFFF#32, low := 0#33, code := 0#32, cache := 0#8, ffrun := 0#32,
    total := 256#32, pos := 0#32, sym := 0#8, nsym := 0#32, len := 0#32, counts := List.replicate 256 1#32 }

theorem exec_rcInitEnc (s : State) : exec .rcInitEnc s = .next (ended (s.withRc encStart)) := rfl

/-- Settles O27: every coder register is written, and no condition is tested. -/
theorem rcInitEncStartsAStream : Obligations.RcInitEncStartsAStream := ⟨decode_encode .rcInitEnc, exec_rcInitEnc⟩

/-! ### The interval of a symbol -/

/-- R317 (a): the range's share of one count. -/
theorem le_rdiv {c : Coder} (h : c.ModelOk) (hrange : top ≤ c.range.toNat) : 1024 ≤ c.rdiv := by
  obtain ⟨hlow, hhigh⟩ := h.total_bounds
  rw [top] at hrange
  rw [Coder.rdiv, Nat.le_div_iff_mul_le (by omega)]
  omega

/-- The range's share of a symbol (R310, R314). -/
def Coder.share (sym : Nat) (c : Coder) : Nat := (c.counts.getD sym 0#32).toNat * c.rdiv

section
variable {c : Coder} (h : c.ModelOk) (hrange : top ≤ c.range.toNat) {sym : Nat} (hsym : sym < 256)
include h hsym

/-- R317 (b): the interval of a symbol lies in the range. -/
theorem interval_le_range : cum c.counts sym * c.rdiv + c.share sym ≤ c.range.toNat :=
  calc cum c.counts sym * c.rdiv + c.share sym
    _ = (cum c.counts sym + (c.counts.getD sym 0#32).toNat) * c.rdiv := (Nat.add_mul _ _ _).symm
    _ ≤ c.total.toNat * c.rdiv := Nat.mul_le_mul_right _ (h.interval_le hsym)
    _ ≤ c.range.toNat := Nat.mul_div_le _ _

theorem toNat_narrowed : (c.narrowed sym).toNat = c.share sym := by
  have hle := interval_le_range h hsym
  have hlt := c.range.isLt
  exact Nat.mod_eq_of_lt (by rw [Coder.share] at hle; rw [Coder.count]; omega)

include hrange

theorem le_share : 1024 ≤ c.share sym :=
  (le_rdiv h hrange).trans (Nat.le_mul_of_pos_left _ (h.one_le_count hsym))

theorem narrowed_ne_zero : c.narrowed sym ≠ 0#32 := by
  intro hzero
  have hle := le_share h hrange hsym
  rw [← toNat_narrowed h hsym, hzero] at hle
  exact absurd hle (by decide)

end

/-! ### The number of turns of a renormalisation -/

/-- A renormalisation of a range of `r` takes `n` turns. -/
def RenormTurns (r n : Nat) : Prop := 2 ^ 24 ≤ r * 256 ^ n ∧ (n ≠ 0 → r * 256 ^ (n - 1) < 2 ^ 24)

namespace RenormTurns

theorem exists_of_le {r : Nat} (h : 1024 ≤ r) : ∃ n, RenormTurns r n := by
  by_cases h0 : 2 ^ 24 ≤ r
  · exact ⟨0, by simpa using h0, fun h => absurd rfl h⟩
  · by_cases h1 : 2 ^ 16 ≤ r
    · exact ⟨1, by omega, fun _ => by simp; omega⟩
    · exact ⟨2, by omega, fun _ => by simp; omega⟩

/-- R317: a symbol's share of an open stream's range takes at most two turns. -/
theorem le_two {r n : Nat} (h : RenormTurns r n) (hr : 1024 ≤ r) : n ≤ 2 := by
  obtain ⟨-, hgo⟩ := h
  by_contra hn
  have hpow : 256 ^ 2 ≤ 256 ^ (n - 1) := Nat.pow_le_pow_right (by decide) (by omega)
  have := Nat.mul_le_mul hr hpow
  have := hgo (by omega)
  omega

theorem le_of_zero {r : Nat} (h : RenormTurns r 0) : 2 ^ 24 ≤ r := by simpa using h.1

/-- Before its last turn the range is below TOP. -/
theorem lt_of_lt {r n k : Nat} (h : RenormTurns r n) (hk : k < n) : r * 256 ^ k < 2 ^ 24 := by
  have hpow : 256 ^ k ≤ 256 ^ (n - 1) := Nat.pow_le_pow_right (by decide) (by omega)
  exact lt_of_le_of_lt (Nat.mul_le_mul_left r hpow) (h.2 (by omega))

/-- A renormalised range is a word. -/
theorem mul_lt {r n : Nat} (h : RenormTurns r n) (hr : r < 2 ^ 32) : r * 256 ^ n < 2 ^ 32 := by
  cases n with
  | zero => simpa using hr
  | succ n =>
    have hgo := h.2 (Nat.succ_ne_zero n)
    rw [Nat.add_sub_cancel] at hgo
    rw [pow_succ, ← Nat.mul_assoc]
    omega

theorem lt_of_succ {r n : Nat} (h : RenormTurns r (n + 1)) : r < 2 ^ 24 := by
  simpa using h.lt_of_lt (Nat.succ_pos n)

theorem of_succ {r n : Nat} (h : RenormTurns r (n + 1)) : RenormTurns (r * 256) n := by
  obtain ⟨hstop, hgo⟩ := h
  rw [pow_succ' 256 n, ← Nat.mul_assoc] at hstop
  refine ⟨hstop, fun hn => ?_⟩
  obtain ⟨m, rfl⟩ := Nat.exists_eq_succ_of_ne_zero hn
  have := hgo (Nat.succ_ne_zero _)
  simpa [Nat.mul_assoc, pow_succ'] using this

end RenormTurns

theorem toNat_shiftLeft_eight {w : Word} (h : w.toNat < 2 ^ 24) : (w <<< 8).toNat = w.toNat * 256 := by
  rw [BitVec.toNat_shiftLeft, Nat.shiftLeft_eq]
  omega

/-! ### The renormalisation of the encoder -/

theorem range_pushTurn (f : Word → Word) (c : Coder) : (pushTurn f c).range = f c.range := rfl

theorem range_turns_shift {n : Nat} {c : Coder} (h : RenormTurns c.range.toNat n) :
    (turns (pushTurn shiftRange) n c).range.toNat = c.range.toNat * 256 ^ n := by
  induction n generalizing c with
  | zero => exact (Nat.mul_one _).symm
  | succ n ih =>
    have hshift : (pushTurn shiftRange c).range.toNat = c.range.toNat * 256 := toNat_shiftLeft_eight h.lt_of_succ
    rw [turns, ih (by rw [hshift]; exact h.of_succ), hshift, pow_succ', Nat.mul_assoc]

theorem renormEnc_of_lt {s : State} (h : s.rc.range.toNat < 2 ^ 24) (m : Nat) :
    renormEnc (m + 1) s = (pushOp shiftRange s).andThen (renormEnc m) := by
  rw [renormEnc, top, if_pos h, pushOp]
  cases shiftLow s <;> rfl

/-- The loop of R310 is a run of as many pushes as the range needs. -/
theorem renormEnc_eq {m n : Nat} {s : State} (h : RenormTurns s.rc.range.toNat n) (hle : n ≤ m) :
    renormEnc m s = pushOps shiftRange n s := by
  induction n generalizing m s with
  | zero =>
    cases m with
    | zero => rfl
    | succ m => rw [renormEnc, top, if_neg (Nat.not_lt.2 h.le_of_zero), pushOps]
  | succ n ih =>
    obtain ⟨m, rfl⟩ := Nat.exists_eq_succ_of_ne_zero (show m ≠ 0 by omega)
    rw [Nat.succ_eq_add_one, renormEnc_of_lt h.lt_of_succ, pushOps]
    rcases pushOp_cases shiftRange s with ⟨-, t, ht, hadvances⟩ | ⟨-, t, ht, -⟩
    · have hrange : t.rc.range.toNat = s.rc.range.toNat * 256 := by
        rw [hadvances.rc]
        exact toNat_shiftLeft_eight h.lt_of_succ
      rw [ht, andThen_ok, andThen_ok, ih (by rw [hrange]; exact h.of_succ) (by omega)]
    · rw [ht, andThen_failed, andThen_failed]

/-! ### The carry bounds -/

theorem Coder.CarryOk.carryFits {c : Coder} (h : c.CarryOk) (hrange : 0 < c.range.toNat) : CarryFits c := by
  obtain ⟨-, hfull⟩ := h
  intro hle
  constructor
  · by_contra hstarted
    have := hfull (.inl (Bool.not_eq_true _ ▸ hstarted))
    omega
  · intro hcache
    have := hfull (.inr hcache)
    omega

/-- R317 (b): `low` does not wrap when it moves up to the symbol's interval. -/
theorem toNat_low_encInterval {c : Coder} (hm : c.ModelOk) (hc : c.CarryOk) (hrange : top ≤ c.range.toNat) {sym : Nat}
    (hsym : sym < 256) : (c.encInterval sym).low.toNat = c.low.toNat + cum c.counts sym * c.rdiv := by
  obtain ⟨hend, -⟩ := hc
  have hle := interval_le_range hm hsym
  have hshare := le_share hm hrange hsym
  exact Nat.mod_eq_of_lt (by omega)

/-- R317 (b), (c): the interval of a symbol ends where the range did, or before. -/
theorem Coder.CarryOk.encInterval {c : Coder} (hc : c.CarryOk) (hm : c.ModelOk) (hrange : top ≤ c.range.toNat) {sym : Nat}
    (hsym : sym < 256) : (c.encInterval sym).CarryOk := by
  have hlow := toNat_low_encInterval hm hc hrange hsym
  have hnarrow : (c.encInterval sym).range.toNat = c.share sym := toNat_narrowed hm hsym
  have hle := interval_le_range hm hsym
  obtain ⟨hend, hfull⟩ := hc
  rw [Coder.CarryOk, hlow, hnarrow]
  refine ⟨by omega, fun h => ?_⟩
  have := hfull h
  omega

/-- R317 (c): after a turn only a next byte of 0xFF with a carry leaves a cache byte that can take none, and then the
interval has passed 2^33 - 2^24. -/
theorem Coder.CarryOk.pushTurn {c : Coder} (hc : c.CarryOk) (hrange : c.range.toNat < 2 ^ 24) :
    (pushTurn shiftRange c).CarryOk := by
  obtain ⟨hend, hfull⟩ := hc
  have hlow : (Machine.pushTurn shiftRange c).low.toNat = c.low.toNat % 2 ^ 24 * 256 := by
    rw [low_pushTurn, shiftedLow_toNat]
  have hshift : (Machine.pushTurn shiftRange c).range.toNat = c.range.toNat * 256 := toNat_shiftLeft_eight hrange
  rw [Coder.CarryOk, hlow, hshift]
  refine ⟨by omega, ?_⟩
  by_cases hdefer : c.low.toNat / 2 ^ 24 = 0xFF
  · simp only [Machine.pushTurn, pushed_of_defer hdefer]
    intro h
    have := hfull h
    omega
  · simp only [Machine.pushTurn, pushed_of_release hdefer]
    rintro (h | h)
    · exact absurd h (by decide)
    · have hbyte : c.low.toNat / 2 ^ 24 % 256 = 255 := congrArg BitVec.toNat h
      have := c.low.isLt
      omega

theorem Coder.CarryOk.turns {n : Nat} {c : Coder} (hc : c.CarryOk) (h : RenormTurns c.range.toNat n) :
    (turns (Machine.pushTurn shiftRange) n c).CarryOk := by
  induction n generalizing c with
  | zero => exact hc
  | succ n ih =>
    refine ih (hc.pushTurn h.lt_of_succ) ?_
    rw [range_pushTurn, toNat_shiftLeft_eight h.lt_of_succ]
    exact h.of_succ

@[simp] theorem ended_rc (s : State) : (ended s).rc = s.rc := rfl

@[simp] theorem endedWith_rc (code : ErrCode) (s : State) : (endedWith code s).rc = s.rc := rfl

/-! ### RC_ENC -/

/-- What RC_ENC and RC_DEC leave of the model (R304): the update is that of the coder before. -/
theorem counted_of_eq {c d : Coder} (sym : Nat) (hcounts : d.counts = c.counts) (htotal : d.total = c.total)
    (hnsym : d.nsym = c.nsym) :
    d.counted sym =
      { d with counts := (c.update sym).counts, total := (c.update sym).total, nsym := c.nsym + 1#32 } := by
  obtain ⟨h1, h2⟩ := update_congr sym hcounts htotal
  rw [counted_eq, h1, h2, hnsym]

/-- The coder after RC_ENC of `sym` with `n` turns, but for RC_POS. -/
def Coder.encoded (sym n : Nat) (c : Coder) : Coder :=
  { turns (pushTurn shiftRange) n (c.encInterval sym) with
    counts := (c.update sym).counts
    total := (c.update sym).total
    nsym := c.nsym + 1#32 }

theorem counted_turns (sym n : Nat) (c : Coder) (p : Word) :
    ((turns (pushTurn shiftRange) n (c.encInterval sym)).atPos p).counted sym = (c.encoded sym n).atPos p := by
  rw [Coder.encoded, turns_pushTurn_fields]
  exact counted_of_eq sym rfl rfl rfl

/-- An open encoder between commands. -/
structure Coder.EncOk (c : Coder) : Prop where
  mode : c.mode = .enc
  model : c.ModelOk
  range : top ≤ c.range.toNat
  carry : c.CarryOk

theorem Coder.ModelOk.of_eq {c d : Coder} (h : c.ModelOk) (hcounts : d.counts = c.counts) (htotal : d.total = c.total) :
    d.ModelOk := by
  rw [Coder.ModelOk, hcounts, htotal]
  exact h

theorem encOk_encStart : encStart.EncOk :=
  ⟨rfl, modelOk_reset.of_eq rfl rfl, by decide, by decide, fun _ => by decide⟩

theorem Coder.Ok.encOk {c : Coder} (h : c.Ok) (hmode : c.mode = .enc) : c.EncOk := by
  obtain ⟨hmodel, hrange, hcarry⟩ := h
  exact ⟨hmode, hmodel, hrange (.inl hmode), hcarry hmode⟩

theorem Coder.EncOk.carryFits {c : Coder} (h : c.EncOk) : CarryFits c := by
  have hrange := h.range
  rw [top] at hrange
  exact h.carry.carryFits (by omega)

theorem exec_rcEnc_of_ne {s : State} (h : s.rc.mode ≠ .enc) (sym : Byte) :
    exec (.rcEnc sym) s = .next (endedWith .mode s) := by
  rw [exec, execRcEnc, if_pos h, finish_failed]

section
variable {s : State} (h : s.rc.EncOk) {sym : Byte} {n : Nat} (hn : RenormTurns (s.rc.share sym.toNat) n)
include h hn

theorem exec_rcEnc :
    exec (.rcEnc sym) s =
      ((pushOps shiftRange n (s.withRc (s.rc.encInterval sym.toNat))).andThen fun t =>
        .ok (t.withRc (t.rc.counted sym.toNat))).finish := by
  have hsym := sym.isLt
  have hshare := le_share h.model h.range hsym
  have hnarrow : (s.rc.encInterval sym.toNat).range.toNat = s.rc.share sym.toNat := toNat_narrowed h.model hsym
  have hturns : RenormTurns (s.withRc (s.rc.encInterval sym.toNat)).rc.range.toNat n := by rw [withRc_rc, hnarrow]; exact hn
  rw [exec, execRcEnc, if_neg (not_not_intro h.mode), if_neg (narrowed_ne_zero h.model h.range hsym), encodeSymbol,
    renormEnc_eq hturns ((hn.le_two hshare).trans (by decide))]

/-- RC_ENC with room for all its bytes. -/
theorem exec_rcEnc_of_fits (hfits : Fits s (outBytes (pushTurn shiftRange) n (s.rc.encInterval sym.toNat))) :
    ∃ u, exec (.rcEnc sym) s = .next (ended u)
      ∧ Advances s (outBytes (pushTurn shiftRange) n (s.rc.encInterval sym.toNat)) (s.rc.encoded sym.toNat n) u := by
  obtain ⟨u, hu, hadvances⟩ := pushOps_of_fits shiftRange n (s := s.withRc (s.rc.encInterval sym.toNat)) hfits
  refine ⟨u.withRc (u.rc.counted sym.toNat), by rw [exec_rcEnc h hn, hu, andThen_ok, finish_ok], ?_⟩
  have hrc : u.rc.counted sym.toNat = (s.rc.encoded sym.toNat n).atPos u.rc.pos := by
    rw [hadvances.rc]
    exact counted_turns _ _ _ _
  rw [hrc]
  exact hadvances.withRc _

/-- RC_ENC that finds STREAM full at turn `j + 1`. -/
theorem exec_rcEnc_of_full {j : Nat} (hj : j < n)
    (hfits : Fits s (outBytes (pushTurn shiftRange) j (s.rc.encInterval sym.toNat)))
    (hfull : ¬Fits s (outBytes (pushTurn shiftRange) (j + 1) (s.rc.encInterval sym.toNat))) :
    ∃ u, exec (.rcEnc sym) s = .next (endedWith .ovf u)
      ∧ Overruns s (outBytes (pushTurn shiftRange) (j + 1) (s.rc.encInterval sym.toNat))
          (turns (pushTurn shiftRange) j (s.rc.encInterval sym.toNat)) u := by
  obtain ⟨u, hu, hoverruns⟩ := pushOps_of_full shiftRange hj (s := s.withRc (s.rc.encInterval sym.toNat)) hfits hfull
  exact ⟨u, by rw [exec_rcEnc h hn, hu, andThen_failed, finish_failed], hoverruns⟩

/-- RC_ENC completes, or it stops with OVF. -/
theorem exec_rcEnc_cases :
    (∃ u, exec (.rcEnc sym) s = .next (ended u)
        ∧ Advances s (outBytes (pushTurn shiftRange) n (s.rc.encInterval sym.toNat)) (s.rc.encoded sym.toNat n) u)
      ∨ ∃ j u, exec (.rcEnc sym) s = .next (endedWith .ovf u)
          ∧ Overruns s (outBytes (pushTurn shiftRange) (j + 1) (s.rc.encInterval sym.toNat))
              (turns (pushTurn shiftRange) j (s.rc.encInterval sym.toNat)) u := by
  rcases pushOps_cases shiftRange n (s.withRc (s.rc.encInterval sym.toNat)) with ⟨hfits, -⟩ | ⟨j, hj, hfits, hfull, -⟩
  · exact .inl (exec_rcEnc_of_fits h hn hfits)
  · exact .inr ⟨j, exec_rcEnc_of_full h hn hj hfits hfull⟩

/-- The coder of an RC_ENC that completed, by its fields. -/
theorem range_encoded : (s.rc.encoded sym.toNat n).range.toNat = s.rc.share sym.toNat * 256 ^ n := by
  have hnarrow : (s.rc.encInterval sym.toNat).range.toNat = s.rc.share sym.toNat := toNat_narrowed h.model sym.isLt
  rw [← hnarrow]
  exact range_turns_shift (by rw [hnarrow]; exact hn)

/-- R304, R317: RC_ENC keeps the coder's bounds. -/
theorem encOk_encoded : (s.rc.encoded sym.toNat n).EncOk := by
  have hcarry := h.carry.encInterval h.model h.range sym.isLt
  have hnarrow : (s.rc.encInterval sym.toNat).range.toNat = s.rc.share sym.toNat := toNat_narrowed h.model sym.isLt
  refine ⟨?_, h.model.update sym.isLt, ?_, hcarry.turns (by rw [hnarrow]; exact hn)⟩
  · rw [Coder.encoded, turns_pushTurn_fields]
    exact h.mode
  · rw [range_encoded h hn, top]
    exact hn.1

section
variable {u : State}
  (hadvances : Advances s (outBytes (pushTurn shiftRange) n (s.rc.encInterval sym.toNat)) (s.rc.encoded sym.toNat n) u)
  (hrun : s.rc.ffrun.toNat + 2 < 2 ^ 32)
include hadvances hrun

/-- R310: the number moves up by the symbol's place, and is shifted by the turns. -/
theorem codeNumber_encoded :
    codeNumber u = (codeNumber s + cum s.rc.counts sym.toNat * s.rc.rdiv) * 256 ^ n := by
  have hle := hn.le_two (le_share h.model h.range sym.isLt)
  have hcarry : CarryFits (s.rc.encInterval sym.toNat) := by
    refine (h.carry.encInterval h.model h.range sym.isLt).carryFits ?_
    have hshare := le_share h.model h.range sym.isLt
    rw [← toNat_narrowed h.model sym.isLt] at hshare
    exact Nat.lt_of_lt_of_le (by decide) hshare
  have hturns : Advances (s.withRc (s.rc.encInterval sym.toNat)) _ _ _ :=
    hadvances.withRc (turns (pushTurn shiftRange) n (s.rc.encInterval sym.toNat))
  have hsame : codeNumber (u.withRc ((turns (pushTurn shiftRange) n (s.rc.encInterval sym.toNat)).atPos u.rc.pos))
      = codeNumber u := by
    have hrc := hadvances.rc
    refine SameHeld.codeNumber_eq ⟨fun _ => rfl, rfl, ?_, ?_, ?_⟩ ?_
    all_goals rw [hrc]; rfl
  have hmoved : codeNumber (s.withRc (s.rc.encInterval sym.toNat))
      = codeNumber s + cum s.rc.counts sym.toNat * s.rc.rdiv :=
    SameHeld.codeNumber_add ⟨fun _ => rfl, rfl, rfl, rfl, rfl⟩ (toNat_low_encInterval h.model h.carry h.range sym.isLt)
  rw [← hsame, hturns.codeNumber hcarry (show s.rc.ffrun.toNat + n < 2 ^ 32 by omega), hmoved]

theorem heldBytes_encoded : heldBytes u.rc = heldBytes s.rc + n := by
  have hle := hn.le_two (le_share h.model h.range sym.isLt)
  have hturns : Advances (s.withRc (s.rc.encInterval sym.toNat)) _ _ _ :=
    hadvances.withRc (turns (pushTurn shiftRange) n (s.rc.encInterval sym.toNat))
  have hheld := hturns.heldBytes (show s.rc.ffrun.toNat + n < 2 ^ 32 by omega)
  rw [hadvances.rc]
  exact hheld

end

/-- RC_ENC releases no more than the cache byte, the deferred bytes and one more for each further turn. -/
theorem length_outBytes_encInterval (hrun : s.rc.ffrun.toNat + 2 < 2 ^ 32) :
    (outBytes (pushTurn shiftRange) n (s.rc.encInterval sym.toNat)).length ≤ s.rc.ffrun.toNat + 3 := by
  have hle := hn.le_two (le_share h.model h.range sym.isLt)
  have hback := heldBack_turns shiftRange (n := n) (c := s.rc.encInterval sym.toNat)
    (show s.rc.ffrun.toNat + n < 2 ^ 32 by omega)
  have hstart : (s.rc.encInterval sym.toNat).heldBack = s.rc.started.toNat + s.rc.ffrun.toNat := rfl
  have hbit := Bool.toNat_le s.rc.started
  omega

end

/-- O28, first part: RC_ENC with room for every byte it may release. -/
theorem rcEnc_of_room {s : State} (h : s.rc.EncOk) {sym : Byte} {n : Nat} (hn : RenormTurns (s.rc.share sym.toNat) n)
    (hroom : s.rc.pos.toNat + s.rc.ffrun.toNat + 3 ≤ s.caps.toNat) :
    ∃ t, exec (.rcEnc sym) s = .next t ∧ t = { ended s with rc := t.rc, mem := t.mem }
      ∧ t.rc.range.toNat = s.rc.share sym.toNat * 256 ^ n
      ∧ codeNumber t = (codeNumber s + cum s.rc.counts sym.toNat * s.rc.rdiv) * 256 ^ n
      ∧ heldBytes t.rc = heldBytes s.rc + n
      ∧ t.rc.counts = (s.rc.update sym.toNat).counts ∧ t.rc.total = (s.rc.update sym.toNat).total
      ∧ t.rc.nsym = s.rc.nsym + 1#32 ∧ t.rc.mode = .enc ∧ t.rc.code = s.rc.code ∧ t.rc.sym = s.rc.sym
      ∧ t.rc.len = s.rc.len ∧ s.rc.pos.toNat ≤ t.rc.pos.toNat
      ∧ ∀ a, a < 0x100000 + s.rc.pos.toNat ∨ 0x100000 + t.rc.pos.toNat ≤ a → t.byteAt a = s.byteAt a := by
  have hrun : s.rc.ffrun.toNat + 2 < 2 ^ 32 := by have := s.caps.isLt; omega
  have hlength := length_outBytes_encInterval h hn hrun
  have hfits : Fits s (outBytes (pushTurn shiftRange) n (s.rc.encInterval sym.toNat)) := .inr (by omega)
  obtain ⟨u, hu, hadvances⟩ := exec_rcEnc_of_fits h hn hfits
  have hrc : (ended u).rc = (s.rc.encoded sym.toNat n).atPos u.rc.pos := hadvances.rc
  have hpos := hadvances.pos
  have hheld : heldBytes (ended u).rc = heldBytes s.rc + n := heldBytes_encoded (u := u) h hn hadvances hrun
  obtain ⟨-, houtside⟩ := hadvances.emits_of_fits hfits
  have hle : s.rc.pos.toNat ≤ u.rc.pos.toNat := by omega
  have hbytes (a : Nat) (ha : a < 0x100000 + s.rc.pos.toNat ∨ 0x100000 + u.rc.pos.toNat ≤ a) :
      (ended u).byteAt a = s.byteAt a := houtside a (by omega)
  refine ⟨ended u, hu, ?_, ?_, (codeNumber_ended u).trans (codeNumber_encoded h hn hadvances hrun), hheld, ?_⟩
  · rw [hadvances.eq]
    rfl
  · rw [hrc]
    exact range_encoded h hn
  · rw [hrc, Coder.encoded, turns_pushTurn_fields]
    exact ⟨rfl, rfl, rfl, h.mode, rfl, rfl, rfl, hle, hbytes⟩

/-- O28, second part: RC_ENC turn by turn. -/
theorem rcEnc_turn_by_turn {s : State} (h : s.rc.EncOk) {sym : Byte} {n : Nat} (hn : RenormTurns (s.rc.share sym.toNat) n)
    {c : Coder} (hc : c = s.rc.encInterval sym.toNat) :
    (s.rc.pos.toNat + (outBytes renormTurn n c).length ≤ s.caps.toNat →
      ∃ t : State, exec (.rcEnc sym) s = .next t
        ∧ t = { ended s with
          mem := t.mem
          rc := { turns renormTurn n c with
            pos := BitVec.ofNat 32 (s.rc.pos.toNat + (outBytes renormTurn n c).length)
            counts := (s.rc.update sym.toNat).counts
            total := (s.rc.update sym.toNat).total
            nsym := s.rc.nsym + 1#32 } }
        ∧ Emits s t (outBytes renormTurn n c))
    ∧ ∀ j, j < n → s.rc.pos.toNat + (outBytes renormTurn j c).length ≤ s.caps.toNat →
      s.caps.toNat < s.rc.pos.toNat + (outBytes renormTurn (j + 1) c).length →
      ∃ t : State, exec (.rcEnc sym) s = .next t
        ∧ t = { endedWith .ovf s with mem := t.mem, rc := overrun (turns renormTurn j c) }
        ∧ Emits s t (outBytes renormTurn (j + 1) c) := by
  subst hc
  rw [renormTurn_eq]
  refine ⟨fun hroom => ?_, fun j hj hroom hfull => ?_⟩
  · obtain ⟨u, hu, hadvances⟩ := exec_rcEnc_of_fits h hn (.inr hroom)
    refine ⟨ended u, hu, ?_, hadvances.emits_of_fits (.inr hroom)⟩
    conv_lhs => rw [hadvances.eq, hadvances.rc_eq]
    rfl
  · obtain ⟨u, hu, hoverruns⟩ := exec_rcEnc_of_full h hn hj (.inr hroom) (not_fits_of_lt (by omega) hfull)
    refine ⟨endedWith .ovf u, hu, ?_, hoverruns.emits⟩
    conv_lhs => rw [hoverruns.eq]
    rfl

/-- Settles O28: the two parts, and the wrong mode. -/
theorem rcEncTakesTheSymbolsInterval : Obligations.RcEncTakesTheSymbolsInterval := by
  intro s sym
  refine ⟨decode_encode (.rcEnc sym), fun hmode hok hroom => ?_, fun hmode hok => ?_,
    fun hmode => exec_rcEnc_of_ne hmode sym⟩
  · have h := hok.encOk hmode
    have hshare := le_share h.model h.range sym.isLt
    obtain ⟨n, hn⟩ := RenormTurns.exists_of_le hshare
    obtain ⟨t, ht, heq, hrange, hrest⟩ := rcEnc_of_room h hn hroom
    obtain ⟨hstop, hgo⟩ := id hn
    exact ⟨t, n, s.rc.rdiv, s.rc.share sym.toNat, ht, rfl, rfl, heq, hrange, hstop, (hn.le_two hshare).trans (by decide),
      hgo, hrest⟩
  · rintro _ _ n _ rfl rfl hc hstop hgo
    exact rcEnc_turn_by_turn (hok.encOk hmode) ⟨hstop, hgo⟩ hc

/-! ### RC_FINISH -/

theorem exec_rcFinish_of_ne {s : State} (h : s.rc.mode ≠ .enc) : exec .rcFinish s = .next (endedWith .mode s) := by
  rw [exec, execRcFinish, if_pos h, finish_failed]

theorem exec_rcFinish {s : State} (h : s.rc.mode = .enc) :
    exec .rcFinish s =
      ((pushOps id 5 s).andThen fun t => .ok (t.withRc { t.rc with len := t.rc.pos, mode := .fin })).finish := by
  rw [exec, execRcFinish, if_neg (not_not_intro h), shiftLowTimes_eq]

/-- The coder after RC_FINISH, given RC_POS. -/
def Coder.finished (c : Coder) (p : Word) : Coder := { turns (pushTurn id) 5 c with mode := .fin, pos := p, len := p }

theorem exec_rcFinish_of_fits {s : State} (h : s.rc.mode = .enc) (hfits : Fits s (outBytes (pushTurn id) 5 s.rc)) :
    ∃ u, exec .rcFinish s = .next (ended (u.withRc (s.rc.finished u.rc.pos)))
      ∧ Advances s (outBytes (pushTurn id) 5 s.rc) (turns (pushTurn id) 5 s.rc) u := by
  obtain ⟨u, hu, hadvances⟩ := pushOps_of_fits id 5 hfits
  refine ⟨u, ?_, hadvances⟩
  have hrc : { u.rc with len := u.rc.pos, mode := .fin } = s.rc.finished u.rc.pos := by
    rw [hadvances.rc]
    rfl
  rw [exec_rcFinish h, hu, andThen_ok, finish_ok, hrc]

theorem exec_rcFinish_of_full {s : State} (h : s.rc.mode = .enc) {j : Nat} (hj : j < 5)
    (hfits : Fits s (outBytes (pushTurn id) j s.rc)) (hfull : ¬Fits s (outBytes (pushTurn id) (j + 1) s.rc)) :
    ∃ u, exec .rcFinish s = .next (endedWith .ovf u)
      ∧ Overruns s (outBytes (pushTurn id) (j + 1) s.rc) (turns (pushTurn id) j s.rc) u := by
  obtain ⟨u, hu, hoverruns⟩ := pushOps_of_full id hj hfits hfull
  exact ⟨u, by rw [exec_rcFinish h, hu, andThen_failed, finish_failed], hoverruns⟩

/-- RC_FINISH completes, or it stops with OVF. -/
theorem exec_rcFinish_cases {s : State} (h : s.rc.mode = .enc) :
    (Fits s (outBytes (pushTurn id) 5 s.rc)
        ∧ ∃ u, exec .rcFinish s = .next (ended (u.withRc (s.rc.finished u.rc.pos)))
          ∧ Advances s (outBytes (pushTurn id) 5 s.rc) (turns (pushTurn id) 5 s.rc) u)
      ∨ ∃ j u, exec .rcFinish s = .next (endedWith .ovf u)
          ∧ Overruns s (outBytes (pushTurn id) (j + 1) s.rc) (turns (pushTurn id) j s.rc) u := by
  rcases pushOps_cases id 5 s with ⟨hfits, -⟩ | ⟨j, hj, hfits, hfull, -⟩
  · exact .inl ⟨hfits, exec_rcFinish_of_fits h hfits⟩
  · exact .inr ⟨j, exec_rcFinish_of_full h hj hfits hfull⟩

theorem range_turns_id (n : Nat) (c : Coder) : (turns (pushTurn id) n c).range = c.range := by
  induction n generalizing c with
  | zero => rfl
  | succ n ih => rw [turns, ih, range_pushTurn, id]

/-- Four pushes empty `low`. -/
theorem low_turns_four (f : Word → Word) (c : Coder) : (turns (pushTurn f) 4 c).low = 0#33 := by
  refine BitVec.eq_of_toNat_eq ?_
  simp only [turns, low_pushTurn, shiftedLow_toNat, BitVec.toNat_ofNat]
  omega

/-- R311: five pushes release all but a cache byte of 0. -/
theorem turns_id_five (c : Coder) :
    turns (pushTurn id) 5 c = { c with started := true, low := 0#33, cache := 0#8, ffrun := 0#32 } := by
  have hlow := low_turns_four id c
  have hlast : turns (pushTurn id) 5 c = pushTurn id (turns (pushTurn id) 4 c) := rfl
  have hrelease : (turns (pushTurn id) 4 c).low.toNat / 2 ^ 24 ≠ 0xFF := by rw [hlow]; decide
  rw [hlast, pushTurn, pushed_of_release hrelease, hlow, turns_pushTurn_fields, range_turns_id]
  rfl

/-- R311: the last of five pushes releases all that is held back. -/
theorem outBytes_five (c : Coder) :
    outBytes (pushTurn id) 5 c = outBytes (pushTurn id) 4 c ++ released (turns (pushTurn id) 4 c) := by
  rw [outBytes_succ, pushBytes_of_release (by rw [low_turns_four]; decide)]

section
variable {c : Coder} (hrun : c.ffrun.toNat + 4 < 2 ^ 32)
include hrun

/-- R311: the five pushes release the bytes held back and the four of `low`. -/
theorem length_outBytes_five : (outBytes (pushTurn id) 5 c).length = c.heldBack + 4 := by
  rw [outBytes_five, List.length_append, length_released, ← heldBack_turns id hrun, Coder.heldBack]

/-- R311: the bytes of the five pushes are the encoder's number. -/
theorem foldl_outBytes_five (hcarry : CarryFits c) (written : Nat) :
    (outBytes (pushTurn id) 5 c).foldl appendByte written = pending written c * 2 ^ 32 + c.low.toNat := by
  have hlow : (turns (pushTurn id) 4 c).low.toNat = 0 := by rw [low_turns_four]; rfl
  have hfour := pending_turns id hcarry hrun written
  rw [hlow] at hfour
  rw [outBytes_five, List.foldl_append, foldl_released (carryFits_of_low_lt (by omega)), hlow]
  omega

end

/-- O29, first part: the five pushes leave nothing of the number outside STREAM. -/
theorem rcFinish_of_room {s : State} (h : s.rc.EncOk) (hroom : heldBytes s.rc + 4 ≤ s.caps.toNat) :
    ∃ t : State, exec .rcFinish s = .next t ∧ t = { ended s with rc := t.rc, mem := t.mem }
      ∧ t.rc = { s.rc with
          mode := .fin, started := true, low := 0#33, cache := 0#8, ffrun := 0#32, pos := t.rc.pos, len := t.rc.pos }
      ∧ t.rc.pos.toNat = heldBytes s.rc + 4
      ∧ streamNumber t t.rc.pos.toNat = codeNumber s
      ∧ ∀ a, a < 0x100000 + s.rc.pos.toNat ∨ 0x100000 + t.rc.pos.toNat ≤ a → t.byteAt a = s.byteAt a := by
  have hheld := heldBytes_eq s.rc
  have hrun : s.rc.ffrun.toNat + 4 < 2 ^ 32 := by
    have := s.caps.isLt
    rw [heldBytes] at hroom
    omega
  have hlength := length_outBytes_five hrun
  have hfits : Fits s (outBytes (pushTurn id) 5 s.rc) := .inr (by omega)
  obtain ⟨u, hu, hadvances⟩ := exec_rcFinish_of_fits h.mode hfits
  obtain ⟨-, houtside⟩ := hadvances.emits_of_fits hfits
  have hpos : u.rc.pos.toNat = heldBytes s.rc + 4 := by rw [hadvances.pos]; omega
  refine ⟨_, hu, ?_, ?_, hpos, ?_, fun a ha => houtside a ?_⟩
  · rw [hadvances.eq]
    rfl
  · rw [ended_rc, withRc_rc, Coder.finished, turns_id_five]
  · have hstream : streamNumber (ended (u.withRc (s.rc.finished u.rc.pos))) u.rc.pos.toNat
        = streamNumber u u.rc.pos.toNat := streamNumber_congr fun _ _ => rfl
    rw [codeNumber_eq, ← foldl_outBytes_five hrun h.carryFits, ← hadvances.streamNumber]
    exact hstream
  · replace ha : a < 0x100000 + s.rc.pos.toNat ∨ 0x100000 + u.rc.pos.toNat ≤ a := ha
    omega

/-- O29, second part: the registers after a stop at any push. -/
theorem rcFinish_of_no_room {s : State} (hmode : s.rc.mode = .enc) (hrun : s.rc.ffrun.toNat + 4 < 2 ^ 32)
    (hroom : s.caps.toNat < heldBytes s.rc + 4) :
    ∃ t : State, exec .rcFinish s = .next t ∧ t = { endedWith .ovf s with rc := t.rc, mem := t.mem }
      ∧ t.rc.mode = .idle ∧ t.rc.pos = 0#32 ∧ t.rc.len = 0#32 ∧ t.rc.counts = s.rc.counts
      ∧ t.rc.total = s.rc.total ∧ t.rc.range = s.rc.range ∧ t.rc.nsym = s.rc.nsym
      ∧ ∀ a, a < 0x100000 + s.rc.pos.toNat ∨ 0x100000 + s.caps.toNat ≤ a → t.byteAt a = s.byteAt a := by
  have hheld := heldBytes_eq s.rc
  have hlength := length_outBytes_five hrun
  rcases exec_rcFinish_cases hmode with ⟨hfits, -⟩ | ⟨j, u, hu, hoverruns⟩
  · refine absurd hfits (not_fits_iff.2 ⟨fun h => ?_, by omega⟩)
    rw [h] at hlength
    exact absurd hlength (Nat.succ_ne_zero _).symm
  · obtain ⟨-, houtside⟩ := hoverruns.emits
    refine ⟨endedWith .ovf u, hu, ?_, ?_⟩
    · rw [hoverruns.eq]
      rfl
    · have hfields := turns_pushTurn_fields id s.rc j
      rw [range_turns_id] at hfields
      rw [endedWith_rc, hoverruns.rc, hfields]
      exact ⟨rfl, rfl, rfl, rfl, rfl, rfl, rfl, fun a ha => houtside a (by omega)⟩

/-- Settles O29: with room, without room, and both push by push. -/
theorem rcFinishWritesTheNumber : Obligations.RcFinishWritesTheNumber := by
  rw [Obligations.RcFinishWritesTheNumber, pushed_eq]
  refine ⟨decode_encode .rcFinish, fun s => ⟨fun hmode hok hroom => rcFinish_of_room (hok.encOk hmode) hroom,
    fun hmode _ => rcFinish_of_no_room hmode, fun hmode hroom => ?_, fun hmode j hj hroom hfull => ?_,
    exec_rcFinish_of_ne⟩⟩
  · obtain ⟨u, hu, hadvances⟩ := exec_rcFinish_of_fits hmode (.inr hroom)
    have hpos : u.rc.pos = BitVec.ofNat 32 (s.rc.pos.toNat + (outBytes (pushTurn id) 5 s.rc).length) :=
      congrArg Coder.pos hadvances.rc_eq
    refine ⟨_, hu, ?_, hadvances.emits_of_fits (.inr hroom)⟩
    rw [← hpos]
    conv_lhs => rw [hadvances.eq]
    rfl
  · obtain ⟨u, hu, hoverruns⟩ := exec_rcFinish_of_full hmode hj (.inr hroom) (not_fits_of_lt (by omega) hfull)
    refine ⟨endedWith .ovf u, hu, ?_, hoverruns.emits⟩
    conv_lhs => rw [hoverruns.eq]
    rfl

end Sys2Proof.Machine
end

