-- ==== Sys2Proof/Proofs/DecoderCommands.lean ====
section
/-! The decoder's commands (43_range_coder.md R312 to R314): what `n` bytes of input do to the coder, RC_INIT_DEC (O30) and
RC_DEC (O31). -/

namespace Sys2Proof.Machine

open Sys2Proof.Claims

/-! ### Bytes taken from the input -/

/-- STATUS when `n` bytes of input are taken (R312). -/
def takenStatus (s : State) (n : Nat) : Status :=
  { s.status with
    inexh := s.status.inexh || decide (n ≠ 0 ∧ min s.inlen.toNat s.caps.toNat < s.rc.pos.toNat + n) }

/-- The coder when `n` bytes of input are shifted into the code (R312). -/
def takenCoder (s : State) (n : Nat) : Coder :=
  { s.rc with
    code := codeAfter s s.rc.code n
    pos := BitVec.ofNat 32 (min (s.rc.pos.toNat + n) 0xFFFFFFFF) }

/-- The state after `n` bytes of input are taken (R312). -/
def taken (s : State) (n : Nat) : State := { s with rc := takenCoder s n, status := takenStatus s n }

theorem toNat_pos_taken (s : State) (n : Nat) : (taken s n).rc.pos.toNat = min (s.rc.pos.toNat + n) 0xFFFFFFFF :=
  Nat.mod_eq_of_lt (by omega)

theorem taken_zero (s : State) : taken s 0 = s := by
  have hpos : BitVec.ofNat 32 (min (s.rc.pos.toNat + 0) 0xFFFFFFFF) = s.rc.pos := by
    have := s.rc.pos.isLt
    rw [Nat.min_eq_left (by omega), Nat.add_zero, BitVec.ofNat_toNat, BitVec.setWidth_eq]
  have hinexh : (s.status.inexh || decide (0 ≠ 0 ∧ min s.inlen.toNat s.caps.toNat < s.rc.pos.toNat + 0))
      = s.status.inexh := by
    simp
  rw [taken, takenCoder, takenStatus, hpos, hinexh]
  rfl

/-- A position that has saturated is past every input. -/
theorem nextByte_taken (s : State) (n : Nat) : nextByte (taken s n) = inputByte s n := by
  have hpos := toNat_pos_taken s n
  have hinlen := s.inlen.isLt
  rw [nextByte, inputByte, State.stream, hpos, streamBase]
  change (if _ < min s.inlen.toNat s.caps.toNat then s.byteAt _ else _) = _
  by_cases hlt : s.rc.pos.toNat + n < min s.inlen.toNat s.caps.toNat
  · rw [if_pos hlt, if_pos (by omega), Nat.min_eq_left (by omega), Nat.add_assoc]
  · rw [if_neg hlt, if_neg (by omega)]

theorem shiftIn_taken (s : State) (n : Nat) : shiftIn (taken s n) = taken s (n + 1) := by
  have hpos := toNat_pos_taken s n
  have hinlen := s.inlen.isLt
  have hnext : BitVec.ofNat 32 (min ((taken s n).rc.pos.toNat + 1) 0xFFFFFFFF)
      = BitVec.ofNat 32 (min (s.rc.pos.toNat + (n + 1)) 0xFFFFFFFF) := by
    rw [hpos]
    congr 1
    omega
  have hinexh : ((taken s n).status.inexh || decide (min s.inlen.toNat s.caps.toNat ≤ (taken s n).rc.pos.toNat))
      = (s.status.inexh || decide (n + 1 ≠ 0 ∧ min s.inlen.toNat s.caps.toNat < s.rc.pos.toNat + (n + 1))) := by
    rw [hpos, taken, takenStatus, Bool.or_assoc, ← Bool.decide_or]
    congr 2
    rw [eq_iff_iff]
    omega
  rw [shiftIn, hnext, nextByte_taken]
  conv_rhs => rw [taken, takenCoder, takenStatus, codeAfter, ← hinexh]
  rfl

theorem shiftInTimes_taken (s : State) (m n : Nat) : shiftInTimes n (taken s m) = taken s (m + n) := by
  induction n generalizing m with
  | zero => rfl
  | succ n ih => rw [shiftInTimes, shiftIn_taken, ih, Nat.add_right_comm, Nat.add_assoc]

/-- R312: the loops that take bytes come to `taken`. -/
theorem shiftInTimes_eq (s : State) (n : Nat) : shiftInTimes n s = taken s n := by
  have h := shiftInTimes_taken s 0 n
  rwa [taken_zero, Nat.zero_add] at h

/-! ### RC_INIT_DEC -/

/-- A byte shifted into the code. -/
theorem toNat_shiftByte (x : Word) (b : Byte) : (x <<< 8 ||| b.setWidth 32).toNat = x.toNat * 256 % 2 ^ 32 + b.toNat := by
  have hb : b.toNat < 2 ^ 8 := b.isLt
  have hmod : x.toNat <<< 8 % 2 ^ 32 = (x.toNat % 2 ^ 24) <<< 8 := by
    rw [Nat.shiftLeft_eq, Nat.shiftLeft_eq]
    omega
  rw [BitVec.toNat_or, BitVec.toNat_shiftLeft, BitVec.toNat_setWidth, Nat.mod_eq_of_lt (by omega : b.toNat < 2 ^ 32), hmod,
    ← Nat.shiftLeft_add_eq_or_of_lt hb, ← hmod, Nat.shiftLeft_eq]

theorem toNat_append_byte {w : Nat} (x : BitVec w) (b : Byte) : (x ++ b).toNat = x.toNat * 256 + b.toNat := by
  rw [BitVec.toNat_append, ← Nat.shiftLeft_add_eq_or_of_lt b.isLt, Nat.shiftLeft_eq]

/-- R313: the first byte is the most significant one. -/
theorem codeAfter_four (s : State) :
    codeAfter s 0#32 4 = inputByte s 0 ++ inputByte s 1 ++ inputByte s 2 ++ inputByte s 3 := by
  refine BitVec.eq_of_toNat_eq ?_
  have h0 := (inputByte s 0).isLt
  have h1 := (inputByte s 1).isLt
  have h2 := (inputByte s 2).isLt
  simp only [codeAfter, toNat_shiftByte, toNat_append_byte, BitVec.toNat_ofNat]
  omega

/-- The coder that RC_INIT_DEC starts from (R313). -/
def Coder.decStart (c : Coder) : Coder := { c.modelReset.encReset with sym := 0#8, nsym := 0#32 }

/-- Settles O30: the start takes four bytes from position 0. -/
theorem rcInitDecTakesFourBytes : Obligations.RcInitDecTakesFourBytes := by
  refine ⟨decode_encode .rcInitDec, fun s => ⟨fun hlen b0 b1 b2 b3 hb0 hb1 hb2 hb3 => ?_, fun hlen => ?_⟩⟩
  · have hbyte (i : Nat) :
        inputByte (s.withRc s.rc.decStart) i = if i < s.inlen.toNat then s.byteAt (0x100000 + i) else 0#8 := by
      have hzero : (0#32).toNat + i = i := Nat.zero_add i
      rw [inputByte]
      simp only [withRc_rc, withRc_inlen, withRc_caps, withRc_byteAt, Coder.decStart, Coder.encReset, Nat.min_eq_left hlen,
        Nat.add_assoc, hzero]
    have hcode : codeAfter (s.withRc s.rc.decStart) 0#32 4 = b0 ++ b1 ++ b2 ++ b3 := by
      rw [codeAfter_four, hbyte, hbyte, hbyte, hbyte, hb0, hb1, hb2, hb3]
    have hinexh : decide (4 ≠ 0 ∧ min s.inlen.toNat s.caps.toNat < (0#32).toNat + 4) = decide (s.inlen.toNat < 4) := by
      simp [Nat.min_eq_left hlen]
    rw [exec, execRcInitDec, if_neg (Nat.not_lt.2 hlen), shiftInTimes_eq, ← hcode, ← hinexh]
    rfl
  · rw [exec, execRcInitDec, if_pos hlen, finish_failed]

/-! ### The renormalisation of the decoder -/

/-- The state with another RC_RANGE. -/
def State.withRange (s : State) (r : Word) : State := s.withRc { s.rc with range := r }

theorem shiftInTimes_withRange (s : State) (r : Word) (n : Nat) :
    shiftInTimes n (s.withRange r) = (shiftInTimes n s).withRange r := by
  induction n generalizing s with
  | zero => rfl
  | succ n ih => exact ih (shiftIn s)

theorem renormDec_of_lt {s : State} (h : s.rc.range.toNat < 2 ^ 24) (m : Nat) :
    renormDec (m + 1) s = renormDec m ((shiftIn s).withRange (s.rc.range <<< 8)) := by
  rw [renormDec, top, if_pos h]
  rfl

/-- The loop of R314 takes as many bytes as the range needs. -/
theorem renormDec_of_turns {m n : Nat} {s : State} (h : RenormTurns s.rc.range.toNat n) (hle : n ≤ m) :
    renormDec m s = (shiftInTimes n s).withRange (BitVec.ofNat 32 (s.rc.range.toNat * 256 ^ n)) := by
  induction n generalizing m s with
  | zero =>
    have hsame : BitVec.ofNat 32 (s.rc.range.toNat * 256 ^ 0) = s.rc.range := by simp
    rw [hsame, shiftInTimes]
    cases m with
    | zero => rfl
    | succ m =>
      rw [renormDec, top, if_neg (Nat.not_lt.2 h.le_of_zero)]
      rfl
  | succ n ih =>
    obtain ⟨m, rfl⟩ := Nat.exists_eq_succ_of_ne_zero (show m ≠ 0 by omega)
    have hrange : ((shiftIn s).withRange (s.rc.range <<< 8)).rc.range.toNat = s.rc.range.toNat * 256 :=
      toNat_shiftLeft_eight h.lt_of_succ
    rw [Nat.succ_eq_add_one, renormDec_of_lt h.lt_of_succ, ih (by rw [hrange]; exact h.of_succ) (by omega), hrange,
      shiftInTimes_withRange, Nat.mul_assoc, ← pow_succ' 256 n]
    rfl

/-! ### RC_DEC -/

theorem codeAfter_withRc {s : State} {c : Coder} (hpos : c.pos = s.rc.pos) (start : Word) (n : Nat) :
    codeAfter (s.withRc c) start n = codeAfter s start n := by
  induction n with
  | zero => rfl
  | succ n ih =>
    rw [codeAfter, codeAfter, ih, inputByte, inputByte, withRc_rc, hpos]
    rfl

/-- The coder after the interval and the `n` bytes of RC_DEC (R314). -/
def renormedCoder (s : State) (n : Nat) : Coder :=
  { s.rc with
    range := BitVec.ofNat 32 (s.rc.share s.rc.decoded * 256 ^ n)
    code := codeAfter s (s.rc.code - BitVec.ofNat 32 (cum s.rc.counts s.rc.decoded * s.rc.rdiv)) n
    pos := BitVec.ofNat 32 (min (s.rc.pos.toNat + n) 0xFFFFFFFF) }

/-- The coder after RC_DEC with `n` turns (R314). -/
def decodedCoder (s : State) (n : Nat) : Coder :=
  { renormedCoder s n with
    counts := (s.rc.update s.rc.decoded).counts
    total := (s.rc.update s.rc.decoded).total
    nsym := s.rc.nsym + 1#32
    sym := BitVec.ofNat 8 s.rc.decoded }

/-- An open decoder between commands. -/
structure Coder.DecOk (c : Coder) : Prop where
  mode : c.mode = .dec
  model : c.ModelOk
  range : top ≤ c.range.toNat

theorem Coder.Ok.decOk {c : Coder} (h : c.Ok) (hmode : c.mode = .dec) : c.DecOk := by
  obtain ⟨hmodel, hrange, -⟩ := h
  exact ⟨hmode, hmodel, hrange (.inr hmode)⟩

theorem exec_rcDec_of_ne {s : State} (h : s.rc.mode ≠ .dec) : exec .rcDec s = .next (endedWith .mode s) := by
  rw [exec, execRcDec, if_pos h, finish_failed]

section
variable {s : State} (h : s.rc.DecOk) {n : Nat} (hn : RenormTurns (s.rc.share s.rc.decoded) n)
include h hn

theorem toNat_range_decodedCoder : (decodedCoder s n).range.toNat = s.rc.share s.rc.decoded * 256 ^ n := by
  have hle := interval_le_range h.model (decoded_lt s.rc)
  have hlt := s.rc.range.isLt
  exact Nat.mod_eq_of_lt (hn.mul_lt (by omega))

/-- The loop of R314 after the interval of the symbol is taken. -/
theorem renormDec_decInterval :
    renormDec 4 (s.withRc (s.rc.decInterval s.rc.decoded))
      = { s with rc := renormedCoder s n, status := takenStatus s n } := by
  have hsym := decoded_lt s.rc
  have hle := hn.le_two (le_share h.model h.range hsym)
  have hnarrow : (s.withRc (s.rc.decInterval s.rc.decoded)).rc.range.toNat = s.rc.share s.rc.decoded :=
    toNat_narrowed h.model hsym
  have hcode := codeAfter_withRc (s := s) (c := s.rc.decInterval s.rc.decoded) rfl (s.rc.decInterval s.rc.decoded).code n
  rw [renormDec_of_turns (by rw [hnarrow]; exact hn) (hle.trans (by decide)), hnarrow, shiftInTimes_eq, taken, takenCoder,
    withRc_rc, hcode]
  rfl

/-- RC_DEC in mode DEC. -/
theorem exec_rcDec :
    exec .rcDec s = .next (ended { s with rc := decodedCoder s n, status := takenStatus s n }) := by
  have hcounted : (renormedCoder s n).counted s.rc.decoded = _ := counted_of_eq (c := s.rc) _ rfl rfl rfl
  have hsymbol : decodeSymbol s = { s with rc := decodedCoder s n, status := takenStatus s n } := by
    rw [decodeSymbol, renormDec_decInterval h hn, hcounted]
    rfl
  rw [exec, execRcDec, if_neg (not_not_intro h.mode), if_neg (narrowed_ne_zero h.model h.range (decoded_lt s.rc)),
    finish_ok, hsymbol]

end

/-- Settles O31: the symbol is the one of the descent, the rest is the loop over `n` bytes. -/
theorem rcDecFindsTheSymbol : Obligations.RcDecFindsTheSymbol := by
  refine fun s => ⟨fun hmode hok => ?_, exec_rcDec_of_ne⟩
  have h := hok.decOk hmode
  have hsym := decoded_lt s.rc
  have hshare := le_share h.model h.range hsym
  obtain ⟨n, hn⟩ := RenormTurns.exists_of_le hshare
  have hle := hn.le_two hshare
  have hdecoded : (BitVec.ofNat 8 s.rc.decoded).toNat = s.rc.decoded := Nat.mod_eq_of_lt hsym
  obtain ⟨-, hlow, hhigh⟩ := getSymbolIsTheLargest s.rc.counts (s.rc.code.toNat / s.rc.rdiv)
  refine ⟨_, n, s.rc.rdiv, s.rc.share s.rc.decoded, exec_rcDec h hn, rfl, ?_⟩
  simp only [ended_rc]
  rw [show (decodedCoder s n).sym.toNat = s.rc.decoded from hdecoded]
  obtain ⟨hstop, hgo⟩ := id hn
  refine ⟨hlow, fun x hlt hx => hhigh x hlt (by omega), rfl, rfl, toNat_range_decodedCoder h hn, hstop, by omega, hgo, rfl,
    ?_, ?_, rfl, rfl, rfl, hmode, rfl, rfl, rfl, rfl, rfl⟩
  · exact toNat_pos_taken s n
  · simp [ended, takenStatus]

end Sys2Proof.Machine
end

