-- ==== Sys2Proof/Proofs/CoderInvariant.lean ====
section
/-! What every step keeps of the coder: how RC_STATE.MODE moves (43_range_coder.md R316; O52), and the invariant of the
model, the range and the carry bounds (R304, R317; O58). -/

namespace Sys2Proof.Machine

open Sys2Proof.Claims

/-! ### What pushes leave alone -/

/-- Pushes from `s` leave STATUS and the model alone; MODE stays, or is IDLE after a stop with OVF (R307). -/
def PushesFrom (s : State) : CmdResult → Prop
  | .ok u => u.status = s.status ∧ u.rc.counts = s.rc.counts ∧ u.rc.total = s.rc.total ∧ u.rc.mode = s.rc.mode
  | .failed code u =>
    u.status = s.status ∧ u.rc.counts = s.rc.counts ∧ u.rc.total = s.rc.total ∧ u.rc.mode = .idle ∧ code = .ovf

theorem PushesFrom.trans {s u : State} {r : CmdResult} (h : PushesFrom s (.ok u)) (h' : PushesFrom u r) :
    PushesFrom s r := by
  obtain ⟨hstatus, hcounts, htotal, hmode⟩ := h
  cases r <;> simpa only [PushesFrom, hstatus, hcounts, htotal, hmode] using h'

theorem PushesFrom.andThen {s : State} {r : CmdResult} {f : State → CmdResult} (h : PushesFrom s r)
    (hf : ∀ t, PushesFrom t (f t)) : PushesFrom s (r.andThen f) := by
  cases r with
  | ok t => exact h.trans (hf t)
  | failed code t => exact h

theorem pushesFrom_pushOp (f : Word → Word) (s : State) : PushesFrom s (pushOp f s) := by
  rcases pushOp_cases f s with ⟨-, u, hu, hadvances⟩ | ⟨-, u, hu, hoverruns⟩
  · rw [hu, hadvances.eq, pushTurn_fields]
    exact ⟨rfl, rfl, rfl, rfl⟩
  · rw [hu, hoverruns.eq]
    exact ⟨rfl, rfl, rfl, rfl, rfl⟩

theorem pushesFrom_pushOps (f : Word → Word) (n : Nat) (s : State) : PushesFrom s (pushOps f n s) := by
  induction n generalizing s with
  | zero => exact ⟨rfl, rfl, rfl, rfl⟩
  | succ n ih => exact (pushesFrom_pushOp f s).andThen ih

theorem pushesFrom_renormEnc (n : Nat) (s : State) : PushesFrom s (renormEnc n s) := by
  induction n generalizing s with
  | zero => exact ⟨rfl, rfl, rfl, rfl⟩
  | succ n ih =>
    by_cases h : s.rc.range.toNat < 2 ^ 24
    · rw [renormEnc_of_lt h]
      exact (pushesFrom_pushOp shiftRange s).andThen ih
    · rw [renormEnc, top, if_neg h]
      exact ⟨rfl, rfl, rfl, rfl⟩

/-- How a command of pushes ends: completed after a last assignment to the coder, or stopped with OVF. -/
theorem next_of_pushesFrom {s t : State} {r : CmdResult} {f : State → CmdResult} {g : State → Coder}
    (h : PushesFrom s r) (hf : ∀ u, f u = .ok (u.withRc (g u))) (ht : (r.andThen f).finish = .next t) :
    (∃ u, PushesFrom s (.ok u) ∧ t = ended (u.withRc (g u)))
      ∨ ∃ u, PushesFrom s (.failed .ovf u) ∧ t = endedWith .ovf u := by
  cases r with
  | ok u =>
    rw [andThen_ok, hf, finish_ok] at ht
    exact .inl ⟨u, h, (Host.Outcome.next.inj ht).symm⟩
  | failed code u =>
    obtain ⟨-, -, -, -, rfl⟩ := id h
    rw [andThen_failed, finish_failed] at ht
    exact .inr ⟨u, h, (Host.Outcome.next.inj ht).symm⟩

/-- RC_ENC in mode ENC, in any state. -/
theorem rcEnc_next {s t : State} {sym : Byte} (hmode : s.rc.mode = .enc) (h : exec (.rcEnc sym) s = .next t) :
    (∃ u, PushesFrom s (.ok u) ∧ t = ended (u.withRc (u.rc.counted sym.toNat)))
      ∨ ∃ u, PushesFrom s (.failed .ovf u) ∧ t = endedWith .ovf u := by
  rw [exec, execRcEnc, if_neg (not_not_intro hmode)] at h
  split at h
  · cases h
  · have hstart : PushesFrom s (.ok (s.withRc (s.rc.encInterval sym.toNat))) := ⟨rfl, rfl, rfl, rfl⟩
    exact next_of_pushesFrom (hstart.trans (pushesFrom_renormEnc 4 _)) (fun _ => rfl) h

theorem rcFinish_next {s t : State} (hmode : s.rc.mode = .enc) (h : exec .rcFinish s = .next t) :
    (∃ u, PushesFrom s (.ok u) ∧ t = ended (u.withRc { u.rc with len := u.rc.pos, mode := .fin }))
      ∨ ∃ u, PushesFrom s (.failed .ovf u) ∧ t = endedWith .ovf u := by
  rw [exec_rcFinish hmode] at h
  exact next_of_pushesFrom (pushesFrom_pushOps id 5 s) (fun _ => rfl) h

theorem mode_counted (sym : Nat) (c : Coder) : (c.counted sym).mode = c.mode := by rw [counted_eq]

theorem mode_decodeSymbol (s : State) : (decodeSymbol s).rc.mode = s.rc.mode := by
  rw [decodeSymbol, withRc_rc, mode_counted, renormDec_eq]
  rfl

/-- The commands outside the coder write no coder register (R116, R316). -/
theorem rc_of_otherCommand {i : Instr} {s t : State} (h : exec i s = .next t)
    (hi : i ∈ [.nop, .grad, .fftFwd, .fftInv, .pltmFwd, .pltmInv, .thresh, .quant, .dequant]) : t.rc = s.rc := by
  obtain ⟨r, hfinish, hw, -⟩ := endsWithin_exec i s t h
  obtain ⟨status, rfl, -, -⟩ := finish_frame hfinish
  generalize r.state = u at hw
  cases i with
  | nop =>
    obtain rfl : u = s := hw
    rfl
  | grad | fftFwd | pltmFwd | pltmInv | dequant =>
    obtain ⟨_, rfl⟩ := hw
    rfl
  | fftInv =>
    obtain ⟨_, _, rfl, -⟩ := hw
    rfl
  | thresh =>
    obtain ⟨_, _, _, _, rfl⟩ := hw
    rfl
  | quant =>
    obtain ⟨_, _, _, rfl⟩ := hw
    rfl
  | rcInitEnc | rcEnc _ | rcFinish | rcInitDec | rcDec => simp at hi

/-! ### The mode -/

/-- STATUS of a command that ends depends on STATUS alone. -/
theorem status_ended {s u : State} (h : u.status = s.status) (c : Coder) :
    (ended (u.withRc c)).status = (ended s).status := by
  simp only [ended, withRc_status, h]

theorem status_endedWith {s u : State} (h : u.status = s.status) (code : ErrCode) :
    (endedWith code u).status = (endedWith code s).status := by
  simp only [endedWith, ended, flagged, h]

theorem next_inj {i : Instr} {s t u : State} (h : exec i s = .next t) (h' : exec i s = .next u) : t = u :=
  Host.Outcome.next.inj (h.symm.trans h')

theorem rcEnc_mode {s t : State} {sym : Byte} (hmode : s.rc.mode = .enc) (h : exec (.rcEnc sym) s = .next t) :
    (t.rc.mode = .enc ∧ t.status = (ended s).status) ∨ (t.rc.mode = .idle ∧ t.status = (endedWith .ovf s).status) := by
  rcases rcEnc_next hmode h with ⟨u, ⟨hstatus, -, -, hkeep⟩, rfl⟩ | ⟨u, ⟨hstatus, -, -, hidle, -⟩, rfl⟩
  · exact .inl ⟨(mode_counted _ _).trans (hkeep.trans hmode), status_ended hstatus _⟩
  · exact .inr ⟨hidle, status_endedWith hstatus _⟩

theorem rcFinish_mode {s t : State} (hmode : s.rc.mode = .enc) (h : exec .rcFinish s = .next t) :
    (t.rc.mode = .fin ∧ t.status = (ended s).status) ∨ (t.rc.mode = .idle ∧ t.status = (endedWith .ovf s).status) := by
  rcases rcFinish_next hmode h with ⟨u, ⟨hstatus, -⟩, rfl⟩ | ⟨u, ⟨hstatus, -, -, hidle, -⟩, rfl⟩
  · exact .inl ⟨rfl, status_ended hstatus _⟩
  · exact .inr ⟨hidle, status_endedWith hstatus _⟩

theorem rcDec_mode {s t : State} (hmode : s.rc.mode = .dec) (h : exec .rcDec s = .next t) : t.rc.mode = .dec := by
  rw [exec, execRcDec, if_neg (not_not_intro hmode)] at h
  split at h
  · cases h
  · rw [finish_ok] at h
    obtain rfl := Host.Outcome.next.inj h
    exact (mode_decodeSymbol s).trans hmode

/-- What RC_INIT_DEC leaves: a coder at its start, or the coder as it was. -/
theorem rcInitDec_next {s t : State} (h : exec .rcInitDec s = .next t) :
    (s.inlen.toNat ≤ s.caps.toNat ∧ t.rc.mode = .dec ∧ t.rc.range = 0xFFFFFFFF#32
        ∧ t.rc.counts = List.replicate 256 1#32 ∧ t.rc.total = 256#32)
      ∨ (s.caps.toNat < s.inlen.toNat ∧ t.rc = s.rc) := by
  obtain ⟨-, hinit⟩ := rcInitDecTakesFourBytes
  obtain ⟨hstart, hparam⟩ := hinit s
  rcases Nat.lt_or_ge s.caps.toNat s.inlen.toNat with hlen | hlen
  · obtain rfl := next_inj h (hparam hlen)
    exact .inr ⟨hlen, rfl⟩
  · obtain rfl := next_inj h (hstart hlen _ _ _ _ rfl rfl rfl rfl)
    exact .inl ⟨hlen, rfl, rfl, rfl, rfl⟩

/-- Settles O52: the table, event by event. -/
theorem coderModeMovesByTheTable : Obligations.CoderModeMovesByTheTable := by
  refine ⟨fun s t h => ?_, fun s t h => ?_, fun s t sym h => ⟨fun hmode => rcEnc_mode hmode h, fun hmode => ?_⟩,
    fun s t h => ⟨fun hmode => rcFinish_mode hmode h, fun hmode => ?_⟩,
    fun s t h => ⟨fun hmode => rcDec_mode hmode h, fun hmode => ?_⟩, fun i s t h hi => rc_of_otherCommand h hi,
    fun s => rfl⟩
  · rw [next_inj h (exec_rcInitEnc s)]
    rfl
  · rcases rcInitDec_next h with ⟨hlen, hmode, -⟩ | ⟨hlen, hrc⟩
    · exact ⟨fun _ => hmode, fun hlt => absurd hlt (Nat.not_lt.2 hlen)⟩
    · exact ⟨fun hle => absurd hlen (Nat.not_lt.2 hle), fun _ => hrc⟩
  · exact next_inj h (exec_rcEnc_of_ne hmode sym)
  · exact next_inj h (exec_rcFinish_of_ne hmode)
  · exact next_inj h (exec_rcDec_of_ne hmode)

/-! ### The invariant -/

/-- With no stream open only the model is bound. -/
theorem Coder.ModelOk.ok {c : Coder} (h : c.ModelOk) (henc : c.mode ≠ .enc) (hdec : c.mode ≠ .dec) : c.Ok :=
  ⟨h, fun hmode => hmode.elim (absurd · henc) (absurd · hdec), fun hmode => absurd hmode henc⟩

theorem Coder.EncOk.ok {c : Coder} (h : c.EncOk) : c.Ok := ⟨h.model, fun _ => h.range, fun _ => h.carry⟩

theorem Coder.DecOk.ok {c : Coder} (h : c.DecOk) : c.Ok := by
  refine ⟨h.model, fun _ => h.range, fun hmode => ?_⟩
  rw [h.mode] at hmode
  cases hmode

/-- RC_POS is in no bound. -/
theorem Coder.EncOk.atPos {c : Coder} (h : c.EncOk) (p : Word) : (c.atPos p).EncOk := ⟨h.mode, h.model, h.range, h.carry⟩

theorem Coder.ModelOk.overrun {c : Coder} (h : c.ModelOk) : (overrun c).Ok := by
  have hidle : (Claims.overrun c).mode = .idle := rfl
  exact (h.of_eq (d := Claims.overrun c) rfl rfl).ok (by rw [hidle]; decide) (by rw [hidle]; decide)

theorem ok_rcEnc {s t : State} {sym : Byte} (hok : s.rc.Ok) (h : exec (.rcEnc sym) s = .next t) : t.rc.Ok := by
  by_cases hmode : s.rc.mode = .enc
  · have henc := hok.encOk hmode
    obtain ⟨n, hn⟩ := RenormTurns.exists_of_le (le_share henc.model henc.range sym.isLt)
    rcases exec_rcEnc_cases henc hn with ⟨u, hu, hadvances⟩ | ⟨j, u, hu, hoverruns⟩
    · rw [next_inj h hu, ended_rc, hadvances.rc]
      exact ((encOk_encoded henc hn).atPos _).ok
    · have hmodel : (turns (pushTurn shiftRange) j (s.rc.encInterval sym.toNat)).ModelOk := by
        rw [turns_pushTurn_fields]
        exact henc.model.of_eq rfl rfl
      rw [next_inj h hu, endedWith_rc, hoverruns.rc]
      exact hmodel.overrun
  · rw [next_inj h (exec_rcEnc_of_ne hmode sym)]
    exact hok

theorem ok_rcFinish {s t : State} (hok : s.rc.Ok) (h : exec .rcFinish s = .next t) : t.rc.Ok := by
  obtain ⟨hmodel, -⟩ := id hok
  by_cases hmode : s.rc.mode = .enc
  · have hclosed : t.rc.mode ≠ .enc ∧ t.rc.mode ≠ .dec := by
      rcases rcFinish_mode hmode h with ⟨hend, -⟩ | ⟨hend, -⟩ <;> rw [hend] <;> decide
    refine Coder.ModelOk.ok ?_ hclosed.1 hclosed.2
    rcases rcFinish_next hmode h with ⟨u, ⟨-, hcounts, htotal, -⟩, rfl⟩ | ⟨u, ⟨-, hcounts, htotal, -⟩, rfl⟩
    · exact hmodel.of_eq hcounts htotal
    · exact hmodel.of_eq hcounts htotal
  · rw [next_inj h (exec_rcFinish_of_ne hmode)]
    exact hok

/-- R313: a fresh decoder, or no change. -/
theorem ok_rcInitDec {s t : State} (hok : s.rc.Ok) (h : exec .rcInitDec s = .next t) : t.rc.Ok := by
  rcases rcInitDec_next h with ⟨-, hmode, hrange, hcounts, htotal⟩ | ⟨-, hrc⟩
  · exact Coder.DecOk.ok ⟨hmode, modelOk_reset.of_eq hcounts htotal, by rw [hrange]; decide⟩
  · rw [hrc]
    exact hok

theorem decOk_decodedCoder {s : State} (h : s.rc.DecOk) {n : Nat} (hn : RenormTurns (s.rc.share s.rc.decoded) n) :
    (decodedCoder s n).DecOk :=
  ⟨h.mode, h.model.update (decoded_lt s.rc), (toNat_range_decodedCoder h hn).symm ▸ hn.1⟩

theorem ok_rcDec {s t : State} (hok : s.rc.Ok) (h : exec .rcDec s = .next t) : t.rc.Ok := by
  by_cases hmode : s.rc.mode = .dec
  · have hdec := hok.decOk hmode
    obtain ⟨n, hn⟩ := RenormTurns.exists_of_le (le_share hdec.model hdec.range (decoded_lt s.rc))
    rw [next_inj h (exec_rcDec hdec hn)]
    exact (decOk_decodedCoder hdec hn).ok
  · rw [next_inj h (exec_rcDec_of_ne hmode)]
    exact hok

theorem ok_exec {i : Instr} {s t : State} (hok : s.rc.Ok) (h : exec i s = .next t) : t.rc.Ok := by
  cases i
  case rcInitEnc =>
    rw [next_inj h (exec_rcInitEnc s)]
    exact encOk_encStart.ok
  case rcEnc sym => exact ok_rcEnc hok h
  case rcFinish => exact ok_rcFinish hok h
  case rcInitDec => exact ok_rcInitDec hok h
  case rcDec => exact ok_rcDec hok h
  all_goals
    rw [rc_of_otherCommand h (by decide)]
    exact hok

/-! ### Host events -/

theorem rc_writeReg (r : Reg) (v : Word) (s : State) : (writeReg r v s).rc = s.rc := by
  cases r
  case cmd => rw [writeReg, issue_eq]
  all_goals rfl

theorem rc_hostRead (size : Nat) (o : BitVec 21) (s : State) : (hostRead size o s).rc = s.rc := by
  rcases hostRead_cases size o s with h | ⟨t, -, -, h⟩ <;> simp only [h, signal_rc]

/-- R105: the host writes no coder register and no count. -/
theorem rc_hostWrite (size : Nat) (o : BitVec 21) (v : Word) (s : State) : (hostWrite size o v s).rc = s.rc := by
  rcases hostWrite_cases size o v s with h | ⟨t, -, -, h⟩ <;> rw [h]
  · rfl
  · cases t with
    | reg r => exact rc_writeReg r v s
    | ram a => rfl
    | count i => rfl

/-- An event leaves the coder as it was, or resets it (R450). -/
theorem rc_perform (e : HostEvent) (s : State) : (perform e s).rc = s.rc ∨ (perform e s).rc = .reset := by
  cases e with
  | read size o => exact .inl (rc_hostRead size o s)
  | write size o v => exact .inl (rc_hostWrite size o v s)
  | reset => exact .inr rfl

/-- Settles O58: a completion keeps the bounds by its command, an event keeps the coder or resets it. -/
theorem stepKeepsTheCoder : Obligations.StepKeepsTheCoder := by
  intro s t hok h
  rcases step_cases h with ⟨w, i, -, -, -, hexec⟩ | ⟨-, ⟨-, rfl⟩ | ⟨e, es, -, rfl⟩⟩
  · exact ok_exec hok hexec
  · exact hok
  · rcases rc_perform e { tick s with host := es } with hrc | hrc
    · rw [hrc]
      exact hok
    · rw [hrc]
      exact coderOk_reset

end Sys2Proof.Machine
end

