-- ==== Sys2Proof/Proofs/CoderRoundTrip.lean ====
section
/-! The decoder reads back what the encoder wrote (43_range_coder.md R318; O53). The stream, as a number, lies in the
interval at which the encoder stood before each symbol. A decoder that stands there too holds in its code the stream's
distance from the foot of the interval, which finds the symbol and leads to the next interval. -/

namespace Sys2Proof.Machine

open Sys2Proof.Claims

/-! ### Errors stay recorded -/

/-- R402: no command takes a recorded error back. -/
theorem err_exec {i : Instr} {s t : State} (h : exec i s = .next t) (herr : s.status.err = true) : t.status.err = true := by
  obtain ⟨r, hfinish, hw, -⟩ := endsWithin_exec i s t h
  have hstate : r.state.status.err = true := by
    generalize r.state = u at hw
    cases i with
    | nop =>
      obtain rfl : u = s := hw
      exact herr
    | grad | fftFwd | pltmFwd | pltmInv | dequant =>
      obtain ⟨_, rfl⟩ := hw
      exact herr
    | rcInitEnc | rcEnc _ | rcFinish =>
      obtain ⟨⟨_, _, rfl⟩, -⟩ := hw
      exact herr
    | thresh =>
      obtain ⟨_, _, _, _, rfl⟩ := hw
      exact herr
    | quant =>
      obtain ⟨_, _, _, rfl⟩ := hw
      exact herr
    | fftInv | rcInitDec | rcDec =>
      obtain ⟨_, _, rfl, -⟩ := hw
      exact herr
  rcases finish_eq_next.1 hfinish with ⟨u, rfl, rfl⟩ | ⟨code, u, rfl, rfl⟩
  · exact hstate
  · exact record_err _ code

theorem err_execAll {is : List Instr} {s t : State} (h : execAll is s t) (herr : s.status.err = true) :
    t.status.err = true := by
  induction is generalizing s with
  | nil =>
    obtain rfl : s = t := h
    exact herr
  | cons i is ih =>
    obtain ⟨u, hu, hrest⟩ := h
    exact ih hrest (err_exec hu herr)

/-- A run without an error has none on its way. -/
theorem no_err_of_execAll {is : List Instr} {s t : State} (h : execAll is s t) (herr : t.status.err = false) :
    s.status.err = false := by
  rw [← Bool.not_eq_true] at herr ⊢
  exact fun hs => herr (err_execAll h hs)

/-! ### One symbol of the encoder -/

/-- From `s` to `u` the encoder has taken a symbol, with `n` turns. -/
structure Encodes (s : State) (sym n : Nat) (u : State) : Prop where
  turns : RenormTurns (s.rc.share sym) n
  encOk : u.rc.EncOk
  number : codeNumber u = (codeNumber s + cum s.rc.counts sym * s.rc.rdiv) * 256 ^ n
  held : heldBytes u.rc = heldBytes s.rc + n
  range : u.rc.range.toNat = s.rc.share sym * 256 ^ n
  counts : u.rc.counts = (s.rc.update sym).counts
  total : u.rc.total = (s.rc.update sym).total

/-- RC_ENC without an error takes its symbol, with two turns at most. -/
theorem encodes_of_rcEnc {s u : State} (h : s.rc.EncOk) {sym : Byte} (hrun : s.rc.ffrun.toNat + 2 < 2 ^ 32)
    (hexec : exec (.rcEnc sym) s = .next u) (herr : u.status.err = false) : ∃ n ≤ 2, Encodes s sym.toNat n u := by
  have hshare := le_share h.model h.range sym.isLt
  obtain ⟨n, hn⟩ := RenormTurns.exists_of_le hshare
  rcases exec_rcEnc_cases h hn with ⟨v, hv, hadvances⟩ | ⟨j, v, hv, -⟩
  · rw [next_inj hexec hv]
    have hrc : (ended v).rc = (s.rc.encoded sym.toNat n).atPos v.rc.pos := hadvances.rc
    have hencOk := (encOk_encoded h hn).atPos v.rc.pos
    refine ⟨n, hn.le_two hshare, hn, by rw [hrc]; exact hencOk,
      (codeNumber_ended v).trans (codeNumber_encoded h hn hadvances hrun), heldBytes_encoded (u := v) h hn hadvances hrun,
      by rw [hrc]; exact range_encoded h hn, by rw [hrc]; rfl, by rw [hrc]; rfl⟩
  · rw [next_inj hexec hv] at herr
    cases herr

/-! ### The stream and the interval -/

/-- The stream of `t` lies in the interval at which the encoder `s` stands, and holds its bytes and the four of `low`. -/
structure InInterval (s t : State) : Prop where
  len : heldBytes s.rc + 4 ≤ t.rc.len.toNat
  low : codeNumber s ≤ streamNumber t (heldBytes s.rc + 4)
  high : streamNumber t (heldBytes s.rc + 4) < codeNumber s + s.rc.range.toNat

theorem streamNumber_add_div (t : State) (k n : Nat) : streamNumber t (k + n) / 256 ^ n = streamNumber t k := by
  induction n with
  | zero => simp
  | succ n ih =>
    have hbyte := (t.byteAt (0x100000 + (k + n))).isLt
    rw [← Nat.add_assoc, streamNumber, pow_succ', ← Nat.div_div_eq_div_mul, ← ih]
    congr 1
    omega

/-- The part of the interval at which `s` stands that belongs to a symbol. -/
structure InShare (s : State) (sym : Nat) (t : State) : Prop where
  low : codeNumber s + cum s.rc.counts sym * s.rc.rdiv ≤ streamNumber t (heldBytes s.rc + 4)
  high : streamNumber t (heldBytes s.rc + 4) < codeNumber s + cum s.rc.counts sym * s.rc.rdiv + s.rc.share sym

/-- The interval after a symbol, seen from before it. -/
theorem Encodes.inShare {s u t : State} {sym n : Nat} (he : Encodes s sym n u) (ht : InInterval u t) : InShare s sym t := by
  obtain ⟨-, hlow, hhigh⟩ := ht
  have hheld : heldBytes u.rc + 4 = heldBytes s.rc + 4 + n := by rw [he.held]; omega
  have hpos : 0 < 256 ^ n := Nat.pow_pos (by decide)
  rw [hheld, he.number] at hlow hhigh
  rw [he.range, ← Nat.add_mul] at hhigh
  refine ⟨?_, ?_⟩ <;> rw [← streamNumber_add_div t _ n]
  · exact (Nat.le_div_iff_mul_le hpos).2 hlow
  · exact (Nat.div_lt_iff_lt_mul hpos).2 hhigh

/-- R317 (b): the interval of a symbol lies in the one before it. -/
theorem InShare.inInterval {s t : State} {sym : Nat} (ht : InShare s sym t) (h : s.rc.EncOk) (hsym : sym < 256)
    (hlen : heldBytes s.rc + 4 ≤ t.rc.len.toNat) : InInterval s t := by
  have hle := interval_le_range h.model hsym
  obtain ⟨hlow, hhigh⟩ := ht
  exact ⟨hlen, by omega, by omega⟩

/-! ### The decoder -/

/-- The decoder `d` has taken as many bytes of the stream of `t` as the encoder `s` had pushed, and four more. -/
structure Follows (s d t : State) : Prop where
  mode : d.rc.mode = .dec
  counts : d.rc.counts = s.rc.counts
  total : d.rc.total = s.rc.total
  range : d.rc.range = s.rc.range
  pos : d.rc.pos.toNat = heldBytes s.rc + 4
  code : d.rc.code.toNat + codeNumber s = streamNumber t (heldBytes s.rc + 4)
  inlen : d.inlen = t.rc.len
  room : t.rc.len.toNat ≤ d.caps.toNat
  bytes : ∀ a, d.byteAt a = t.byteAt a

section
variable {s d t : State} (h : s.rc.EncOk) (hd : Follows s d t)
include h hd

theorem Follows.decOk : d.rc.DecOk := ⟨hd.mode, h.model.of_eq hd.counts hd.total, by rw [hd.range]; exact h.range⟩

end

theorem Follows.rdiv_eq {s d t : State} (hd : Follows s d t) : d.rc.rdiv = s.rc.rdiv := by
  rw [Coder.rdiv, hd.range, hd.total, Coder.rdiv]

theorem Follows.share_eq {s d t : State} (hd : Follows s d t) (sym : Nat) : d.rc.share sym = s.rc.share sym := by
  rw [Coder.share, hd.counts, hd.rdiv_eq, Coder.share]

/-- The symbol that was encoded is found. -/
theorem Follows.decoded_eq {s d t : State} (h : s.rc.EncOk) (hd : Follows s d t) {sym : Nat} (hsym : sym < 256)
    (ht : InShare s sym t) : d.rc.decoded = sym := by
  have hrdiv := le_rdiv h.model h.range
  obtain ⟨hlow, hhigh⟩ := ht
  have hcode := hd.code
  refine getSymbol_eq_of_mem hsym ?_ ?_ <;> rw [hd.rdiv_eq, hd.counts]
  · rw [Nat.le_div_iff_mul_le (by omega)]
    omega
  · rw [Nat.div_lt_iff_lt_mul (by omega), cum_succ, Nat.add_mul]
    rw [Coder.share] at hhigh
    omega

/-- The code while the bytes of a renormalisation are taken: the distance of the stream from the foot of the interval. -/
theorem codeAfter_add {d t : State} {start : Word} {share n foot : Nat} (hn : RenormTurns share n)
    (hlt : start.toNat < share) (hcode : start.toNat + foot = streamNumber t d.rc.pos.toNat) (hinlen : d.inlen = t.rc.len)
    (hlen : d.rc.pos.toNat + n ≤ t.rc.len.toNat) (hroom : t.rc.len.toNat ≤ d.caps.toNat)
    (hbytes : ∀ a, d.byteAt a = t.byteAt a) {k : Nat} (hk : k ≤ n) :
    (codeAfter d start k).toNat < share * 256 ^ k
      ∧ (codeAfter d start k).toNat + foot * 256 ^ k = streamNumber t (d.rc.pos.toNat + k) := by
  induction k with
  | zero => simpa [codeAfter] using ⟨hlt, hcode⟩
  | succ k ih =>
    obtain ⟨hbound, hnumber⟩ := ih (by omega)
    have hsmall := hn.lt_of_lt hk
    have hbyte : inputByte d k = t.byteAt (0x100000 + (d.rc.pos.toNat + k)) := by
      rw [inputByte, hinlen, if_pos (by omega), hbytes, Nat.add_assoc]
    have hb := (t.byteAt (0x100000 + (d.rc.pos.toNat + k))).isLt
    rw [codeAfter, toNat_shiftByte, hbyte, Nat.mod_eq_of_lt (by omega), pow_succ, ← Nat.mul_assoc, ← Nat.mul_assoc,
      ← Nat.add_assoc _ k 1, streamNumber, ← hnumber]
    omega

/-- RC_DEC gives the symbol that RC_ENC took, and follows the encoder. -/
theorem Follows.step {s u d t : State} {sym : Byte} {n : Nat} (h : s.rc.EncOk) (he : Encodes s sym.toNat n u)
    (ht : InInterval u t) (hd : Follows s d t) : ∃ e, exec .rcDec d = .next e ∧ e.rc.sym = sym ∧ Follows u e t := by
  have hsym := sym.isLt
  have hdecoded := hd.decoded_eq h hsym (he.inShare ht)
  have hdec := hd.decOk h
  obtain ⟨hlow, hhigh⟩ := he.inShare ht
  have hn : RenormTurns (d.rc.share d.rc.decoded) n := by rw [hdecoded, hd.share_eq]; exact he.turns
  have hheld := he.held
  have hlen := ht.len
  have hcode := hd.code
  have hpos := hd.pos
  have hword := t.rc.len.isLt
  have hplace : (BitVec.ofNat 32 (cum s.rc.counts sym.toNat * s.rc.rdiv)).toNat
      = cum s.rc.counts sym.toNat * s.rc.rdiv := by
    have := interval_le_range h.model hsym
    have := s.rc.range.isLt
    exact Nat.mod_eq_of_lt (by omega)
  have hstart : (d.rc.code - BitVec.ofNat 32 (cum s.rc.counts sym.toNat * s.rc.rdiv)).toNat
      = d.rc.code.toNat - cum s.rc.counts sym.toNat * s.rc.rdiv := by
    rw [BitVec.toNat_sub_of_le (by rw [BitVec.le_def, hplace]; omega), hplace]
  obtain ⟨-, hnumber⟩ := codeAfter_add he.turns (foot := codeNumber s + cum s.rc.counts sym.toNat * s.rc.rdiv)
    (by rw [hstart]; omega) (by rw [hstart, hpos]; omega) hd.inlen (by omega) hd.room hd.bytes (Nat.le_refl n)
  obtain ⟨hcounts, htotal⟩ := update_congr sym.toNat hd.counts hd.total
  refine ⟨_, exec_rcDec hdec hn, ?_, hd.mode, ?_, ?_, ?_, ?_, ?_, hd.inlen, hd.room, hd.bytes⟩
  · rw [ended_rc, decodedCoder, hdecoded, BitVec.ofNat_toNat, BitVec.setWidth_eq]
  · rw [ended_rc, decodedCoder, hdecoded, hcounts, he.counts]
  · rw [ended_rc, decodedCoder, hdecoded, htotal, he.total]
  · refine BitVec.eq_of_toNat_eq ?_
    rw [ended_rc, toNat_range_decodedCoder hdec hn, hdecoded, hd.share_eq, he.range]
  · rw [hheld]
    refine (toNat_pos_taken d n).trans ?_
    omega
  · rw [ended_rc, decodedCoder, renormedCoder, hdecoded, hd.rdiv_eq, hd.counts, he.number, hnumber, hpos, hheld]
    congr 1
    omega

/-! ### The round trip -/

/-- RC_FINISH without an error: the stream is the number at which the encoder stood. -/
theorem inInterval_of_rcFinish {s t : State} (h : s.rc.EncOk) (hrun : s.rc.ffrun.toNat + 4 < 2 ^ 32)
    (hexec : exec .rcFinish s = .next t) (herr : t.status.err = false) :
    InInterval s t ∧ t.rc.len.toNat ≤ t.caps.toNat := by
  rcases Nat.lt_or_ge s.caps.toNat (heldBytes s.rc + 4) with hroom | hroom
  · obtain ⟨u, hu, heq, -⟩ := rcFinish_of_no_room h.mode hrun hroom
    rw [next_inj hexec hu, heq] at herr
    cases herr
  · obtain ⟨u, hu, heq, hrc, hpos, hnumber, -⟩ := rcFinish_of_room h hroom
    obtain rfl := next_inj hexec hu
    have hlen : t.rc.len = t.rc.pos := by rw [hrc]
    have hcaps : t.caps = s.caps := by rw [heq]; rfl
    have hrange := h.range
    rw [top] at hrange
    rw [hpos] at hnumber
    refine ⟨⟨by rw [hlen, hpos], hnumber.ge, by rw [hnumber]; omega⟩, by rw [hlen, hpos, hcaps]; exact hroom⟩

theorem decodes_of_encodes (bytes : List Byte) {s t : State} (h : s.rc.EncOk)
    (hrun : heldBytes s.rc + 2 * bytes.length + 4 < 2 ^ 32) (hexec : execAll (bytes.map Instr.rcEnc ++ [.rcFinish]) s t)
    (herr : t.status.err = false) :
    InInterval s t ∧ t.rc.len.toNat ≤ t.caps.toNat ∧ ∀ d, Follows s d t → ∃ v, decodesTo bytes d v := by
  have hheld := heldBytes_eq s.rc
  rw [Coder.heldBack] at hheld
  induction bytes generalizing s with
  | nil =>
    obtain ⟨u, hu, rfl⟩ := hexec
    obtain ⟨hin, hlen⟩ := inInterval_of_rcFinish h (by omega) hu herr
    exact ⟨hin, hlen, fun d _ => ⟨d, rfl⟩⟩
  | cons b bytes ih =>
    obtain ⟨u, hu, hrest⟩ := hexec
    rw [List.length_cons] at hrun
    obtain ⟨n, hle, he⟩ := encodes_of_rcEnc h (by omega) hu (no_err_of_execAll hrest herr)
    obtain ⟨hin, hlen, hdecodes⟩ := ih he.encOk (by rw [he.held]; omega) hrest (heldBytes_eq u.rc)
    have hroom := hin.len
    rw [he.held] at hroom
    refine ⟨(he.inShare hin).inInterval h b.isLt (by omega), hlen, fun d hd => ?_⟩
    obtain ⟨e, hdec, hsym, hd'⟩ := hd.step h he hin
    obtain ⟨v, hv⟩ := hdecodes e hd'
    exact ⟨v, e, hdec, hsym, hv⟩

theorem heldBytes_start (s : State) : heldBytes (ended (s.withRc encStart)).rc = 0 := rfl

theorem codeNumber_start (s : State) : codeNumber (ended (s.withRc encStart)) = 0 := by
  have hwritten : streamNumber (ended (s.withRc encStart)) (ended (s.withRc encStart)).rc.pos.toNat = 0 := rfl
  have hpending : pending 0 encStart = 0 := rfl
  rw [codeNumber_eq, hwritten, ended_rc, withRc_rc, hpending]
  rfl

/-- R108, R313: four bytes as a word. -/
theorem toNat_firstWord (t : State) :
    (t.byteAt 0x100000 ++ t.byteAt 0x100001 ++ t.byteAt 0x100002 ++ t.byteAt 0x100003).toNat = streamNumber t 4 := by
  rw [toNat_append_byte, toNat_append_byte, toNat_append_byte]
  simp only [streamNumber, Nat.zero_mul, Nat.zero_add]

/-- R313: the decoder starts where the encoder did. -/
theorem follows_start {s t : State} (hlen : 4 ≤ t.rc.len.toNat) (hroom : t.rc.len.toNat ≤ t.caps.toNat) :
    ∃ d, exec .rcInitDec { t with inlen := t.rc.len } = .next d ∧ Follows (ended (s.withRc encStart)) d t := by
  obtain ⟨-, hinit⟩ := rcInitDecTakesFourBytes
  obtain ⟨hstart, -⟩ := hinit { t with inlen := t.rc.len }
  have hbyte {i : Nat} (hi : i < 4) : i < t.rc.len.toNat := by omega
  refine ⟨_, hstart hroom (t.byteAt 0x100000) (t.byteAt 0x100001) (t.byteAt 0x100002) (t.byteAt 0x100003)
    (if_pos (hbyte (by decide))).symm (if_pos (hbyte (by decide))).symm (if_pos (hbyte (by decide))).symm
    (if_pos (hbyte (by decide))).symm,
    rfl, rfl, rfl, rfl, rfl, ?_, rfl, hroom, fun _ => rfl⟩
  rw [codeNumber_start, heldBytes_start]
  exact toNat_firstWord t

/-- Settles O53: encoder and decoder start at the same interval, the whole of the range. -/
theorem decodingReturnsTheEncodedBytes : Obligations.DecodingReturnsTheEncodedBytes := by
  rintro s t bytes hlength - - ⟨u, hu, hrest⟩ herr
  obtain rfl := next_inj hu (exec_rcInitEnc s)
  have hheld : heldBytes (ended (s.withRc encStart)).rc = 0 := rfl
  obtain ⟨hin, hroom, hdecodes⟩ := decodes_of_encodes bytes encOk_encStart (by rw [hheld]; omega) hrest herr
  have hlen := hin.len
  rw [hheld] at hlen
  obtain ⟨d, hd, hfollows⟩ := follows_start (s := s) hlen hroom
  obtain ⟨v, hv⟩ := hdecodes d hfollows
  exact ⟨d, v, hd, hv⟩

end Sys2Proof.Machine
end

