-- ==== Sys2Proof/Proofs/QuantizerScale.lean ====
section
/-! The scale of the quantiser (44_quantizer.md R360): the largest part of the bins that take part (O47). -/

namespace Sys2Proof.Machine

/-! ### Absolute values and maxima -/

@[simp] theorem magBits_fabs (a : F32) : magBits (fabs a) = magBits a := by
  have hand : (fabs a).toNat = a.toNat % 2 ^ 31 := (BitVec.toNat_and ..).trans (Nat.and_two_pow_sub_one_eq_mod a.toNat 31)
  rw [magBits, hand, Nat.mod_mod, magBits]

@[simp] theorem signBit_fabs (a : F32) : signBit (fabs a) = false := by
  rw [signBit, fabs, BitVec.getLsbD_and]
  exact Bool.and_false _

@[simp] theorem isNaN_fabs (a : F32) : isNaN (fabs a) = isNaN a := by simp [isNaN]

theorem orderKey_fabs (a : F32) : orderKey (fabs a) = magBits a := by simp [orderKey]

theorem fle_trans {a b c : F32} (hab : fle a b = true) (hbc : fle b c = true) : fle a c = true := by
  simp only [fle, Bool.and_eq_true, decide_eq_true_eq] at hab hbc ⊢
  obtain ⟨⟨ha, -⟩, hle⟩ := hab
  obtain ⟨⟨-, hc⟩, hle'⟩ := hbc
  exact ⟨⟨ha, hc⟩, hle.trans hle'⟩

theorem fmax_eq_or (a b : F32) : fmax a b = a ∨ fmax a b = b := by
  rw [fmax]
  split
  · exact .inr rfl
  · exact .inl rfl

section
variable {a b : F32} (ha : isNaN a = false) (hb : isNaN b = false)
include ha hb

theorem not_isNaN_fmax : isNaN (fmax a b) = false := by
  rcases fmax_eq_or a b with h | h <;> rw [h]
  · exact ha
  · exact hb

theorem fle_fmax : fle a (fmax a b) = true ∧ fle b (fmax a b) = true := by
  rw [fmax, fgt, flt_eq ha hb]
  split
  · next h =>
    rw [fle_eq ha hb, fle_eq hb hb]
    simpa using (of_decide_eq_true h).le
  · next h =>
    rw [fle_eq ha ha, fle_eq hb ha]
    simpa using h

end

/-! ### The bins that take part -/

/-- R360: bin `k` takes part in the scan. -/
def TakesPart (s : State) (k : Nat) : Prop := fgt (mag2 (s.cre k) (s.cim k)) 0#32 = true

theorem maxStep_of_takesPart {s : State} {k : Nat} (h : TakesPart s k) (mx : F32) :
    maxStep mx (s.cre k) (s.cim k) = fmax mx (fmax (fabs (s.cre k)) (fabs (s.cim k))) := if_pos h

theorem maxStep_of_not_takesPart {s : State} {k : Nat} (h : ¬TakesPart s k) (mx : F32) :
    maxStep mx (s.cre k) (s.cim k) = mx := if_neg h

/-- A sum with a NaN, or of the square of a NaN, is one. -/
theorem not_isNaN_of_takesPart {s : State} {k : Nat} (h : TakesPart s k) :
    isNaN (s.cre k) = false ∧ isNaN (s.cim k) = false := by
  have hn : ¬(isNaN (s.cre k) = true ∨ isNaN (s.cim k) = true) := by
    intro hpart
    have hsquare : isNaN (fmul (s.cre k) (s.cre k)) = true ∨ isNaN (fmul (s.cim k) (s.cim k)) = true :=
      hpart.imp (fun hre => by rw [fmul_of_isNaN (.inl hre), isNaN_qNaN]) fun him => by
        rw [fmul_of_isNaN (.inl him), isNaN_qNaN]
    rw [TakesPart, mag2, fadd_of_isNaN hsquare] at h
    exact absurd h (by decide)
  simpa [not_or] using hn

/-- A bin of two zeros has the squared magnitude +0. -/
theorem not_takesPart_of_isZero {s : State} {k : Nat} (hre : isZero (s.cre k) = true) (him : isZero (s.cim k) = true) :
    ¬TakesPart s k := by
  have hzero : ∀ x y : Bool, fgt (mag2 (packF x 0) (packF y 0)) 0#32 = false := by decide +kernel
  rw [TakesPart, ← packF_fields (s.cre k), ← packF_fields (s.cim k), isZero_iff.1 hre, isZero_iff.1 him, hzero]
  exact Bool.false_ne_true

theorem isZero_of_fle_zero {a : F32} (h : fle (fabs a) 0#32 = true) : isZero a = true := by
  simp only [fle, Bool.and_eq_true, decide_eq_true_eq, orderKey_fabs] at h
  obtain ⟨-, hle⟩ := h
  have hzero : orderKey 0#32 = 0 := by decide
  rw [isZero_iff]
  omega

/-! ### The scan -/

/-- The scan of R360 after the turns below `n`. -/
def maxBelow (s : State) (n : Nat) : F32 := (List.range n).foldl (fun mx k => maxStep mx (s.cre k) (s.cim k)) 0#32

theorem maxVal_eq (s : State) : maxVal s = if maxBelow s 64 = 0#32 then 0x3F800000#32 else maxBelow s 64 := rfl

theorem maxBelow_succ (s : State) (n : Nat) : maxBelow s (n + 1) = maxStep (maxBelow s n) (s.cre n) (s.cim n) := by
  rw [maxBelow, List.range_succ, List.foldl_concat, ← maxBelow]

/-- `mx` is the largest part of the bins below `n` that take part, or +0. -/
structure LargestPart (s : State) (n : Nat) (mx : F32) : Prop where
  number : isNaN mx = false
  bounds : ∀ k, k < n → TakesPart s k → fle (fabs (s.cre k)) mx = true ∧ fle (fabs (s.cim k)) mx = true
  attained : mx = 0#32 ∨ ∃ k, k < n ∧ TakesPart s k ∧ (mx = fabs (s.cre k) ∨ mx = fabs (s.cim k))

theorem LargestPart.step {s : State} {n : Nat} {mx : F32} (h : LargestPart s n mx) :
    LargestPart s (n + 1) (maxStep mx (s.cre n) (s.cim n)) := by
  have hold : mx = 0#32 ∨ ∃ k, k < n + 1 ∧ TakesPart s k ∧ (mx = fabs (s.cre k) ∨ mx = fabs (s.cim k)) :=
    h.attained.imp_right fun ⟨k, hk, hpart⟩ => ⟨k, hk.trans n.lt_succ_self, hpart⟩
  by_cases ht : TakesPart s n
  case neg =>
    rw [maxStep_of_not_takesPart ht]
    refine ⟨h.number, fun k hk hkt => h.bounds k ?_ hkt, hold⟩
    exact (Nat.lt_succ_iff_lt_or_eq.1 hk).resolve_right fun hkn => ht (hkn ▸ hkt)
  case pos =>
    rw [maxStep_of_takesPart ht]
    obtain ⟨hre, him⟩ := not_isNaN_of_takesPart ht
    rw [← isNaN_fabs] at hre him
    have hpart := not_isNaN_fmax hre him
    obtain ⟨hlere, hleim⟩ := fle_fmax hre him
    obtain ⟨hlemx, hlepart⟩ := fle_fmax h.number hpart
    refine ⟨not_isNaN_fmax h.number hpart, fun k hk hkt => ?_, ?_⟩
    · rcases Nat.lt_succ_iff_lt_or_eq.1 hk with hlt | rfl
      · obtain ⟨hkre, hkim⟩ := h.bounds k hlt hkt
        exact ⟨fle_trans hkre hlemx, fle_trans hkim hlemx⟩
      · exact ⟨fle_trans hlere hlepart, fle_trans hleim hlepart⟩
    · rcases fmax_eq_or mx (fmax (fabs (s.cre n)) (fabs (s.cim n))) with hmx | hmx <;> rw [hmx]
      · exact hold
      · exact .inr ⟨n, n.lt_succ_self, ht, fmax_eq_or _ _⟩

theorem largestPart_maxBelow (s : State) (n : Nat) : LargestPart s n (maxBelow s n) := by
  induction n with
  | zero => exact ⟨(by decide : isNaN 0#32 = false), nofun, .inl rfl⟩
  | succ n ih =>
    rw [maxBelow_succ]
    exact ih.step

/-- A bin that takes part has a part above 0, so the scan ends at +0 only where no bin does. -/
theorem LargestPart.not_takesPart {s : State} {n : Nat} (h : LargestPart s n 0#32) {k : Nat} (hk : k < n) :
    ¬TakesPart s k := fun ht =>
  have ⟨hre, him⟩ := h.bounds k hk ht
  not_takesPart_of_isZero (isZero_of_fle_zero hre) (isZero_of_fle_zero him) ht

/-- Settles O47: the scan ends at +0, where no bin takes part, or at the largest part. -/
theorem maxValIsTheLargestPart : Obligations.MaxValIsTheLargestPart := by
  intro s
  have hmax := largestPart_maxBelow s 64
  by_cases hzero : maxBelow s 64 = 0#32
  case pos =>
    rw [hzero] at hmax
    rw [maxVal_eq, if_pos hzero]
    exact ⟨fun k hk ht => absurd ht (hmax.not_takesPart hk),
      .inl ⟨rfl, fun k hk => Bool.eq_false_of_not_eq_true (hmax.not_takesPart hk)⟩⟩
  case neg =>
    rw [maxVal_eq, if_neg hzero]
    exact ⟨hmax.bounds, .inr (hmax.attained.resolve_left hzero)⟩

end Sys2Proof.Machine
end

