-- ==== Sys2Proof/Proofs/QuantRecord.lean ====
section
/-! QUANT (44_quantizer.md R361, R362): the sparse record of the kept bins (O32). -/

namespace Sys2Proof.Machine

open Sys2Proof.Claims

/-! ### Lists of stored values -/

theorem getElem?_flatMap_pair {α β : Type} (l : List α) (f g : α → β) (i : Nat) :
    (l.flatMap fun x => [f x, g x])[2 * i]? = l[i]?.map f ∧ (l.flatMap fun x => [f x, g x])[2 * i + 1]? = l[i]?.map g := by
  induction l generalizing i with
  | nil => exact ⟨rfl, rfl⟩
  | cons x l ih =>
    cases i with
    | zero => exact ⟨rfl, rfl⟩
    | succ i => exact ih i

/-- Zeros after a list are what a read past its end gives. -/
theorem getD_append_zeros (l : List Byte) (n i : Nat) : (l ++ List.replicate n 0#8).getD i 0#8 = l.getD i 0#8 := by
  rcases Nat.lt_or_ge i l.length with h | h
  · exact List.getD_append _ _ _ _ h
  · rw [List.getD_append_right _ _ _ _ h, List.getD_eq_default l _ h, List.getD_eq_getElem?_getD,
      List.getElem?_getD_replicate_default_eq]

/-! ### The kept bins -/

theorem mem_keptBins {s : State} {k : Nat} : k ∈ keptBins s ↔ k < 64 ∧ (s.keepHi ++ s.keepLo).getLsbD k = true := by
  rw [keptBins, List.mem_filter, List.mem_range, State.keep]

theorem keptBins_pairwise_lt (s : State) : (keptBins s).Pairwise (· < ·) := List.pairwise_lt_range.filter _

/-! ### What QUANT stores -/

/-- The bytes of IDX that QUANT stores (R362). -/
def recordIdx (s : State) : List Byte :=
  (keptBins s).map (BitVec.ofNat 8) ++ List.replicate (64 - (keptBins s).length) 0#8

/-- The bytes of QVAL that QUANT stores (R362). -/
def recordQval (s : State) : List Byte :=
  (keptBins s).flatMap (fun k => [quant8 (s.cre k) (maxVal s), quant8 (s.cim k) (maxVal s)])
    ++ List.replicate (2 * (64 - (keptBins s).length)) 0#8

theorem quantize_eq (s : State) :
    quantize s =
      { (s.storeBytes idxBase (recordIdx s)).storeBytes qvalBase (recordQval s) with
        kcount := BitVec.ofNat 7 (keptBins s).length, maxval := maxVal s } := rfl

theorem length_recordIdx (s : State) : (recordIdx s).length = 64 := by
  have := length_keptBins_le s
  rw [recordIdx, List.length_append, List.length_map, List.length_replicate]
  omega

theorem length_recordQval (s : State) : (recordQval s).length = 128 := by
  have := length_keptBins_le s
  rw [recordQval, List.length_append, length_flatMap_pair, List.length_replicate]
  omega

theorem getD_recordIdx {s : State} {j : Nat} (h : j < (keptBins s).length) :
    (recordIdx s).getD j 0#8 = BitVec.ofNat 8 (keptBins s)[j] := by
  rw [recordIdx, getD_append_zeros, List.getD_eq_getElem _ _ (by rwa [List.length_map]), List.getElem_map]

theorem getD_recordIdx_of_le {s : State} {j : Nat} (h : (keptBins s).length ≤ j) : (recordIdx s).getD j 0#8 = 0#8 := by
  rw [recordIdx, getD_append_zeros, List.getD_eq_default _ _ (by rwa [List.length_map])]

theorem getD_recordQval {s : State} {j : Nat} (h : j < (keptBins s).length) :
    (recordQval s).getD (2 * j) 0#8 = quant8 (s.cre (keptBins s)[j]) (maxVal s)
      ∧ (recordQval s).getD (2 * j + 1) 0#8 = quant8 (s.cim (keptBins s)[j]) (maxVal s) := by
  obtain ⟨hre, him⟩ := getElem?_flatMap_pair (keptBins s) (fun k => quant8 (s.cre k) (maxVal s))
    (fun k => quant8 (s.cim k) (maxVal s)) j
  rw [recordQval, getD_append_zeros, getD_append_zeros, List.getD_eq_getElem?_getD, List.getD_eq_getElem?_getD, hre, him,
    List.getElem?_eq_getElem h]
  exact ⟨rfl, rfl⟩

theorem getD_recordQval_of_le {s : State} {i : Nat} (h : 2 * (keptBins s).length ≤ i) :
    (recordQval s).getD i 0#8 = 0#8 := by
  rw [recordQval, getD_append_zeros, List.getD_eq_default _ _ (by rwa [length_flatMap_pair])]

/-! ### What is read back -/

theorem byteAt_quantize_idx (s : State) {j : Nat} (h : j < 64) :
    (quantize s).byteAt (0x400 + j) = (recordIdx s).getD j 0#8 := by
  rw [quantize_eq]
  change ((s.storeBytes idxBase (recordIdx s)).storeBytes qvalBase (recordQval s)).byteAt (idxBase + j) = _
  rw [byteAt_storeBytes_of_outside (by simp only [idxBase, qvalBase]; omega),
    byteAt_storeBytes_of_inside (by rwa [length_recordIdx])]

theorem byteAt_quantize_qval (s : State) {i : Nat} (h : i < 128) :
    (quantize s).byteAt (0x480 + i) = (recordQval s).getD i 0#8 := by
  rw [quantize_eq]
  change ((s.storeBytes idxBase (recordIdx s)).storeBytes qvalBase (recordQval s)).byteAt (qvalBase + i) = _
  rw [byteAt_storeBytes_of_inside (by rwa [length_recordQval])]

theorem byteAt_quantize_of_outside (s : State) {a : Nat} (h : a < 0x400 ∨ (0x440 ≤ a ∧ a < 0x480) ∨ 0x500 ≤ a) :
    (quantize s).byteAt a = s.byteAt a := by
  have hidx := length_recordIdx s
  have hqval := length_recordQval s
  rw [quantize_eq]
  change ((s.storeBytes idxBase (recordIdx s)).storeBytes qvalBase (recordQval s)).byteAt a = _
  rw [byteAt_storeBytes_of_outside (by simp only [qvalBase]; omega),
    byteAt_storeBytes_of_outside (by simp only [idxBase]; omega)]

theorem toNat_kcount_quantize (s : State) : (quantize s).kcount.toNat = (keptBins s).length := by
  have := length_keptBins_le s
  rw [quantize_eq]
  exact (BitVec.toNat_ofNat ..).trans (Nat.mod_eq_of_lt (by omega))

/-- R362: entry `j` of IDX is the `j`-th kept bin. -/
theorem toNat_byteAt_quantize_idx {s : State} {j : Nat} (h : j < (keptBins s).length) :
    ((quantize s).byteAt (0x400 + j)).toNat = (keptBins s)[j] := by
  have hle := length_keptBins_le s
  obtain ⟨hlt, -⟩ := mem_keptBins.1 (List.getElem_mem h)
  rw [byteAt_quantize_idx s (by omega), getD_recordIdx h, BitVec.toNat_ofNat, Nat.mod_eq_of_lt (by omega)]

/-- R361, R362: entry `j` of QVAL is the `j`-th kept bin, quantised. -/
theorem byteAt_quantize_qval_of_lt {s : State} {j : Nat} (h : j < (keptBins s).length) :
    (quantize s).byteAt (0x480 + 2 * j) = quant8 (s.cre (keptBins s)[j]) (maxVal s)
      ∧ (quantize s).byteAt (0x481 + 2 * j) = quant8 (s.cim (keptBins s)[j]) (maxVal s) := by
  have hle := length_keptBins_le s
  obtain ⟨hre, him⟩ := getD_recordQval h
  rw [show 0x481 + 2 * j = 0x480 + (2 * j + 1) by omega, byteAt_quantize_qval s (by omega),
    byteAt_quantize_qval s (by omega)]
  exact ⟨hre, him⟩

theorem byteAt_quantize_of_le {s : State} {j : Nat} (h : (keptBins s).length ≤ j) (hj : j < 64) :
    (quantize s).byteAt (0x400 + j) = 0#8 ∧ (quantize s).byteAt (0x480 + 2 * j) = 0#8
      ∧ (quantize s).byteAt (0x481 + 2 * j) = 0#8 := by
  rw [show 0x481 + 2 * j = 0x480 + (2 * j + 1) by omega, byteAt_quantize_idx s hj, byteAt_quantize_qval s (by omega),
    byteAt_quantize_qval s (by omega)]
  exact ⟨getD_recordIdx_of_le h, getD_recordQval_of_le (by omega), getD_recordQval_of_le (by omega)⟩

/-! ### The statement -/

theorem exec_quant (s : State) : exec .quant s = .next (ended (quantize s)) := rfl

/-- Settles O32: the record lists the kept bins, which rise, and zeros fill it. -/
theorem quantBuildsTheRecord : Obligations.QuantBuildsTheRecord := by
  refine ⟨decode_encode .quant, fun s => ?_⟩
  refine ⟨_, (keptBins s).length, exec_quant s, rfl, (toNat_kcount_quantize s).symm, rfl, rfl, fun j hj => ?entry,
    fun i j hij hj => ?rising, fun j hle hj => byteAt_quantize_of_le hle hj, fun a ha => byteAt_quantize_of_outside s ha⟩
  case entry =>
    rw [ended_byteAt, ended_byteAt, ended_byteAt, toNat_byteAt_quantize_idx hj]
    obtain ⟨hlt, hkeep⟩ := mem_keptBins.1 (List.getElem_mem hj)
    obtain ⟨hre, him⟩ := byteAt_quantize_qval_of_lt hj
    exact ⟨hlt, hkeep, hre, him⟩
  case rising =>
    rw [ended_byteAt, ended_byteAt, toNat_byteAt_quantize_idx hj, toNat_byteAt_quantize_idx (hij.trans hj)]
    exact List.pairwise_iff_getElem.1 (keptBins_pairwise_lt s) i j (hij.trans hj) hj hij

end Sys2Proof.Machine
end

