-- ==== Sys2Proof/Proofs/DequantRecord.lean ====
section
/-! DEQUANT (44_quantizer.md R363 to R365): the checks of the record and the scattered bins (O33), and the record that
QUANT builds (O48). -/

namespace Sys2Proof.Machine

open Sys2Proof.Claims

/-! ### Scattering values by position -/

section
variable {α : Type} {pos : Nat → Nat} {val : Nat → α}

theorem getElem?_foldl_set_of_forall_ne (l : List Nat) (bins : List α) {k : Nat} (h : ∀ j ∈ l, pos j ≠ k) :
    (l.foldl (fun bins j => bins.set (pos j) (val j)) bins)[k]? = bins[k]? := by
  induction l generalizing bins with
  | nil => rfl
  | cons i l ih =>
    rw [List.foldl_cons, ih _ fun j hj => h j (List.mem_cons_of_mem i hj), List.getElem?_set_ne (h i List.mem_cons_self)]

/-- A position that one entry only names takes that entry's value. -/
theorem getElem?_foldl_set (l : List Nat) (bins : List α) {j : Nat} (hj : j ∈ l) (hpos : pos j < bins.length)
    (honce : ∀ i ∈ l, pos i = pos j → i = j) :
    (l.foldl (fun bins j => bins.set (pos j) (val j)) bins)[pos j]? = some (val j) := by
  induction l generalizing bins with
  | nil => cases hj
  | cons i l ih =>
    have honce' : ∀ i ∈ l, pos i = pos j → i = j := fun i hi => honce i (List.mem_cons_of_mem _ hi)
    rw [List.foldl_cons]
    by_cases hl : j ∈ l
    · exact ih _ hl (by rwa [List.length_set]) honce'
    · obtain rfl : j = i := (List.mem_cons.1 hj).resolve_right hl
      rw [getElem?_foldl_set_of_forall_ne l _ fun i hi heq => hl (honce' i hi heq ▸ hi), List.getElem?_set_self hpos]

end

/-! ### The checks -/

theorem badIndex_iff {s : State} {j : Nat} :
    badIndex s j = true ↔
      64 ≤ (s.byteAt (0x400 + j)).toNat
        ∨ (1 ≤ j ∧ (s.byteAt (0x400 + j)).toNat ≤ (s.byteAt (0x400 + (j - 1))).toNat) := by
  rw [badIndex, Bool.or_eq_true, Bool.and_eq_true, decide_eq_true_iff, decide_eq_true_iff, decide_eq_true_iff]
  rfl

theorem badRecord_iff {s : State} : badRecord s = true ↔ ∃ j, j < s.kcount.toNat ∧ badIndex s j = true := by
  simp [badRecord]

/-- The indices of the record lie in range and rise from each entry to the next (R364 (b)). -/
structure GoodIndices (s : State) : Prop where
  lt : ∀ j, j < s.kcount.toNat → (s.byteAt (0x400 + j)).toNat < 64
  next : ∀ j, j + 1 < s.kcount.toNat → (s.byteAt (0x400 + j)).toNat < (s.byteAt (0x400 + (j + 1))).toNat

namespace GoodIndices
variable {s : State} (h : GoodIndices s)
include h

theorem not_badRecord : badRecord s = false := by
  rw [← Bool.not_eq_true, badRecord_iff]
  rintro ⟨j, hj, hbad⟩
  rcases badIndex_iff.1 hbad with hrange | ⟨h1, hle⟩
  · exact absurd (h.lt j hj) (by omega)
  · obtain ⟨i, rfl⟩ : ∃ i, j = i + 1 := ⟨j - 1, by omega⟩
    exact absurd (h.next i hj) (not_lt.2 hle)

theorem rising {i j : Nat} (hij : i < j) (hj : j < s.kcount.toNat) :
    (s.byteAt (0x400 + i)).toNat < (s.byteAt (0x400 + j)).toNat := by
  induction j, hij using Nat.le_induction with
  | base => exact h.next i hj
  | succ j _ ih => exact (ih (by omega)).trans (h.next j hj)

theorem injective {i j : Nat} (hi : i < s.kcount.toNat) (hj : j < s.kcount.toNat)
    (heq : (s.byteAt (0x400 + i)).toNat = (s.byteAt (0x400 + j)).toNat) : i = j := by
  rcases Nat.lt_trichotomy i j with hij | hij | hij
  · exact absurd heq (h.rising hij hj).ne
  · exact hij
  · exact absurd heq (h.rising hij hi).ne'

/-! ### The scattered bins -/

theorem getElem?_scattered {j : Nat} (hj : j < s.kcount.toNat) :
    (scattered s)[(s.byteAt (0x400 + j)).toNat]?
      = some (dequant8 (s.byteAt (0x480 + 2 * j)) s.maxval, dequant8 (s.byteAt (0x481 + 2 * j)) s.maxval) :=
  getElem?_foldl_set (pos := fun j => (s.idx j).toNat) (List.range s.kcount.toNat) _ (List.mem_range.2 hj)
    (by rw [List.length_replicate]; exact h.lt j hj) fun _ hi heq => h.injective (List.mem_range.1 hi) hj heq

end GoodIndices

theorem getElem?_scattered_of_forall_ne {s : State} {k : Nat} (hk : k < 64)
    (h : ∀ j, j < s.kcount.toNat → (s.byteAt (0x400 + j)).toNat ≠ k) : (scattered s)[k]? = some (0#32, 0#32) := by
  rw [scattered, getElem?_foldl_set_of_forall_ne (pos := fun j => (s.idx j).toNat) _ _ fun j hj => h j (List.mem_range.1 hj),
    List.getElem?_replicate, if_pos hk]

/-- The state after the record is scattered into COEF (R365). -/
def dequantized (s : State) : State := s.storeWords coefBase ((scattered s).flatMap fun b => [b.1, b.2])

/-- R67: what is read back of the stored bins. -/
theorem wordAt_dequantized {s : State} {k : Nat} {re im : F32} (h : (scattered s)[k]? = some (re, im)) :
    (dequantized s).wordAt (0x200 + 8 * k) = re ∧ (dequantized s).wordAt (0x204 + 8 * k) = im := by
  obtain ⟨hk, -⟩ := List.getElem?_eq_some_iff.1 h
  obtain ⟨hre, him⟩ := getElem?_flatMap_pair (scattered s) Prod.fst Prod.snd k
  have hlength := length_flatMap_pair (scattered s) Prod.fst Prod.snd
  have hread {i : Nat} (hi : i < 2 * (scattered s).length) :=
    wordAt_storeWords (s := s) (a := coefBase) (by rwa [hlength] : i < _)
  have hcoef : coefBase = 0x200 := rfl
  rw [dequantized, show 0x200 + 8 * k = coefBase + 4 * (2 * k) by omega,
    show 0x204 + 8 * k = coefBase + 4 * (2 * k + 1) by omega, hread (by omega), hread (by omega),
    List.getD_eq_getElem?_getD, List.getD_eq_getElem?_getD, hre, him, h]
  exact ⟨rfl, rfl⟩

theorem byteAt_dequantized_of_outside (s : State) {a : Nat} (h : a < 0x200 ∨ 0x400 ≤ a) :
    (dequantized s).byteAt a = s.byteAt a :=
  byteAt_storeWords_of_outside (by rw [length_flatMap_pair, length_scattered, coefBase]; omega)

/-! ### The command -/

theorem exec_dequant_of_lt {s : State} (h : 64 < s.kcount.toNat) : exec .dequant s = .next (endedWith .param s) := by
  change execDequant s = _
  rw [execDequant, if_pos h, finish_failed]

theorem exec_dequant_of_badRecord {s : State} (hk : s.kcount.toNat ≤ 64) (h : badRecord s = true) :
    exec .dequant s = .next (endedWith .badidx s) := by
  change execDequant s = _
  rw [execDequant, if_neg (not_lt.2 hk), if_pos h, finish_failed]

theorem exec_dequant_of_goodIndices {s : State} (hk : s.kcount.toNat ≤ 64) (h : GoodIndices s) :
    exec .dequant s = .next (ended (dequantized s)) := by
  change execDequant s = _
  rw [execDequant, if_neg (not_lt.2 hk), if_neg (by simp [h.not_badRecord]), finish_ok, dequantized]

/-- Settles O33: the two failures, then the bins that the record names, the others, and the frame. -/
theorem dequantScattersTheRecord : Obligations.DequantScattersTheRecord := by
  refine ⟨decode_encode .dequant, fun s => ⟨exec_dequant_of_lt, fun hk ⟨j, hj, hbad⟩ => ?_, fun hk hlt hnext => ?_⟩⟩
  · exact exec_dequant_of_badRecord hk (badRecord_iff.2 ⟨j, hj, badIndex_iff.2 hbad⟩)
  · have hgood : GoodIndices s := ⟨hlt, hnext⟩
    refine ⟨_, exec_dequant_of_goodIndices hk hgood, rfl, ?_, fun k hk64 hne => ?_,
      fun a ha => byteAt_dequantized_of_outside s ha⟩
    · rintro j hj k rfl
      exact wordAt_dequantized (hgood.getElem?_scattered hj)
    · exact wordAt_dequantized (getElem?_scattered_of_forall_ne hk64 hne)

/-! ### The record that QUANT builds -/

/-- Settles O48: the record's indices are the kept bins, which are in range and rise, so no other bin is named. -/
theorem quantRecordsPassDequantsChecks : Obligations.QuantRecordsPassDequantsChecks := by
  intro s t hexec
  obtain ⟨-, hquant⟩ := quantBuildsTheRecord
  obtain ⟨t', K, hnext, hframe, rfl, hcount, -, hentry, hrising, -, -⟩ := hquant s
  obtain rfl := next_inj hexec hnext
  have hstatus : t.status = (ended s).status := (congrArg State.status hframe :)
  have hle : t.kcount.toNat ≤ 64 := hcount.trans_le (length_keptBins_le s)
  have hgood : GoodIndices t := ⟨fun j hj => (hentry j hj).1, fun j hj => hrising j (j + 1) j.lt_succ_self hj⟩
  refine ⟨_, exec_dequant_of_goodIndices hle hgood, ?_, fun k hk hdropped => ?_⟩
  · change (ended t).status = t.status
    rw [ended, hstatus]
    rfl
  · refine wordAt_dequantized (getElem?_scattered_of_forall_ne hk fun j hj hjk => ?_)
    obtain ⟨-, hkeep, -⟩ := hentry j hj
    rw [hjk, hdropped] at hkeep
    cases hkeep

end Sys2Proof.Machine
end

