-- ==== Sys2Proof/Proofs/StatusAccord.lean ====
section
/-! BUSY in accord with PCMD, and ECODE with ERR (10_state.md R73; 60_exceptions.md R402 to R407). How a command ends is said
once for every command: it completes, or it fails with a code that is not 0; only a coder out of its bounds lets it stop.
A host event signals, issues, clears or resets, and each keeps the accord. -/

namespace Sys2Proof.Machine

open Sys2Proof.Claims

/-! ### How a command ends -/

/-- ERR and ECODE are as they were. -/
def SameError (s u : State) : Prop := u.status.err = s.status.err ∧ u.status.ecode = s.status.ecode

theorem SameError.of_status_eq {s u : State} (h : u.status = s.status) : SameError s u := by
  rw [SameError, h]
  exact ⟨rfl, rfl⟩

/-- The decoder's operations write no field of STATUS but INEXH. -/
theorem DecoderWrites.sameError {s u : State} : DecoderWrites s u → SameError s u := by
  rintro ⟨_, _, rfl, -⟩
  exact ⟨rfl, rfl⟩

/-- The engine goes on: the pseudocode left ERR and ECODE alone, and the command completes or fails with an error (R402,
R405). -/
def GoesOn (s : State) (o : Host.Outcome State Fault Refusal) : Prop :=
  ∃ u, SameError s u ∧ (o = .next (ended u) ∨ ∃ code, code ≠ .none ∧ o = .next (endedWith code u))

namespace GoesOn

theorem ended {s u : State} (h : SameError s u) : GoesOn s (.next (ended u)) := ⟨u, h, .inl rfl⟩

/-- A command that fails before its first write. -/
theorem failed (s : State) {code : ErrCode} (h : code ≠ .none) : GoesOn s (.next (endedWith code s)) :=
  ⟨s, ⟨rfl, rfl⟩, .inr ⟨code, h, rfl⟩⟩

/-- Pushes end in a last assignment to the coder, or with OVF (R307). -/
theorem pushes {s : State} {r : CmdResult} {f : State → CmdResult} {g : State → Coder} (h : PushesFrom s r)
    (hf : ∀ u, f u = .ok (u.withRc (g u))) : GoesOn s (r.andThen f).finish := by
  obtain ⟨t, ht⟩ := finish_next (r.andThen f)
  rw [ht]
  rcases next_of_pushesFrom h hf ht with ⟨u, ⟨hstatus, -⟩, rfl⟩ | ⟨u, ⟨hstatus, -⟩, rfl⟩
  · exact .ended (.of_status_eq hstatus)
  · exact ⟨u, .of_status_eq hstatus, .inr ⟨.ovf, by decide, rfl⟩⟩

end GoesOn

theorem goesOn_grad (s : State) : GoesOn s (exec .grad s) := by
  rw [exec_grad]
  generalize gradient (atan2At s.angles) s.patch = gr
  exact .ended (u := { s with gr := gr }) (.of_status_eq rfl)

theorem goesOn_fftFwd (s : State) : GoesOn s (exec .fftFwd s) := by
  rw [exec_fftFwd]
  exact .ended (.of_status_eq rfl)

/-- R235: of STATUS the inverse transform writes NF alone. -/
theorem goesOn_fftInv (s : State) : GoesOn s (exec .fftInv s) := by
  rw [exec_fftInv]
  exact .ended ⟨rfl, rfl⟩

/-- R238, R240: both filters store bins or fail with PARAM. -/
theorem goesOn_filter (s : State) (f : Nat → F32 × F32) :
    GoesOn s
      (if svalid s.sParam then (CmdResult.ok (s.storeBins1 f)).finish else (CmdResult.failed .param s).finish) := by
  split
  · exact .ended (.of_status_eq rfl)
  · rw [finish_failed]
    exact .failed s (by decide)

theorem goesOn_thresh (s : State) : GoesOn s (execThresh s) := by
  rw [execThresh]
  split
  · rw [threshold_eq]
    exact .ended (.of_status_eq rfl)
  · rw [finish_failed]
    exact .failed s (by decide)

theorem goesOn_rcFinish (s : State) : GoesOn s (exec .rcFinish s) := by
  by_cases hmode : s.rc.mode = .enc
  · rw [exec_rcFinish hmode]
    exact .pushes (pushesFrom_pushOps id 5 s) fun _ => rfl
  · rw [exec_rcFinish_of_ne hmode]
    exact .failed s (by decide)

theorem goesOn_rcInitDec (s : State) : GoesOn s (execRcInitDec s) := by
  rw [execRcInitDec]
  split
  · rw [finish_failed]
    exact .failed s (by decide)
  · exact .ended (decoderWrites_start _ _ s).sameError

theorem goesOn_dequant (s : State) : GoesOn s (execDequant s) := by
  rw [execDequant]
  split_ifs
  · rw [finish_failed]
    exact .failed s (by decide)
  · rw [finish_failed]
    exact .failed s (by decide)
  · exact .ended (.of_status_eq rfl)

/-- R317 (a): RC_ENC stops only where the coder is out of its bounds. -/
theorem goesOn_rcEnc (sym : Byte) (s : State) :
    GoesOn s (exec (.rcEnc sym) s) ∨ (exec (.rcEnc sym) s = .fault .zeroRange ∧ ¬s.rc.Ok) := by
  by_cases hmode : s.rc.mode = .enc
  · rw [exec, execRcEnc, if_neg (not_not_intro hmode)]
    split
    · next hzero =>
      refine .inr ⟨rfl, fun hok => ?_⟩
      have henc := hok.encOk hmode
      exact narrowed_ne_zero henc.model henc.range sym.isLt hzero
    · have hstart : PushesFrom s (.ok (s.withRc (s.rc.encInterval sym.toNat))) := ⟨rfl, rfl, rfl, rfl⟩
      exact .inl (.pushes (hstart.trans (pushesFrom_renormEnc 4 _)) fun _ => rfl)
  · rw [exec_rcEnc_of_ne hmode]
    exact .inl (.failed s (by decide))

/-- R317 (a): RC_DEC likewise. -/
theorem goesOn_rcDec (s : State) :
    GoesOn s (exec .rcDec s) ∨ (exec .rcDec s = .fault .zeroRange ∧ ¬s.rc.Ok) := by
  by_cases hmode : s.rc.mode = .dec
  · rw [exec, execRcDec, if_neg (not_not_intro hmode)]
    split
    · next hzero =>
      refine .inr ⟨rfl, fun hok => ?_⟩
      have hdec := hok.decOk hmode
      exact narrowed_ne_zero hdec.model hdec.range (decoded_lt s.rc) hzero
    · exact .inl (.ended (decoderWrites_decodeSymbol s).sameError)
  · rw [exec_rcDec_of_ne hmode]
    exact .inl (.failed s (by decide))

/-- Every command goes on, unless it finds a range of zero, and that only in a coder out of its bounds. -/
theorem goesOn_exec (i : Instr) (s : State) :
    GoesOn s (exec i s) ∨ (exec i s = .fault .zeroRange ∧ ¬s.rc.Ok) := by
  cases i with
  | nop => exact .inl (.ended (u := s) (.of_status_eq rfl))
  | grad => exact .inl (goesOn_grad s)
  | fftFwd => exact .inl (goesOn_fftFwd s)
  | fftInv => exact .inl (goesOn_fftInv s)
  | pltmFwd => exact .inl (goesOn_filter s _)
  | pltmInv => exact .inl (goesOn_filter s _)
  | thresh => exact .inl (goesOn_thresh s)
  | rcInitEnc => exact .inl (.ended (u := s.withRc encStart) (.of_status_eq rfl))
  | rcEnc sym => exact goesOn_rcEnc sym s
  | rcFinish => exact .inl (goesOn_rcFinish s)
  | rcInitDec => exact .inl (goesOn_rcInitDec s)
  | rcDec => exact goesOn_rcDec s
  | quant => exact .inl (.ended (u := quantize s) (.of_status_eq rfl))
  | dequant => exact .inl (goesOn_dequant s)

/-! ### The accord -/

/-- BUSY in accord with PCMD, and ECODE with ERR. -/
structure State.InAccord (s : State) : Prop where
  latch : s.LatchOk
  error : s.ErrorOk

namespace State.InAccord

/-- An update of neither STATUS nor the latch. -/
theorem of_eq {s t : State} (h : s.InAccord) (hstatus : t.status = s.status) (hpcmd : t.pcmd = s.pcmd)
    (hlast : t.lastCmd = s.lastCmd) : t.InAccord := by
  obtain ⟨hlatch, herror⟩ := h
  refine ⟨?_, ?_⟩
  · rwa [State.LatchOk, hstatus, hpcmd, hlast]
  · rwa [State.ErrorOk, hstatus]

end State.InAccord

/-- R402: a signalled code is not 0, so ECODE is not 0 once ERR is set. -/
theorem errorOk_signal {s : State} (h : s.ErrorOk) {code : ErrCode} (hcode : code ≠ .none) : (signal code s).ErrorOk := by
  rw [State.ErrorOk, signal_status, record_err, Status.record]
  split
  · next herr => exact ⟨nofun, fun hnone => absurd (herr.symm.trans (h.2 hnone)) (by decide)⟩
  · exact ⟨nofun, fun hnone => absurd hnone hcode⟩

/-- R405: a completion empties the latch. -/
theorem latchOk_ended (u : State) : (ended u).LatchOk := ⟨rfl, nofun⟩

/-- R402, R405: a command that goes on ends in accord, whatever the latch was. -/
theorem GoesOn.inAccord {s t : State} (h : GoesOn s (.next t)) (hs : s.ErrorOk) : t.InAccord := by
  obtain ⟨u, ⟨herr, hecode⟩, hend⟩ := h
  have hu : u.ErrorOk := by rwa [State.ErrorOk, herr, hecode]
  rcases hend with hend | ⟨code, hcode, hend⟩ <;> obtain rfl := Host.Outcome.next.inj hend
  · exact ⟨latchOk_ended u, hu⟩
  · have hflag := errorOk_signal hu hcode
    rw [signal_eq_flagged] at hflag
    exact ⟨latchOk_ended _, hflag⟩

theorem inAccord_exec {i : Instr} {s t : State} (hs : s.ErrorOk) (h : exec i s = .next t) : t.InAccord := by
  rcases goesOn_exec i s with hgoes | ⟨hfault, -⟩
  · rw [h] at hgoes
    exact hgoes.inAccord hs
  · cases h.symm.trans hfault

/-! ### Host events -/

section
variable {s : State} (h : s.InAccord)
include h

theorem inAccord_signal {code : ErrCode} (hcode : code ≠ .none) : (signal code s).InAccord := by
  obtain ⟨hlatch, herror⟩ := h
  refine ⟨?_, errorOk_signal herror hcode⟩
  rwa [State.LatchOk, signal_status, record_busy]

/-- R403, R404: only a word that decodes is latched. -/
theorem inAccord_issue (w : Word) : (issue w s).InAccord := by
  rcases issue_cases w s with ⟨-, hw⟩ | ⟨-, -, hw⟩ | ⟨-, hdec, hw⟩ <;> rw [hw]
  · exact inAccord_signal h (by decide)
  · exact inAccord_signal h (by decide)
  · refine ⟨⟨rfl, fun w' hw' => ?_⟩, h.error⟩
    obtain rfl : w = w' := Option.some.inj hw'
    exact ⟨legalWord_iff_decodes.2 hdec, rfl⟩

/-- R407: ERR and ECODE are cleared together, and BUSY is not cleared. -/
theorem inAccord_clear (v : Word) : { s with status := s.status.clear v }.InAccord := by
  obtain ⟨hlatch, herror⟩ := h
  refine ⟨hlatch, ?_⟩
  rw [State.ErrorOk] at herror ⊢
  simp only [Status.clear]
  cases v.getLsbD 2
  · simpa using herror
  · simp

theorem inAccord_writeReg (r : Reg) (v : Word) : (writeReg r v s).InAccord := by
  cases r
  case cmd => exact inAccord_issue h v
  case status => exact inAccord_clear h v
  all_goals exact h.of_eq rfl rfl rfl

theorem inAccord_hostRead (size : Nat) (o : BitVec 21) : (hostRead size o s).InAccord := by
  rcases hostRead_cases size o s with hr | ⟨t, -, -, hr⟩ <;> rw [hr]
  · exact (inAccord_signal h (code := .access) (by decide)).of_eq rfl rfl rfl
  · exact h.of_eq rfl rfl rfl

theorem inAccord_hostWrite (size : Nat) (o : BitVec 21) (v : Word) : (hostWrite size o v s).InAccord := by
  rcases hostWrite_cases size o v s with hw | ⟨t, -, -, hw⟩ <;> rw [hw]
  · exact inAccord_signal h (by decide)
  · cases t with
    | reg r => exact inAccord_writeReg h r v
    | ram a => exact h.of_eq rfl rfl rfl
    | count i => exact h

theorem inAccord_perform (e : HostEvent) : (perform e s).InAccord := by
  cases e with
  | read size o => exact inAccord_hostRead h size o
  | write size o v => exact inAccord_hostWrite h size o v
  | reset => exact ⟨⟨rfl, nofun⟩, ⟨fun _ => rfl, fun _ => rfl⟩⟩

/-- R402 to R407: every step keeps the accord. -/
theorem inAccord_step {t : State} (ht : step s = .next t) : t.InAccord := by
  rcases step_cases ht with ⟨w, i, -, -, -, hexec⟩ | ⟨-, ⟨-, rfl⟩ | ⟨e, es, -, rfl⟩⟩
  · exact inAccord_exec h.error hexec
  · exact h.of_eq rfl rfl rfl
  · have htaken : { tick s with host := es }.InAccord := h.of_eq rfl rfl rfl
    exact inAccord_perform htaken e

end

end Sys2Proof.Machine
end

