-- ==== Sys2Proof/Proofs/SystemCommand.lean ====
section
/-! The system command (45_system.md R390; O20), and that no step of a safe state stops (45_system.md R391; 60_exceptions.md
R400, R413; O59): the latch holds a word that decodes, and the coder's bounds keep the range from zero. -/

namespace Sys2Proof.Machine

open Sys2Proof.Claims

/-- Settles O20: the pseudocode of NOP is empty, and its end is completion. -/
theorem nopOnlyCompletes : Obligations.NopOnlyCompletes := ⟨decode_encode .nop, finish_ok⟩

/-! ### Progress -/

/-- R317 (a): no command stops in a coder within its bounds. -/
theorem exec_next {s : State} (hok : s.rc.Ok) (i : Instr) : ∃ t, exec i s = .next t := by
  rcases goesOn_exec i s with ⟨u, -, hend | ⟨code, -, hend⟩⟩ | ⟨-, hbad⟩
  · exact ⟨_, hend⟩
  · exact ⟨_, hend⟩
  · exact absurd hok hbad

/-- The engine finds no word but the one in PCMD. -/
theorem pcmd_of_fetch {s : State} {w : Word} (h : fetch s = some w) : s.pcmd = some w := by
  rw [fetch] at h
  split at h
  · exact h
  · cases h

/-- R403: a latch in accord holds a command. -/
theorem State.LatchOk.decodes {s : State} (h : s.LatchOk) {w : Word} (hw : s.pcmd = some w) : ∃ i, decode w = .ok i := by
  obtain ⟨-, hlegal⟩ := h
  obtain ⟨hword, -⟩ := hlegal w hw
  exact legalWord_iff_decodes.1 hword

theorem step_next {s : State} (hlatch : s.LatchOk) (hok : s.rc.Ok) : ∃ t, step s = .next t := by
  rw [step]
  cases hf : fetch s with
  | none => exact ⟨_, rfl⟩
  | some w =>
    obtain ⟨i, hi⟩ := hlatch.decodes (pcmd_of_fetch hf)
    simp only [hi]
    exact exec_next hok i

/-- Settles O59: the latch and the coder let the step go on, and each part of the invariant is kept. -/
theorem safeStatesNeverStop : Obligations.SafeStatesNeverStop := by
  rintro s ⟨hcaps, hmem, hlatch, herror, hok⟩
  obtain ⟨t, ht⟩ := step_next hlatch hok
  obtain ⟨hcaps', hmem'⟩ := stepStoresOnlyInRam s t hcaps hmem ht
  obtain ⟨hlatch', herror'⟩ := inAccord_step ⟨hlatch, herror⟩ ht
  exact ⟨t, ht, hcaps', hmem', hlatch', herror', stepKeepsTheCoder s t hok ht⟩

end Sys2Proof.Machine
end

