-- ==== Sys2Proof/Proofs/CommandIssue.lean ====
section
/-! The shape of a step (20_memory.md R111; 60_exceptions.md R405; O5), and how errors and commands enter STATUS: `signal`
(R402; O13), the issue of a command (R403, R404; O6), and the host's write of STATUS (R407; O12). -/

namespace Sys2Proof.Machine

open Sys2Proof.Claims

/-! ### The shape of a step -/

/-- R405: the pending command, once its latency has passed. -/
theorem step_of_due {s : State} {w : Word} {i : Instr} (hdec : decode w = .ok i) (hpcmd : s.pcmd = some w)
    (hdelay : s.delay = 0) : step s = exec i s := by
  have hfetch : fetch s = some w := by rw [fetch, if_pos hdelay, hpcmd]
  simp only [step, hfetch, hdec]

/-- R111: with no completion due, a step belongs to the inputs. -/
theorem step_of_not_due {s : State} (h : s.pcmd = none ∨ s.delay ≠ 0) : step s = .next (hostStep (tick s)) := by
  have hfetch : fetch s = none := by
    rw [fetch]
    split
    · next hdelay => exact h.resolve_right (not_not_intro hdelay)
    · rfl
  simp only [step, hfetch]

theorem tableWord_toNat (w : Word) : tableWord 32 w.toNat = w := by
  rw [tableWord, Nat.mod_eq_of_lt w.isLt, BitVec.ofNat_toNat, BitVec.setWidth_eq]

/-- Settles O5: the latch either holds a command that is due or leaves the step to the inputs. -/
theorem stepCompletesTheCommandOrTakesOneEvent : Obligations.StepCompletesTheCommandOrTakesOneEvent := by
  refine ⟨fun s w i => step_of_due, fun s w i hdec => ?_, fun s h => ?_⟩
  · rw [State.withFetchWord, tableWord_toNat]
    exact ⟨rfl, step_of_due hdec rfl rfl⟩
  · exact step_of_not_due h

/-! ### Errors -/

/-- R402: with ERR set, a later error is lost. -/
theorem signal_of_err {s : State} (code : ErrCode) (h : s.status.err = true) : signal code s = s := by
  rw [signal, Status.record, if_pos h]

theorem signal_of_not_err {s : State} (code : ErrCode) (h : s.status.err = false) :
    signal code s = { s with status := { s.status with err := true, ecode := code } } := by
  rw [signal, Status.record, if_neg (ne_true_of_eq_false h)]

/-- Settles O13: `signal` by ERR, which it leaves set. -/
theorem firstErrorIsKept : Obligations.FirstErrorIsKept := fun s c d =>
  ⟨signal_of_err c, signal_of_not_err c, signal_of_err d (record_err s.status c), finish_failed c s⟩

/-! ### The issue of a command -/

/-- R403: BUSY comes before every other check. -/
theorem issue_of_busy {s : State} (w : Word) (hb : s.status.busy = true) : issue w s = signal .busy s := by
  rw [issue, if_pos hb]

/-- R404: a legal word is accepted by a block that is not busy. -/
theorem issue_of_legalWord {s : State} {w : Word} (hb : s.status.busy = false) (hw : legalWord w = true) :
    issue w s = accept w s := by
  obtain ⟨i, hi⟩ := legalWord_iff_decodes.1 hw
  simp only [issue, hb, hi, Bool.false_eq_true, if_false]

/-- R104: CMD may be written at any time. -/
theorem hostWrite_cmd (w : Word) (s : State) : hostWrite 4 0x008#21 w s = issue w s :=
  hostWrite_reg .cmd w (.inr rfl)

/-- Settles O6: a write of CMD is an issue, in each of its three cases. -/
theorem commandIssueOrder : Obligations.CommandIssueOrder := by
  intro s w
  rw [hostWrite_cmd]
  refine ⟨fun hb => ?_, issue_of_not_legalWord, fun hb hw => ⟨accept w s, issue_of_legalWord hb hw, rfl⟩⟩
  rw [issue_of_busy w hb, signal_eq_flagged]

/-! ### The write of STATUS -/

/-- R104: STATUS may be written at any time. -/
theorem hostWrite_status (v : Word) (s : State) :
    hostWrite 4 0x00C#21 v s = { s with status := s.status.clear v } :=
  hostWrite_reg .status v (.inr rfl)

/-- Settles O12: the bits written as 1 clear their fields, and ECODE goes with ERR. -/
theorem statusWritesClearByOnes : Obligations.StatusWritesClearByOnes := fun s v =>
  ⟨_, hostWrite_status v s, rfl, rfl, rfl, rfl, fun h => if_pos h, fun h => if_neg (ne_true_of_eq_false h), rfl, rfl⟩

end Sys2Proof.Machine
end

