-- ==== Sys2Proof/Proofs/Completion.lean ====
section
/-! The completion of commands (60_exceptions.md R405, R413): every command that answers a next state has completed (O34),
every step keeps STATUS in accord with the latch (O57), and a pending command reaches its completion, since no event short
of a reset touches the latch of a busy block (O60). -/

namespace Sys2Proof.Machine

open Sys2Proof.Claims

/-- Settles O34: every command that does not stop the machine ends by completion, at most with one more error. -/
theorem everyCompletionSetsDone : Obligations.EveryCompletionSetsDone := by
  intro i s t h
  rcases goesOn_exec i s with ⟨u, ⟨herr, hecode⟩, hend⟩ | ⟨hfault, -⟩
  · rw [h] at hend
    rcases hend with hend | ⟨code, -, hend⟩ <;> obtain rfl := Host.Outcome.next.inj hend
    · exact ⟨rfl, rfl, rfl, fun hs => ⟨herr.trans hs, hecode⟩⟩
    · exact ⟨rfl, rfl, rfl, fun hs => ⟨rfl, (if_pos (herr.trans hs)).trans hecode⟩⟩
  · cases h.symm.trans hfault

/-- Settles O57: the two parts of the accord, which every step keeps together. -/
theorem stepKeepsStatusInAccord : Obligations.StepKeepsStatusInAccord := by
  intro s t hlatch herror h
  obtain ⟨hlatch', herror'⟩ := inAccord_step ⟨hlatch, herror⟩ h
  exact ⟨hlatch', herror'⟩

/-! ### Events while a command is pending -/

/-- The latch, its latency and the events still to come are as they were. -/
def SamePending (s t : State) : Prop := t.pcmd = s.pcmd ∧ t.delay = s.delay ∧ t.host = s.host

theorem samePending_hostRead (size : Nat) (o : BitVec 21) (s : State) : SamePending s (hostRead size o s) := by
  rcases hostRead_cases size o s with h | ⟨t, -, -, h⟩ <;> rw [h] <;> exact ⟨rfl, rfl, rfl⟩

section
variable {s : State} (hb : s.status.busy = true)
include hb

/-- R104, R403: of the writes a busy block admits, that of CMD is refused at issue and no other reaches the latch. -/
theorem samePending_writeTarget {t : Target} (ht : writeWhileBusy t = true) (v : Word) :
    SamePending s (writeTarget t v s) := by
  cases t with
  | reg r =>
    cases r
    case cmd =>
      rw [writeTarget, writeReg, issue_of_busy v hb]
      exact ⟨rfl, rfl, rfl⟩
    all_goals exact ⟨rfl, rfl, rfl⟩
  | ram a | count a => cases ht

theorem samePending_hostWrite (size : Nat) (o : BitVec 21) (v : Word) : SamePending s (hostWrite size o v s) := by
  rcases hostWrite_cases size o v s with h | ⟨t, -, hadmit, h⟩ <;> rw [h]
  · exact ⟨rfl, rfl, rfl⟩
  · exact samePending_writeTarget hb (hadmit.resolve_left (ne_false_of_eq_true hb)) v

theorem samePending_perform {e : HostEvent} (he : e ≠ .reset) : SamePending s (perform e s) := by
  cases e with
  | read size o => exact samePending_hostRead size o s
  | write size o v => exact samePending_hostWrite hb size o v
  | reset => exact absurd rfl he

/-- R111, R413: the next event leaves the queue; the latch and its latency stay. -/
theorem hostStep_of_busy (hhead : s.host.head? ≠ some .reset) :
    (hostStep s).pcmd = s.pcmd ∧ (hostStep s).delay = s.delay ∧ (hostStep s).host = s.host.tail := by
  rw [hostStep]
  cases hhost : s.host with
  | nil => exact ⟨rfl, rfl, hhost⟩
  | cons e es =>
    have he : e ≠ .reset := fun h => hhead (by rw [hhost, h, List.head?_cons])
    exact samePending_perform (s := { s with host := es }) hb he

end

/-! ### The run up to the completion -/

/-- An event absent from the first `n + 1` neither comes first nor is among the next `n`. -/
theorem head?_tail_of_not_mem_take {e : HostEvent} {es : List HostEvent} {n : Nat} (h : e ∉ es.take (n + 1)) :
    es.head? ≠ some e ∧ e ∉ es.tail.take n := by
  cases es with
  | nil => simp
  | cons d ds => simpa [eq_comm] using h

/-- A command is pending in a safe state, `n` steps before its completion, and no reset event comes first. -/
structure PendingFor (w : Word) (n : Nat) (s : State) : Prop where
  safe : s.Safe
  pcmd : s.pcmd = some w
  delay : s.delay = n
  noReset : HostEvent.reset ∉ s.host.take n

namespace PendingFor

variable {w : Word} {n : Nat} {s : State}

theorem busy (h : PendingFor w n s) : s.status.busy = true := by
  obtain ⟨-, -, ⟨hbusy, -⟩, -, -⟩ := h.safe
  rw [hbusy, h.pcmd, Option.isSome_some]

/-- R461: each step before the completion brings it one step nearer. -/
theorem step (h : PendingFor w (n + 1) s) : ∃ u, Machine.step s = .next u ∧ PendingFor w n u := by
  obtain ⟨hhead, htail⟩ := head?_tail_of_not_mem_take h.noReset
  have hdelay : s.delay ≠ 0 := h.delay ▸ n.succ_ne_zero
  obtain ⟨hpcmd', hdelay', hhost'⟩ := hostStep_of_busy (s := tick s) h.busy hhead
  obtain ⟨u, hu, hsafe⟩ := safeStatesNeverStop s h.safe
  obtain rfl : hostStep (tick s) = u := Host.Outcome.next.inj ((step_of_not_due (.inr hdelay)).symm.trans hu)
  refine ⟨_, hu, hsafe, hpcmd'.trans h.pcmd, ?_, ?_⟩
  · rw [hdelay', tick_delay, h.delay, Nat.add_sub_cancel]
  · rwa [hhost', tick_host]

/-- R413: the run up to the step that completes the command. -/
theorem run (h : PendingFor w n s) : ∃ t, runsTo n s t ∧ PendingFor w 0 t := by
  induction n generalizing s with
  | zero => exact ⟨s, rfl, h⟩
  | succ n ih =>
    obtain ⟨u, hstep, hu⟩ := h.step
    obtain ⟨t, hrun, ht⟩ := ih hu
    exact ⟨t, ⟨u, hstep, hrun⟩, ht⟩

/-- R405: a command that is due completes in the next step. -/
theorem completes (h : PendingFor w 0 s) :
    ∃ u, Machine.step s = .next u ∧ u.pcmd = none ∧ u.status.busy = false ∧ u.status.done = true := by
  obtain ⟨-, -, hlatch, -, hok⟩ := h.safe
  obtain ⟨i, hi⟩ := hlatch.decodes h.pcmd
  obtain ⟨u, hu⟩ := exec_next hok i
  obtain ⟨hbusy, hdone, hpcmd, -⟩ := everyCompletionSetsDone i s u hu
  exact ⟨u, (step_of_due hi h.pcmd h.delay).trans hu, hpcmd, hbusy, hdone⟩

end PendingFor

/-- Settles O60: the run up to the completion, and the step that is it. -/
theorem pendingCommandCompletes : Obligations.PendingCommandCompletes := by
  intro s w hsafe hpcmd hnoReset
  obtain ⟨t, hrun, ht⟩ := PendingFor.run ⟨hsafe, hpcmd, rfl, hnoReset⟩
  obtain ⟨u, hstep, hdone⟩ := ht.completes
  exact ⟨t, u, hrun, ht.pcmd, ht.delay, ht.busy, hstep, hdone⟩

end Sys2Proof.Machine
end

