-- ==== Sys2Proof/Proofs/MemoryForm.lean ====
section
/-! The canonical form of memory (O55; log entry 3): a store keeps it and a reset event leaves no cell. Unlike the bound to
the RAM windows (O56) it asks nothing of CAPS. -/

namespace Sys2Proof.Machine

theorem wf_hostWrite {s : State} (hs : s.mem.wf) (size : Nat) (o : BitVec 21) (v : Word) :
    (hostWrite size o v s).mem.wf := by
  rcases hostWrite_cases size o v s with h | ⟨t, -, -, h⟩ <;> rw [h]
  · exact (storesInRam_signal .access s).wf hs
  · cases t with
    | reg r => exact (storesInRam_writeReg r v s).wf hs
    | ram a => exact storeWords_wf hs a [v]
    | count i => exact hs

theorem wf_perform {s : State} (hs : s.mem.wf) (e : HostEvent) : (perform e s).mem.wf := by
  cases e with
  | read size o => exact (storesInRam_hostRead size o s).wf hs
  | write size o v => exact wf_hostWrite hs size o v
  | reset => exact (storesInRam_resetBlock s).wf hs

/-- Settles O55: a completion stores by its command, an event by its access, and an idle step leaves memory alone. -/
theorem stepKeepsMemoryCanonical : Obligations.StepKeepsMemoryCanonical := by
  intro s t hs h
  rcases step_cases h with ⟨w, i, -, -, -, hexec⟩ | ⟨-, ⟨-, rfl⟩ | ⟨e, es, -, rfl⟩⟩
  · exact (storesInRam_exec hexec).wf hs
  · exact hs
  · exact wf_perform (s := { tick s with host := es }) hs e

end Sys2Proof.Machine
end

