-- ==== Sys2Proof/Proofs/ResetEvent.lean ====
section
/-! A reset event (70_reset_and_hazards.md R450, R452; O18): the registers read as after reset, and every RAM byte is a new
draw (log entry 3). -/

namespace Sys2Proof.Machine

open Sys2Proof.Claims

/-- R111: an event at the head of the queue is performed when no completion is due. -/
theorem step_of_event {s : State} {e : HostEvent} {es : List HostEvent} (hhost : s.host = e :: es)
    (h : s.pcmd = none ∨ s.delay ≠ 0) : step s = .next (perform e { tick s with host := es }) := by
  rw [step_of_not_due h, hostStep, tick_host, hhost]

/-- R450: CAPS alone keeps its value. -/
theorem readReg_resetBlock {r : Reg} (hr : r ≠ .caps) (s : State) : readReg r (resetBlock s) = readReg r State.reset := by
  cases r
  case caps => exact absurd rfl hr
  all_goals rfl

/-- R450: the host reads the reset value of every register but CAPS. -/
theorem readData_hostRead_resetBlock (s : State) {p : BitVec 21 × Word} (hp : p ∈ resetTable) (hcaps : p.1 ≠ 0x014#21) :
    (hostRead 4 p.1 (resetBlock s)).readData = p.2 := by
  rw [resetTable_eq, List.mem_map] at hp
  obtain ⟨r, -, rfl⟩ := hp
  have hr : r ≠ .caps := fun h => hcaps (h ▸ rfl)
  exact (readData_hostRead_reg r (.inl rfl)).trans (readReg_resetBlock hr s)

/-- R452: no byte keeps its value. -/
theorem byteAt_resetBlock (s : State) (a : Nat) : (resetBlock s).byteAt a = Config.resetRam (s.resets + 1) a := rfl

/-- Settles O18: the step is the reset event, whatever command was pending. -/
theorem resetAbandonsThePendingCommand : Obligations.ResetAbandonsThePendingCommand := by
  intro s es hhost hpending
  exact ⟨resetBlock { tick s with host := es }, step_of_event hhost hpending, rfl, rfl, rfl, rfl, rfl, rfl, rfl,
    fun _ => readData_hostRead_resetBlock _, byteAt_resetBlock _⟩

end Sys2Proof.Machine
end
